-- ==== Sys2Proof/Word.lean ====
section
/-! DEFINITION. The word types of FEC-1 CORE: the 64-bit value of the host port, the byte, and the
machine word of `B` bits (00_scope.md R7, R11; 10_state.md R23). -/

namespace Sys2Proof

/-- A value on the host port: every register is 64 bits wide there (10_state.md R23), and every
element crosses the port as a 64-bit value (10_state.md R64). -/
abbrev Word64 := BitVec 64

/-- A byte of a byte space, and the opcode byte of a command word. -/
abbrev Byte := BitVec 8

/-- A machine word W of the interleaver: `B` bits, `B` a structural parameter (00_scope.md R7). -/
abbrev Word (B : Nat) := BitVec B

end Sys2Proof
end

