-- ==== Sys2Proof/Config.lean ====
section
/-! DEFINITION. What one FEC-1 CORE fixes: its structural parameters (00_scope.md R7), and the free
value that an unwritten element reads as (10_state.md R65). -/

namespace Sys2Proof

/-- The structural parameters of one block (00_scope.md R7): "fixed for one instance of the
hardware and are not changed by any command or reset". -/
structure Params where
  /-- `B`, width in bits of a machine word. -/
  b : Nat
  /-- `LLRW`, width in bits of an LLR. -/
  llrw : Nat
  /-- `PM_MAX`, largest puncturing-matrix length. -/
  pmMax : Nat
  /-- `IW_CAP`, words in buffer IW. -/
  iwCap : Nat
  /-- `IB_CAP`, bytes in buffer IB. -/
  ibCap : Nat
  /-- `LOGN_MAX`, largest log2 of the polar block size. -/
  lognMax : Nat
  /-- `GM_MAX`, largest field exponent. -/
  gmMax : Nat
  /-- `RB_CAP`, bytes in buffer RB. -/
  rbCap : Nat
deriving DecidableEq, Repr

/-- The defaults of 00_scope.md R7. -/
def Params.default : Params :=
  { b := 64, llrw := 32, pmMax := 64, iwCap := 1024, ibCap := 16384, lognMax := 10, gmMax := 8,
    rbCap := 255 }

/-- `MAXL = 2^(LLRW−1) − 1` (00_scope.md R16). -/
def Params.maxl (p : Params) : Nat := 2 ^ (p.llrw - 1) - 1

/-- The free values (10_state.md R65): the `n`-th read of an unwritten element draws the `n`-th of
them. It has no body, so a proof holds whatever the values are. A product that the
spec does not state draws one too (log entry 16). DESIGN CHOICE (log entry 3), safe. -/
opaque Config.freeElem : Nat → Word64

end Sys2Proof
end

