-- ==== Sys2Proof/Syntax.lean ====
section
/-! DEFINITION. The fifteen commands of FEC-1 CORE (30_encoding.md R93), one constructor per row of
the opcode table. No command has an operand field (30_encoding.md R90, R92). -/

namespace Sys2Proof

/-- The commands, in the order of 30_encoding.md R93. -/
inductive Instr where
  | nop       -- 0x00 NOP
  | sreset    -- 0x01 SRESET
  | ilvCfg    -- 0x10 ILV_CFG
  | ilvFwd    -- 0x11 ILV_FWD
  | ilvRev    -- 0x12 ILV_REV
  | pcCfg     -- 0x20 PC_CFG
  | penc      -- 0x21 PENC
  | pdecLoad  -- 0x22 PDEC_LOAD
  | pdecRun   -- 0x23 PDEC_RUN
  | pdec      -- 0x24 PDEC
  | rsCfg     -- 0x30 RS_CFG
  | gfMul     -- 0x31 GF_MUL
  | rsEnc     -- 0x32 RS_ENC
  | rsCheck   -- 0x33 RS_CHECK
  | rsDec     -- 0x34 RS_DEC
deriving DecidableEq, Repr

end Sys2Proof
end

