-- ==== Sys2Proof/WellFormed.lean ====
section
/-! DEFINITION. Well-formedness: of the structural parameters (00_scope.md R7), of a value written to
CMD (30_encoding.md R90, R91), and of a command (no field to check, 30_encoding.md R92). -/

namespace Sys2Proof

/-- `x` is a power of two: the test of 40_bitutil.md R115. -/
def isPowerOfTwo (x : Nat) : Bool := x != 0 && x &&& (x - 1) == 0

/-- The constraints column of 00_scope.md R7, one conjunct a parameter, and that the capacities fit
their fields of CAP1 (10_state.md R28; DEDUCED, log entry 9). -/
def Params.wf (p : Params) : Bool :=
  (isPowerOfTwo p.b && decide (8 ≤ p.b) && decide (p.b ≤ 64)) &&
  (decide (8 ≤ p.llrw) && decide (p.llrw ≤ 64)) &&
  (decide (2 ≤ p.pmMax) && decide (p.pmMax ≤ 64)) &&
  decide (2 ≤ p.iwCap) &&
  decide (1 ≤ p.ibCap) &&
  (decide (3 ≤ p.lognMax) && decide (p.lognMax ≤ min 32 (p.llrw - 5))) &&
  (decide (2 ≤ p.gmMax) && decide (p.gmMax ≤ 8)) &&
  decide (3 ≤ p.rbCap) &&
  (decide (p.iwCap < 2 ^ 24) && decide (p.ibCap < 2 ^ 24) && decide (p.rbCap < 2 ^ 16))

/-- The opcodes of 30_encoding.md R93. -/
def assignedOpcodes : List Byte :=
  [0x00, 0x01, 0x10, 0x11, 0x12, 0x20, 0x21, 0x22, 0x23, 0x24, 0x30, 0x31, 0x32, 0x33, 0x34]

/-- The three checks of 30_encoding.md R91 on a value written to CMD. -/
def cmdValueWf (v : Word64) : Bool :=
  v.extractLsb' 32 32 == 0#32 && v.extractLsb' 8 24 == 0#24 &&
    assignedOpcodes.contains (v.setWidth 8)

/-- Every command is well-formed: "No bit of a command word is an operand" (30_encoding.md R92). -/
def Instr.wf : Instr → Bool
  | .nop => true
  | .sreset => true
  | .ilvCfg => true
  | .ilvFwd => true
  | .ilvRev => true
  | .pcCfg => true
  | .penc => true
  | .pdecLoad => true
  | .pdecRun => true
  | .pdec => true
  | .rsCfg => true
  | .gfMul => true
  | .rsEnc => true
  | .rsCheck => true
  | .rsDec => true

end Sys2Proof
end

