-- ==== Sys2Proof/Decode.lean ====
section
/-! DEFINITION. The command decoder and encoder (30_encoding.md R90, R91, R93, R94): total on every
64-bit value written to CMD, refusing by name. -/

namespace Sys2Proof

/-- Why a value written to CMD is no command word (30_encoding.md R91). Each raises
`Fault(ILLEGAL_CMD, 0)` in the block (60_exceptions.md R340). -/
inductive DecodeError where
  /-- Bits 63:32 of the written value are not zero. -/
  | highHalfNonzero
  /-- The field `ZERO`, bits 31:8, is not zero. -/
  | zeroFieldNonzero
  /-- The opcode byte is reserved (30_encoding.md R94). -/
  | reservedOpcode
deriving DecidableEq, Repr

/-- The command an opcode byte selects (30_encoding.md R93): the decoder matches the whole byte. -/
def decodeOpcode : Byte → Option Instr
  | 0x00 => some .nop
  | 0x01 => some .sreset
  | 0x10 => some .ilvCfg
  | 0x11 => some .ilvFwd
  | 0x12 => some .ilvRev
  | 0x20 => some .pcCfg
  | 0x21 => some .penc
  | 0x22 => some .pdecLoad
  | 0x23 => some .pdecRun
  | 0x24 => some .pdec
  | 0x30 => some .rsCfg
  | 0x31 => some .gfMul
  | 0x32 => some .rsEnc
  | 0x33 => some .rsCheck
  | 0x34 => some .rsDec
  | _ => none

/-- Decode a value written to CMD (30_encoding.md R91): bits 63:32 and the field `ZERO` must be zero
and the opcode assigned. -/
def decode (v : Word64) : Except DecodeError Instr :=
  if v.extractLsb' 32 32 ≠ 0#32 then .error .highHalfNonzero
  else if v.extractLsb' 8 24 ≠ 0#24 then .error .zeroFieldNonzero
  else
    match decodeOpcode (v.setWidth 8) with
    | some i => .ok i
    | none => .error .reservedOpcode

/-- The opcode of a command, the field `OP` of its word (30_encoding.md R93). -/
def opcode : Instr → Byte
  | .nop => 0x00
  | .sreset => 0x01
  | .ilvCfg => 0x10
  | .ilvFwd => 0x11
  | .ilvRev => 0x12
  | .pcCfg => 0x20
  | .penc => 0x21
  | .pdecLoad => 0x22
  | .pdecRun => 0x23
  | .pdec => 0x24
  | .rsCfg => 0x30
  | .gfMul => 0x31
  | .rsEnc => 0x32
  | .rsCheck => 0x33
  | .rsDec => 0x34

/-- The 32-bit command word of a command, format C0 (30_encoding.md R90). -/
def encode (i : Instr) : BitVec 32 := 0#24 ++ opcode i

/-- The instruction the decoder reads from a row's word of `nbits` bits: the word is the low part of
the value written to CMD, every higher bit 0 (10_state.md R27). -/
def decodeTableWord (nbits w : Nat) : Option Instr :=
  (decode (BitVec.ofNat 64 (w % 2 ^ nbits))).toOption

/-! The words of 30_encoding.md R93, written out from its column `match`. -/

theorem decode_word_nop : decode 0x00000000 = .ok .nop := by decide
theorem decode_word_sreset : decode 0x00000001 = .ok .sreset := by decide
theorem decode_word_ilvCfg : decode 0x00000010 = .ok .ilvCfg := by decide
theorem decode_word_ilvFwd : decode 0x00000011 = .ok .ilvFwd := by decide
theorem decode_word_ilvRev : decode 0x00000012 = .ok .ilvRev := by decide
theorem decode_word_pcCfg : decode 0x00000020 = .ok .pcCfg := by decide
theorem decode_word_penc : decode 0x00000021 = .ok .penc := by decide
theorem decode_word_pdecLoad : decode 0x00000022 = .ok .pdecLoad := by decide
theorem decode_word_pdecRun : decode 0x00000023 = .ok .pdecRun := by decide
theorem decode_word_pdec : decode 0x00000024 = .ok .pdec := by decide
theorem decode_word_rsCfg : decode 0x00000030 = .ok .rsCfg := by decide
theorem decode_word_gfMul : decode 0x00000031 = .ok .gfMul := by decide
theorem decode_word_rsEnc : decode 0x00000032 = .ok .rsEnc := by decide
theorem decode_word_rsCheck : decode 0x00000033 = .ok .rsCheck := by decide
theorem decode_word_rsDec : decode 0x00000034 = .ok .rsDec := by decide

end Sys2Proof
end

