-- ==== Sys2Proof/Machine/State.lean ====
section
/-! DEFINITION. The state of FEC-1 CORE (10_state.md R22): the registers of R23, the seventeen spaces
of R50, and the model's own fields (structural parameters, pending host inputs, returned values,
count of free values drawn). -/

namespace Sys2Proof.Machine

/-- The registers that hold state (10_state.md R23), by their names there, 64 bits each (R29: `RW`
registers store all 64 bits as written). ID, CMD, CAP0 and CAP1 hold none (R24, R27, R28). -/
structure Regs where
  status : Word64
  fault : Word64
  ilvK : Word64
  ilvL : Word64
  ilvPm : Word64
  ilvBs : Word64
  ilvC : Word64
  ilvOnes : Word64
  ilvNin : Word64
  ilvNout : Word64
  ilvNiter : Word64
  ilvInlen : Word64
  ilvOutlen : Word64
  pcN : Word64
  pcM : Word64
  pcK : Word64
  pcSnr : Word64
  pcLs : Word64
  pcLogn : Word64
  pcInitshort : Word64
  pcNnodes : Word64
  rsGm : Word64
  rsPrim : Word64
  rsRp : Word64
  rsRn : Word64
  gfA : Word64
  gfB : Word64
  gfR : Word64
  rsMaxsyn : Word64
  rsDecstat : Word64
deriving DecidableEq, Repr

/-- Every register at its reset value (10_state.md R23, 70_reset_and_hazards.md R371): 0, but
PC_SNR = −2 and PC_LS = 1. -/
def Regs.reset : Regs :=
  { status := 0, fault := 0,
    ilvK := 0, ilvL := 0, ilvPm := 0, ilvBs := 0,
    ilvC := 0, ilvOnes := 0, ilvNin := 0, ilvNout := 0, ilvNiter := 0, ilvInlen := 0,
    ilvOutlen := 0,
    pcN := 0, pcM := 0, pcK := 0, pcSnr := 0xFFFFFFFFFFFFFFFE, pcLs := 1,
    pcLogn := 0, pcInitshort := 0, pcNnodes := 0,
    rsGm := 0, rsPrim := 0, rsRp := 0, rsRn := 0,
    gfA := 0, gfB := 0, gfR := 0, rsMaxsyn := 0, rsDecstat := 0 }

/-- The written elements of one space: pairs (element index, value), indices strictly rising. The
value is the element zero-extended to 64 bits (log entry 6). An element that is not listed has not
been written since reset and is unspecified (10_state.md R65). -/
abbrev Cells := List (Nat × Word64)

/-- The seventeen spaces (10_state.md R50), by their names there (`dout` is DO). -/
structure Memory where
  iw : Cells
  ib : Cells
  isch : Cells
  pi : Cells
  po : Cells
  di : Cells
  llr : Cells
  beta : Cells
  dout : Cells
  bhat : Cells
  didx : Cells
  tree : Cells
  rb : Cells
  syn : Cells
  glog : Cells
  galog : Cells
  gen : Cells
deriving DecidableEq, Repr

/-- Every element of every space unspecified (70_reset_and_hazards.md R371). -/
def Memory.unspecified : Memory :=
  { iw := [], ib := [], isch := [], pi := [], po := [], di := [], llr := [], beta := [], dout := [],
    bhat := [], didx := [], tree := [], rb := [], syn := [], glog := [], galog := [], gen := [] }

/-- What reaches the block from outside (70_reset_and_hazards.md R384): the four port accesses
(20_memory.md R70) with any arguments, and the hardware reset (70_reset_and_hazards.md R370).
A register number is 8 bits (20_memory.md R71). -/
inductive HostInput where
  | regRead (no : Byte)
  | regWrite (no : Byte) (v : Word64)
  | bufRead (space index : Nat)
  | bufWrite (space index : Nat) (v : Word64)
  | hwReset
deriving DecidableEq, Repr

/-- Why a step of the MODEL stops. The block's own faults (60_exceptions.md R330) are no stop: they
are next states with FAULT written (R333). -/
inductive Fault where
  /-- Raised by PDEC_RUN and PDEC when the records TREE[0 .. PC_NNODES) are not the pre-order vector of
  a tree of depth PC_LOGN. Only PC_CFG writes TREE, always as such a vector, and the decode commands
  run only while PC_VALID is 1, so no run from reset reaches it. Safe: the spec gives such contents
  no meaning (10_state.md R60 "never written"; log entry 8). -/
  | treeMalformed
deriving DecidableEq, Repr

/-- Why the model has no meaning for an instruction. -/
inductive Refusal where
  /-- Raised by an arm of `exec` for an instruction that has no meaning yet; no arm does. Safe. -/
  | notModelled (mnemonic : String)
deriving DecidableEq, Repr

/-- The state. `par`, `draws`, `pending` and `returned` are the model's own (log entries 1, 2, 3, 5);
the rest is 10_state.md R22 (a) and (b). -/
structure State where
  /-- The structural parameters of this block; no step changes them. -/
  par : Params
  /-- The registers. -/
  regs : Regs
  /-- The spaces. -/
  mem : Memory
  /-- How many free values have been drawn. -/
  draws : Nat
  /-- The host inputs that have not happened yet, the next one first. -/
  pending : List HostInput
  /-- The values that host reads have returned, the latest first. -/
  returned : List Word64
deriving DecidableEq, Repr

/-- A block with structural parameters `p` right after reset (70_reset_and_hazards.md R371). -/
def State.resetOf (p : Params) : State :=
  { par := p, regs := Regs.reset, mem := Memory.unspecified, draws := 0, pending := [],
    returned := [] }

/-- The block with the default structural parameters right after reset. -/
def State.reset : State := State.resetOf Params.default

end Sys2Proof.Machine
end

