-- ==== Sys2Proof/Machine/Flags.lean ====
section
/-! DEFINITION. The flags of STATUS (10_state.md R25) and the fields of FAULT (10_state.md R26): every
flag computation of the spec. There are no arithmetic condition codes (R25). -/

namespace Sys2Proof.Machine

/-- The engines that a VALID bit stands for (10_state.md R25). -/
inductive Engine where
  | ilv
  | polar
  | rs
deriving DecidableEq, Repr

/-- The bit of STATUS that is an engine's VALID bit (10_state.md R25). -/
def Engine.validBit : Engine → Nat
  | .ilv => 0
  | .polar => 1
  | .rs => 2

/-- The sub-cause of NOT_CONFIGURED for an engine (60_exceptions.md R332). -/
def Engine.notConfiguredSub : Engine → Byte
  | .ilv => 1
  | .polar => 2
  | .rs => 3

/-- `v` with bit `n` set to `x`, every other bit as it was. -/
def putBit (v : Word64) (n : Nat) (x : Bool) : Word64 :=
  if x then v ||| BitVec.twoPow 64 n else v &&& ~~~(BitVec.twoPow 64 n)

/-- The bit of STATUS that is RS_ZERO (10_state.md R25). -/
def rsZeroBit : Nat := 4

/-- The bit of STATUS that is FAULTED (10_state.md R25). -/
def faultedBit : Nat := 7

/-- The VALID bit of an engine. -/
def Regs.valid (r : Regs) (e : Engine) : Bool := r.status.getLsbD e.validBit

/-- STATUS.RS_ZERO. -/
def Regs.rsZero (r : Regs) : Bool := r.status.getLsbD rsZeroBit

/-- STATUS.FAULTED. -/
def Regs.faulted (r : Regs) : Bool := r.status.getLsbD faultedBit

/-- Write the VALID bit of an engine. -/
def Regs.putValid (r : Regs) (e : Engine) (x : Bool) : Regs :=
  { r with status := putBit r.status e.validBit x }

/-- Write STATUS.RS_ZERO (45_gf_rs.md R287). -/
def Regs.putRsZero (r : Regs) (x : Bool) : Regs :=
  { r with status := putBit r.status rsZeroBit x }

/-- The causes of 60_exceptions.md R331. -/
inductive Cause where
  | illegalCmd
  | notConfigured
  | hostAccess
  | ilvCfgInvalid
  | pcCfgInvalid
  | llrRange
  | rsCfgInvalid
  | gfSymbolRange
deriving DecidableEq, Repr

/-- The code of a cause (60_exceptions.md R331). -/
def Cause.code : Cause → Byte
  | .illegalCmd => 0x01
  | .notConfigured => 0x02
  | .hostAccess => 0x03
  | .ilvCfgInvalid => 0x10
  | .pcCfgInvalid => 0x20
  | .llrRange => 0x21
  | .rsCfgInvalid => 0x30
  | .gfSymbolRange => 0x31

/-- The value of FAULT: CAUSE in 7:0, SUB in 15:8, OP in 23:16, 0 above (10_state.md R26). -/
def faultWord (c : Cause) (sub op : Byte) : Word64 := 0#40 ++ op ++ sub ++ c.code

/-- `raise Fault(cause, sub)` on the registers (60_exceptions.md R333): the first fault after a reset
is recorded and sets FAULTED; a later one changes nothing (R334). -/
def Regs.recordFault (r : Regs) (c : Cause) (sub op : Byte) : Regs :=
  if r.faulted then r
  else { r with fault := faultWord c sub op, status := putBit r.status faultedBit true }

end Sys2Proof.Machine
end

