-- ==== Sys2Proof/Machine/Operands.lean ====
section
/-! DEFINITION. What a host access can name: the register map (10_state.md R23) and the space map
(10_state.md R50), with the class, the width and the capacity of each. Commands have no operand forms
(30_encoding.md R92); their operands are these registers and spaces (10_state.md R20). -/

namespace Sys2Proof.Machine

/-! ## Registers -/

/-- The registers of 10_state.md R23. -/
inductive Reg where
  | id | status | fault | cmd | cap0 | cap1
  | ilvK | ilvL | ilvPm | ilvBs
  | ilvC | ilvOnes | ilvNin | ilvNout | ilvNiter | ilvInlen | ilvOutlen
  | pcN | pcM | pcK | pcSnr | pcLs
  | pcLogn | pcInitshort | pcNnodes
  | rsGm | rsPrim | rsRp | rsRn | gfA | gfB
  | gfR | rsMaxsyn | rsDecstat
deriving DecidableEq, Repr

/-- The access classes of 10_state.md R23. -/
inductive RegClass where
  | rw
  | ro
  | roConst
  | wo
deriving DecidableEq, Repr

/-- The register a number names, column `No.` of 10_state.md R23; none where the table has no row. -/
def regOfNo : Byte → Option Reg
  | 0x00 => some .id
  | 0x01 => some .status
  | 0x02 => some .fault
  | 0x03 => some .cmd
  | 0x04 => some .cap0
  | 0x05 => some .cap1
  | 0x10 => some .ilvK
  | 0x11 => some .ilvL
  | 0x12 => some .ilvPm
  | 0x13 => some .ilvBs
  | 0x18 => some .ilvC
  | 0x19 => some .ilvOnes
  | 0x1A => some .ilvNin
  | 0x1B => some .ilvNout
  | 0x1C => some .ilvNiter
  | 0x1D => some .ilvInlen
  | 0x1E => some .ilvOutlen
  | 0x20 => some .pcN
  | 0x21 => some .pcM
  | 0x22 => some .pcK
  | 0x23 => some .pcSnr
  | 0x24 => some .pcLs
  | 0x28 => some .pcLogn
  | 0x29 => some .pcInitshort
  | 0x2A => some .pcNnodes
  | 0x30 => some .rsGm
  | 0x31 => some .rsPrim
  | 0x32 => some .rsRp
  | 0x33 => some .rsRn
  | 0x34 => some .gfA
  | 0x35 => some .gfB
  | 0x38 => some .gfR
  | 0x39 => some .rsMaxsyn
  | 0x3A => some .rsDecstat
  | _ => none

/-- The number of a register, column `No.` of 10_state.md R23. -/
def Reg.no : Reg → Byte
  | .id => 0x00
  | .status => 0x01
  | .fault => 0x02
  | .cmd => 0x03
  | .cap0 => 0x04
  | .cap1 => 0x05
  | .ilvK => 0x10
  | .ilvL => 0x11
  | .ilvPm => 0x12
  | .ilvBs => 0x13
  | .ilvC => 0x18
  | .ilvOnes => 0x19
  | .ilvNin => 0x1A
  | .ilvNout => 0x1B
  | .ilvNiter => 0x1C
  | .ilvInlen => 0x1D
  | .ilvOutlen => 0x1E
  | .pcN => 0x20
  | .pcM => 0x21
  | .pcK => 0x22
  | .pcSnr => 0x23
  | .pcLs => 0x24
  | .pcLogn => 0x28
  | .pcInitshort => 0x29
  | .pcNnodes => 0x2A
  | .rsGm => 0x30
  | .rsPrim => 0x31
  | .rsRp => 0x32
  | .rsRn => 0x33
  | .gfA => 0x34
  | .gfB => 0x35
  | .gfR => 0x38
  | .rsMaxsyn => 0x39
  | .rsDecstat => 0x3A

/-- Column `Class` of 10_state.md R23. -/
def Reg.cls : Reg → RegClass
  | .id | .cap0 | .cap1 => .roConst
  | .cmd => .wo
  | .status | .fault
  | .ilvC | .ilvOnes | .ilvNin | .ilvNout | .ilvNiter | .ilvInlen | .ilvOutlen
  | .pcLogn | .pcInitshort | .pcNnodes
  | .gfR | .rsMaxsyn | .rsDecstat => .ro
  | .ilvK | .ilvL | .ilvPm | .ilvBs
  | .pcN | .pcM | .pcK | .pcSnr | .pcLs
  | .rsGm | .rsPrim | .rsRp | .rsRn | .gfA | .gfB => .rw

/-- The engine whose parameter register this is, so whose VALID bit a host write clears
(10_state.md R47). GF_A and GF_B are no parameter registers (R45). -/
def Reg.engine : Reg → Option Engine
  | .ilvK | .ilvL | .ilvPm | .ilvBs => some .ilv
  | .pcN | .pcM | .pcK | .pcSnr | .pcLs => some .polar
  | .rsGm | .rsPrim | .rsRp | .rsRn => some .rs
  | .id | .status | .fault | .cmd | .cap0 | .cap1
  | .ilvC | .ilvOnes | .ilvNin | .ilvNout | .ilvNiter | .ilvInlen | .ilvOutlen
  | .pcLogn | .pcInitshort | .pcNnodes
  | .gfA | .gfB | .gfR | .rsMaxsyn | .rsDecstat => none

/-- The constant ID (10_state.md R24): "FEC1" in bits 31:0. -/
def idConst : Word64 := 0x0000000046454331

/-- CAP0 (10_state.md R28): log2(B), LLRW, PM_MAX, LOGN_MAX, GM_MAX, 8 bits each from bit 0 up. -/
def cap0Const (p : Params) : Word64 :=
  0#24 ++ BitVec.ofNat 8 p.gmMax ++ BitVec.ofNat 8 p.lognMax ++ BitVec.ofNat 8 p.pmMax ++
    BitVec.ofNat 8 p.llrw ++ BitVec.ofNat 8 (Nat.log2 p.b)

/-- CAP1 (10_state.md R28): IW_CAP in 23:0, IB_CAP in 47:24, RB_CAP in 63:48. A capacity that does
not fit its field shows its low bits (log entry 9). -/
def cap1Const (p : Params) : Word64 :=
  BitVec.ofNat 16 p.rbCap ++ BitVec.ofNat 24 p.ibCap ++ BitVec.ofNat 24 p.iwCap

/-- What a host read of a register returns (10_state.md R23); a read of CMD returns 0 (R27). -/
def Reg.read (p : Params) (g : Regs) : Reg → Word64
  | .id => idConst
  | .status => g.status
  | .fault => g.fault
  | .cmd => 0
  | .cap0 => cap0Const p
  | .cap1 => cap1Const p
  | .ilvK => g.ilvK
  | .ilvL => g.ilvL
  | .ilvPm => g.ilvPm
  | .ilvBs => g.ilvBs
  | .ilvC => g.ilvC
  | .ilvOnes => g.ilvOnes
  | .ilvNin => g.ilvNin
  | .ilvNout => g.ilvNout
  | .ilvNiter => g.ilvNiter
  | .ilvInlen => g.ilvInlen
  | .ilvOutlen => g.ilvOutlen
  | .pcN => g.pcN
  | .pcM => g.pcM
  | .pcK => g.pcK
  | .pcSnr => g.pcSnr
  | .pcLs => g.pcLs
  | .pcLogn => g.pcLogn
  | .pcInitshort => g.pcInitshort
  | .pcNnodes => g.pcNnodes
  | .rsGm => g.rsGm
  | .rsPrim => g.rsPrim
  | .rsRp => g.rsRp
  | .rsRn => g.rsRn
  | .gfA => g.gfA
  | .gfB => g.gfB
  | .gfR => g.gfR
  | .rsMaxsyn => g.rsMaxsyn
  | .rsDecstat => g.rsDecstat

/-- Store a host write to an `RW` register: all 64 bits as written (10_state.md R23, R29). A register
of another class stores nothing. -/
def Reg.store (g : Regs) (v : Word64) : Reg → Regs
  | .ilvK => { g with ilvK := v }
  | .ilvL => { g with ilvL := v }
  | .ilvPm => { g with ilvPm := v }
  | .ilvBs => { g with ilvBs := v }
  | .pcN => { g with pcN := v }
  | .pcM => { g with pcM := v }
  | .pcK => { g with pcK := v }
  | .pcSnr => { g with pcSnr := v }
  | .pcLs => { g with pcLs := v }
  | .rsGm => { g with rsGm := v }
  | .rsPrim => { g with rsPrim := v }
  | .rsRp => { g with rsRp := v }
  | .rsRn => { g with rsRn := v }
  | .gfA => { g with gfA := v }
  | .gfB => { g with gfB := v }
  | .id | .status | .fault | .cmd | .cap0 | .cap1
  | .ilvC | .ilvOnes | .ilvNin | .ilvNout | .ilvNiter | .ilvInlen | .ilvOutlen
  | .pcLogn | .pcInitshort | .pcNnodes
  | .gfR | .rsMaxsyn | .rsDecstat => g

/-- A host write to an `RW` register: store it, and clear the VALID bit of its engine where it is a
parameter register, whether or not the value changes (10_state.md R47). -/
def Reg.hostWrite (g : Regs) (v : Word64) (r : Reg) : Regs :=
  match r.engine with
  | some e => (r.store g v).putValid e false
  | none => r.store g v

/-! ## Spaces -/

/-- The spaces of 10_state.md R50 (`dout` is DO). -/
inductive Space where
  | iw | ib | isch | pi | po | di | llr | beta | dout | bhat | didx | tree | rb | syn | glog | galog
  | gen
deriving DecidableEq, Repr

/-- The kinds of 10_state.md R50. -/
inductive SpaceKind where
  | data
  | table
deriving DecidableEq, Repr

/-- The space a number names, column `No.` of 10_state.md R50. -/
def spaceOfNo : Nat → Option Space
  | 1 => some .iw
  | 2 => some .ib
  | 3 => some .isch
  | 4 => some .pi
  | 5 => some .po
  | 6 => some .di
  | 7 => some .llr
  | 8 => some .beta
  | 9 => some .dout
  | 10 => some .bhat
  | 11 => some .didx
  | 12 => some .tree
  | 13 => some .rb
  | 14 => some .syn
  | 15 => some .glog
  | 16 => some .galog
  | 17 => some .gen
  | _ => none

/-- The number of a space, column `No.` of 10_state.md R50. -/
def Space.no : Space → Nat
  | .iw => 1
  | .ib => 2
  | .isch => 3
  | .pi => 4
  | .po => 5
  | .di => 6
  | .llr => 7
  | .beta => 8
  | .dout => 9
  | .bhat => 10
  | .didx => 11
  | .tree => 12
  | .rb => 13
  | .syn => 14
  | .glog => 15
  | .galog => 16
  | .gen => 17

/-- Column `Kind` of 10_state.md R50. -/
def Space.kind : Space → SpaceKind
  | .iw | .ib | .pi | .po | .di | .llr | .rb => .data
  | .isch | .beta | .dout | .bhat | .didx | .tree | .syn | .glog | .galog | .gen => .table

/-- Column `Element` of 10_state.md R50: the width of an element in bits. -/
def Space.width (p : Params) : Space → Nat
  | .iw | .isch => p.b
  | .ib | .pi | .po | .di | .dout | .rb | .syn | .glog | .galog | .gen => 8
  | .llr => p.llrw
  | .beta => 1
  | .bhat | .tree => 64
  | .didx => 32

/-- The number of words ISCH holds for one stream, `E = 2·log2(B) + 2` (10_state.md R53). -/
def scheduleLen (B : Nat) : Nat := 2 * Nat.log2 B + 2

/-- Column `Elements (capacity)` of 10_state.md R50. -/
def Space.capacity (p : Params) : Space → Nat
  | .iw => p.iwCap
  | .ib => p.ibCap
  | .isch => p.pmMax * scheduleLen p.b
  | .pi | .po | .di | .dout => 2 ^ p.lognMax / 8
  | .llr | .beta | .bhat | .didx => 2 ^ p.lognMax
  | .tree => 2 ^ (p.lognMax + 1)
  | .rb | .syn | .gen => p.rbCap
  | .glog => 2 ^ p.gmMax
  | .galog => 2 * 2 ^ p.gmMax

/-- The low `w` bits of `v` (10_state.md R64 "keeps the low bits … that fit the element"). -/
def truncTo (w : Nat) (v : Word64) : Word64 := (v.setWidth w).setWidth 64

/-- What a host read returns for the stored element `v`: zero-extended, except LLR, which is
sign-extended (10_state.md R64, R56). -/
def Space.extend (p : Params) (sp : Space) (v : Word64) : Word64 :=
  match sp with
  | .llr => (v.setWidth p.llrw).signExtend 64
  | .iw | .ib | .isch | .pi | .po | .di | .beta | .dout | .bhat | .didx | .tree | .rb | .syn | .glog
  | .galog | .gen => v

end Sys2Proof.Machine
end

