-- ==== Sys2Proof/Machine/Ops.lean ====
section
/-! DEFINITION. The operations every meaning is built from: reading and writing elements of the spaces
(00_scope.md R14, 46_system.md R325), drawing the value of an unwritten element (10_state.md R65),
taking a fault (60_exceptions.md R333), and reset (70_reset_and_hazards.md R371), the only way out of
one (60_exceptions.md R336). -/

namespace Sys2Proof.Machine

/-- What a step or a meaning answers. -/
abbrev Result := Host.Outcome State Fault Refusal

/-! ## Elements -/

/-- The written element at `i`, none where nothing has been written since reset. -/
def cellAt (c : Cells) (i : Nat) : Option Word64 := c.lookup i

/-- `c` with the elements `lo, lo+1, …` holding `vs`. -/
def cellsWrite (c : Cells) (lo : Nat) (vs : List Word64) : Cells :=
  c.filter (fun x => decide (x.1 < lo)) ++ (List.range' lo vs.length).zip vs ++
    c.filter (fun x => decide (lo + vs.length ≤ x.1))

/-- The canonical form of one space: indices strictly rising. An unlisted element reads as no fixed
value, so no entry equals what an unlisted element reads as. -/
def cellsWf : Cells → Bool
  | [] => true
  | [_] => true
  | x :: y :: c => decide (x.1 < y.1) && cellsWf (y :: c)

/-- The written elements of a space. -/
def Memory.cells (m : Memory) : Space → Cells
  | .iw => m.iw
  | .ib => m.ib
  | .isch => m.isch
  | .pi => m.pi
  | .po => m.po
  | .di => m.di
  | .llr => m.llr
  | .beta => m.beta
  | .dout => m.dout
  | .bhat => m.bhat
  | .didx => m.didx
  | .tree => m.tree
  | .rb => m.rb
  | .syn => m.syn
  | .glog => m.glog
  | .galog => m.galog
  | .gen => m.gen

/-- `m` with the written elements of one space replaced. -/
def Memory.putCells (m : Memory) (c : Cells) : Space → Memory
  | .iw => { m with iw := c }
  | .ib => { m with ib := c }
  | .isch => { m with isch := c }
  | .pi => { m with pi := c }
  | .po => { m with po := c }
  | .di => { m with di := c }
  | .llr => { m with llr := c }
  | .beta => { m with beta := c }
  | .dout => { m with dout := c }
  | .bhat => { m with bhat := c }
  | .didx => { m with didx := c }
  | .tree => { m with tree := c }
  | .rb => { m with rb := c }
  | .syn => { m with syn := c }
  | .glog => { m with glog := c }
  | .galog => { m with galog := c }
  | .gen => { m with gen := c }

/-- The seventeen spaces, in the order of 10_state.md R50. -/
def allSpaces : List Space :=
  [.iw, .ib, .isch, .pi, .po, .di, .llr, .beta, .dout, .bhat, .didx, .tree, .rb, .syn, .glog, .galog,
    .gen]

/-- Every space is in canonical form. -/
def Memory.wf (m : Memory) : Bool := allSpaces.all fun sp => cellsWf (m.cells sp)

/-- The written element `i` of a space, none where it is unspecified (10_state.md R65). -/
def State.elem? (s : State) (sp : Space) (i : Nat) : Option Word64 := cellAt (s.mem.cells sp) i

/-- A fresh free value of `w` bits: the next of `Config.freeElem` (10_state.md R65; log entry 3). -/
def draw (w : Nat) (s : State) : Word64 × State :=
  (truncTo w (Config.freeElem s.draws), { s with draws := s.draws + 1 })

/-- `MemRead(sp, i)` (00_scope.md R14): the written element, or a fresh free value of the element's
width where nothing has been written, at every read anew (10_state.md R65). -/
def readElem (sp : Space) (i : Nat) (s : State) : Word64 × State :=
  match s.elem? sp i with
  | some v => (v, s)
  | none => draw (sp.width s.par) s

/-- `S[lo .. lo+n)` at ONE place of a rule (00_scope.md R14): the list of its elements, in ascending
order. Where a rule names the range at several places, each is a gather of its own (10_state.md R65;
log entry 4). -/
def gather (sp : Space) (lo : Nat) : Nat → State → List Word64 × State
  | 0, s => ([], s)
  | n + 1, s =>
    let r := readElem sp lo s
    let rest := gather sp (lo + 1) n r.2
    (r.1 :: rest.1, rest.2)

/-- A loop that reads: `f` on every item in order, each on the state the one before left, and the list
of the answers. -/
def mapReads {α β : Type} (f : α → State → β × State) : List α → State → List β × State
  | [], s => ([], s)
  | a :: as, s =>
    let r := f a s
    let rest := mapReads f as r.2
    (r.1 :: rest.1, rest.2)

/-- A loop that reads and carries a value: `f` on every item in order. -/
def foldReads {α β : Type} (f : β → α → State → β × State) (b : β) : List α → State → β × State
  | [], s => (b, s)
  | a :: as, s =>
    let r := f b a s
    foldReads f r.1 as r.2

/-- `MemWrite` of the elements `lo, lo+1, …` of a space (00_scope.md R14); each keeps the low bits
that fit (10_state.md R64). -/
def State.write (s : State) (sp : Space) (lo : Nat) (vs : List Word64) : State :=
  { s with
    mem := s.mem.putCells
      (cellsWrite (s.mem.cells sp) lo (vs.map (truncTo (sp.width s.par)))) sp }

/-! ## Registers -/

/-- `s` with the registers replaced. -/
def State.withRegs (s : State) (g : Regs) : State := { s with regs := g }

/-- Hand a value to the host as the result of its read (20_memory.md R70; log entry 2). -/
def State.returning (s : State) (v : Word64) : State := { s with returned := v :: s.returned }

/-! ## Taking a fault, and reset -/

/-- `raise Fault(cause, sub)` with the opcode byte `op` (60_exceptions.md R333): the record in FAULT
and STATUS.FAULTED, and nothing else. The block has no handler: the machine goes on. -/
def raiseFault (c : Cause) (sub op : Byte) (s : State) : State :=
  s.withRegs (s.regs.recordFault c sub op)

/-- The reset of the block (70_reset_and_hazards.md R370, R371): every register at its reset value,
every element of every space unspecified. It is also the only exit from FAULTED (60_exceptions.md
R336). The model's own fields stay. -/
def resetBlock (s : State) : State := { s with regs := Regs.reset, mem := Memory.unspecified }

/-! ## Guards of the command rules -/

/-- The command `i` raises a fault: FAULT.OP is its opcode byte (60_exceptions.md R333). -/
def commandFault (i : Instr) (c : Cause) (sub : Byte) (s : State) : Result :=
  .next (raiseFault c sub (opcode i) s)

/-- Test the VALID bit of the command's engine first (60_exceptions.md R341). -/
def whenConfigured (e : Engine) (i : Instr) (s : State) (run : State → Result) : Result :=
  if s.regs.valid e then run s else commandFault i .notConfigured e.notConfiguredSub s

/-- The checks of a configuration command come first; the first that fails gives the sub-cause
(60_exceptions.md R333, R348). -/
def whenLegal (failing : Option Byte) (i : Instr) (c : Cause) (s : State) (run : State → Result) :
    Result :=
  match failing with
  | some sub => commandFault i c sub s
  | none => run s

end Sys2Proof.Machine
end

