-- ==== Sys2Proof/Machine/BitUtil.lean ====
section
/-! DEFINITION. The bit and sequence utilities, component C1 (40_bitutil.md R110 to R119), and the bit
positions of words and bytes (00_scope.md R11, R12). Position 0 is the most significant bit. -/

namespace Sys2Proof.Machine

/-- `wbit(w, i)`, the bit at position `i` of a word (00_scope.md R11). -/
def wbit {B : Nat} (w : Word B) (i : Nat) : Bool := w.getMsbD i

/-- `setpos(i) = 1 << (B−1−i)` (00_scope.md R11). -/
def setpos (B i : Nat) : Word B := BitVec.twoPow B (B - 1 - i)

/-- `mask_bits(n)`: the high `n` bits set (40_bitutil.md R111). -/
def maskBits (B n : Nat) : Word B := BitVec.ofNat B ((2 ^ n - 1) * 2 ^ (B - n))

/-- `mask_from_positions(P)`: the bits at the positions set, ignoring the sentinel `B`
(40_bitutil.md R112). -/
def maskFromPositions (B : Nat) (ps : List Nat) : Word B :=
  ps.foldl (fun m p => if p = B then m else m ||| setpos B p) 0#B

/-- `range_extents(lo, hi, S)`: the half-open indices of the values in `[lo, hi)`
(40_bitutil.md R113). -/
def rangeExtents (lo hi : Nat) (S : List Nat) : Nat × Nat :=
  (S.countP fun v => decide (v < lo), S.countP fun v => decide (v < hi))

/-- `offset_index_sequence(S, Δ)`: `S` shifted by `Δ` (40_bitutil.md R114). -/
def offsetIndexSequence (S : List Int) (delta : Int) : List Int := S.map (· + delta)

/-- `log2(x)` for `x` a power of two (40_bitutil.md R115). -/
def log2 (x : Nat) : Nat := Nat.log2 x

/-- `hamming_weight(x)`: how many bits are 1 (40_bitutil.md R116). -/
def hammingWeight {w : Nat} (x : BitVec w) : Nat := (List.range w).countP x.getLsbD

/-- `⌈a/b⌉` (00_scope.md R10). -/
def ceilDiv (a b : Nat) : Nat := (a + b - 1) / b

/-! ## The puncturing matrix as a BinarySequence (00_scope.md R15, 40_bitutil.md R117, R118) -/

/-- `PM.test(i)` = b_i, bit number `i` of ILV_PM (40_bitutil.md R117). -/
def pmTest (pm : Word64) (i : Nat) : Bool := pm.getLsbD i

/-- `PM.sum(i)` = b_0 + … + b_(i−1) (40_bitutil.md R117). -/
def pmSum (pm : Word64) (i : Nat) : Nat := (List.range i).countP (pmTest pm)

/-- `PM.ones()` = `PM.sum(L)` (40_bitutil.md R117). -/
def pmOnes (pm : Word64) (L : Nat) : Nat := pmSum pm L

/-- `PM.ones_index_sequence` (40_bitutil.md R117). -/
def pmOnesIndexSequence (pm : Word64) (L : Nat) : List Nat := (List.range L).filter (pmTest pm)

/-- `row_p.test(i)` = b_(i·k+p) (40_bitutil.md R118). -/
def rowTest (pm : Word64) (k p i : Nat) : Bool := pmTest pm (i * k + p)

/-! ## Packing (00_scope.md R12) -/

/-- The byte whose positions 0 to 7 hold the eight bits. -/
def byteOfBits (b0 b1 b2 b3 b4 b5 b6 b7 : Bool) : Byte :=
  BitVec.ofBool b0 ++ BitVec.ofBool b1 ++ BitVec.ofBool b2 ++ BitVec.ofBool b3 ++ BitVec.ofBool b4 ++
    BitVec.ofBool b5 ++ BitVec.ofBool b6 ++ BitVec.ofBool b7

/-- `pack(bits)` of a list whose length is a multiple of 8 (00_scope.md R12). -/
def pack : List Bool → List Byte
  | b0 :: b1 :: b2 :: b3 :: b4 :: b5 :: b6 :: b7 :: bs =>
    byteOfBits b0 b1 b2 b3 b4 b5 b6 b7 :: pack bs
  | _ => []

/-- The bits of a byte, position 0 first. -/
def bitsOfByte (x : Byte) : List Bool := (List.range 8).map (wbit x)

/-- `unpack(bytes)`, the inverse of `pack` (00_scope.md R12). -/
def unpack (bytes : List Byte) : List Bool := bytes.flatMap bitsOfByte

/-- The byte a byte space's element holds. -/
def byteOfElem (v : Word64) : Byte := v.setWidth 8

/-- A byte as an element. -/
def elemOfByte (x : Byte) : Word64 := x.setWidth 64

/-- A bit as an element of BETA (10_state.md R57). -/
def elemOfBit (x : Bool) : Word64 := (BitVec.ofBool x).setWidth 64

/-- `unpack` of the elements of a byte space. -/
def unpackElems (vs : List Word64) : List Bool := unpack (vs.map byteOfElem)

/-- `pack` into elements of a byte space. -/
def packElems (bits : List Bool) : List Word64 := (pack bits).map elemOfByte

end Sys2Proof.Machine
end

