-- ==== Sys2Proof/Machine/Interleaver.lean ====
section
/-! DEFINITION. The interleaver engine, component C3 (41_interleaver.md): ILV_CFG, ILV_FWD, ILV_REV. -/

namespace Sys2Proof.Machine

/-! ## The schedule (41_interleaver.md R134 to R139) -/

/-- II_p: the positions of the chunk that are not punctured (R134). -/
def inputIndices (pm : Word64) (k c p : Nat) : List Nat := (List.range c).filter (rowTest pm k p)

/-- OO_p: for each element of II_p, how many emitted bits precede it in the cycle (R135). -/
def outputIndices (pm : Word64) (k c p : Nat) : List Nat :=
  (inputIndices pm k c p).map fun i => pmSum pm (i * k + p)

/-- diff_p[j] = OO_p[j] − II_p[j] (R136). -/
def diffs (pm : Word64) (k c p : Nat) : List Int :=
  (inputIndices pm k c p).map fun i => (pmSum pm (i * k + p) : Int) - (i : Int)

/-- Each element is at most the next. -/
def nonDecreasing : List Int → Bool
  | [] => true
  | [_] => true
  | x :: y :: l => decide (x ≤ y) && nonDecreasing (y :: l)

/-- The spray condition of one stream (R139): diff_p[0] ≥ 0 and diff_p[j] ≤ diff_p[j+1]. -/
def sprayCondition (pm : Word64) (k c p : Nat) : Bool := nonDecreasing (0 :: diffs pm k c p)

/-- s_r = B >> (r+1), the shift amount of pass `r` (R136). -/
def passShift (B r : Nat) : Nat := B >>> (r + 1)

/-- pos^r of the bit that starts at `i` with difference `d` (R136). -/
def passPos (B i d : Nat) : Nat → Nat
  | 0 => i
  | r + 1 => passPos B i d r + (d &&& passShift B r)

/-- The bits of a stream: pairs (II_p[j], diff_p[j]). -/
def streamMoves (pm : Word64) (k c p : Nat) : List (Nat × Nat) :=
  (inputIndices pm k c p).map fun i => (i, ((pmSum pm (i * k + p) : Int) - (i : Int)).toNat)

/-- MOVE[p][r] (R137). -/
def moveMask (B : Nat) (moves : List (Nat × Nat)) (r : Nat) : Word B :=
  maskFromPositions B
    ((moves.filter fun x => x.2 &&& passShift B r != 0).map fun x => passPos B x.1 x.2 r)

/-- STAY[p][r] (R137). -/
def stayMask (B : Nat) (moves : List (Nat × Nat)) (r : Nat) : Word B :=
  maskFromPositions B
    ((moves.filter fun x => x.2 &&& passShift B r == 0).map fun x => passPos B x.1 x.2 r)

/-- The `E` words of ISCH for stream `p` (10_state.md R53): INMASK, OUTMASK, then MOVE and STAY of
every pass. -/
def scheduleWords (B : Nat) (pm : Word64) (k c p : Nat) : List (Word B) :=
  maskFromPositions B (inputIndices pm k c p) :: maskFromPositions B (outputIndices pm k c p) ::
    (List.range (log2 B)).flatMap fun r =>
      [moveMask B (streamMoves pm k c p) r, stayMask B (streamMoves pm k c p) r]

/-- The words of ISCH for all `k` streams, stream after stream (10_state.md R53). -/
def scheduleTable (B : Nat) (pm : Word64) (k c : Nat) : List (Word B) :=
  (List.range k).flatMap (scheduleWords B pm k c)

/-- One pass of a stream's schedule. -/
structure Pass (B : Nat) where
  shift : Nat
  move : Word B
  stay : Word B
deriving DecidableEq, Repr

/-- A stream's schedule, as a command reads it back from ISCH. -/
structure Schedule (B : Nat) where
  inMask : Word B
  outMask : Word B
  passes : List (Pass B)
deriving DecidableEq, Repr

/-- Word `j` of stream `p` in the words of ISCH (10_state.md R53). -/
def scheduleWord {B : Nat} (isch : List (Word B)) (p j : Nat) : Word B :=
  isch.getD (p * scheduleLen B + j) 0#B

/-- The schedule of stream `p` read from the words of ISCH (10_state.md R53). -/
def readSchedule {B : Nat} (isch : List (Word B)) (p : Nat) : Schedule B :=
  { inMask := scheduleWord isch p 0
    outMask := scheduleWord isch p 1
    passes := (List.range (log2 B)).map fun r =>
      { shift := passShift B r
        move := scheduleWord isch p (2 + 2 * r)
        stay := scheduleWord isch p (3 + 2 * r) } }

/-- One pass of `spray_p` (R138). -/
def sprayPass {B : Nat} (w : Word B) (q : Pass B) : Word B :=
  ((w &&& q.move) >>> q.shift) ||| (w &&& q.stay)

/-- One pass of `despray_p` (R138). -/
def desprayPass {B : Nat} (w : Word B) (q : Pass B) : Word B :=
  ((w &&& (q.move >>> q.shift)) <<< q.shift) ||| (w &&& q.stay)

/-- `spray_p`: the passes in order (R138). -/
def spray {B : Nat} (sch : Schedule B) (w : Word B) : Word B := sch.passes.foldl sprayPass w

/-- `despray_p`: the passes in reverse (R138). -/
def despray {B : Nat} (sch : Schedule B) (w : Word B) : Word B :=
  sch.passes.reverse.foldl desprayPass w

/-! ## ILV_CFG -/

/-- Elements of IW or ISCH as machine words. -/
def wordsOfElems (B : Nat) (vs : List Word64) : List (Word B) := vs.map (BitVec.setWidth B)

/-- Machine words as elements of IW or ISCH. -/
def elemsOfWords {B : Nat} (ws : List (Word B)) : List Word64 := ws.map (BitVec.setWidth 64)

/-- `in_buf_len` = k·⌈BlockSize/(B/8)⌉ words (R133). -/
def inBufLen (B k bs : Nat) : Nat := k * ceilDiv bs (B / 8)

/-- `out_buf_len` = BlockSize·ones/C bytes (R133). -/
def outBufLen (bs ones c : Nat) : Nat := bs * ones / c

/-- The parameter checks of ILV_CFG in their order, the sub-cause of the first that fails
(41_interleaver.md R132). -/
def ilvCheck (p : Params) (k L : Nat) (pm : Word64) (bs : Nat) : Option Byte :=
  if bs = 0 then some 1
  else if k < 2 then some 2
  else if L = 0 ∨ L % k ≠ 0 then some 3
  else if p.pmMax < L ∨ pm.toNat >>> L ≠ 0 then some 4
  else if p.b < hammingWeight pm ∨ p.b < L / k then some 5
  else if bs % (L / k) ≠ 0 then some 6
  else if p.iwCap < inBufLen p.b k bs ∨ p.ibCap < outBufLen bs (hammingWeight pm) (L / k) then some 7
  else if (List.range k).all (sprayCondition pm k (L / k)) then none
  else some 8

/-- The seven derived registers (41_interleaver.md R133). -/
def ilvDerived (g : Regs) (B k L : Nat) (pm : Word64) (bs : Nat) : Regs :=
  let c := L / k
  let ones := pmOnes pm L
  { g with
    ilvC := BitVec.ofNat 64 c
    ilvOnes := BitVec.ofNat 64 ones
    ilvNin := BitVec.ofNat 64 c
    ilvNout := BitVec.ofNat 64 ones
    ilvNiter := BitVec.ofNat 64 (ceilDiv (8 * bs) c)
    ilvInlen := BitVec.ofNat 64 (inBufLen B k bs)
    ilvOutlen := BitVec.ofNat 64 (outBufLen bs ones c) }

/-- What ILV_CFG writes once its checks have passed (41_interleaver.md R131). -/
def ilvConfigure (s : State) : State :=
  let k := s.regs.ilvK.toNat
  let L := s.regs.ilvL.toNat
  let isch := scheduleTable s.par.b s.regs.ilvPm k (L / k)
  (s.write .isch 0 (elemsOfWords isch)).withRegs
    ((ilvDerived s.regs s.par.b k L s.regs.ilvPm s.regs.ilvBs.toNat).putValid .ilv true)

/-- ILV_CFG (41_interleaver.md R131). -/
def execIlvCfg (s : State) : Result :=
  whenLegal
    (ilvCheck s.par s.regs.ilvK.toNat s.regs.ilvL.toNat s.regs.ilvPm s.regs.ilvBs.toNat)
    .ilvCfg .ilvCfgInvalid s fun s => .next (ilvConfigure s)

/-! ## ILV_FWD -/

/-- The word-level form of `chunk`: `w` shifted by `fine`, the second word `w'` ORed in where the chunk
crosses the word boundary (41_interleaver.md R141). -/
def packChunk {B : Nat} (c fine : Nat) (w w' : Word B) : Word B :=
  (if B < fine + c then w <<< fine ||| w' >>> (B - fine) else w <<< fine) &&& maskBits B c

/-- A word of IW. -/
def readWord (B i : Nat) (s : State) : Word B × State :=
  let r := readElem .iw i s
  (r.1.setWidth B, r.2)

/-- `chunk(p, it)`, the packed source word; the second word is read only when the chunk really crosses
the word boundary (41_interleaver.md R141). -/
def readChunk (B k c p it : Nat) (s : State) : Word B × State :=
  let coarse := it * c / B * k
  let fine := it * c % B
  let w := readWord B (coarse + p) s
  let w' := if B < fine + c then readWord B (coarse + p + k) w.2 else (0#B, w.2)
  (packChunk c fine w.1 w'.1, w'.2)

/-- `acc` of one iteration: the OR of the sprayed chunks (41_interleaver.md R140, R142). -/
def foldIteration {B : Nat} (isch : List (Word B)) (k c it : Nat) (s : State) : Word B × State :=
  foldReads (fun acc p s =>
    let sch := readSchedule isch p
    let w := readChunk B k c p it s
    (acc ||| spray sch (w.1 &&& sch.inMask), w.2)) 0#B (List.range k) s

/-- `outbit`, NOUT bits of every iteration (41_interleaver.md R140). -/
def forwardBits {B : Nat} (isch : List (Word B)) (k c niter nout : Nat) (s : State) :
    List Bool × State :=
  let accs := mapReads (foldIteration isch k c) (List.range niter) s
  (accs.1.flatMap fun acc => (List.range nout).map (wbit acc), accs.2)

/-- ILV_FWD on a configured interleaver (41_interleaver.md R140, R145). -/
def ilvForward (s : State) : State :=
  let B := s.par.b
  let isch := gather .isch 0 (s.regs.ilvK.toNat * scheduleLen B) s
  let bits := forwardBits (wordsOfElems B isch.1) s.regs.ilvK.toNat s.regs.ilvC.toNat
    s.regs.ilvNiter.toNat s.regs.ilvNout.toNat isch.2
  bits.2.write .ib 0 (packElems (bits.1.take (8 * s.regs.ilvOutlen.toNat)))

/-- ILV_FWD (41_interleaver.md R140). -/
def execIlvFwd (s : State) : Result :=
  whenConfigured .ilv .ilvFwd s fun s => .next (ilvForward s)

/-! ## ILV_REV -/

/-- `acc` of one iteration of ILV_REV: NOUT input bits at positions 0 … NOUT−1
(41_interleaver.md R150). -/
def unfoldIteration (B : Nat) (inbit : List Bool) (nout it : Nat) : Word B :=
  (List.range nout).foldl
    (fun acc j => if inbit.getD (it * nout + j) false then acc ||| setpos B j else acc) 0#B

/-- `IW[e] <- IW[e] | m`. -/
def orElem {B : Nat} (iw : List (Word B)) (e : Nat) (m : Word B) : List (Word B) :=
  iw.modify e (· ||| m)

/-- OR the C bits of a desprayed chunk of stream `p` into the words (41_interleaver.md R150). -/
def orChunk {B : Nat} (iw : List (Word B)) (k c p it : Nat) (w : Word B) : List (Word B) :=
  (List.range c).foldl
    (fun iw i =>
      let t := it * c + i
      if wbit w i then orElem iw (t / B * k + p) (setpos B (t % B)) else iw) iw

/-- The words ILV_REV leaves in IW[0 .. INLEN) (41_interleaver.md R150). -/
def reverseWords {B : Nat} (isch : List (Word B)) (inbit : List Bool)
    (k c niter nout inlen : Nat) : List (Word B) :=
  (List.range niter).foldl
    (fun iw it =>
      (List.range k).foldl
        (fun iw p =>
          let sch := readSchedule isch p
          orChunk iw k c p it (despray sch (unfoldIteration B inbit nout it &&& sch.outMask))) iw)
    (List.replicate inlen 0#B)

/-- ILV_REV on a configured interleaver (41_interleaver.md R150). -/
def ilvReverse (s : State) : State :=
  let B := s.par.b
  let ib := gather .ib 0 s.regs.ilvOutlen.toNat s
  let isch := gather .isch 0 (s.regs.ilvK.toNat * scheduleLen B) ib.2
  let words := reverseWords (wordsOfElems B isch.1) (unpackElems ib.1) s.regs.ilvK.toNat
    s.regs.ilvC.toNat s.regs.ilvNiter.toNat s.regs.ilvNout.toNat s.regs.ilvInlen.toNat
  isch.2.write .iw 0 (elemsOfWords words)

/-- ILV_REV (41_interleaver.md R150). -/
def execIlvRev (s : State) : Result :=
  whenConfigured .ilv .ilvRev s fun s => .next (ilvReverse s)

end Sys2Proof.Machine
end

