-- ==== Sys2Proof/Machine/PolarConstruct.lean ====
section
/-! DEFINITION. The polar code constructor, component C4, and the node classification
(42_polar_construct.md): PC_CFG. -/

namespace Sys2Proof.Machine

/-! ## Bhattacharyya sequence (42_polar_construct.md R173) -/

/-- `upper(u)`. -/
def upper (u : Int) : Int := if u > 1 then 2 * u else u + 1

/-- `lower(u)`. -/
def lower (u : Int) : Int := if u > -1 then u - 1 else 2 * u

/-- `bhattacharyya(n, SNR)`: `n` expansions of `[SNR]`, `upper` at the even child and `lower` at the
odd one. -/
def bhattacharyya : Nat → Int → List Int
  | 0, snr => [snr]
  | n + 1, snr => (bhattacharyya n snr).flatMap fun u => [upper u, lower u]

/-! ## Index selection (42_polar_construct.md R175) -/

/-- The K-th smallest element, counting from 1: the smallest value `v` with `count(z ≤ v) ≥ K`. -/
def kthSmallest (zs : List Int) (K : Nat) : Int :=
  ((zs.eraseDups.filter fun v => decide (K ≤ zs.countP fun z => decide (z ≤ v))).min?).getD 0

/-- "all positions i < M with b_i < v, plus the first r … positions with b_i = v", ascending; `i` is
the position of the first element of the list. -/
def takeSelected (v : Int) : Nat → Nat → List Int → List Nat
  | _, _, [] => []
  | i, r, z :: zs =>
    if z < v then i :: takeSelected v (i + 1) r zs
    else if z = v ∧ 0 < r then i :: takeSelected v (i + 1) (r - 1) zs
    else takeSelected v (i + 1) r zs

/-- `select(z, M, K)`, the data-index sequence. -/
def selectIndices (z : List Int) (M K : Nat) : List Nat :=
  let zs := z.take M
  let v := kthSmallest zs K
  takeSelected v 0 (K - zs.countP fun x => decide (x < v)) zs

/-! ## Node classification (42_polar_construct.md R178 to R180) -/

/-- The classes of a subtree, with the tag numbers of 10_state.md R60. -/
inductive NodeTag where
  | rate0
  | rate1
  | rep
  | spc
  | standard
deriving DecidableEq, Repr

/-- The tag number of a class (10_state.md R60). -/
def NodeTag.code : NodeTag → Nat
  | .rate0 => 0
  | .rate1 => 1
  | .rep => 2
  | .spc => 3
  | .standard => 4

/-- The class a tag number stands for; 5 to 7 are never written (10_state.md R60). -/
def tagOfCode : Nat → Option NodeTag
  | 0 => some .rate0
  | 1 => some .rate1
  | 2 => some .rep
  | 3 => some .spc
  | 4 => some .standard
  | _ => none

/-- `classify(lo, Nv)` (42_polar_construct.md R178). -/
def classify (D : List Nat) (lo nv : Nat) : NodeTag :=
  let e := rangeExtents lo (lo + nv) D
  let c := e.2 - e.1
  if c = 0 then .rate0
  else if c = nv then .rate1
  else if c = 1 ∧ D.getD e.1 0 = lo + nv - 1 then .rep
  else if c = nv - 1 ∧ 2 < nv ∧ D.getD e.1 0 ≠ lo then .spc
  else .standard

/-- A node record of TREE: the size of the node and its class (10_state.md R60). -/
structure NodeRecord where
  size : Nat
  tag : NodeTag
deriving DecidableEq, Repr

/-- `build(lo, Nv)` with `Nv = 2^n`: the pre-order record vector (42_polar_construct.md R180). -/
def buildTree (D : List Nat) : Nat → Nat → List NodeRecord
  | 0, lo => [{ size := 1, tag := classify D lo 1 }]
  | n + 1, lo =>
    let t := classify D lo (2 ^ (n + 1))
    { size := 2 ^ (n + 1), tag := t } ::
      if t = .standard then buildTree D n lo ++ buildTree D n (lo + 2 ^ n) else []

/-- The word of a record: TAG in bits 2:0, SIZE in bits 40:8, the rest zero (10_state.md R60). -/
def elemOfRecord (r : NodeRecord) : Word64 := BitVec.ofNat 64 (r.size <<< 8 ||| r.tag.code)

/-- The record a word of TREE holds; none where its tag is none of 0 to 4 (10_state.md R60). -/
def recordOfElem (v : Word64) : Option NodeRecord :=
  (tagOfCode (v.extractLsb' 0 3).toNat).map fun t =>
    { size := (v.extractLsb' 8 33).toNat, tag := t }

/-- `init_short(n) = MAXL >> min(n + 1, LLRW − 4)` (44_polar_decode.md R224). -/
def initShort (llrw n : Nat) : Nat := (2 ^ (llrw - 1) - 1) >>> min (n + 1) (llrw - 4)

/-! ## PC_CFG -/

/-- The parameter checks of PC_CFG in their order, the sub-cause of the first that fails
(42_polar_construct.md R172). -/
def pcCheck (p : Params) (N M K : Nat) (snr : Int) (ls : Nat) : Option Byte :=
  if isPowerOfTwo N = false ∨ N < 8 then some 1
  else if 2 ^ p.lognMax < N then some 2
  else if M % 8 ≠ 0 ∨ N < M then some 3
  else if K < 1 ∨ K % 8 ≠ 0 ∨ M < K then some 4
  else if snr < -32768 ∨ 32767 < snr then some 5
  else if ls ≠ 1 then some 6
  else none

/-- What PC_CFG writes once its checks have passed (42_polar_construct.md R171). -/
def pcConfigure (s : State) : State :=
  let n := log2 s.regs.pcN.toNat
  let z := bhattacharyya n s.regs.pcSnr.toInt
  let D := selectIndices z s.regs.pcM.toNat s.regs.pcK.toNat
  let recs := buildTree D n 0
  let s1 := s.write .bhat 0 (z.map (BitVec.ofInt 64))
  let s2 := s1.write .didx 0 (D.map (BitVec.ofNat 64))
  let s3 := s2.write .tree 0 (recs.map elemOfRecord)
  s3.withRegs
    (({ s.regs with
        pcLogn := BitVec.ofNat 64 n
        pcInitshort := BitVec.ofNat 64 (initShort s.par.llrw n)
        pcNnodes := BitVec.ofNat 64 recs.length } : Regs).putValid .polar true)

/-- PC_CFG (42_polar_construct.md R171). -/
def execPcCfg (s : State) : Result :=
  whenLegal
    (pcCheck s.par s.regs.pcN.toNat s.regs.pcM.toNat s.regs.pcK.toNat s.regs.pcSnr.toInt
      s.regs.pcLs.toNat)
    .pcCfg .pcCfgInvalid s fun s => .next (pcConfigure s)

end Sys2Proof.Machine
end

