-- ==== Sys2Proof/Machine/PolarEncode.lean ====
section
/-! DEFINITION. The systematic polar encoder, component C5 (43_polar_encode.md): PENC. -/

namespace Sys2Proof.Machine

/-- One butterfly stage (43_polar_encode.md R203): every `buf[j]` with `j & 2^s = 0` becomes
`buf[j] ^ buf[j + 2^s]`. The pairs are disjoint, so all are updated at once. -/
def transformStage (s : Nat) (buf : List Bool) : List Bool :=
  (buf.zip (buf.drop (2 ^ s) ++ List.replicate (2 ^ s) false)).mapIdx fun j x =>
    if j &&& 2 ^ s = 0 then x.1 ^^ x.2 else x.1

/-- `transform(buf)`, stages 0 to n−1, on `N = 2^n` bits (43_polar_encode.md R203). -/
def transform (n : Nat) (buf : List Bool) : List Bool :=
  (List.range n).foldl (fun b s => transformStage s b) buf

/-- Step 1: information bit `j` at buffer position `D[j]`, zeros elsewhere (43_polar_encode.md R202). -/
def placeBits (N : Nat) (D : List Nat) (u : List Bool) : List Bool :=
  (D.zip u).foldl (fun b x => b.set x.1 x.2) (List.replicate N false)

/-- Step 3: zero every position that is not in `D` (43_polar_encode.md R204). -/
def zeroFrozen (D : List Nat) (buf : List Bool) : List Bool :=
  buf.mapIdx fun i x => if D.contains i then x else false

/-- The buffer after step 4 (43_polar_encode.md R201). -/
def polarCodeword (n : Nat) (D : List Nat) (u : List Bool) : List Bool :=
  transform n (zeroFrozen D (transform n (placeBits (2 ^ n) D u)))

/-- The data indices that DIDX holds (10_state.md R59). -/
def indicesOfElems (vs : List Word64) : List Nat := vs.map BitVec.toNat

/-- PENC on a configured polar code (43_polar_encode.md R201, R205). -/
def polarEncode (s : State) : State :=
  let K := s.regs.pcK.toNat
  let input := gather .pi 0 (K / 8) s
  let didx := gather .didx 0 K input.2
  let buf := polarCodeword (log2 s.regs.pcN.toNat) (indicesOfElems didx.1) (unpackElems input.1)
  didx.2.write .po 0 (packElems (buf.take s.regs.pcM.toNat))

/-- PENC (43_polar_encode.md R201). -/
def execPenc (s : State) : Result :=
  whenConfigured .polar .penc s fun s => .next (polarEncode s)

end Sys2Proof.Machine
end

