-- ==== Sys2Proof/Machine/PolarDecode.lean ====
section
/-! DEFINITION. The fast successive-cancellation polar decoder, component C6 (44_polar_decode.md):
PDEC_LOAD, PDEC_RUN, PDEC. LLR arithmetic is on exact integers (R263), range-checked where R227 says. -/

namespace Sys2Proof.Machine

/-! ## LLRs (00_scope.md R16, 44_polar_decode.md R221) -/

/-- The LLR an element holds: LLRW bits in two's complement (10_state.md R56). -/
def llrOfElem (llrw : Nat) (v : Word64) : Int := (v.setWidth llrw).toInt

/-- An LLR as an element (10_state.md R56). -/
def elemOfLlr (llrw : Nat) (a : Int) : Word64 := (BitVec.ofInt llrw a).setWidth 64

/-- `signbit(a)`: 1 if a < 0, so 0 for a = 0 (00_scope.md R16). -/
def signbit (a : Int) : Bool := decide (a < 0)

/-- Why a decode does not come to an answer. -/
inductive DecodeStop where
  /-- A g result outside [−MAXL, +MAXL]: `Fault(LLR_RANGE, 2)` (44_polar_decode.md R227). -/
  | range
  /-- The records are no pre-order vector (log entry 8). -/
  | malformed
deriving DecidableEq, Repr

/-! ## Operations (44_polar_decode.md R229 to R236); `a0`, `a1` are the halves of α -/

/-- One element of `f_op` (R230). -/
def fMin (x y : Int) : Int :=
  let m : Int := min x.natAbs y.natAbs
  if signbit x ≠ signbit y then -m else m

/-- `f_op` (R230). -/
def fOp (a0 a1 : List Int) : List Int := List.zipWith fMin a0 a1

/-- `f_op_r1`: the exclusive-or of the LLRW-bit patterns, read as signed (R231). -/
def fOpR1 (llrw : Nat) (a0 a1 : List Int) : List Int :=
  List.zipWith (fun x y => (BitVec.ofInt llrw x ^^^ BitVec.ofInt llrw y).toInt) a0 a1

/-- The range check of the g operations, on the exact results (R227, R232). -/
def checkRange (maxl : Nat) (xs : List Int) : Except DecodeStop (List Int) :=
  if xs.all fun x => decide (x.natAbs ≤ maxl) then .ok xs else .error .range

/-- `g_op` (R232): `a1 + a0` where the left bit is 0, `a1 − a0` where it is 1. -/
def gOp (maxl : Nat) (a0 a1 : List Int) (bl : List Bool) : Except DecodeStop (List Int) :=
  checkRange maxl
    (List.zipWith (fun (x : Int × Int) b => x.2 + (1 - 2 * (if b then 1 else 0)) * x.1)
      (a0.zip a1) bl)

/-- `g_op_0` (R233). -/
def gOp0 (maxl : Nat) (a0 a1 : List Int) : Except DecodeStop (List Int) :=
  checkRange maxl (List.zipWith (fun x y => y + x) a0 a1)

/-- `g_op_1` (R234). -/
def gOp1 (maxl : Nat) (a0 a1 : List Int) : Except DecodeStop (List Int) :=
  checkRange maxl (List.zipWith (fun x y => y - x) a0 a1)

/-- `h_op` (R235). -/
def hOp (bl br : List Bool) : List Bool := List.zipWith (· ^^ ·) bl br ++ br

/-- `h_op_0` (R236). -/
def hOp0 (br : List Bool) : List Bool := br ++ br

/-! ## Leaves (44_polar_decode.md R239 to R243) -/

/-- Rate-0 leaf (R240). -/
def leafRate0 (nv : Nat) : List Bool := List.replicate nv false

/-- Rate-1 leaf (R241). -/
def leafRate1 (α : List Int) : List Bool := α.map signbit

/-- Repetition leaf, the sum exact (R242). -/
def leafRep (α : List Int) : List Bool := α.map fun _ => signbit α.sum

/-- The smallest index whose magnitude is the least (R243). -/
def leastReliable (α : List Int) : Nat :=
  α.findIdx fun x => α.all fun y => decide (x.natAbs ≤ y.natAbs)

/-- SPC leaf (R243). -/
def leafSpc (α : List Int) : List Bool :=
  let β := α.map signbit
  if β.foldl (· ^^ ·) false then β.modify (leastReliable α) (!·) else β

/-- The β of a leaf of a class; none for a Standard node (R239, R245). -/
def leaf (t : NodeTag) (nv : Nat) (α : List Int) : Option (List Bool) :=
  match t with
  | .rate0 => some (leafRate0 nv)
  | .rate1 => some (leafRate1 α)
  | .rep => some (leafRep α)
  | .spc => some (leafSpc α)
  | .standard => none

/-! ## The walk over TREE (44_polar_decode.md R245, R246) -/

/-- The class of the next record. -/
def headTag : List NodeRecord → Option NodeTag
  | [] => none
  | r :: _ => some r.tag

/-- The left LLRs of a Standard node: `f_op_r1` when the left child is Rate-1 (R245 step 3). -/
def leftLlrs (llrw : Nat) (tl : NodeTag) (a0 a1 : List Int) : List Int :=
  if tl = .rate1 then fOpR1 llrw a0 a1 else fOp a0 a1

/-- The right LLRs of a Standard node: the selective g when the left child is Repetition
(R245 step 5). -/
def rightLlrs (maxl : Nat) (tl : NodeTag) (a0 a1 : List Int) (bl : List Bool) :
    Except DecodeStop (List Int) :=
  if tl = .rep then (if bl.headD false then gOp1 maxl a0 a1 else gOp0 maxl a0 a1)
  else gOp maxl a0 a1 bl

/-- `dec(lo, Nv, α)` with `Nv = 2^n`, reading the classes from the records as R246 says: a node's own
record, then its left child's, then, after the left subtree, its right child's. Answers β and the
records that follow the subtree. -/
def decTree (llrw : Nat) : Nat → List Int → List NodeRecord →
    Except DecodeStop (List Bool × List NodeRecord)
  | _, _, [] => .error .malformed
  | 0, α, r :: rs =>
    if r.size ≠ 1 then .error .malformed
    else
      match leaf r.tag 1 α with
      | some β => .ok (β, rs)
      | none => .error .malformed
  | n + 1, α, r :: rs =>
    if r.size ≠ 2 ^ (n + 1) then .error .malformed
    else
      match leaf r.tag (2 ^ (n + 1)) α with
      | some β => .ok (β, rs)
      | none =>
        let a0 := α.take (2 ^ n)
        let a1 := α.drop (2 ^ n)
        let maxl := 2 ^ (llrw - 1) - 1
        match rs with
        | [] => .error .malformed
        | l :: rs' =>
          if l.tag = .rate0 then
            if headTag rs' = some .rate0 then .ok (leafRate0 (2 ^ (n + 1)), rs'.tail)
            else do
              let αr ← gOp0 maxl a0 a1
              let right ← decTree llrw n αr rs'
              .ok (hOp0 right.1, right.2)
          else do
            let left ← decTree llrw n (leftLlrs llrw l.tag a0 a1) (l :: rs')
            if headTag left.2 = some .rate0 ∧ l.tag ≠ .standard then
              .ok (left.1 ++ leafRate0 (2 ^ n), left.2.tail)
            else do
              let αr ← rightLlrs maxl l.tag a0 a1 left.1
              let right ← decTree llrw n αr left.2
              .ok (hOp left.1 right.1, right.2)

/-- The records that words of TREE hold; none if one holds a tag that is never written. -/
def recordsOfElems : List Word64 → Option (List NodeRecord)
  | [] => some []
  | v :: vs =>
    match recordOfElem v, recordsOfElems vs with
    | some r, some rs => some (r :: rs)
    | _, _ => none

/-- Decode the root LLRs α by the records of TREE (44_polar_decode.md R226 from "some α[i]" on, with
the faults of R227), and hand β on. -/
def decodeRoot (i : Instr) (α : List Int) (s : State) (run : List Bool → State → Result) : Result :=
  if α.any fun x => decide (x = -(2 ^ (s.par.llrw - 1) : Int)) then commandFault i .llrRange 1 s
  else
    let tree := gather .tree 0 s.regs.pcNnodes.toNat s
    match recordsOfElems tree.1 with
    | none => .fault .treeMalformed
    | some recs =>
      match decTree s.par.llrw (log2 s.regs.pcN.toNat) α recs with
      | .error .malformed => .fault .treeMalformed
      | .error .range => commandFault i .llrRange 2 tree.2
      | .ok (β, _) => run β tree.2

/-- Write BETA[0 .. N) and DO[0 .. K/8) from β (44_polar_decode.md R226, R258). -/
def writeDecision (β : List Bool) (s : State) : State :=
  let didx := gather .didx 0 s.regs.pcK.toNat s
  let out := (indicesOfElems didx.1).map fun d => β.getD d false
  (didx.2.write .beta 0 (β.map elemOfBit)).write .dout 0 (packElems out)

/-- The elements PDEC_LOAD writes to LLR[0 .. N): +1 or −1 for each received bit, then `init_short`
for the shortened tail (44_polar_decode.md R223). -/
def loadedLlrs (llrw N M : Nat) (initshort : Word64) (bits : List Bool) : List Word64 :=
  (bits.take M).map (fun r => elemOfLlr llrw (if r then -1 else 1)) ++
    List.replicate (N - M) (truncTo llrw initshort)

/-- Read DI[0 .. M/8) and expand it to LLR elements (44_polar_decode.md R223). -/
def expandReceived (s : State) : List Word64 × State :=
  let di := gather .di 0 (s.regs.pcM.toNat / 8) s
  (loadedLlrs s.par.llrw s.regs.pcN.toNat s.regs.pcM.toNat s.regs.pcInitshort (unpackElems di.1),
    di.2)

/-- PDEC_LOAD (44_polar_decode.md R223). -/
def execPdecLoad (s : State) : Result :=
  whenConfigured .polar .pdecLoad s fun s =>
    let r := expandReceived s
    .next (r.2.write .llr 0 r.1)

/-- PDEC_RUN (44_polar_decode.md R226). -/
def execPdecRun (s : State) : Result :=
  whenConfigured .polar .pdecRun s fun s =>
    let llr := gather .llr 0 s.regs.pcN.toNat s
    decodeRoot .pdecRun (llr.1.map (llrOfElem s.par.llrw)) llr.2 fun β s' =>
      .next (writeDecision β s')

/-- PDEC, the fused decode (44_polar_decode.md R260): the writes of PDEC_LOAD and the steps of
PDEC_RUN as one command, so that a fault leaves LLR as it was (60_exceptions.md R333). -/
def execPdec (s : State) : Result :=
  whenConfigured .polar .pdec s fun s =>
    let r := expandReceived s
    decodeRoot .pdec (r.1.map (llrOfElem s.par.llrw)) r.2 fun β s' =>
      .next (writeDecision β (s'.write .llr 0 r.1))

end Sys2Proof.Machine
end

