-- ==== Sys2Proof/Machine/ReedSolomon.lean ====
section
/-! DEFINITION. The Galois field and the Reed–Solomon codec, components C2 and C7 (45_gf_rs.md):
RS_CFG, GF_MUL, RS_ENC, RS_CHECK, RS_DEC. Field elements are unsigned integers below q (R280). -/

namespace Sys2Proof.Machine

/-! ## The field (45_gf_rs.md R273 to R278) -/

/-- `xtime(a)` (R274): multiply by x, reduce by PRIM when bit gm comes up. -/
def xtime (q prim a : Nat) : Nat :=
  let t := a <<< 1
  if t &&& q ≠ 0 then t ^^^ prim else t

/-- `a, xtime(a), xtime(xtime(a)), …`, `n` elements (R274). -/
def xtimeChain (q prim : Nat) : Nat → Nat → List Nat
  | 0, _ => []
  | n + 1, a => a :: xtimeChain q prim n (xtime q prim a)

/-- GALOG[0 .. 2q) (R274). -/
def galogTable (q prim : Nat) : List Nat := xtimeChain q prim (2 * q) 1

/-- GLOG[0 .. q) (R273): GLOG[GALOG[i]] = i for 1 ≤ i ≤ q − 1, and GLOG[0] = 0. -/
def glogTable (q : Nat) (galog : List Nat) : List Nat :=
  (List.range' 1 (q - 1)).foldl (fun t i => t.set (galog.getD i 0) i) (List.replicate q 0)

/-- The log and antilog tables. -/
structure GfTables where
  log : List Nat
  antilog : List Nat
deriving DecidableEq, Repr

/-- Both tables for a field (R273, R274). -/
def gfTables (q prim : Nat) : GfTables :=
  { log := glogTable q (galogTable q prim), antilog := galogTable q prim }

/-- `multiply(a, b)` (R277). -/
def gfMultiply (t : GfTables) (a b : Nat) : Nat :=
  if a = 0 ∨ b = 0 then 0 else t.antilog.getD (t.log.getD a 0 + t.log.getD b 0) 0

/-- One factor of the generator polynomial: `g` times (x + r), highest power first (R276). -/
def timesLinear (t : GfTables) (g : List Nat) (r : Nat) : List Nat :=
  List.zipWith (· ^^^ ·) (g ++ [0]) (0 :: g.map fun c => gfMultiply t c r)

/-- GEN[0 .. RP] (R276). -/
def generatorPoly (t : GfTables) (rp : Nat) : List Nat :=
  (List.range' 1 rp).foldl (fun g i => timesLinear t g (t.antilog.getD i 0)) [1]

/-! ## RS_CFG -/

/-- x is primitive modulo PRIM: the smallest i ≥ 1 with a_i = 1 is q − 1 (R272 check 3). -/
def xIsPrimitive (q prim : Nat) : Bool :=
  ((xtimeChain q prim q 1).drop 1).findIdx? (fun a => a == 1) == some (q - 2)

/-- The parameter checks of RS_CFG in their order, the sub-cause of the first that fails
(45_gf_rs.md R272). -/
def rsCheck (p : Params) (gm prim rp rn : Nat) : Option Byte :=
  if gm < 2 ∨ p.gmMax < gm then some 1
  else if 2 ^ (gm + 1) ≤ prim ∨ prim.testBit gm = false ∨ prim.testBit 0 = false then some 2
  else if xIsPrimitive (2 ^ gm) prim = false then some 3
  else if rp < 1 then some 4
  else if rn < 1 then some 5
  else if 2 ^ gm - 1 < rn + rp then some 6
  else if p.rbCap < rn + rp then some 7
  else none

/-- Field elements as elements of a byte space (10_state.md R61). -/
def elemsOfSymbols (xs : List Nat) : List Word64 := xs.map (BitVec.ofNat 64)

/-- The field elements that elements of a byte space hold. -/
def symbolsOfElems (vs : List Word64) : List Nat := vs.map BitVec.toNat

/-- What RS_CFG writes once its checks have passed (45_gf_rs.md R271). -/
def rsConfigure (s : State) : State :=
  let t := gfTables (2 ^ s.regs.rsGm.toNat) s.regs.rsPrim.toNat
  let s1 := s.write .galog 0 (elemsOfSymbols t.antilog)
  let s2 := s1.write .glog 0 (elemsOfSymbols t.log)
  let s3 := s2.write .gen 0 (elemsOfSymbols (generatorPoly t s.regs.rsRp.toNat))
  s3.withRegs (s.regs.putValid .rs true)

/-- RS_CFG (45_gf_rs.md R271). -/
def execRsCfg (s : State) : Result :=
  whenLegal
    (rsCheck s.par s.regs.rsGm.toNat s.regs.rsPrim.toNat s.regs.rsRp.toNat s.regs.rsRn.toNat)
    .rsCfg .rsCfgInvalid s fun s => .next (rsConfigure s)

/-! ## Arithmetic as the commands do it, on GLOG and GALOG -/

/-- `multiply(a, b)` reading GLOG and GALOG; an operand 0 makes no table access
(45_gf_rs.md R277, R281). R277 gives the product of field elements only: an operand not below q, which
is a second read of an unwritten symbol, gives a free value (log entry 16). -/
def multiplyFromTables (a b : Nat) (s : State) : Word64 × State :=
  if 2 ^ s.regs.rsGm.toNat ≤ a ∨ 2 ^ s.regs.rsGm.toNat ≤ b then draw (Space.galog.width s.par) s
  else if a = 0 ∨ b = 0 then (0, s)
  else
    let la := readElem .glog a s
    let lb := readElem .glog b la.2
    readElem .galog (la.1.toNat + lb.1.toNat) lb.2

/-- `evaluate(poly, x)`, Horner's method, highest power first (45_gf_rs.md R278). -/
def evaluateFromTables (poly : List Nat) (x : Nat) (s : State) : Nat × State :=
  foldReads (fun acc c s =>
    let r := multiplyFromTables acc x s
    (r.1.toNat ^^^ c, r.2)) 0 poly s

/-- One message symbol of the division register (45_gf_rs.md R279). -/
def divisionStep (gen rem : List Nat) (m : Nat) (s : State) : List Nat × State :=
  let products := mapReads (multiplyFromTables (m ^^^ rem.headD 0)) gen.tail s
  (List.zipWith (· ^^^ ·) (rem.tail ++ [0]) (symbolsOfElems products.1), products.2)

/-- `remainder(message, generator)` (45_gf_rs.md R279). -/
def remainderFromTables (gen message : List Nat) (s : State) : List Nat × State :=
  foldReads (divisionStep gen) (List.replicate (gen.length - 1) 0) message s

/-! ## GF_MUL -/

/-- GF_MUL (45_gf_rs.md R281). -/
def execGfMul (s : State) : Result :=
  whenConfigured .rs .gfMul s fun s =>
    let a := s.regs.gfA.toNat
    let b := s.regs.gfB.toNat
    if 2 ^ s.regs.rsGm.toNat ≤ a ∨ 2 ^ s.regs.rsGm.toNat ≤ b then
      commandFault .gfMul .gfSymbolRange 1 s
    else
      let r := multiplyFromTables a b s
      .next (r.2.withRegs { r.2.regs with gfR := r.1 })

/-! ## RS_ENC -/

/-- RB[0 .. n) as one place of a rule reads it. -/
def readSymbols (n : Nat) (s : State) : List Nat × State :=
  let rb := gather .rb 0 n s
  (symbolsOfElems rb.1, rb.2)

/-- Test every symbol of RB[0 .. n) against q before anything is written (45_gf_rs.md R282). What runs
then reads RB again (10_state.md R65; log entry 4). -/
def whenSymbols (i : Instr) (n : Nat) (s : State) (run : State → Result) : Result :=
  let tested := readSymbols n s
  if tested.1.any fun x => decide (2 ^ s.regs.rsGm.toNat ≤ x) then
    commandFault i .gfSymbolRange 2 tested.2
  else run tested.2

/-- RS_ENC once its checks have passed (45_gf_rs.md R284). -/
def rsEncode (s : State) : State :=
  let message := readSymbols s.regs.rsRn.toNat s
  let gen := gather .gen 0 (s.regs.rsRp.toNat + 1) message.2
  let rem := remainderFromTables (symbolsOfElems gen.1) message.1 gen.2
  rem.2.write .rb s.regs.rsRn.toNat (elemsOfSymbols rem.1)

/-- RS_ENC (45_gf_rs.md R284). -/
def execRsEnc (s : State) : Result :=
  whenConfigured .rs .rsEnc s fun s =>
    whenSymbols .rsEnc s.regs.rsRn.toNat s fun s => .next (rsEncode s)

/-! ## RS_CHECK and RS_DEC -/

/-- How many symbols a received word has (45_gf_rs.md R287). -/
def wordLength (g : Regs) : Nat := g.rsRn.toNat + g.rsRp.toNat

/-- S_j: RB[0 .. RN+RP) and GALOG[j], read for this `j`, and `evaluate` (45_gf_rs.md R287). -/
def readSyndrome (j : Nat) (s : State) : Nat × State :=
  let word := readSymbols (wordLength s.regs) s
  let x := readElem .galog j word.2
  evaluateFromTables word.1 x.1.toNat x.2

/-- S_1 … S_RP (45_gf_rs.md R287). -/
def readSyndromes (s : State) : List Nat × State :=
  mapReads readSyndrome (List.range' 1 s.regs.rsRp.toNat) s

/-- The writes of RS_CHECK: SYN, RS_MAXSYN, STATUS.RS_ZERO (45_gf_rs.md R287). -/
def writeSyndromes (s : State) : State :=
  let syn := readSyndromes s
  let top := syn.1.foldl max 0
  (syn.2.write .syn 0 (elemsOfSymbols syn.1)).withRegs
    (({ s.regs with rsMaxsyn := BitVec.ofNat 64 top } : Regs).putRsZero (top == 0))

/-- RS_CHECK (45_gf_rs.md R287). -/
def execRsCheck (s : State) : Result :=
  whenConfigured .rs .rsCheck s fun s =>
    whenSymbols .rsCheck (wordLength s.regs) s fun s => .next (writeSyndromes s)

/-- The write of RS_DECSTAT (45_gf_rs.md R290). -/
def writeDecstat (s : State) : State :=
  s.withRegs { s.regs with rsDecstat := if s.regs.rsMaxsyn = 0 then 0 else 1 }

/-- RS_DEC: exactly the steps of RS_CHECK, faults included, then RS_DECSTAT (45_gf_rs.md R290). -/
def execRsDec (s : State) : Result :=
  whenConfigured .rs .rsDec s fun s =>
    whenSymbols .rsDec (wordLength s.regs) s fun s => .next (writeDecstat (writeSyndromes s))

end Sys2Proof.Machine
end

