-- ==== Sys2Proof/Machine/System.lean ====
section
/-! DEFINITION. The system commands (46_system.md): NOP and SRESET. -/

namespace Sys2Proof.Machine

/-- NOP: no state changes (46_system.md R320). -/
def execNop (s : State) : Result := .next s

/-- SRESET: every register to its reset value, every space unspecified; the same effect as the
hardware reset (46_system.md R321). It tests nothing: it is accepted while FAULTED too. -/
def execSreset (s : State) : Result := .next (resetBlock s)

end Sys2Proof.Machine
end

