-- ==== Sys2Proof/Machine/Dispatch.lean ====
section
/-! DEFINITION. The meaning of every command: one arm a constructor (30_encoding.md R93). -/

namespace Sys2Proof.Machine

/-- The rule of a command, on a block that is not FAULTED (60_exceptions.md R348 (3), (4)). -/
def exec (i : Instr) (s : State) : Host.Outcome State Fault Refusal :=
  match i with
  | .nop => Sys2Proof.Machine.execNop s
  | .sreset => Sys2Proof.Machine.execSreset s
  | .ilvCfg => Sys2Proof.Machine.execIlvCfg s
  | .ilvFwd => Sys2Proof.Machine.execIlvFwd s
  | .ilvRev => Sys2Proof.Machine.execIlvRev s
  | .pcCfg => Sys2Proof.Machine.execPcCfg s
  | .penc => Sys2Proof.Machine.execPenc s
  | .pdecLoad => Sys2Proof.Machine.execPdecLoad s
  | .pdecRun => Sys2Proof.Machine.execPdecRun s
  | .pdec => Sys2Proof.Machine.execPdec s
  | .rsCfg => Sys2Proof.Machine.execRsCfg s
  | .gfMul => Sys2Proof.Machine.execGfMul s
  | .rsEnc => Sys2Proof.Machine.execRsEnc s
  | .rsCheck => Sys2Proof.Machine.execRsCheck s
  | .rsDec => Sys2Proof.Machine.execRsDec s

end Sys2Proof.Machine
end

