-- ==== Sys2Proof/Machine/Port.lean ====
section
/-! DEFINITION. The host port (20_memory.md R70): the four accesses with their faults
(60_exceptions.md R346), issuing a command (60_exceptions.md R348), the hardware reset
(70_reset_and_hazards.md R370), and the host-script shorthands (30_encoding.md R96, R97). -/

namespace Sys2Proof.Machine

/-- A host access that cannot be performed (60_exceptions.md R346): FAULT.OP is 0. -/
def hostFault (sub : Byte) (s : State) : State := raiseFault .hostAccess sub 0 s

/-- A write of `v` to CMD, in the order of tests of 60_exceptions.md R348: while FAULTED only exactly
SRESET executes (R335); then decoding (R340); then the command's own rule. -/
def issueCommand (v : Word64) (s : State) : Result :=
  if s.regs.faulted then
    if v = 0x0000000000000001 then exec .sreset s else .next s
  else
    match decode v with
    | .error _ => .next (raiseFault .illegalCmd 0 (v.setWidth 8) s)
    | .ok i => exec i s

/-- `HRegRead(no)` (20_memory.md R70, 60_exceptions.md R346). -/
def hostRegRead (no : Byte) (s : State) : State :=
  match regOfNo no with
  | none => (hostFault 1 s).returning 0
  | some r => s.returning (r.read s.par s.regs)

/-- `HRegWrite(no, v)` (20_memory.md R70, 60_exceptions.md R346, 10_state.md R23, R47). -/
def hostRegWrite (no : Byte) (v : Word64) (s : State) : Result :=
  match regOfNo no with
  | none => .next (hostFault 1 s)
  | some r =>
    match r.cls with
    | .ro => .next (hostFault 2 s)
    | .roConst => .next (hostFault 2 s)
    | .wo => issueCommand v s
    | .rw => .next (s.withRegs (r.hostWrite s.regs v))

/-- `HBufRead(space, index)` (20_memory.md R70, 60_exceptions.md R346, 10_state.md R64, R65). -/
def hostBufRead (space index : Nat) (s : State) : State :=
  match spaceOfNo space with
  | none => (hostFault 3 s).returning 0
  | some sp =>
    if sp.capacity s.par ≤ index then (hostFault 4 s).returning 0
    else
      let r := readElem sp index s
      r.2.returning (sp.extend s.par r.1)

/-- `HBufWrite(space, index, v)`: unknown space, then Table, then index (60_exceptions.md R346,
10_state.md R64). -/
def hostBufWrite (space index : Nat) (v : Word64) (s : State) : State :=
  match spaceOfNo space with
  | none => hostFault 3 s
  | some sp =>
    match sp.kind with
    | .table => hostFault 5 s
    | .data =>
      if sp.capacity s.par ≤ index then hostFault 4 s else s.write sp index [v]

/-- One host input (70_reset_and_hazards.md R384, R386). -/
def hostStep (x : HostInput) (s : State) : Result :=
  match x with
  | .regRead no => .next (hostRegRead no s)
  | .regWrite no v => hostRegWrite no v s
  | .bufRead space index => .next (hostBufRead space index s)
  | .bufWrite space index v => .next (hostBufWrite space index v s)
  | .hwReset => .next (resetBlock s)

/-- One step: the next host input; with none pending the block is idle (20_memory.md R78, log
entry 1). -/
def stepHost (s : State) : Result :=
  match s.pending with
  | [] => .next s
  | x :: rest => hostStep x { s with pending := rest }

/-- The state in which the next input is the write of a command word to CMD: `CMD` of
30_encoding.md R96 put in front of the pending inputs (log entry 1). -/
def placeCommand (s : State) (v : Word64) : State :=
  { s with pending := .regWrite 0x03 v :: s.pending }

/-! ## Host scripts (30_encoding.md R96, R97) -/

/-- `WR REG, v`. -/
def scriptWr (r : Reg) (v : Word64) : HostInput := .regWrite r.no v

/-- `RD REG`. -/
def scriptRd (r : Reg) : HostInput := .regRead r.no

/-- `BW SPACE[i], v`. -/
def scriptBw (sp : Space) (i : Nat) (v : Word64) : HostInput := .bufWrite sp.no i v

/-- `BR SPACE[i]`. -/
def scriptBr (sp : Space) (i : Nat) : HostInput := .bufRead sp.no i

/-- `CMD MNEMONIC`. -/
def scriptCmd (i : Instr) : HostInput := .regWrite 0x03 ((encode i).setWidth 64)

/-- `BWS SPACE[i..], v0, v1, …` (30_encoding.md R97). -/
def scriptBws (sp : Space) (i : Nat) (vs : List Word64) : List HostInput :=
  vs.mapIdx fun j v => scriptBw sp (i + j) v

end Sys2Proof.Machine
end

