-- ==== Sys2Proof/Machine/Step.lean ====
section
/-! DEFINITION. The step of the machine (70_reset_and_hazards.md R386): one host access. -/

namespace Sys2Proof.Machine

/-- One step = one host input (70_reset_and_hazards.md R386). -/
def step (s : State) : Host.Outcome State Fault Refusal := stepHost s

/-- `s` with the command word `w` of a row of `nbits` bits as the next host input: a write of it to
CMD (10_state.md R27), put in front of the inputs that were pending. -/
def State.withFetchWord (s : State) (nbits w : Nat) : State :=
  placeCommand s (BitVec.ofNat 64 (w % 2 ^ nbits))

end Sys2Proof.Machine
end

