-- ==== Sys2Proof/Machine/Reference.lean ====
section
/-! DEFINITION. The second definitions the spec gives beside the mechanisms: the bit-level interleaver
(41_interleaver.md R143, R152), `chunk`, `evaluate` and `remainder` as functions of words and symbols
that have been read (41_interleaver.md R141, 45_gf_rs.md R278, R279), the selection by rank (42_polar_construct.md R175), the closed form of
the transform (43_polar_encode.md R203), the decoder by `classify` and the generic decoder
(44_polar_decode.md R245, R250), the long-division remainder (45_gf_rs.md R279), and the spec's tables in
the form the statements use: the rows of the check tables (41 R132, 42 R172, 45 R272) and what each
command writes (10_state.md R50, R34, R40, R46). No meaning calls them; statements compare the mechanisms
with them. -/

namespace Sys2Proof.Machine

/-! ## Interleaver -/

/-- Bit `t` of stream `p` in the words of IW (10_state.md R51). -/
def streamBit {B : Nat} (iw : List (Word B)) (k p t : Nat) : Bool :=
  wbit (iw.getD (t / B * k + p) 0#B) (t % B)

/-- `chunk(p, it)` of words `iw` (41_interleaver.md R141). -/
def chunk {B : Nat} (iw : List (Word B)) (k c p it : Nat) : Word B :=
  let coarse := it * c / B * k
  packChunk c (it * c % B) (iw.getD (coarse + p) 0#B) (iw.getD (coarse + p + k) 0#B)

/-- The emission order: the pairs (t, p) with PM.test((t mod C)·k + p) = 1, by t and then by p
(41_interleaver.md R143). -/
def emissionOrder (pm : Word64) (k c nbits : Nat) : List (Nat × Nat) :=
  (List.range nbits).flatMap fun t =>
    ((List.range k).filter fun p => pmTest pm (t % c * k + p)).map fun p => (t, p)

/-- The output bits of ILV_FWD, bit-level (41_interleaver.md R143). -/
def forwardReference {B : Nat} (iw : List (Word B)) (pm : Word64) (k c nbits : Nat) : List Bool :=
  (emissionOrder pm k c nbits).map fun x => streamBit iw k x.2 x.1

/-- Where the pair (t, p) is emitted: (t div C)·ones + PM.sum((t mod C)·k + p)
(41_interleaver.md R143). -/
def emissionIndex (pm : Word64) (L k t p : Nat) : Nat :=
  t / (L / k) * pmOnes pm L + pmSum pm (t % (L / k) * k + p)

/-- Bit `t` of stream `p` after ILV_REV, bit-level (41_interleaver.md R152); `y` are the bits of IB
and `nbits` is 8·BlockSize. -/
def reverseReferenceBit (y : List Bool) (pm : Word64) (L k nbits t p : Nat) : Bool :=
  if t < nbits ∧ pmTest pm (t % (L / k) * k + p) then y.getD (emissionIndex pm L k t p) false
  else false

/-! ## Polar code -/

/-- How many positions below `M` come before `i` by the key (z[i], i) (42_polar_construct.md R175). -/
def scoreRank (z : List Int) (M i : Nat) : Nat :=
  (List.range M).countP fun j =>
    decide (z.getD j 0 < z.getD i 0) || (decide (z.getD j 0 = z.getD i 0) && decide (j < i))

/-- Bit `j` after `transform`, closed form: the XOR of buf[i] over all i with i & j = j
(43_polar_encode.md R203). -/
def transformClosed (N : Nat) (buf : List Bool) (j : Nat) : Bool :=
  ((List.range N).filter fun i => i &&& j == j).foldl (fun x i => x ^^ buf.getD i false) false

/-- `dec(lo, Nv, α)` with `Nv = 2^n`, by `classify` (44_polar_decode.md R245). -/
def decNode (llrw : Nat) (D : List Nat) : Nat → Nat → List Int → Except DecodeStop (List Bool)
  | 0, lo, α =>
    match leaf (classify D lo 1) 1 α with
    | some β => .ok β
    | none => .error .malformed
  | n + 1, lo, α =>
    match leaf (classify D lo (2 ^ (n + 1))) (2 ^ (n + 1)) α with
    | some β => .ok β
    | none =>
      let a0 := α.take (2 ^ n)
      let a1 := α.drop (2 ^ n)
      let maxl := 2 ^ (llrw - 1) - 1
      let tl := classify D lo (2 ^ n)
      let tr := classify D (lo + 2 ^ n) (2 ^ n)
      if tl = .rate0 then
        if tr = .rate0 then .ok (leafRate0 (2 ^ (n + 1)))
        else do
          let αr ← gOp0 maxl a0 a1
          let βr ← decNode llrw D n (lo + 2 ^ n) αr
          .ok (hOp0 βr)
      else do
        let βl ← decNode llrw D n lo (leftLlrs llrw tl a0 a1)
        if tr = .rate0 ∧ tl ≠ .standard then .ok (βl ++ leafRate0 (2 ^ n))
        else do
          let αr ← rightLlrs maxl tl a0 a1 βl
          let βr ← decNode llrw D n (lo + 2 ^ n) αr
          .ok (hOp βl βr)

/-- `dec_generic(lo, Nv, α)` with `Nv = 2^n`: no leaf recogniser and no dispatcher
(44_polar_decode.md R250). -/
def decGeneric (maxl : Nat) (D : List Nat) : Nat → Nat → List Int → Except DecodeStop (List Bool)
  | 0, lo, α => .ok [D.contains lo && signbit (α.headD 0)]
  | n + 1, lo, α => do
    let a0 := α.take (2 ^ n)
    let a1 := α.drop (2 ^ n)
    let βl ← decGeneric maxl D n lo (fOp a0 a1)
    let αr ← gOp maxl a0 a1 βl
    let βr ← decGeneric maxl D n (lo + 2 ^ n) αr
    .ok (hOp βl βr)

/-! ## Reed–Solomon -/

/-- `evaluate(poly, x)`, Horner's method, highest power first (R278). -/
def evaluatePoly (t : GfTables) (poly : List Nat) (x : Nat) : Nat :=
  poly.foldl (fun acc c => gfMultiply t acc x ^^^ c) 0

/-- One message symbol of the division register (R279). -/
def remainderStep (t : GfTables) (gen rem : List Nat) (m : Nat) : List Nat :=
  let fb := m ^^^ rem.headD 0
  List.zipWith (fun r g => r ^^^ gfMultiply t fb g) (rem.tail ++ [0]) gen.tail

/-- `remainder(message, generator)` (R279). -/
def remainderPoly (t : GfTables) (gen message : List Nat) : List Nat :=
  message.foldl (remainderStep t gen) (List.replicate (gen.length - 1) 0)

/-- S_1 … S_RP of a word of field elements (45_gf_rs.md R287). -/
def syndromes (t : GfTables) (word : List Nat) (rp : Nat) : List Nat :=
  (List.range' 1 rp).map fun j => evaluatePoly t word (t.antilog.getD j 0)

/-- One step of the long division in place: with c the coefficient `i`, XOR c·GEN[j] into coefficient
i + j for j = 1 … RP (45_gf_rs.md R279). -/
def longDivisionStep (t : GfTables) (gen work : List Nat) (i : Nat) : List Nat :=
  let c := work.getD i 0
  work.mapIdx fun m w =>
    if i < m ∧ m < i + gen.length then w ^^^ gfMultiply t c (gen.getD (m - i) 0) else w

/-- The remainder by long division: the message and RP zeros, divided in place, the last RP
coefficients (45_gf_rs.md R279). -/
def longDivisionRemainder (t : GfTables) (gen message : List Nat) : List Nat :=
  ((List.range message.length).foldl (longDivisionStep t gen)
    (message ++ List.replicate (gen.length - 1) 0)).drop message.length

/-! ## The rows of the check tables -/

/-- Row `n` of the table of 41_interleaver.md R132 fails. -/
def ilvFails (p : Params) (k L : Nat) (pm : Word64) (bs : Nat) : Nat → Prop
  | 1 => bs = 0
  | 2 => k < 2
  | 3 => L = 0 ∨ ¬ k ∣ L
  | 4 => p.pmMax < L ∨ ∃ i, L ≤ i ∧ pm.getLsbD i = true
  | 5 => p.b < (List.range 64).countP pm.getLsbD ∨ p.b < L / k
  | 6 => ¬ L / k ∣ bs
  | 7 => p.iwCap < k * ((bs + p.b / 8 - 1) / (p.b / 8)) ∨
      p.ibCap < bs * (List.range 64).countP pm.getLsbD / (L / k)
  | 8 => ∃ q < k, ∃ j < L / k, rowTest pm k q j = true ∧
      (pmSum pm (j * k + q) < j ∨
        ∃ i < j, rowTest pm k q i = true ∧ pmSum pm (j * k + q) + i < pmSum pm (i * k + q) + j)
  | _ => False

/-- Row `n` of the table of 42_polar_construct.md R172 fails. -/
def pcFails (p : Params) (N M K : Nat) (snr : Int) (ls : Nat) : Nat → Prop
  | 1 => (¬ ∃ e, N = 2 ^ e) ∨ N < 8
  | 2 => 2 ^ p.lognMax < N
  | 3 => ¬ 8 ∣ M ∨ N < M
  | 4 => K < 1 ∨ ¬ 8 ∣ K ∨ M < K
  | 5 => snr < -32768 ∨ 32767 < snr
  | 6 => ls ≠ 1
  | _ => False

/-- `α^i`, the element x multiplied `i` times (45_gf_rs.md R274). -/
def alphaPow (gm prim i : Nat) : Nat := (xtime (2 ^ gm) prim)^[i] 1

/-- Row `n` of the table of 45_gf_rs.md R272 fails. -/
def rsFails (p : Params) (gm prim rp rn : Nat) : Nat → Prop
  | 1 => gm < 2 ∨ p.gmMax < gm
  | 2 => 2 ^ (gm + 1) ≤ prim ∨ prim.testBit gm = false ∨ prim.testBit 0 = false
  | 3 => ¬ (alphaPow gm prim (2 ^ gm - 1) = 1 ∧
      ∀ i, 1 ≤ i → i < 2 ^ gm - 1 → alphaPow gm prim i ≠ 1)
  | 4 => rp < 1
  | 5 => rn < 1
  | 6 => 2 ^ gm - 1 < rn + rp
  | 7 => p.rbCap < rn + rp
  | _ => False

/-- `prim` is a polynomial of degree `gm ≥ 2` with constant term 1, modulo which x is primitive: rows 1
to 3 of 45_gf_rs.md R272, but for GM_MAX. -/
structure PrimitivePoly (gm prim : Nat) : Prop where
  degree : 2 ≤ gm
  bounded : prim < 2 ^ (gm + 1)
  top : prim.testBit gm = true
  const : prim.testBit 0 = true
  full : alphaPow gm prim (2 ^ gm - 1) = 1
  least : ∀ i, 1 ≤ i → i < 2 ^ gm - 1 → alphaPow gm prim i ≠ 1

/-! ## What each command writes, when it raises no fault and is no reset -/

/-- Column `Written by` of 10_state.md R50, read by command. -/
def writesSpaces : Instr → List Space
  | .nop => []
  | .sreset => allSpaces
  | .ilvCfg => [.isch]
  | .ilvFwd => [.ib]
  | .ilvRev => [.iw]
  | .pcCfg => [.bhat, .didx, .tree]
  | .penc => [.po]
  | .pdecLoad => [.llr]
  | .pdecRun => [.beta, .dout]
  | .pdec => [.llr, .beta, .dout]
  | .rsCfg => [.glog, .galog, .gen]
  | .gfMul => []
  | .rsEnc => [.rb]
  | .rsCheck => [.syn]
  | .rsDec => [.syn]

/-- The registers a command other than SRESET writes, STATUS and FAULT apart (10_state.md R34, R40,
R46). -/
def writesRegs : Instr → List Reg
  | .nop => []
  | .sreset => []
  | .ilvCfg => [.ilvC, .ilvOnes, .ilvNin, .ilvNout, .ilvNiter, .ilvInlen, .ilvOutlen]
  | .ilvFwd => []
  | .ilvRev => []
  | .pcCfg => [.pcLogn, .pcInitshort, .pcNnodes]
  | .penc => []
  | .pdecLoad => []
  | .pdecRun => []
  | .pdec => []
  | .rsCfg => []
  | .gfMul => [.gfR]
  | .rsEnc => []
  | .rsCheck => [.rsMaxsyn]
  | .rsDec => [.rsMaxsyn, .rsDecstat]

/-- The bits of STATUS a command other than SRESET can change (10_state.md R25): its engine's VALID
bit, RS_ZERO, and FAULTED for a command that can fault. -/
def writesStatus : Instr → Word64
  | .nop => 0x00
  | .sreset => 0x00
  | .ilvCfg => 0x81
  | .ilvFwd => 0x80
  | .ilvRev => 0x80
  | .pcCfg => 0x82
  | .penc => 0x80
  | .pdecLoad => 0x80
  | .pdecRun => 0x80
  | .pdec => 0x80
  | .rsCfg => 0x84
  | .gfMul => 0x80
  | .rsEnc => 0x80
  | .rsCheck => 0x90
  | .rsDec => 0x90

end Sys2Proof.Machine
end

