-- ==== Sys2Proof/Safety.lean ====
section
/-! DEFINITION. The terms the statements use: what a space holds, what stays the same, and what a good
state is (the invariant of FEC-1 CORE). -/

namespace Sys2Proof.Machine

/-! ## What a space holds -/

/-- The elements `lo, lo+1, …` of a space are written and hold `vs`. -/
abbrev State.holds (s : State) (sp : Space) (lo : Nat) (vs : List Word64) : Prop :=
  (List.range' lo vs.length).map (s.elem? sp) = vs.map some

/-- Every element of `sp[lo .. lo+n)` is written. -/
abbrev State.written (s : State) (sp : Space) (lo n : Nat) : Prop :=
  ∀ i ∈ List.range' lo n, (s.elem? sp i).isSome = true

/-- The values of `sp[lo .. lo+n)`, 0 where unwritten (used where `written` holds). -/
def State.values (s : State) (sp : Space) (lo n : Nat) : List Word64 :=
  (List.range' lo n).map fun i => (s.elem? sp i).getD 0

/-! ## What stays the same -/

/-- The model's own fields but the count of draws are the same. -/
def SamePort (s t : State) : Prop :=
  t.par = s.par ∧ t.pending = s.pending ∧ t.returned = s.returned

/-- Every element outside `W` is the same, written or not. -/
def SameElemsBut (s t : State) (W : Space → Nat → Prop) : Prop :=
  ∀ sp i, ¬ W sp i → t.elem? sp i = s.elem? sp i

/-- Nothing but FAULT and STATUS.FAULTED differs, and they record this fault as the first one does
(60_exceptions.md R333): the elements, the other registers and the other bits of STATUS are the same.
`draws` may have counted reads of unwritten elements. -/
def FaultRecorded (s t : State) (cause sub op : Nat) : Prop :=
  SamePort s t ∧ t.mem = s.mem ∧
    t.regs = { s.regs with
      fault := BitVec.ofNat 64 (op * 2 ^ 16 + sub * 2 ^ 8 + cause)
      status := s.regs.status ||| 0x80 }

/-- Nothing but `sp[lo .. lo + vs.length)` changes, and it holds `vs`. `draws` may have counted reads of
unwritten elements. -/
def WroteOnly (s t : State) (sp : Space) (lo : Nat) (vs : List Word64) : Prop :=
  SamePort s t ∧ t.regs = s.regs ∧ t.holds sp lo vs ∧
    SameElemsBut s t fun sp' i => sp' = sp ∧ lo ≤ i ∧ i < lo + vs.length

/-- The effect of a host access that cannot be performed (60_exceptions.md R334, R346): the fault is
recorded with cause HOST_ACCESS and OP 0 if none is recorded yet, else nothing changes. -/
def HostFaulted (s t : State) (sub : Nat) : Prop :=
  (s.regs.faulted = true → t = s) ∧ (s.regs.faulted = false → FaultRecorded s t 3 sub 0)

/-- The word of ISCH at `i` is written and has its set positions exactly where `P` says. -/
def MaskAt (t : State) (i : Nat) (P : Nat → Prop) : Prop :=
  ∃ w, t.elem? .isch i = some w ∧ ∀ x < t.par.b, (wbit (w.setWidth t.par.b) x = true ↔ P x)

/-! ## Good states -/

/-- STATUS and FAULT read as 10_state.md R25, R26 say: reserved bits 0, FAULTED exactly when FAULT is
not 0, FAULT's bits 63:24 zero. -/
def StatusLegal (g : Regs) : Prop :=
  g.status &&& 0xFFFFFFFFFFFFFF68 = 0 ∧ (g.faulted = true ↔ g.fault ≠ 0) ∧
    g.fault.extractLsb' 24 40 = 0#40

/-- Every listed element exists and fits its width (10_state.md R50, R64). -/
def ElementsFit (s : State) : Prop :=
  ∀ sp, ∀ x ∈ s.mem.cells sp, x.1 < sp.capacity s.par ∧ x.2.toNat < 2 ^ sp.width s.par

/-- The derived registers and ISCH describe the interleaver's parameter registers (10_state.md R25). -/
def IlvDescribed (s : State) : Prop :=
  let g := s.regs
  let k := g.ilvK.toNat
  let L := g.ilvL.toNat
  let bs := g.ilvBs.toNat
  ilvCheck s.par k L g.ilvPm bs = none ∧
    g = ilvDerived g s.par.b k L g.ilvPm bs ∧
    s.holds .isch 0 (elemsOfWords (scheduleTable s.par.b g.ilvPm k (L / k)))

/-- The Bhattacharyya sequence of the polar parameter registers. -/
def polarScores (g : Regs) : List Int := bhattacharyya (log2 g.pcN.toNat) g.pcSnr.toInt

/-- The data-index sequence of the polar parameter registers. -/
def polarIndices (g : Regs) : List Nat := selectIndices (polarScores g) g.pcM.toNat g.pcK.toNat

/-- The node records of the polar parameter registers. -/
def polarRecords (g : Regs) : List NodeRecord := buildTree (polarIndices g) (log2 g.pcN.toNat) 0

/-- The derived registers and BHAT, DIDX, TREE describe the polar parameter registers
(10_state.md R25). -/
def PolarDescribed (s : State) : Prop :=
  let g := s.regs
  let n := log2 g.pcN.toNat
  pcCheck s.par g.pcN.toNat g.pcM.toNat g.pcK.toNat g.pcSnr.toInt g.pcLs.toNat = none ∧
    g.pcLogn = BitVec.ofNat 64 n ∧
    g.pcInitshort = BitVec.ofNat 64 (initShort s.par.llrw n) ∧
    g.pcNnodes = BitVec.ofNat 64 (polarRecords g).length ∧
    s.holds .bhat 0 ((polarScores g).map (BitVec.ofInt 64)) ∧
    s.holds .didx 0 ((polarIndices g).map (BitVec.ofNat 64)) ∧
    s.holds .tree 0 ((polarRecords g).map elemOfRecord)

/-- The tables of the field that the Reed–Solomon parameter registers name. -/
def rsTables (g : Regs) : GfTables := gfTables (2 ^ g.rsGm.toNat) g.rsPrim.toNat

/-- GALOG, GLOG and GEN describe the Reed–Solomon parameter registers (10_state.md R25). -/
def RsDescribed (s : State) : Prop :=
  let g := s.regs
  rsCheck s.par g.rsGm.toNat g.rsPrim.toNat g.rsRp.toNat g.rsRn.toNat = none ∧
    s.holds .galog 0 (elemsOfSymbols (rsTables g).antilog) ∧
    s.holds .glog 0 (elemsOfSymbols (rsTables g).log) ∧
    s.holds .gen 0 (elemsOfSymbols (generatorPoly (rsTables g) g.rsRp.toNat))

/-- A good state: the structural parameters are legal, memory is in canonical form, every element
exists and fits, STATUS and FAULT read as the spec says, and a VALID bit means what 10_state.md R25
says it means. -/
structure Inv (s : State) : Prop where
  params : s.par.wf = true
  canonical : s.mem.wf = true
  fits : ElementsFit s
  status : StatusLegal s.regs
  ilv : s.regs.valid .ilv = true → IlvDescribed s
  polar : s.regs.valid .polar = true → PolarDescribed s
  rs : s.regs.valid .rs = true → RsDescribed s

end Sys2Proof.Machine
end

