-- ==== Sys2Proof/Certificates/Slice0/Obligations.lean ====
section
/-! DEFINITION. The statements about FEC-1 CORE, one `def` each. `Inv` is the invariant of Safety.lean,
stated here as kept by every step and true at reset. A free value (an unwritten element) is any value:
no statement rests on one, and none says what `draws` is but where nothing was drawn. -/

open Sys2Proof Sys2Proof.Machine

/-! ## Encoding -/

/-- 30_encoding.md R90, R91, R92: decoding and encoding agree both ways, so no bit of a written value is
dropped. -/
def Obligations.DecodeAgreesWithEncode : Prop :=
  ∀ (v : Word64) (i : Instr), decode v = .ok i ↔ v = (encode i).setWidth 64

/-- 30_encoding.md R93: the fifteen words of its column `match` decode to the commands of its column
`Mnemonic`. -/
def Obligations.DecodeReadsTheWordsOfTheMap : Prop :=
  ∀ x ∈ [((0x00000000 : Word64), Instr.nop), (0x00000001, .sreset), (0x00000010, .ilvCfg),
      (0x00000011, .ilvFwd), (0x00000012, .ilvRev), (0x00000020, .pcCfg), (0x00000021, .penc),
      (0x00000022, .pdecLoad), (0x00000023, .pdecRun), (0x00000024, .pdec), (0x00000030, .rsCfg),
      (0x00000031, .gfMul), (0x00000032, .rsEnc), (0x00000033, .rsCheck), (0x00000034, .rsDec)],
    decode x.1 = .ok x.2

/-- 30_encoding.md R91, 60_exceptions.md R340: a value written to CMD is exactly one command or it raises
ILLEGAL_CMD with OP its low byte and has no other effect. -/
def Obligations.IllegalCommandFaults : Prop :=
  ∀ (v : Word64) (s : State), s.regs.faulted = false →
    if v.extractLsb' 32 32 = 0 ∧ v.extractLsb' 8 24 = 0 ∧
        (v.extractLsb' 0 8).toNat ∈ [0x00, 0x01, 0x10, 0x11, 0x12, 0x20, 0x21, 0x22, 0x23, 0x24,
          0x30, 0x31, 0x32, 0x33, 0x34] then
      ∃ i, (encode i).setWidth 64 = v ∧ hostStep (.regWrite 0x03 v) s = exec i s
    else
      ∃ t, hostStep (.regWrite 0x03 v) s = .next t ∧
        FaultRecorded s t 0x01 0 (v.extractLsb' 0 8).toNat

/-! ## System commands and reset -/

/-- 46_system.md R320: NOP changes no state, issued through CMD FAULTED or not. -/
def Obligations.NopChangesNothing : Prop :=
  ∀ s : State, exec .nop s = .next s ∧ hostStep (.regWrite 0x03 0x00000000) s = .next s

/-- 46_system.md R321, 70_reset_and_hazards.md R370: SRESET, issued FAULTED or not, and the hardware reset
have one effect: every register at its reset value, every element unspecified. -/
def Obligations.SresetRestoresTheResetState : Prop :=
  ∀ s : State, ∃ t, exec .sreset s = .next t ∧
    hostStep (.regWrite 0x03 0x00000001) s = .next t ∧ hostStep .hwReset s = .next t ∧
    SamePort s t ∧ t.draws = s.draws ∧ (∀ sp i, t.elem? sp i = none) ∧
    ∀ r ∈ [Reg.status, .fault, .ilvK, .ilvL, .ilvPm, .ilvBs, .ilvC, .ilvOnes, .ilvNin, .ilvNout,
        .ilvNiter, .ilvInlen, .ilvOutlen, .pcN, .pcM, .pcK, .pcSnr, .pcLs, .pcLogn, .pcInitshort,
        .pcNnodes, .rsGm, .rsPrim, .rsRp, .rsRn, .gfA, .gfB, .gfR, .rsMaxsyn, .rsDecstat],
      r.read t.par t.regs =
        if r = .pcSnr then 0xFFFFFFFFFFFFFFFE else if r = .pcLs then 1 else 0

/-- 70_reset_and_hazards.md R371: the state after reset, register by register, with every element
unspecified; each configuration command issued straight after it faults with sub 1. -/
def Obligations.ResetStateIsTheSpecs : Prop :=
  State.reset = State.resetOf Params.default ∧ ∀ p : Params,
    (∀ x ∈ [((0x00 : Byte), (0x0000000046454331 : Word64)), (0x01, 0), (0x02, 0), (0x03, 0),
        (0x10, 0), (0x11, 0), (0x12, 0), (0x13, 0), (0x18, 0), (0x19, 0), (0x1A, 0), (0x1B, 0),
        (0x1C, 0), (0x1D, 0), (0x1E, 0), (0x20, 0), (0x21, 0), (0x22, 0),
        (0x23, 0xFFFFFFFFFFFFFFFE), (0x24, 1), (0x28, 0), (0x29, 0), (0x2A, 0), (0x30, 0), (0x31, 0),
        (0x32, 0), (0x33, 0), (0x34, 0), (0x35, 0), (0x38, 0), (0x39, 0), (0x3A, 0)],
      hostStep (.regRead x.1) (State.resetOf p) = .next ((State.resetOf p).returning x.2)) ∧
    (∀ g : Regs, Reg.read p g .cap0 = Reg.read p Regs.reset .cap0 ∧
      Reg.read p g .cap1 = Reg.read p Regs.reset .cap1) ∧
    (∀ sp i, (State.resetOf p).elem? sp i = none) ∧
    ∀ x ∈ [(Instr.ilvCfg, 0x10, 0x10), (.pcCfg, 0x20, 0x20), (.rsCfg, 0x30, 0x30)],
      ∃ t, exec x.1 (State.resetOf p) = .next t ∧ FaultRecorded (State.resetOf p) t x.2.1 1 x.2.2

/-! ## The step -/

/-- A step at a state whose next input writes a command word is that command's meaning
(70_reset_and_hazards.md R386, 60_exceptions.md R348); the same through `withFetchWord`. That inputs wait in
`pending` is the model's choice (log entry 1). -/
def Obligations.StepRunsTheDecodedCommand : Prop :=
  (∀ (s : State) (v : Word64) (i : Instr) (rest : List HostInput),
    s.pending = .regWrite 0x03 v :: rest → s.regs.faulted = false → decode v = .ok i →
      step s = exec i { s with pending := rest }) ∧
  ∀ (s : State) (n w : Nat) (i : Instr), s.regs.faulted = false → decodeTableWord n w = some i →
    step (s.withFetchWord n w) = exec i s

/-- One step takes one host input, never changes the structural parameters (00_scope.md R7) and returns at
most one value; with no input it changes nothing. `pending` and `returned` are the model's (log entries 1,
2). -/
def Obligations.StepTakesOneInput : Prop :=
  ∀ s : State, (s.pending = [] → step s = .next s) ∧
    ∀ t, step s = .next t →
      t.par = s.par ∧ t.pending = s.pending.tail ∧
        ∃ vs : List Word64, vs.length ≤ 1 ∧ t.returned = vs ++ s.returned

/-! ## Faults -/

/-- 60_exceptions.md R335: while FAULTED, every write to CMD but exactly SRESET is ignored. -/
def Obligations.FaultedIgnoresCommands : Prop :=
  ∀ (s : State) (v : Word64), s.regs.faulted = true → v ≠ 0x0000000000000001 →
    hostStep (.regWrite 0x03 v) s = .next s

/-- 60_exceptions.md R333, R331, 10_state.md R26: a host input that raises a fault leaves every register but
FAULT and STATUS.FAULTED, every VALID bit and every element as they were; FAULT holds a cause of R331, the
low byte of the command word (0 for a host access), and zeros above. -/
def Obligations.FaultWritesOnlyItsRecord : Prop :=
  ∀ (s t : State) (x : HostInput), s.regs.faulted = false → hostStep x s = .next t →
    t.regs.faulted = true →
      t.par = s.par ∧ t.pending = s.pending ∧ t.mem = s.mem ∧
      t.regs = { s.regs with fault := t.regs.fault, status := s.regs.status ||| 0x80 } ∧
      (t.regs.fault.extractLsb' 0 8).toNat ∈ [0x01, 0x02, 0x03, 0x10, 0x20, 0x21, 0x30, 0x31] ∧
      t.regs.fault.extractLsb' 16 8 =
        (match x with
          | .regWrite no v => if no = 0x03 then v.extractLsb' 0 8 else 0
          | .regRead _ => 0
          | .bufRead _ _ => 0
          | .bufWrite _ _ _ => 0
          | .hwReset => 0) ∧
      t.regs.fault.extractLsb' 24 40 = 0

/-- 60_exceptions.md R336, R334: once FAULTED, the SRESET command and the hardware reset put every register
at its reset value, and no other host input leaves the condition or changes FAULT. -/
def Obligations.FaultIsSticky : Prop :=
  ∀ (s t : State) (x : HostInput), s.regs.faulted = true → hostStep x s = .next t →
    if x = .hwReset ∨ x = .regWrite 0x03 0x0000000000000001 then t.regs = Regs.reset
    else t.regs.faulted = true ∧ t.regs.fault = s.regs.fault

/-- 60_exceptions.md R341: an operation command on an engine whose VALID bit is 0 raises NOT_CONFIGURED
with its engine's sub-cause; the configuration commands, NOP and SRESET never raise it. -/
def Obligations.NotConfiguredFaults : Prop :=
  ∀ s : State, s.regs.faulted = false →
    (∀ x ∈ [(Instr.ilvFwd, 0, 1, 0x11), (.ilvRev, 0, 1, 0x12), (.penc, 1, 2, 0x21),
        (.pdecLoad, 1, 2, 0x22), (.pdecRun, 1, 2, 0x23), (.pdec, 1, 2, 0x24), (.gfMul, 2, 3, 0x31),
        (.rsEnc, 2, 3, 0x32), (.rsCheck, 2, 3, 0x33), (.rsDec, 2, 3, 0x34)],
      s.regs.status.getLsbD x.2.1 = false →
        ∃ t, exec x.1 s = .next t ∧ FaultRecorded s t 0x02 x.2.2.1 x.2.2.2) ∧
    ∀ i ∈ [Instr.nop, .sreset, .ilvCfg, .pcCfg, .rsCfg], ∀ t, s.regs.fault = 0 →
      exec i s = .next t → (t.regs.fault.extractLsb' 0 8).toNat ≠ 0x02

/-! ## The host port -/

/-- 10_state.md R23, R24, R27, R28: a host read of a register returns it and changes nothing; CMD reads 0, ID
and the capacity registers their constants. -/
def Obligations.HostRegReadReturnsTheRegister : Prop :=
  ∀ s : State, s.par.wf = true →
    ∀ x ∈ [((0x00 : Byte), (0x0000000046454331 : Word64)), (0x01, s.regs.status),
        (0x02, s.regs.fault), (0x03, 0),
        (0x04, BitVec.ofNat 64 (Nat.log2 s.par.b + s.par.llrw * 2 ^ 8 + s.par.pmMax * 2 ^ 16 +
          s.par.lognMax * 2 ^ 24 + s.par.gmMax * 2 ^ 32)),
        (0x05, BitVec.ofNat 64 (s.par.iwCap + s.par.ibCap * 2 ^ 24 + s.par.rbCap * 2 ^ 48)),
        (0x10, s.regs.ilvK), (0x11, s.regs.ilvL), (0x12, s.regs.ilvPm), (0x13, s.regs.ilvBs),
        (0x18, s.regs.ilvC), (0x19, s.regs.ilvOnes), (0x1A, s.regs.ilvNin), (0x1B, s.regs.ilvNout),
        (0x1C, s.regs.ilvNiter), (0x1D, s.regs.ilvInlen), (0x1E, s.regs.ilvOutlen),
        (0x20, s.regs.pcN), (0x21, s.regs.pcM), (0x22, s.regs.pcK), (0x23, s.regs.pcSnr),
        (0x24, s.regs.pcLs), (0x28, s.regs.pcLogn), (0x29, s.regs.pcInitshort),
        (0x2A, s.regs.pcNnodes), (0x30, s.regs.rsGm), (0x31, s.regs.rsPrim), (0x32, s.regs.rsRp),
        (0x33, s.regs.rsRn), (0x34, s.regs.gfA), (0x35, s.regs.gfB), (0x38, s.regs.gfR),
        (0x39, s.regs.rsMaxsyn), (0x3A, s.regs.rsDecstat)],
      hostStep (.regRead x.1) s = .next (s.returning x.2)

/-- 10_state.md R47, R29, R45: a host write to an RW register stores all 64 bits and clears the VALID bit of
its engine (none for GF_A and GF_B); nothing else changes. -/
def Obligations.HostRegWriteStoresAndClearsValid : Prop :=
  ∀ (s : State) (v : Word64),
    ∀ x ∈ [(Reg.ilvK, (0x1 : Word64)), (.ilvL, 0x1), (.ilvPm, 0x1), (.ilvBs, 0x1),
        (.pcN, 0x2), (.pcM, 0x2), (.pcK, 0x2), (.pcSnr, 0x2), (.pcLs, 0x2),
        (.rsGm, 0x4), (.rsPrim, 0x4), (.rsRp, 0x4), (.rsRn, 0x4), (.gfA, 0x0), (.gfB, 0x0)],
      ∃ t, hostStep (.regWrite x.1.no v) s = .next t ∧ SamePort s t ∧ t.draws = s.draws ∧
        t.mem = s.mem ∧ x.1.read t.par t.regs = v ∧
        t.regs.status = s.regs.status &&& ~~~x.2 ∧
        ∀ r : Reg, r ≠ x.1 → r ≠ .status → r.read t.par t.regs = r.read s.par s.regs

/-- 60_exceptions.md R346: every host access that cannot be performed, with its sub-cause and its local
effect, in the order of tests; a read of CMD and an index below the capacity are no error. -/
def Obligations.HostAccessFaults : Prop :=
  ∀ s : State,
    (∀ no : Byte, no.toNat ∉ [0x00, 0x01, 0x02, 0x03, 0x04, 0x05, 0x10, 0x11, 0x12, 0x13, 0x18, 0x19,
        0x1A, 0x1B, 0x1C, 0x1D, 0x1E, 0x20, 0x21, 0x22, 0x23, 0x24, 0x28, 0x29, 0x2A, 0x30, 0x31,
        0x32, 0x33, 0x34, 0x35, 0x38, 0x39, 0x3A] →
      ∃ t, HostFaulted s t 1 ∧ hostStep (.regRead no) s = .next (t.returning 0) ∧
        ∀ v, hostStep (.regWrite no v) s = .next t) ∧
    (∀ no : Byte, no.toNat ∈ [0x00, 0x01, 0x02, 0x04, 0x05, 0x18, 0x19, 0x1A, 0x1B, 0x1C, 0x1D, 0x1E,
        0x28, 0x29, 0x2A, 0x38, 0x39, 0x3A] →
      ∃ t, HostFaulted s t 2 ∧ ∀ v, hostStep (.regWrite no v) s = .next t) ∧
    (∀ n : Nat, n < 1 ∨ 17 < n → ∀ i,
      ∃ t, HostFaulted s t 3 ∧ hostStep (.bufRead n i) s = .next (t.returning 0) ∧
        ∀ v, hostStep (.bufWrite n i v) s = .next t) ∧
    (∀ sp ∈ [Space.isch, .beta, .dout, .bhat, .didx, .tree, .syn, .glog, .galog, .gen], ∀ i,
      ∃ t, HostFaulted s t 5 ∧ ∀ v, hostStep (.bufWrite sp.no i v) s = .next t) ∧
    (∀ (sp : Space) (i : Nat), sp.capacity s.par ≤ i →
      ∃ t, HostFaulted s t 4 ∧ hostStep (.bufRead sp.no i) s = .next (t.returning 0) ∧
        (sp ∈ [Space.iw, .ib, .pi, .po, .di, .llr, .rb] →
          ∀ v, hostStep (.bufWrite sp.no i v) s = .next t)) ∧
    hostStep (.regRead 0x03) s = .next (s.returning 0) ∧
    ∀ (sp : Space) (i : Nat), i < sp.capacity s.par →
      (∃ t, hostStep (.bufRead sp.no i) s = .next t ∧ t.regs = s.regs) ∧
      (sp ∈ [Space.iw, .ib, .pi, .po, .di, .llr, .rb] →
        ∀ v, ∃ t, hostStep (.bufWrite sp.no i v) s = .next t ∧ t.regs = s.regs)

/-- 10_state.md R64, R56, R65, 20_memory.md R77: a host read of a written element returns it zero-extended
(LLR: sign-extended) and changes nothing; a read of an unwritten one returns some value of its width. -/
def Obligations.HostBufReadReturnsTheElement : Prop :=
  ∀ (s : State) (sp : Space) (i : Nat), i < sp.capacity s.par →
    (∀ v, s.elem? sp i = some v → hostStep (.bufRead sp.no i) s =
      .next (s.returning (if sp = .llr then (v.setWidth s.par.llrw).signExtend 64 else v))) ∧
    (s.elem? sp i = none → ∃ (t : State) (x : Word64), x.toNat < 2 ^ sp.width s.par ∧
      hostStep (.bufRead sp.no i) s = .next t ∧ t.par = s.par ∧ t.pending = s.pending ∧
      t.mem = s.mem ∧ t.regs = s.regs ∧
      t.returned =
        (if sp = .llr then (x.setWidth s.par.llrw).signExtend 64 else x) :: s.returned)

/-- 10_state.md R64, 20_memory.md R79: a host write to an element of a Data space keeps the low bits that fit,
changes nothing else, and the next read returns them. -/
def Obligations.HostBufWriteKeepsTheLowBits : Prop :=
  ∀ (s : State) (i : Nat) (v : Word64), ∀ sp ∈ [Space.iw, .ib, .pi, .po, .di, .llr, .rb],
    i < sp.capacity s.par →
      ∃ t, hostStep (.bufWrite sp.no i v) s = .next t ∧ SamePort s t ∧ t.regs = s.regs ∧
        t.draws = s.draws ∧
        t.elem? sp i = some (BitVec.ofNat 64 (v.toNat % 2 ^ sp.width s.par)) ∧
        SameElemsBut s t (fun sp' i' => sp' = sp ∧ i' = i) ∧
        hostStep (.bufRead sp.no i) t =
          .next (t.returning (if sp = .llr then (v.setWidth s.par.llrw).signExtend 64
            else BitVec.ofNat 64 (v.toNat % 2 ^ sp.width s.par)))

/-- 10_state.md R50, R23: no host access but a command and the reset changes an element of a Table space, or
a register that is not RW, FAULT and STATUS apart. -/
def Obligations.HostLeavesTablesAlone : Prop :=
  ∀ (s t : State) (x : HostInput), hostStep x s = .next t → x ≠ .hwReset →
    (∀ v, x ≠ .regWrite 0x03 v) →
      (∀ sp ∈ [Space.isch, .beta, .dout, .bhat, .didx, .tree, .syn, .glog, .galog, .gen], ∀ i,
        t.elem? sp i = s.elem? sp i) ∧
      ∀ r ∈ [Reg.id, .cmd, .cap0, .cap1, .ilvC, .ilvOnes, .ilvNin, .ilvNout, .ilvNiter, .ilvInlen,
          .ilvOutlen, .pcLogn, .pcInitshort, .pcNnodes, .gfR, .rsMaxsyn, .rsDecstat],
        r.read t.par t.regs = r.read s.par s.regs

/-- 10_state.md R50, R25, R34, R40, R46, 20_memory.md R71, 70_reset_and_hazards.md R373: the frame of every
command: it writes no space, register or STATUS bit but those the spec lists for it (FAULT apart, which a
fault writes), so no engine disturbs another. -/
def Obligations.CommandsWriteOnlyTheirOwn : Prop :=
  ∀ (i : Instr) (s t : State), i ≠ .sreset → exec i s = .next t →
    SamePort s t ∧
    (∀ sp, sp ∉ writesSpaces i → ∀ j, t.elem? sp j = s.elem? sp j) ∧
    (∀ r : Reg, r ∉ writesRegs i → r ≠ .status → r ≠ .fault →
      r.read t.par t.regs = r.read s.par s.regs) ∧
    t.regs.status &&& ~~~(writesStatus i) = s.regs.status &&& ~~~(writesStatus i)

/-! ## Interleaver -/

/-- 41_interleaver.md R132: the first failing check of the table gives the sub-cause of ILV_CFG. -/
def Obligations.IlvCfgRefusesTheFirstFailingCheck : Prop :=
  ∀ (s : State) (n : Nat), s.regs.faulted = false →
    ilvFails s.par s.regs.ilvK.toNat s.regs.ilvL.toNat s.regs.ilvPm s.regs.ilvBs.toNat n →
    (∀ m, 1 ≤ m → m < n →
      ¬ ilvFails s.par s.regs.ilvK.toNat s.regs.ilvL.toNat s.regs.ilvPm s.regs.ilvBs.toNat m) →
    ∃ t, exec .ilvCfg s = .next t ∧ FaultRecorded s t 0x10 n 0x10

/-- 41_interleaver.md R131, R133 to R137: with no check failing, ILV_CFG writes the seven derived registers,
INMASK, OUTMASK, MOVE and STAY of every stream, and ILV_VALID; nothing else. -/
def Obligations.IlvCfgDescribesTheInterleaver : Prop :=
  ∀ (s : State) (k L bs : Nat), s.par.wf = true → s.regs.ilvK.toNat = k → s.regs.ilvL.toNat = L →
    s.regs.ilvBs.toNat = bs → (∀ n, ¬ ilvFails s.par k L s.regs.ilvPm bs n) →
    ∃ t, exec .ilvCfg s = .next t ∧ SamePort s t ∧
      t.regs = { s.regs with
        status := s.regs.status ||| 0x1
        ilvC := BitVec.ofNat 64 (L / k)
        ilvOnes := BitVec.ofNat 64 (pmOnes s.regs.ilvPm L)
        ilvNin := BitVec.ofNat 64 (L / k)
        ilvNout := BitVec.ofNat 64 (pmOnes s.regs.ilvPm L)
        ilvNiter := BitVec.ofNat 64 (8 * bs / (L / k))
        ilvInlen := BitVec.ofNat 64 (k * ((bs + s.par.b / 8 - 1) / (s.par.b / 8)))
        ilvOutlen := BitVec.ofNat 64 (bs * pmOnes s.regs.ilvPm L / (L / k)) } ∧
      SameElemsBut s t (fun sp i => sp = .isch ∧ i < k * (2 * Nat.log2 s.par.b + 2)) ∧
      ∀ q < k, ∀ (E : Nat) (on : Nat → Prop) (out d : Nat → Nat), E = 2 * Nat.log2 s.par.b + 2 →
        (∀ i, on i ↔ i < L / k ∧ s.regs.ilvPm.getLsbD (i * k + q) = true) →
        (∀ i, out i = pmSum s.regs.ilvPm (i * k + q)) → (∀ i, d i = out i - i) →
        MaskAt t (q * E) on ∧
        MaskAt t (q * E + 1) (fun x => ∃ i, on i ∧ out i = x) ∧
        ∀ r < Nat.log2 s.par.b,
          MaskAt t (q * E + 2 + 2 * r) (fun x => ∃ i, on i ∧ d i &&& s.par.b >>> (r + 1) ≠ 0 ∧
            passPos s.par.b i (d i) r = x) ∧
          MaskAt t (q * E + 3 + 2 * r) (fun x => ∃ i, on i ∧ d i &&& s.par.b >>> (r + 1) = 0 ∧
            passPos s.par.b i (d i) r = x)

/-- 41_interleaver.md R138: under legal parameters the passes move the bit at II_p[j] to OO_p[j] and nothing
else, the reverse passes move it back, and the two cancel. -/
def Obligations.SprayMovesEachBitToItsPlace : Prop :=
  ∀ (p : Params) (k L : Nat) (pm : Word64) (bs q : Nat), p.wf = true →
    (∀ n, ¬ ilvFails p k L pm bs n) → q < k →
    ∀ (sch : Schedule p.b) (w : Word p.b), sch = readSchedule (scheduleTable p.b pm k (L / k)) q →
      (∀ x < p.b, wbit (spray sch (w &&& sch.inMask)) x = true ↔
        ∃ i < L / k, rowTest pm k q i = true ∧ pmSum pm (i * k + q) = x ∧ wbit w i = true) ∧
      (∀ x < p.b, wbit (despray sch (w &&& sch.outMask)) x = true ↔
        x < L / k ∧ rowTest pm k q x = true ∧ wbit w (pmSum pm (x * k + q)) = true) ∧
      despray sch (spray sch (w &&& sch.inMask)) = w &&& sch.inMask

/-- 41_interleaver.md R141: the word-level chunk is the word that holds bits it·C … it·C + C − 1 of stream p
at positions 0 … C − 1, zeros after; ILV_FWD reads exactly it, from the words of IW that hold these bits. -/
def Obligations.ChunkHoldsTheStreamBits : Prop :=
  (∀ (B : Nat) (iw : List (Word B)) (k c p it i : Nat), 0 < B → c ≤ B → i < B →
    wbit (chunk iw k c p it) i = (decide (i < c) && streamBit iw k p (it * c + i))) ∧
  ∀ (s : State) (B n k c p it : Nat), 0 < c → c ≤ B → s.written .iw 0 n →
    (∀ i < c, (it * c + i) / B * k + p < n) →
      readChunk B k c p it s = (chunk (wordsOfElems B (s.values .iw 0 n)) k c p it, s)

/-- 41_interleaver.md R143, R140, R145: on a configured interleaver ILV_FWD completes, writes exactly the
OUTLEN bytes of IB, and computes the bit-level function; the pair (t, p) is emitted at the index of R143. -/
def Obligations.IlvFwdIsTheBitLevelFunction : Prop :=
  ∀ (s : State) (k L bs : Nat), Inv s → s.regs.valid .ilv = true → s.regs.ilvK.toNat = k →
    s.regs.ilvL.toNat = L → s.regs.ilvBs.toNat = bs →
    (∃ t vs, exec .ilvFwd s = .next t ∧ WroteOnly s t .ib 0 vs ∧
      vs.length = bs * pmOnes s.regs.ilvPm L / (L / k)) ∧
    (s.written .iw 0 s.regs.ilvInlen.toNat →
      ∃ t, exec .ilvFwd s = .next t ∧ t.draws = s.draws ∧
        WroteOnly s t .ib 0 (packElems (forwardReference
          (wordsOfElems s.par.b (s.values .iw 0 s.regs.ilvInlen.toNat))
          s.regs.ilvPm k (L / k) (8 * bs)))) ∧
    ∀ t p, t < 8 * bs → p < k → pmTest s.regs.ilvPm (t % (L / k) * k + p) = true →
      (emissionOrder s.regs.ilvPm k (L / k) (8 * bs))[emissionIndex s.regs.ilvPm L k t p]? =
        some (t, p)

/-- 41_interleaver.md R152, R150: on a configured interleaver ILV_REV completes, writes exactly the INLEN
words of IW, and bit T of stream p is the received bit of its pair, 0 where punctured or beyond the block. -/
def Obligations.IlvRevIsTheBitLevelFunction : Prop :=
  ∀ (s : State) (k L bs : Nat), Inv s → s.regs.valid .ilv = true → s.regs.ilvK.toNat = k →
    s.regs.ilvL.toNat = L → s.regs.ilvBs.toNat = bs →
    (∃ t vs, exec .ilvRev s = .next t ∧ WroteOnly s t .iw 0 vs ∧
      vs.length = s.regs.ilvInlen.toNat) ∧
    (s.written .ib 0 s.regs.ilvOutlen.toNat →
      ∃ t vs, exec .ilvRev s = .next t ∧ t.draws = s.draws ∧ WroteOnly s t .iw 0 vs ∧
        vs.length = s.regs.ilvInlen.toNat ∧
        ∀ e < s.regs.ilvInlen.toNat, ∀ x < s.par.b,
          wbit ((vs.getD e 0).setWidth s.par.b) x =
            reverseReferenceBit (unpackElems (s.values .ib 0 s.regs.ilvOutlen.toNat))
              s.regs.ilvPm L k (8 * bs) (e / k * s.par.b + x) (e % k))

/-- 41_interleaver.md R153: ILV_FWD then ILV_REV gives back every bit that is not punctured and zeros
elsewhere; ILV_REV then ILV_FWD restores IB. -/
def Obligations.IlvRoundTrip : Prop :=
  ∀ (s : State) (k L bs : Nat), Inv s → s.regs.valid .ilv = true → s.regs.ilvK.toNat = k →
    s.regs.ilvL.toNat = L → s.regs.ilvBs.toNat = bs →
    (s.written .iw 0 s.regs.ilvInlen.toNat →
      ∃ t u, exec .ilvFwd s = .next t ∧ exec .ilvRev t = .next u ∧
        ∀ p < k, ∀ T < s.regs.ilvInlen.toNat / k * s.par.b,
          streamBit (wordsOfElems s.par.b (u.values .iw 0 s.regs.ilvInlen.toNat)) k p T =
            if T < 8 * bs ∧ pmTest s.regs.ilvPm (T % (L / k) * k + p) = true then
              streamBit (wordsOfElems s.par.b (s.values .iw 0 s.regs.ilvInlen.toNat)) k p T
            else false) ∧
    (s.written .ib 0 s.regs.ilvOutlen.toNat →
      ∃ t u, exec .ilvRev s = .next t ∧ exec .ilvFwd t = .next u ∧
        u.written .ib 0 s.regs.ilvOutlen.toNat ∧
        u.values .ib 0 s.regs.ilvOutlen.toNat = s.values .ib 0 s.regs.ilvOutlen.toNat)

/-! ## Polar code constructor -/

/-- 42_polar_construct.md R172: the first failing check of the table gives the sub-cause of PC_CFG. -/
def Obligations.PcCfgRefusesTheFirstFailingCheck : Prop :=
  ∀ (s : State) (n : Nat), s.regs.faulted = false →
    pcFails s.par s.regs.pcN.toNat s.regs.pcM.toNat s.regs.pcK.toNat s.regs.pcSnr.toInt
      s.regs.pcLs.toNat n →
    (∀ m, 1 ≤ m → m < n → ¬ pcFails s.par s.regs.pcN.toNat s.regs.pcM.toNat s.regs.pcK.toNat
      s.regs.pcSnr.toInt s.regs.pcLs.toNat m) →
    ∃ t, exec .pcCfg s = .next t ∧ FaultRecorded s t 0x20 n 0x20

/-- 42_polar_construct.md R171, 44_polar_decode.md R224: with no check failing, PC_CFG writes BHAT, DIDX, TREE,
the three derived registers and PC_VALID over the ranges of the parameters; nothing else. -/
def Obligations.PcCfgDescribesTheCode : Prop :=
  ∀ (s : State) (n M K : Nat) (snr : Int) (z : List Int) (D : List Nat) (recs : List NodeRecord),
    s.par.wf = true → s.regs.pcN.toNat = 2 ^ n → s.regs.pcM.toNat = M → s.regs.pcK.toNat = K →
    s.regs.pcSnr.toInt = snr → (∀ m, ¬ pcFails s.par (2 ^ n) M K snr s.regs.pcLs.toNat m) →
    z = bhattacharyya n snr → D = selectIndices z M K → recs = buildTree D n 0 →
    ∃ t, exec .pcCfg s = .next t ∧ SamePort s t ∧ t.draws = s.draws ∧
      t.regs = { s.regs with
        status := s.regs.status ||| 0x2
        pcLogn := BitVec.ofNat 64 n
        pcInitshort := BitVec.ofNat 64
          ((2 ^ (s.par.llrw - 1) - 1) / 2 ^ min (n + 1) (s.par.llrw - 4))
        pcNnodes := BitVec.ofNat 64 recs.length } ∧
      z.length = 2 ^ n ∧ D.length = K ∧
      t.holds .bhat 0 (z.map (BitVec.ofInt 64)) ∧ t.holds .didx 0 (D.map (BitVec.ofNat 64)) ∧
      t.holds .tree 0 (recs.map fun r => BitVec.ofNat 64 (r.tag.code + r.size * 2 ^ 8)) ∧
      SameElemsBut s t fun sp i => (sp = .bhat ∧ i < 2 ^ n) ∨ (sp = .didx ∧ i < K) ∨
        (sp = .tree ∧ i < recs.length)

/-- 42_polar_construct.md R173, R174: the Bhattacharyya sequence level by level, and the bound that makes every
score fit. -/
def Obligations.BhattacharyyaExpandsLevelByLevel : Prop :=
  (∀ u : Int, upper u = (if u > 1 then 2 * u else u + 1) ∧
    lower u = (if u > -1 then u - 1 else 2 * u)) ∧
  ∀ (n : Nat) (snr : Int),
    bhattacharyya 0 snr = [snr] ∧ (bhattacharyya n snr).length = 2 ^ n ∧
    (∀ j < 2 ^ n, ∀ u, (bhattacharyya n snr)[j]? = some u →
      (bhattacharyya (n + 1) snr)[2 * j]? = some (upper u) ∧
      (bhattacharyya (n + 1) snr)[2 * j + 1]? = some (lower u)) ∧
    (∀ u ∈ bhattacharyya n snr, u.natAbs < 2 ^ n * (snr.natAbs + 1)) ∧
    (snr.natAbs ≤ 32768 → ∀ u ∈ bhattacharyya n snr, u.natAbs < 2 ^ (n + 16))

/-- 42_polar_construct.md R175, R177: the selected indices are, in ascending order, the K indices below M that
come first by the key (score, index). -/
def Obligations.SelectTakesTheFirstByScoreAndIndex : Prop :=
  ∀ (z : List Int) (M K : Nat), M ≤ z.length → 1 ≤ K → K ≤ M →
    (selectIndices z M K).Pairwise (· < ·) ∧ (selectIndices z M K).length = K ∧
    ∀ i, i ∈ selectIndices z M K ↔ i < M ∧ scoreRank z M i < K

/-- 42_polar_construct.md R178, R179: each class means what its description says; a subtree of size 1 is never
Standard, and the only Standard one of size 2 is [data, non-data]. -/
def Obligations.ClassifyMeansItsDescription : Prop :=
  ∀ (D : List Nat) (lo nv : Nat), D.Pairwise (· < ·) → 0 < nv →
    (classify D lo nv = .rate0 ↔ ∀ x, lo ≤ x → x < lo + nv → x ∉ D) ∧
    (classify D lo nv = .rate1 ↔ ∀ x, lo ≤ x → x < lo + nv → x ∈ D) ∧
    (classify D lo nv = .rep ↔
      1 < nv ∧ ∀ x, lo ≤ x → x < lo + nv → (x ∈ D ↔ x = lo + nv - 1)) ∧
    (classify D lo nv = .spc ↔ 2 < nv ∧ ∀ x, lo ≤ x → x < lo + nv → (x ∈ D ↔ x ≠ lo)) ∧
    (nv = 1 → classify D lo nv ≠ .standard) ∧
    (nv = 2 → (classify D lo nv = .standard ↔ lo ∈ D ∧ lo + 1 ∉ D)) ∧
    [NodeTag.rate0, .rate1, .rep, .spc, .standard].map NodeTag.code = [0, 1, 2, 3, 4]

/-- 42_polar_construct.md R180, 10_state.md R60: the records are an odd number, at most 2N − 1, their leaves
tile the positions, and the words of TREE give them back. -/
def Obligations.TreeRecordsTileTheBlock : Prop :=
  ∀ (D : List Nat) (n lo : Nat), D.Pairwise (· < ·) →
    (buildTree D n lo).length % 2 = 1 ∧ (buildTree D n lo).length ≤ 2 * 2 ^ n - 1 ∧
    (((buildTree D n lo).filter fun r => r.tag ≠ .standard).map (·.size)).sum = 2 ^ n ∧
    (n ≤ 32 → recordsOfElems ((buildTree D n lo).map elemOfRecord) = some (buildTree D n lo))

/-! ## Polar encoder -/

/-- 43_polar_encode.md R203: one stage replaces buf[j] by buf[j] ^ buf[j + 2^s] where bit s of j is 0, and all
stages give the closed form: buf'[j] is the XOR of buf[i] over all i with i & j = j. -/
def Obligations.TransformHasItsClosedForm : Prop :=
  ∀ (n : Nat) (buf : List Bool), buf.length = 2 ^ n →
    (∀ s < n, ∀ j < 2 ^ n, (transformStage s buf)[j]? =
      some (if j / 2 ^ s % 2 = 0 then buf.getD j false ^^ buf.getD (j + 2 ^ s) false
        else buf.getD j false)) ∧
    (transform n buf).length = 2 ^ n ∧
    ∀ j < 2 ^ n, (transform n buf)[j]? = some (transformClosed (2 ^ n) buf j)

/-- 43_polar_encode.md R207, R201: the transform is its own inverse, and so encoding with every position a data
position is the identity. -/
def Obligations.TransformIsAnInvolution : Prop :=
  ∀ (n : Nat) (buf : List Bool), buf.length = 2 ^ n →
    transform n (transform n buf) = buf ∧ polarCodeword n (List.range (2 ^ n)) buf = buf

/-- 43_polar_encode.md R201, R205: on a configured polar code PENC completes and writes exactly PO[0 .. M/8),
the first M bits of the codeword of PI, most significant bit first. -/
def Obligations.PencWritesTheCodeword : Prop :=
  ∀ (s : State) (n M K : Nat), Inv s → s.regs.valid .polar = true → s.regs.pcN.toNat = 2 ^ n →
    s.regs.pcM.toNat = M → s.regs.pcK.toNat = K →
    (∃ t vs, exec .penc s = .next t ∧ WroteOnly s t .po 0 vs ∧ vs.length = M / 8) ∧
    (s.written .pi 0 (K / 8) → ∀ u, u = unpackElems (s.values .pi 0 (K / 8)) →
      ∃ t vs, exec .penc s = .next t ∧ t.draws = s.draws ∧ WroteOnly s t .po 0 vs ∧
        vs.length = M / 8 ∧ u.length = K ∧
        unpackElems vs = (polarCodeword n (polarIndices s.regs) u).take M)

/-- 43_polar_encode.md R206: the truncated tail of a codeword is zero. -/
def Obligations.PencTailIsZero : Prop :=
  ∀ (n M : Nat) (D : List Nat) (u : List Bool), (∀ d ∈ D, d < M) →
    ∀ i, M ≤ i → i < 2 ^ n → (polarCodeword n D u)[i]? = some false

/-- 43_polar_encode.md R209: encoding is linear, and zero encodes to zero. -/
def Obligations.PencIsLinear : Prop :=
  ∀ (n : Nat) (D : List Nat) (a b : List Bool), a.length = D.length → b.length = D.length →
    polarCodeword n D (List.zipWith (· ^^ ·) a b) =
      List.zipWith (· ^^ ·) (polarCodeword n D a) (polarCodeword n D b) ∧
    polarCodeword n D (List.replicate D.length false) = List.replicate (2 ^ n) false

/-! ## Polar decoder -/

/-- 44_polar_decode.md R223, R224: on a configured polar code PDEC_LOAD completes and writes exactly
LLR[0 .. N): +1 for a received 0, −1 for a received 1, `init_short` for the tail. -/
def Obligations.PdecLoadExpandsTheBits : Prop :=
  ∀ (s : State) (n M : Nat), Inv s → s.regs.valid .polar = true → s.regs.pcN.toNat = 2 ^ n →
    s.regs.pcM.toNat = M →
    (∃ t vs, exec .pdecLoad s = .next t ∧ WroteOnly s t .llr 0 vs ∧ vs.length = 2 ^ n) ∧
    (s.written .di 0 (M / 8) →
      ∃ t vs, exec .pdecLoad s = .next t ∧ t.draws = s.draws ∧ WroteOnly s t .llr 0 vs ∧
        vs.length = 2 ^ n ∧
        (∀ i < M, llrOfElem s.par.llrw (vs.getD i 0) =
          if (unpackElems (s.values .di 0 (M / 8))).getD i false then -1 else 1) ∧
        ∀ i, M ≤ i → i < 2 ^ n → llrOfElem s.par.llrw (vs.getD i 0) =
          ((2 ^ (s.par.llrw - 1) - 1) / 2 ^ min (n + 1) (s.par.llrw - 4) : Nat))

/-- 44_polar_decode.md R230, R231: `f_op` is the min-sum rule element by element and never increases a
magnitude; the sign of `f_op_r1` is the exclusive-or of the signs. -/
def Obligations.FOperationsAreMinSum : Prop :=
  (∀ x y : Int,
    (signbit x = signbit y → fMin x y = min x.natAbs y.natAbs) ∧
    (signbit x ≠ signbit y → fMin x y = -(min x.natAbs y.natAbs : Nat)) ∧
    (x = 0 ∨ y = 0 → fMin x y = 0) ∧
    (fMin x y).natAbs ≤ min x.natAbs y.natAbs) ∧
  (∀ (a0 a1 : List Int) (i : Nat) (x y : Int), a0[i]? = some x → a1[i]? = some y →
    (fOp a0 a1)[i]? = some (fMin x y)) ∧
  ∀ (w : Nat) (a0 a1 : List Int) (i : Nat) (x y : Int), 0 < w →
    -2 ^ (w - 1) ≤ x → x < 2 ^ (w - 1) → -2 ^ (w - 1) ≤ y → y < 2 ^ (w - 1) →
    a0[i]? = some x → a1[i]? = some y →
      ∃ v, (fOpR1 w a0 a1)[i]? = some v ∧ signbit v = (signbit x ^^ signbit y)

/-- 44_polar_decode.md R232 to R236: `g_op` adds or subtracts by the left bits and faults exactly when a
result is out of range; `g_op_0`, `g_op_1` and `h_op_0` equal the full operations at constant left bits; `h_op`
combines the halves. -/
def Obligations.GAndHOperations : Prop :=
  ∀ (maxl h : Nat) (a0 a1 : List Int) (bl br : List Bool), a0.length = h → a1.length = h →
    bl.length = h → br.length = h →
    (∀ v : Nat → Int, (∀ i, v i =
        a1.getD i 0 + (if bl.getD i false = true then -a0.getD i 0 else a0.getD i 0)) →
      gOp maxl a0 a1 bl =
        if ∀ i < h, (v i).natAbs ≤ maxl then .ok ((List.range h).map v) else .error .range) ∧
    gOp0 maxl a0 a1 = gOp maxl a0 a1 (List.replicate h false) ∧
    gOp1 maxl a0 a1 = gOp maxl a0 a1 (List.replicate h true) ∧
    (hOp bl br).length = 2 * h ∧
    (∀ i < h, (hOp bl br)[i]? = some (bl.getD i false ^^ br.getD i false) ∧
      (hOp bl br)[i + h]? = some (br.getD i false)) ∧
    hOp0 br = hOp (List.replicate h false) br

/-- 44_polar_decode.md R243: the SPC leaf keeps the hard decisions where their parity is even, else flips the
one at the lowest index of least magnitude; the result always has even parity. -/
def Obligations.SpcLeafFlipsTheLeastReliable : Prop :=
  ∀ α : List Int,
    ((leafSpc α).count true) % 2 = 0 ∧
    (((α.map signbit).count true) % 2 = 0 → leafSpc α = α.map signbit) ∧
    (((α.map signbit).count true) % 2 = 1 →
      ∃ m x, α[m]? = some x ∧ (∀ (j : Nat) (y : Int), α[j]? = some y → x.natAbs ≤ y.natAbs) ∧
        (∀ j < m, ∀ y : Int, α[j]? = some y → x.natAbs < y.natAbs) ∧
        leafSpc α = (α.map signbit).set m (!signbit x))

/-- 44_polar_decode.md R246, R245: decoding by the records of TREE equals decoding by `classify`, steps over the
records of exactly the subtree, and always comes to an answer or a range fault. -/
def Obligations.TreeWalkEqualsClassify : Prop :=
  ∀ (llrw n lo : Nat) (D : List Nat) (α : List Int) (rest : List NodeRecord),
    decTree llrw n α (buildTree D n lo ++ rest) =
      (decNode llrw D n lo α).map (fun β => (β, rest)) ∧
    (D.Pairwise (· < ·) → decNode llrw D n lo α ≠ .error .malformed)

/-- 44_polar_decode.md R226, R227, R258: PDEC_RUN on written LLRs: LLR_RANGE sub 1 on the most negative
pattern, sub 2 when a g result leaves the range, else BETA and DO hold the decision and nothing else changes. -/
def Obligations.PdecRunDecodesTheLlrs : Prop :=
  ∀ (s : State) (n K : Nat) (α : List Int), Inv s → s.regs.faulted = false →
    s.regs.valid .polar = true → s.regs.pcN.toNat = 2 ^ n → s.regs.pcK.toNat = K →
    s.written .llr 0 (2 ^ n) → α = (s.values .llr 0 (2 ^ n)).map (llrOfElem s.par.llrw) →
    if -(2 ^ (s.par.llrw - 1) : Int) ∈ α then
      ∃ t, exec .pdecRun s = .next t ∧ FaultRecorded s t 0x21 1 0x23
    else
      match decNode s.par.llrw (polarIndices s.regs) n 0 α with
      | .error _ => ∃ t, exec .pdecRun s = .next t ∧ FaultRecorded s t 0x21 2 0x23
      | .ok β => ∃ t out, exec .pdecRun s = .next t ∧ SamePort s t ∧ t.regs = s.regs ∧
          t.draws = s.draws ∧ β.length = 2 ^ n ∧ t.holds .beta 0 (β.map elemOfBit) ∧
          t.holds .dout 0 out ∧ out.length = K / 8 ∧
          unpackElems out = (polarIndices s.regs).map (fun d => β.getD d false) ∧
          SameElemsBut s t fun sp i => (sp = .beta ∧ i < 2 ^ n) ∨ (sp = .dout ∧ i < K / 8)

/-- 44_polar_decode.md R255, 70_reset_and_hazards.md R378: LLRs of magnitude at most MAXL >> n never fault:
PDEC_RUN completes and writes BETA[0 .. N) and DO[0 .. K/8) only. -/
def Obligations.PdecRunCompletesOnSafeLlrs : Prop :=
  ∀ (s : State) (n K : Nat), Inv s → s.regs.valid .polar = true → s.regs.pcN.toNat = 2 ^ n →
    s.regs.pcK.toNat = K → s.written .llr 0 (2 ^ n) →
    (∀ v ∈ s.values .llr 0 (2 ^ n),
      (llrOfElem s.par.llrw v).natAbs ≤ (2 ^ (s.par.llrw - 1) - 1) / 2 ^ n) →
    ∃ t, exec .pdecRun s = .next t ∧ SamePort s t ∧ t.regs = s.regs ∧
      t.written .beta 0 (2 ^ n) ∧ t.written .dout 0 (K / 8) ∧
      SameElemsBut s t fun sp i => (sp = .beta ∧ i < 2 ^ n) ∨ (sp = .dout ∧ i < K / 8)

/-- 44_polar_decode.md R260, R255: PDEC on a configured code always completes, faults never, and ends in
exactly the state of PDEC_LOAD then PDEC_RUN; unconfigured, it faults before anything is written. -/
def Obligations.PdecIsLoadThenRun : Prop :=
  ∀ (s : State) (n K : Nat), Inv s → s.regs.pcN.toNat = 2 ^ n → s.regs.pcK.toNat = K →
    (s.regs.valid .polar = true → ∃ t u, exec .pdecLoad s = .next t ∧ exec .pdecRun t = .next u ∧
      exec .pdec s = .next u ∧ SamePort s u ∧ u.regs = s.regs ∧ u.written .llr 0 (2 ^ n) ∧
      u.written .beta 0 (2 ^ n) ∧ u.written .dout 0 (K / 8) ∧
      SameElemsBut s u fun sp i => (sp = .llr ∧ i < 2 ^ n) ∨ (sp = .beta ∧ i < 2 ^ n) ∨
        (sp = .dout ∧ i < K / 8)) ∧
    (s.regs.valid .polar = false → s.regs.faulted = false →
      ∃ t, exec .pdec s = .next t ∧ FaultRecorded s t 0x02 2 0x24)

/-! ## Galois field and Reed–Solomon -/

/-- 45_gf_rs.md R272: the first failing check of the table gives the sub-cause of RS_CFG. -/
def Obligations.RsCfgRefusesTheFirstFailingCheck : Prop :=
  ∀ (s : State) (n : Nat), s.regs.faulted = false →
    rsFails s.par s.regs.rsGm.toNat s.regs.rsPrim.toNat s.regs.rsRp.toNat s.regs.rsRn.toNat n →
    (∀ m, 1 ≤ m → m < n → ¬ rsFails s.par s.regs.rsGm.toNat s.regs.rsPrim.toNat s.regs.rsRp.toNat
      s.regs.rsRn.toNat m) →
    ∃ t, exec .rsCfg s = .next t ∧ FaultRecorded s t 0x30 n 0x30

/-- 45_gf_rs.md R271, R273, R274: with no check failing, RS_CFG writes GALOG[i] = α^i for i < 2q, the logs of
the nonzero elements, GLOG[0] = 0, the generator polynomial and RS_VALID; nothing else. -/
def Obligations.RsCfgDescribesTheField : Prop :=
  ∀ (s : State) (gm prim rp q : Nat) (α : Nat → Nat), s.par.wf = true → s.regs.rsGm.toNat = gm →
    s.regs.rsPrim.toNat = prim → s.regs.rsRp.toNat = rp → q = 2 ^ gm → α = alphaPow gm prim →
    (∀ n, ¬ rsFails s.par gm prim rp s.regs.rsRn.toNat n) →
    ∃ t, exec .rsCfg s = .next t ∧ SamePort s t ∧ t.draws = s.draws ∧
      t.regs = { s.regs with status := s.regs.status ||| 0x4 } ∧
      (∀ i < 2 * q, t.elem? .galog i = some (BitVec.ofNat 64 (α i))) ∧
      (∀ i, 1 ≤ i → i ≤ q - 1 → t.elem? .glog (α i) = some (BitVec.ofNat 64 i)) ∧
      t.elem? .glog 0 = some 0 ∧
      (∀ a, 0 < a → a < q → ∃ i, 1 ≤ i ∧ i ≤ q - 1 ∧ α i = a) ∧
      α 0 = 1 ∧ α (q - 1) = 1 ∧ (∀ i, α (i + q - 1) = α i) ∧
      (∀ i, α (i + 1) =
        if 2 * α i / q % 2 = 1 then (2 * α i) ^^^ prim else 2 * α i) ∧
      t.holds .gen 0 (elemsOfSymbols (generatorPoly (gfTables q prim) rp)) ∧
      (generatorPoly (gfTables q prim) rp).length = rp + 1 ∧
      SameElemsBut s t fun sp i => (sp = .galog ∧ i < 2 * q) ∨ (sp = .glog ∧ i < q) ∨
        (sp = .gen ∧ i ≤ rp)

/-- 45_gf_rs.md R277, R275: `multiply` is the product of GF(2)[x]/(PRIM): it stays below q, is commutative and
associative, distributes over XOR, has the identity 1 and no zero divisors, and multiplying by x is `xtime`. -/
def Obligations.MultiplyIsTheFieldProduct : Prop :=
  ∀ (gm prim q : Nat) (t : GfTables), PrimitivePoly gm prim → q = 2 ^ gm → t = gfTables q prim →
    ∀ a b c, a < q → b < q → c < q →
      gfMultiply t a b =
        (if a = 0 ∨ b = 0 then 0 else t.antilog.getD (t.log.getD a 0 + t.log.getD b 0) 0) ∧
      (a ≠ 0 → b ≠ 0 → 2 ≤ t.log.getD a 0 + t.log.getD b 0 ∧
        t.log.getD a 0 + t.log.getD b 0 ≤ 2 * q - 2 ∧ gfMultiply t a b ≠ 0) ∧
      gfMultiply t a b < q ∧
      gfMultiply t a b = gfMultiply t b a ∧
      gfMultiply t (gfMultiply t a b) c = gfMultiply t a (gfMultiply t b c) ∧
      gfMultiply t a (b ^^^ c) = gfMultiply t a b ^^^ gfMultiply t a c ∧
      gfMultiply t a 1 = a ∧ gfMultiply t 2 a = xtime q prim a

/-- 45_gf_rs.md R276: the generator polynomial is monic of degree RP and its roots are exactly
α^1 … α^RP. -/
def Obligations.GeneratorHasItsRoots : Prop :=
  ∀ (gm prim rp : Nat) (t : GfTables), PrimitivePoly gm prim → t = gfTables (2 ^ gm) prim →
    rp + 1 ≤ 2 ^ gm - 1 →
    (generatorPoly t rp).length = rp + 1 ∧ (generatorPoly t rp).head? = some 1 ∧
    (∀ c ∈ generatorPoly t rp, c < 2 ^ gm) ∧
    ∀ x < 2 ^ gm, evaluatePoly t (generatorPoly t rp) x = 0 ↔
      ∃ i, 1 ≤ i ∧ i ≤ rp ∧ x = alphaPow gm prim i

/-- 45_gf_rs.md R279: the division register computes the remainder of the in-place long division. -/
def Obligations.RemainderIsLongDivision : Prop :=
  ∀ (t : GfTables) (gen message : List Nat), 2 ≤ gen.length →
    remainderPoly t gen message = longDivisionRemainder t gen message

/-- 45_gf_rs.md R281: GF_MUL: NOT_CONFIGURED, GF_SYMBOL_RANGE on an operand not below q (compared on all 64
bits), else GF_R holds the product and nothing else changes. -/
def Obligations.GfMulWritesTheProduct : Prop :=
  ∀ (s : State) (a b q : Nat), Inv s → s.regs.faulted = false → s.regs.gfA.toNat = a →
    s.regs.gfB.toNat = b → q = 2 ^ s.regs.rsGm.toNat →
    (s.regs.valid .rs = false → ∃ t, exec .gfMul s = .next t ∧ FaultRecorded s t 0x02 3 0x31) ∧
    (s.regs.valid .rs = true → q ≤ a ∨ q ≤ b →
      ∃ t, exec .gfMul s = .next t ∧ FaultRecorded s t 0x31 1 0x31) ∧
    (s.regs.valid .rs = true → a < q → b < q → exec .gfMul s =
      .next (s.withRegs { s.regs with
        gfR := BitVec.ofNat 64 (gfMultiply (rsTables s.regs) a b) }))

/-- 45_gf_rs.md R284: RS_ENC on a written message of field elements completes and writes exactly
RB[RN .. RN+RP), the remainder of the message by the generator. -/
def Obligations.RsEncWritesTheRemainder : Prop :=
  ∀ (s : State) (rn rp : Nat) (message : List Nat), Inv s → s.regs.valid .rs = true →
    s.regs.rsRn.toNat = rn → s.regs.rsRp.toNat = rp → s.written .rb 0 rn →
    message = symbolsOfElems (s.values .rb 0 rn) → (∀ x ∈ message, x < 2 ^ s.regs.rsGm.toNat) →
    ∃ t rem, exec .rsEnc s = .next t ∧ t.draws = s.draws ∧
      WroteOnly s t .rb rn (elemsOfSymbols rem) ∧ rem.length = rp ∧
      rem = remainderPoly (rsTables s.regs) (generatorPoly (rsTables s.regs) rp) message

/-- 45_gf_rs.md R282: RS_ENC, RS_CHECK and RS_DEC raise GF_SYMBOL_RANGE sub 2, writing nothing, when an element
they are about to read is not below q; with gm = 8 none is. -/
def Obligations.RsSymbolRangeFaults : Prop :=
  (∀ (s : State) (q rn rp : Nat), Inv s → s.regs.faulted = false → s.regs.valid .rs = true →
    q = 2 ^ s.regs.rsGm.toNat → s.regs.rsRn.toNat = rn → s.regs.rsRp.toNat = rp →
    (s.written .rb 0 rn → (∃ v ∈ s.values .rb 0 rn, q ≤ v.toNat) →
      ∃ t, exec .rsEnc s = .next t ∧ FaultRecorded s t 0x31 2 0x32) ∧
    (s.written .rb 0 (rn + rp) → (∃ v ∈ s.values .rb 0 (rn + rp), q ≤ v.toNat) →
      (∃ t, exec .rsCheck s = .next t ∧ FaultRecorded s t 0x31 2 0x33) ∧
      ∃ t, exec .rsDec s = .next t ∧ FaultRecorded s t 0x31 2 0x34)) ∧
  ∀ (s : State) (n : Nat), Inv s → s.regs.rsGm.toNat = 8 →
    ∀ v ∈ s.values .rb 0 n, v.toNat < 2 ^ s.regs.rsGm.toNat

/-- 10_state.md R65, 70_reset_and_hazards.md R376: on a configured codec RS_ENC, RS_CHECK and RS_DEC complete
whatever has been written to RB. Reading unwritten symbols is no fault of its own: the command raises
GF_SYMBOL_RANGE for values it tested (never with gm = 8), or writes its results, some values, and nothing
else. -/
def Obligations.RsCommandsRunOnUnwrittenSymbols : Prop :=
  ∀ (s : State) (rn rp : Nat), Inv s → s.regs.faulted = false → s.regs.valid .rs = true →
    s.regs.rsRn.toNat = rn → s.regs.rsRp.toNat = rp →
    (∃ t, exec .rsEnc s = .next t ∧
      ((s.regs.rsGm.toNat ≠ 8 ∧ FaultRecorded s t 0x31 2 0x32) ∨
        ∃ vs, vs.length = rp ∧ WroteOnly s t .rb rn vs)) ∧
    ∀ x ∈ [(Instr.rsCheck, 0x33), (.rsDec, 0x34)], ∃ t, exec x.1 s = .next t ∧
      ((s.regs.rsGm.toNat ≠ 8 ∧ FaultRecorded s t 0x31 2 x.2) ∨
        ∃ syn top, syn.length = rp ∧ top ∈ syn ∧ (∀ y ∈ syn, y ≤ top) ∧ top < 256 ∧ SamePort s t ∧
          t.holds .syn 0 (elemsOfSymbols syn) ∧
          SameElemsBut s t (fun sp i => sp = .syn ∧ i < rp) ∧
          t.regs = { s.regs with
            rsMaxsyn := BitVec.ofNat 64 top
            rsDecstat := if x.1 = .rsDec then (if top = 0 then 0 else 1) else s.regs.rsDecstat
            status := if top = 0 then s.regs.status ||| 0x10 else s.regs.status &&& ~~~0x10 })

/-- 45_gf_rs.md R287, R290: RS_CHECK on a written word of field elements completes and writes the syndromes,
their maximum and RS_ZERO; RS_DEC does the same and writes RS_DECSTAT; RB and everything else stay. -/
def Obligations.RsCheckAndDecWriteTheSyndromes : Prop :=
  ∀ (s : State) (n rp : Nat) (word syn : List Nat), Inv s → s.regs.valid .rs = true →
    s.regs.rsRn.toNat + s.regs.rsRp.toNat = n → s.regs.rsRp.toNat = rp → s.written .rb 0 n →
    word = symbolsOfElems (s.values .rb 0 n) → (∀ x ∈ word, x < 2 ^ s.regs.rsGm.toNat) →
    syn = (List.range' 1 rp).map (fun j => evaluatePoly (rsTables s.regs) word
      (alphaPow s.regs.rsGm.toNat s.regs.rsPrim.toNat j)) →
    ∃ t top, exec .rsCheck s = .next t ∧ SamePort s t ∧ t.draws = s.draws ∧
      t.holds .syn 0 (elemsOfSymbols syn) ∧ top ∈ syn ∧ (∀ x ∈ syn, x ≤ top) ∧
      t.regs = { s.regs with
        rsMaxsyn := BitVec.ofNat 64 top
        status := if top = 0 then s.regs.status ||| 0x10 else s.regs.status &&& ~~~0x10 } ∧
      SameElemsBut s t (fun sp i => sp = .syn ∧ i < rp) ∧
      exec .rsDec s = .next (t.withRegs { t.regs with rsDecstat := if top = 0 then 0 else 1 })

/-- 45_gf_rs.md R291: RS_CHECK after RS_ENC finds every syndrome zero, whatever the message. -/
def Obligations.RsRoundTrip : Prop :=
  ∀ (s : State) (rn rp : Nat), Inv s → s.regs.valid .rs = true → s.regs.rsRn.toNat = rn →
    s.regs.rsRp.toNat = rp → s.written .rb 0 rn →
    (∀ v ∈ s.values .rb 0 rn, v.toNat < 2 ^ s.regs.rsGm.toNat) →
    ∃ t u, exec .rsEnc s = .next t ∧ exec .rsCheck t = .next u ∧ u.regs.rsMaxsyn = 0 ∧
      u.regs.rsZero = true ∧ ∀ j < rp, u.elem? .syn j = some 0

/-- 45_gf_rs.md R288: a word that differs from a codeword in exactly one element, at index d, by e, has
S_j = e·α^(j·(n−1−d)), nonzero for every j; so RS_MAXSYN is not 0. -/
def Obligations.RsSingleErrorIsDetected : Prop :=
  ∀ (s : State) (n rp q d e : Nat) (word : List Nat), Inv s → s.regs.valid .rs = true →
    s.regs.rsRn.toNat + s.regs.rsRp.toNat = n → s.regs.rsRp.toNat = rp →
    q = 2 ^ s.regs.rsGm.toNat → word.length = n → (∀ x ∈ word, x < q) →
    (∀ j, 1 ≤ j → j ≤ rp → evaluatePoly (rsTables s.regs) word
      (alphaPow s.regs.rsGm.toNat s.regs.rsPrim.toNat j) = 0) →
    d < n → 0 < e → e < q →
    s.holds .rb 0 (elemsOfSymbols (word.set d (word.getD d 0 ^^^ e))) →
    ∃ t, exec .rsCheck s = .next t ∧ t.regs.rsMaxsyn ≠ 0 ∧ t.regs.rsZero = false ∧
      ∀ j, 1 ≤ j → j ≤ rp → ∃ x, x ≠ 0 ∧ x = gfMultiply (rsTables s.regs) e
          (alphaPow s.regs.rsGm.toNat s.regs.rsPrim.toNat (j * (n - 1 - d))) ∧
        t.elem? .syn (j - 1) = some (BitVec.ofNat 64 x)

/-! ## The invariant -/

/-- The state after reset is good, whatever the legal structural parameters (70_reset_and_hazards.md R371,
10_state.md R25). -/
def Obligations.ResetIsGood : Prop :=
  Inv State.reset ∧ ∀ p : Params, p.wf = true → Inv (State.resetOf p)

/-- Every step keeps the state good: memory canonical, every element within its space and width, STATUS and
FAULT as 10_state.md R25, R26 say, and a set VALID bit means that the derived registers and tables describe
the current parameters. -/
def Obligations.StepKeepsTheInvariant : Prop :=
  ∀ s t : State, Inv s → step s = .next t → Inv t

/-- From a good state every step, whatever the host does, comes to a next state: no input stops the model
(46_system.md R324, 44_polar_decode.md R259). The model's stop for malformed TREE contents (log entry 8) is
never reached. -/
def Obligations.GoodStatesNeverStop : Prop :=
  ∀ s : State, Inv s → ∃ t, step s = .next t
end

