-- ==== Sys2Proof/Laws/State.lean ====
section
/-! SUPPORT. One lemma per field per update of the state and of the registers, each true by rfl, so that no
proof unfolds a record update. -/

namespace Sys2Proof.Machine

/-! ## Updates of the state -/

@[simp] theorem State.withRegs_par (s : State) (g : Regs) : (s.withRegs g).par = s.par := rfl
@[simp] theorem State.withRegs_regs (s : State) (g : Regs) : (s.withRegs g).regs = g := rfl
@[simp] theorem State.withRegs_mem (s : State) (g : Regs) : (s.withRegs g).mem = s.mem := rfl
@[simp] theorem State.withRegs_draws (s : State) (g : Regs) : (s.withRegs g).draws = s.draws := rfl
@[simp] theorem State.withRegs_pending (s : State) (g : Regs) : (s.withRegs g).pending = s.pending := rfl
@[simp] theorem State.withRegs_returned (s : State) (g : Regs) : (s.withRegs g).returned = s.returned := rfl

@[simp] theorem State.returning_par (s : State) (v : Word64) : (s.returning v).par = s.par := rfl
@[simp] theorem State.returning_regs (s : State) (v : Word64) : (s.returning v).regs = s.regs := rfl
@[simp] theorem State.returning_mem (s : State) (v : Word64) : (s.returning v).mem = s.mem := rfl
@[simp] theorem State.returning_draws (s : State) (v : Word64) : (s.returning v).draws = s.draws := rfl
@[simp] theorem State.returning_pending (s : State) (v : Word64) : (s.returning v).pending = s.pending := rfl
@[simp] theorem State.returning_returned (s : State) (v : Word64) : (s.returning v).returned = v :: s.returned := rfl

@[simp] theorem State.write_par (s : State) (sp : Space) (lo : Nat) (vs : List Word64) : (s.write sp lo vs).par = s.par := rfl
@[simp] theorem State.write_regs (s : State) (sp : Space) (lo : Nat) (vs : List Word64) : (s.write sp lo vs).regs = s.regs := rfl
@[simp] theorem State.write_mem (s : State) (sp : Space) (lo : Nat) (vs : List Word64) : (s.write sp lo vs).mem = 
      s.mem.putCells (cellsWrite (s.mem.cells sp) lo (vs.map (truncTo (sp.width s.par)))) sp := rfl
@[simp] theorem State.write_draws (s : State) (sp : Space) (lo : Nat) (vs : List Word64) : (s.write sp lo vs).draws = s.draws := rfl
@[simp] theorem State.write_pending (s : State) (sp : Space) (lo : Nat) (vs : List Word64) : (s.write sp lo vs).pending = s.pending := rfl
@[simp] theorem State.write_returned (s : State) (sp : Space) (lo : Nat) (vs : List Word64) : (s.write sp lo vs).returned = s.returned := rfl

@[simp] theorem State.withFetchWord_par (s : State) (n w : Nat) : (s.withFetchWord n w).par = s.par := rfl
@[simp] theorem State.withFetchWord_regs (s : State) (n w : Nat) : (s.withFetchWord n w).regs = s.regs := rfl
@[simp] theorem State.withFetchWord_mem (s : State) (n w : Nat) : (s.withFetchWord n w).mem = s.mem := rfl
@[simp] theorem State.withFetchWord_draws (s : State) (n w : Nat) : (s.withFetchWord n w).draws = s.draws := rfl
@[simp] theorem State.withFetchWord_pending (s : State) (n w : Nat) : (s.withFetchWord n w).pending = 
      .regWrite 0x03 (BitVec.ofNat 64 (w % 2 ^ n)) :: s.pending := rfl
@[simp] theorem State.withFetchWord_returned (s : State) (n w : Nat) : (s.withFetchWord n w).returned = s.returned := rfl

@[simp] theorem raiseFault_par (c : Cause) (sub op : Byte) (s : State) : (raiseFault c sub op s).par = s.par := rfl
@[simp] theorem raiseFault_regs (c : Cause) (sub op : Byte) (s : State) : (raiseFault c sub op s).regs = s.regs.recordFault c sub op := rfl
@[simp] theorem raiseFault_mem (c : Cause) (sub op : Byte) (s : State) : (raiseFault c sub op s).mem = s.mem := rfl
@[simp] theorem raiseFault_draws (c : Cause) (sub op : Byte) (s : State) : (raiseFault c sub op s).draws = s.draws := rfl
@[simp] theorem raiseFault_pending (c : Cause) (sub op : Byte) (s : State) : (raiseFault c sub op s).pending = s.pending := rfl
@[simp] theorem raiseFault_returned (c : Cause) (sub op : Byte) (s : State) : (raiseFault c sub op s).returned = s.returned := rfl

@[simp] theorem resetBlock_par (s : State) : (resetBlock s).par = s.par := rfl
@[simp] theorem resetBlock_regs (s : State) : (resetBlock s).regs = Regs.reset := rfl
@[simp] theorem resetBlock_mem (s : State) : (resetBlock s).mem = Memory.unspecified := rfl
@[simp] theorem resetBlock_draws (s : State) : (resetBlock s).draws = s.draws := rfl
@[simp] theorem resetBlock_pending (s : State) : (resetBlock s).pending = s.pending := rfl
@[simp] theorem resetBlock_returned (s : State) : (resetBlock s).returned = s.returned := rfl

@[simp] theorem writeDecstat_par (s : State) : (writeDecstat s).par = s.par := rfl
@[simp] theorem writeDecstat_regs (s : State) : (writeDecstat s).regs = 
      { s.regs with rsDecstat := if s.regs.rsMaxsyn = 0 then 0 else 1 } := rfl
@[simp] theorem writeDecstat_mem (s : State) : (writeDecstat s).mem = s.mem := rfl
@[simp] theorem writeDecstat_draws (s : State) : (writeDecstat s).draws = s.draws := rfl
@[simp] theorem writeDecstat_pending (s : State) : (writeDecstat s).pending = s.pending := rfl
@[simp] theorem writeDecstat_returned (s : State) : (writeDecstat s).returned = s.returned := rfl

/-! ## Updates of the registers -/

@[simp] theorem Regs.putValid_status (g : Regs) (e : Engine) (x : Bool) : (g.putValid e x).status = putBit g.status e.validBit x := rfl
@[simp] theorem Regs.putValid_fault (g : Regs) (e : Engine) (x : Bool) : (g.putValid e x).fault = g.fault := rfl
@[simp] theorem Regs.putValid_ilvK (g : Regs) (e : Engine) (x : Bool) : (g.putValid e x).ilvK = g.ilvK := rfl
@[simp] theorem Regs.putValid_ilvL (g : Regs) (e : Engine) (x : Bool) : (g.putValid e x).ilvL = g.ilvL := rfl
@[simp] theorem Regs.putValid_ilvPm (g : Regs) (e : Engine) (x : Bool) : (g.putValid e x).ilvPm = g.ilvPm := rfl
@[simp] theorem Regs.putValid_ilvBs (g : Regs) (e : Engine) (x : Bool) : (g.putValid e x).ilvBs = g.ilvBs := rfl
@[simp] theorem Regs.putValid_ilvC (g : Regs) (e : Engine) (x : Bool) : (g.putValid e x).ilvC = g.ilvC := rfl
@[simp] theorem Regs.putValid_ilvOnes (g : Regs) (e : Engine) (x : Bool) : (g.putValid e x).ilvOnes = g.ilvOnes := rfl
@[simp] theorem Regs.putValid_ilvNin (g : Regs) (e : Engine) (x : Bool) : (g.putValid e x).ilvNin = g.ilvNin := rfl
@[simp] theorem Regs.putValid_ilvNout (g : Regs) (e : Engine) (x : Bool) : (g.putValid e x).ilvNout = g.ilvNout := rfl
@[simp] theorem Regs.putValid_ilvNiter (g : Regs) (e : Engine) (x : Bool) : (g.putValid e x).ilvNiter = g.ilvNiter := rfl
@[simp] theorem Regs.putValid_ilvInlen (g : Regs) (e : Engine) (x : Bool) : (g.putValid e x).ilvInlen = g.ilvInlen := rfl
@[simp] theorem Regs.putValid_ilvOutlen (g : Regs) (e : Engine) (x : Bool) : (g.putValid e x).ilvOutlen = g.ilvOutlen := rfl
@[simp] theorem Regs.putValid_pcN (g : Regs) (e : Engine) (x : Bool) : (g.putValid e x).pcN = g.pcN := rfl
@[simp] theorem Regs.putValid_pcM (g : Regs) (e : Engine) (x : Bool) : (g.putValid e x).pcM = g.pcM := rfl
@[simp] theorem Regs.putValid_pcK (g : Regs) (e : Engine) (x : Bool) : (g.putValid e x).pcK = g.pcK := rfl
@[simp] theorem Regs.putValid_pcSnr (g : Regs) (e : Engine) (x : Bool) : (g.putValid e x).pcSnr = g.pcSnr := rfl
@[simp] theorem Regs.putValid_pcLs (g : Regs) (e : Engine) (x : Bool) : (g.putValid e x).pcLs = g.pcLs := rfl
@[simp] theorem Regs.putValid_pcLogn (g : Regs) (e : Engine) (x : Bool) : (g.putValid e x).pcLogn = g.pcLogn := rfl
@[simp] theorem Regs.putValid_pcInitshort (g : Regs) (e : Engine) (x : Bool) : (g.putValid e x).pcInitshort = g.pcInitshort := rfl
@[simp] theorem Regs.putValid_pcNnodes (g : Regs) (e : Engine) (x : Bool) : (g.putValid e x).pcNnodes = g.pcNnodes := rfl
@[simp] theorem Regs.putValid_rsGm (g : Regs) (e : Engine) (x : Bool) : (g.putValid e x).rsGm = g.rsGm := rfl
@[simp] theorem Regs.putValid_rsPrim (g : Regs) (e : Engine) (x : Bool) : (g.putValid e x).rsPrim = g.rsPrim := rfl
@[simp] theorem Regs.putValid_rsRp (g : Regs) (e : Engine) (x : Bool) : (g.putValid e x).rsRp = g.rsRp := rfl
@[simp] theorem Regs.putValid_rsRn (g : Regs) (e : Engine) (x : Bool) : (g.putValid e x).rsRn = g.rsRn := rfl
@[simp] theorem Regs.putValid_gfA (g : Regs) (e : Engine) (x : Bool) : (g.putValid e x).gfA = g.gfA := rfl
@[simp] theorem Regs.putValid_gfB (g : Regs) (e : Engine) (x : Bool) : (g.putValid e x).gfB = g.gfB := rfl
@[simp] theorem Regs.putValid_gfR (g : Regs) (e : Engine) (x : Bool) : (g.putValid e x).gfR = g.gfR := rfl
@[simp] theorem Regs.putValid_rsMaxsyn (g : Regs) (e : Engine) (x : Bool) : (g.putValid e x).rsMaxsyn = g.rsMaxsyn := rfl
@[simp] theorem Regs.putValid_rsDecstat (g : Regs) (e : Engine) (x : Bool) : (g.putValid e x).rsDecstat = g.rsDecstat := rfl

@[simp] theorem Regs.putRsZero_status (g : Regs) (x : Bool) : (g.putRsZero x).status = putBit g.status rsZeroBit x := rfl
@[simp] theorem Regs.putRsZero_fault (g : Regs) (x : Bool) : (g.putRsZero x).fault = g.fault := rfl
@[simp] theorem Regs.putRsZero_ilvK (g : Regs) (x : Bool) : (g.putRsZero x).ilvK = g.ilvK := rfl
@[simp] theorem Regs.putRsZero_ilvL (g : Regs) (x : Bool) : (g.putRsZero x).ilvL = g.ilvL := rfl
@[simp] theorem Regs.putRsZero_ilvPm (g : Regs) (x : Bool) : (g.putRsZero x).ilvPm = g.ilvPm := rfl
@[simp] theorem Regs.putRsZero_ilvBs (g : Regs) (x : Bool) : (g.putRsZero x).ilvBs = g.ilvBs := rfl
@[simp] theorem Regs.putRsZero_ilvC (g : Regs) (x : Bool) : (g.putRsZero x).ilvC = g.ilvC := rfl
@[simp] theorem Regs.putRsZero_ilvOnes (g : Regs) (x : Bool) : (g.putRsZero x).ilvOnes = g.ilvOnes := rfl
@[simp] theorem Regs.putRsZero_ilvNin (g : Regs) (x : Bool) : (g.putRsZero x).ilvNin = g.ilvNin := rfl
@[simp] theorem Regs.putRsZero_ilvNout (g : Regs) (x : Bool) : (g.putRsZero x).ilvNout = g.ilvNout := rfl
@[simp] theorem Regs.putRsZero_ilvNiter (g : Regs) (x : Bool) : (g.putRsZero x).ilvNiter = g.ilvNiter := rfl
@[simp] theorem Regs.putRsZero_ilvInlen (g : Regs) (x : Bool) : (g.putRsZero x).ilvInlen = g.ilvInlen := rfl
@[simp] theorem Regs.putRsZero_ilvOutlen (g : Regs) (x : Bool) : (g.putRsZero x).ilvOutlen = g.ilvOutlen := rfl
@[simp] theorem Regs.putRsZero_pcN (g : Regs) (x : Bool) : (g.putRsZero x).pcN = g.pcN := rfl
@[simp] theorem Regs.putRsZero_pcM (g : Regs) (x : Bool) : (g.putRsZero x).pcM = g.pcM := rfl
@[simp] theorem Regs.putRsZero_pcK (g : Regs) (x : Bool) : (g.putRsZero x).pcK = g.pcK := rfl
@[simp] theorem Regs.putRsZero_pcSnr (g : Regs) (x : Bool) : (g.putRsZero x).pcSnr = g.pcSnr := rfl
@[simp] theorem Regs.putRsZero_pcLs (g : Regs) (x : Bool) : (g.putRsZero x).pcLs = g.pcLs := rfl
@[simp] theorem Regs.putRsZero_pcLogn (g : Regs) (x : Bool) : (g.putRsZero x).pcLogn = g.pcLogn := rfl
@[simp] theorem Regs.putRsZero_pcInitshort (g : Regs) (x : Bool) : (g.putRsZero x).pcInitshort = g.pcInitshort := rfl
@[simp] theorem Regs.putRsZero_pcNnodes (g : Regs) (x : Bool) : (g.putRsZero x).pcNnodes = g.pcNnodes := rfl
@[simp] theorem Regs.putRsZero_rsGm (g : Regs) (x : Bool) : (g.putRsZero x).rsGm = g.rsGm := rfl
@[simp] theorem Regs.putRsZero_rsPrim (g : Regs) (x : Bool) : (g.putRsZero x).rsPrim = g.rsPrim := rfl
@[simp] theorem Regs.putRsZero_rsRp (g : Regs) (x : Bool) : (g.putRsZero x).rsRp = g.rsRp := rfl
@[simp] theorem Regs.putRsZero_rsRn (g : Regs) (x : Bool) : (g.putRsZero x).rsRn = g.rsRn := rfl
@[simp] theorem Regs.putRsZero_gfA (g : Regs) (x : Bool) : (g.putRsZero x).gfA = g.gfA := rfl
@[simp] theorem Regs.putRsZero_gfB (g : Regs) (x : Bool) : (g.putRsZero x).gfB = g.gfB := rfl
@[simp] theorem Regs.putRsZero_gfR (g : Regs) (x : Bool) : (g.putRsZero x).gfR = g.gfR := rfl
@[simp] theorem Regs.putRsZero_rsMaxsyn (g : Regs) (x : Bool) : (g.putRsZero x).rsMaxsyn = g.rsMaxsyn := rfl
@[simp] theorem Regs.putRsZero_rsDecstat (g : Regs) (x : Bool) : (g.putRsZero x).rsDecstat = g.rsDecstat := rfl

@[simp] theorem ilvDerived_status (g : Regs) (B k L : Nat) (pm : Word64) (bs : Nat) : (ilvDerived g B k L pm bs).status = g.status := rfl
@[simp] theorem ilvDerived_fault (g : Regs) (B k L : Nat) (pm : Word64) (bs : Nat) : (ilvDerived g B k L pm bs).fault = g.fault := rfl
@[simp] theorem ilvDerived_ilvK (g : Regs) (B k L : Nat) (pm : Word64) (bs : Nat) : (ilvDerived g B k L pm bs).ilvK = g.ilvK := rfl
@[simp] theorem ilvDerived_ilvL (g : Regs) (B k L : Nat) (pm : Word64) (bs : Nat) : (ilvDerived g B k L pm bs).ilvL = g.ilvL := rfl
@[simp] theorem ilvDerived_ilvPm (g : Regs) (B k L : Nat) (pm : Word64) (bs : Nat) : (ilvDerived g B k L pm bs).ilvPm = g.ilvPm := rfl
@[simp] theorem ilvDerived_ilvBs (g : Regs) (B k L : Nat) (pm : Word64) (bs : Nat) : (ilvDerived g B k L pm bs).ilvBs = g.ilvBs := rfl
@[simp] theorem ilvDerived_ilvC (g : Regs) (B k L : Nat) (pm : Word64) (bs : Nat) : (ilvDerived g B k L pm bs).ilvC = BitVec.ofNat 64 (L / k) := rfl
@[simp] theorem ilvDerived_ilvOnes (g : Regs) (B k L : Nat) (pm : Word64) (bs : Nat) : (ilvDerived g B k L pm bs).ilvOnes = BitVec.ofNat 64 (pmOnes pm L) := rfl
@[simp] theorem ilvDerived_ilvNin (g : Regs) (B k L : Nat) (pm : Word64) (bs : Nat) : (ilvDerived g B k L pm bs).ilvNin = BitVec.ofNat 64 (L / k) := rfl
@[simp] theorem ilvDerived_ilvNout (g : Regs) (B k L : Nat) (pm : Word64) (bs : Nat) : (ilvDerived g B k L pm bs).ilvNout = BitVec.ofNat 64 (pmOnes pm L) := rfl
@[simp] theorem ilvDerived_ilvNiter (g : Regs) (B k L : Nat) (pm : Word64) (bs : Nat) : (ilvDerived g B k L pm bs).ilvNiter = BitVec.ofNat 64 (ceilDiv (8 * bs) (L / k)) := rfl
@[simp] theorem ilvDerived_ilvInlen (g : Regs) (B k L : Nat) (pm : Word64) (bs : Nat) : (ilvDerived g B k L pm bs).ilvInlen = BitVec.ofNat 64 (inBufLen B k bs) := rfl
@[simp] theorem ilvDerived_ilvOutlen (g : Regs) (B k L : Nat) (pm : Word64) (bs : Nat) : (ilvDerived g B k L pm bs).ilvOutlen = BitVec.ofNat 64 (outBufLen bs (pmOnes pm L) (L / k)) := rfl
@[simp] theorem ilvDerived_pcN (g : Regs) (B k L : Nat) (pm : Word64) (bs : Nat) : (ilvDerived g B k L pm bs).pcN = g.pcN := rfl
@[simp] theorem ilvDerived_pcM (g : Regs) (B k L : Nat) (pm : Word64) (bs : Nat) : (ilvDerived g B k L pm bs).pcM = g.pcM := rfl
@[simp] theorem ilvDerived_pcK (g : Regs) (B k L : Nat) (pm : Word64) (bs : Nat) : (ilvDerived g B k L pm bs).pcK = g.pcK := rfl
@[simp] theorem ilvDerived_pcSnr (g : Regs) (B k L : Nat) (pm : Word64) (bs : Nat) : (ilvDerived g B k L pm bs).pcSnr = g.pcSnr := rfl
@[simp] theorem ilvDerived_pcLs (g : Regs) (B k L : Nat) (pm : Word64) (bs : Nat) : (ilvDerived g B k L pm bs).pcLs = g.pcLs := rfl
@[simp] theorem ilvDerived_pcLogn (g : Regs) (B k L : Nat) (pm : Word64) (bs : Nat) : (ilvDerived g B k L pm bs).pcLogn = g.pcLogn := rfl
@[simp] theorem ilvDerived_pcInitshort (g : Regs) (B k L : Nat) (pm : Word64) (bs : Nat) : (ilvDerived g B k L pm bs).pcInitshort = g.pcInitshort := rfl
@[simp] theorem ilvDerived_pcNnodes (g : Regs) (B k L : Nat) (pm : Word64) (bs : Nat) : (ilvDerived g B k L pm bs).pcNnodes = g.pcNnodes := rfl
@[simp] theorem ilvDerived_rsGm (g : Regs) (B k L : Nat) (pm : Word64) (bs : Nat) : (ilvDerived g B k L pm bs).rsGm = g.rsGm := rfl
@[simp] theorem ilvDerived_rsPrim (g : Regs) (B k L : Nat) (pm : Word64) (bs : Nat) : (ilvDerived g B k L pm bs).rsPrim = g.rsPrim := rfl
@[simp] theorem ilvDerived_rsRp (g : Regs) (B k L : Nat) (pm : Word64) (bs : Nat) : (ilvDerived g B k L pm bs).rsRp = g.rsRp := rfl
@[simp] theorem ilvDerived_rsRn (g : Regs) (B k L : Nat) (pm : Word64) (bs : Nat) : (ilvDerived g B k L pm bs).rsRn = g.rsRn := rfl
@[simp] theorem ilvDerived_gfA (g : Regs) (B k L : Nat) (pm : Word64) (bs : Nat) : (ilvDerived g B k L pm bs).gfA = g.gfA := rfl
@[simp] theorem ilvDerived_gfB (g : Regs) (B k L : Nat) (pm : Word64) (bs : Nat) : (ilvDerived g B k L pm bs).gfB = g.gfB := rfl
@[simp] theorem ilvDerived_gfR (g : Regs) (B k L : Nat) (pm : Word64) (bs : Nat) : (ilvDerived g B k L pm bs).gfR = g.gfR := rfl
@[simp] theorem ilvDerived_rsMaxsyn (g : Regs) (B k L : Nat) (pm : Word64) (bs : Nat) : (ilvDerived g B k L pm bs).rsMaxsyn = g.rsMaxsyn := rfl
@[simp] theorem ilvDerived_rsDecstat (g : Regs) (B k L : Nat) (pm : Word64) (bs : Nat) : (ilvDerived g B k L pm bs).rsDecstat = g.rsDecstat := rfl

end Sys2Proof.Machine
end

