-- ==== Sys2Proof/Laws/Memory.lean ====
section
/-! SUPPORT. The laws of the spaces: reading after writing, writing leaves every other element alone,
the canonical form is kept, and what a command's reads can do. -/

namespace Sys2Proof.Machine

/-! ## One space -/

theorem lookup_append_none {c d : Cells} {i : Nat} (h : c.lookup i = none) :
    (c ++ d).lookup i = d.lookup i := by
  rw [List.lookup_append, h, Option.none_or]

theorem lookup_filter_in {c : Cells} {p : Nat → Bool} {i : Nat} (h : p i = true) :
    List.lookup i (c.filter fun x => p x.1) = c.lookup i := by
  induction c with
  | nil => rfl
  | cons x c ih =>
    obtain ⟨a, v⟩ := x
    by_cases ha : i = a
    · subst ha; simp [List.filter, h]
    · have hb : (i == a) = false := by simpa using ha
      by_cases hp : p a = true
      · simp [List.filter, hp, List.lookup, hb, ih]
      · simp [List.filter, hp, List.lookup, hb, ih]

theorem lookup_filter_out {c : Cells} {p : Nat → Bool} {i : Nat} (h : p i = false) :
    List.lookup i (c.filter fun x => p x.1) = none := by
  rw [List.lookup_eq_none_iff]
  intro x hx
  have hp := (List.mem_filter.1 hx).2
  simp only [bne_iff_ne, ne_eq]
  rintro rfl
  simp [h] at hp

theorem lookup_range'_zip (vs : List Word64) (lo i : Nat) :
    List.lookup i ((List.range' lo vs.length).zip vs) = if i < lo then none else vs[i - lo]? := by
  induction vs generalizing lo with
  | nil => simp
  | cons v vs ih =>
    simp only [List.length_cons, List.range'_succ, List.zip_cons_cons, List.lookup_cons]
    by_cases h : i = lo
    · subst h; simp
    · have hb : (i == lo) = false := by simpa using h
      rw [hb]
      simp only [ih (lo + 1)]
      by_cases hlt : i < lo
      · have : i < lo + 1 := by omega
        simp [hlt, this]
      · have h1 : ¬ i < lo + 1 := by omega
        have h2 : i - lo = (i - (lo + 1)) + 1 := by omega
        simp [hlt, h1, h2]

/-- Reading one element after a write: the written value inside the block, the old one outside. -/
theorem cellAt_cellsWrite (c : Cells) (lo : Nat) (vs : List Word64) (i : Nat) :
    cellAt (cellsWrite c lo vs) i =
      if lo ≤ i ∧ i < lo + vs.length then vs[i - lo]? else cellAt c i := by
  unfold cellAt cellsWrite
  by_cases h1 : i < lo
  · have : ¬ (lo ≤ i ∧ i < lo + vs.length) := by omega
    have h3 : decide (lo + vs.length ≤ i) = false := by simp; omega
    rw [if_neg this, List.lookup_append, List.lookup_append,
      lookup_filter_in (p := fun a => decide (a < lo)) (by simpa using h1), lookup_range'_zip,
      if_pos h1, lookup_filter_out (p := fun a => decide (lo + vs.length ≤ a)) h3]
    simp
  · rw [List.append_assoc,
      lookup_append_none (lookup_filter_out (p := fun a => decide (a < lo)) (by simpa using h1)),
      List.lookup_append, lookup_range'_zip, if_neg h1]
    by_cases h2 : i < lo + vs.length
    · have hb : lo ≤ i ∧ i < lo + vs.length := by omega
      have hl : i - lo < vs.length := by omega
      rw [if_pos hb, List.getElem?_eq_getElem hl]
      rfl
    · have hb : ¬ (lo ≤ i ∧ i < lo + vs.length) := by omega
      have hl : vs.length ≤ i - lo := by omega
      rw [if_neg hb, List.getElem?_eq_none hl, Option.none_or,
        lookup_filter_in (p := fun a => decide (lo + vs.length ≤ a)) (by simp; omega)]

/-! ## Canonical form -/

theorem cellsWf_iff_pairwise (c : Cells) :
    cellsWf c = true ↔ c.Pairwise fun x y => x.1 < y.1 := by
  induction c with
  | nil => simp [cellsWf]
  | cons x c ih =>
    cases c with
    | nil => simp [cellsWf]
    | cons y c =>
      simp only [cellsWf, Bool.and_eq_true, decide_eq_true_eq, ih]
      constructor
      · rintro ⟨hxy, h⟩
        refine List.pairwise_cons.2 ⟨fun z hz => ?_, h⟩
        rcases List.mem_cons.1 hz with rfl | hz
        · exact hxy
        · exact hxy.trans ((List.pairwise_cons.1 h).1 z hz)
      · intro h
        exact ⟨(List.pairwise_cons.1 h).1 y (by simp), (List.pairwise_cons.1 h).2⟩

theorem mem_block {lo : Nat} {vs : List Word64} {x : Nat × Word64}
    (h : x ∈ (List.range' lo vs.length).zip vs) : lo ≤ x.1 ∧ x.1 < lo + vs.length := by
  have := (List.of_mem_zip (a := x.1) (b := x.2) h).1
  simp only [List.mem_range'_1] at this
  exact this

theorem block_pairwise (lo : Nat) (vs : List Word64) :
    ((List.range' lo vs.length).zip vs).Pairwise fun x y => x.1 < y.1 := by
  induction vs generalizing lo with
  | nil => simp
  | cons v vs ih =>
    simp only [List.length_cons, List.range'_succ, List.zip_cons_cons]
    refine List.pairwise_cons.2 ⟨fun x hx => ?_, ih (lo + 1)⟩
    have := (mem_block hx).1
    simp only
    omega

/-- A write keeps the canonical form of a space. -/
theorem cellsWf_cellsWrite {c : Cells} (lo : Nat) (vs : List Word64) (h : cellsWf c = true) :
    cellsWf (cellsWrite c lo vs) = true := by
  rw [cellsWf_iff_pairwise] at h ⊢
  unfold cellsWrite
  rw [List.append_assoc]
  refine List.pairwise_append.2 ⟨h.filter _, List.pairwise_append.2
    ⟨block_pairwise lo vs, h.filter _, fun x hx y hy => ?_⟩, fun x hx y hy => ?_⟩
  · have h1 := mem_block hx
    have h2 := (List.mem_filter.1 hy).2
    simp only [decide_eq_true_eq] at h2
    omega
  · have h1 := (List.mem_filter.1 hx).2
    simp only [decide_eq_true_eq] at h1
    rcases List.mem_append.1 hy with hy | hy
    · have h2 := mem_block hy
      omega
    · have h2 := (List.mem_filter.1 hy).2
      simp only [decide_eq_true_eq] at h2
      omega

/-! ## All spaces -/

@[simp] theorem cells_putCells_same (m : Memory) (c : Cells) (sp : Space) :
    (m.putCells c sp).cells sp = c := by cases sp <;> rfl

theorem cells_putCells_ne (m : Memory) (c : Cells) {sp sp' : Space} (h : sp' ≠ sp) :
    (m.putCells c sp).cells sp' = m.cells sp' := by
  cases sp <;> cases sp' <;> first | rfl | exact absurd rfl h

theorem mem_allSpaces (sp : Space) : sp ∈ allSpaces := by cases sp <;> decide

theorem Memory.wf_iff (m : Memory) : m.wf = true ↔ ∀ sp, cellsWf (m.cells sp) = true := by
  simp only [Memory.wf, List.all_eq_true]
  exact ⟨fun h sp => h sp (mem_allSpaces sp), fun h sp _ => h sp⟩

/-- Every memory operation is a write of a block of one space, and keeps the canonical form. -/
theorem Memory.wf_write {s : State} (sp : Space) (lo : Nat) (vs : List Word64)
    (h : s.mem.wf = true) : (s.write sp lo vs).mem.wf = true := by
  rw [Memory.wf_iff] at h ⊢
  intro sp'
  by_cases hsp : sp' = sp
  · subst hsp
    simpa using cellsWf_cellsWrite lo _ (h sp')
  · simpa [cells_putCells_ne _ _ hsp] using h sp'

theorem Memory.unspecified_wf : Memory.unspecified.wf = true := by decide

theorem State.reset_mem_wf : State.reset.mem.wf = true := Memory.unspecified_wf

/-- Reading one element after a write of a block. -/
theorem State.elem?_write (s : State) (sp sp' : Space) (lo : Nat) (vs : List Word64) (i : Nat) :
    (s.write sp lo vs).elem? sp' i =
      if sp' = sp ∧ lo ≤ i ∧ i < lo + vs.length then
        (vs[i - lo]?).map (truncTo (sp.width s.par))
      else s.elem? sp' i := by
  unfold State.elem?
  by_cases hsp : sp' = sp
  · subst hsp
    simp [cellAt_cellsWrite]
  · simp [cells_putCells_ne _ _ hsp, hsp]

@[simp] theorem State.elem?_withRegs (s : State) (g : Regs) (sp : Space) (i : Nat) :
    (s.withRegs g).elem? sp i = s.elem? sp i := rfl

@[simp] theorem State.elem?_returning (s : State) (v : Word64) (sp : Space) (i : Nat) :
    (s.returning v).elem? sp i = s.elem? sp i := rfl

@[simp] theorem elem?_raiseFault (c : Cause) (sub op : Byte) (s : State) (sp : Space) (i : Nat) :
    (raiseFault c sub op s).elem? sp i = s.elem? sp i := rfl

@[simp] theorem elem?_resetBlock (s : State) (sp : Space) (i : Nat) :
    (resetBlock s).elem? sp i = none := by cases sp <;> rfl

/-! ## Reading -/

/-- `t` is `s` but for the count of draws, which may have risen: all that reading can do. -/
def OnlyDraws (s t : State) : Prop := ∃ d, s.draws ≤ d ∧ t = { s with draws := d }

theorem OnlyDraws.refl (s : State) : OnlyDraws s s := ⟨s.draws, le_refl _, rfl⟩

theorem OnlyDraws.trans {s t u : State} (h : OnlyDraws s t) (h' : OnlyDraws t u) : OnlyDraws s u := by
  obtain ⟨d, hd, rfl⟩ := h
  obtain ⟨e, he, rfl⟩ := h'
  exact ⟨e, hd.trans he, rfl⟩

theorem OnlyDraws.par {s t : State} (h : OnlyDraws s t) : t.par = s.par := by
  obtain ⟨d, -, rfl⟩ := h; rfl

theorem OnlyDraws.regs {s t : State} (h : OnlyDraws s t) : t.regs = s.regs := by
  obtain ⟨d, -, rfl⟩ := h; rfl

theorem OnlyDraws.mem {s t : State} (h : OnlyDraws s t) : t.mem = s.mem := by
  obtain ⟨d, -, rfl⟩ := h; rfl

theorem OnlyDraws.pending {s t : State} (h : OnlyDraws s t) : t.pending = s.pending := by
  obtain ⟨d, -, rfl⟩ := h; rfl

theorem OnlyDraws.returned {s t : State} (h : OnlyDraws s t) : t.returned = s.returned := by
  obtain ⟨d, -, rfl⟩ := h; rfl

theorem OnlyDraws.elem? {s t : State} (h : OnlyDraws s t) (sp : Space) (i : Nat) :
    t.elem? sp i = s.elem? sp i := by
  unfold State.elem?; rw [h.mem]

/-- A free value moves the count by one, whatever it is. -/
theorem draw_state (w : Nat) (s : State) : OnlyDraws s (draw w s).2 :=
  ⟨s.draws + 1, Nat.le_succ _, rfl⟩

theorem draw_toNat_lt (w : Nat) (s : State) : (draw w s).1.toNat < 2 ^ w := by
  unfold draw truncTo
  rw [BitVec.toNat_setWidth]
  exact (Nat.mod_le _ _).trans_lt (BitVec.isLt _)

/-- A read changes nothing but the count of draws. -/
theorem readElem_state (sp : Space) (i : Nat) (s : State) : OnlyDraws s (readElem sp i s).2 := by
  unfold readElem
  split
  · exact .refl s
  · exact draw_state _ s

theorem readElem_written {sp : Space} {i : Nat} {s : State} {v : Word64}
    (h : s.elem? sp i = some v) : readElem sp i s = (v, s) := by
  simp [readElem, h]

/-- A read of an unwritten element draws, at every read anew (10_state.md R65). -/
theorem readElem_unwritten {sp : Space} {i : Nat} {s : State} (h : s.elem? sp i = none) :
    readElem sp i s = draw (sp.width s.par) s := by
  simp [readElem, h]

/-- What the reads of a range can do: nothing but advance the count of draws. -/
theorem gather_state (sp : Space) (lo n : Nat) (s : State) : OnlyDraws s (gather sp lo n s).2 := by
  induction n generalizing lo s with
  | zero => exact .refl s
  | succ n ih => exact (readElem_state sp lo s).trans (ih (lo + 1) _)

/-! ### Loops that read -/

theorem mapReads_state {α β : Type} {f : α → State → β × State}
    (hf : ∀ a s, OnlyDraws s (f a s).2) (as : List α) (s : State) :
    OnlyDraws s (mapReads f as s).2 := by
  induction as generalizing s with
  | nil => exact .refl s
  | cons a as ih => exact (hf a s).trans (ih _)

@[simp] theorem mapReads_length {α β : Type} (f : α → State → β × State) (as : List α) (s : State) :
    (mapReads f as s).1.length = as.length := by
  induction as generalizing s with
  | nil => rfl
  | cons a as ih => simp [mapReads, ih]

/-- A loop whose every item reads written elements only is a `map`, and draws nothing. -/
theorem mapReads_written {α β : Type} {f : α → State → β × State} {g : α → β} {as : List α}
    {s : State} (h : ∀ a ∈ as, f a s = (g a, s)) : mapReads f as s = (as.map g, s) := by
  induction as with
  | nil => rfl
  | cons a as ih =>
    simp [mapReads, h a (by simp), ih fun x hx => h x (List.mem_cons_of_mem _ hx)]

theorem foldReads_state {α β : Type} {f : β → α → State → β × State}
    (hf : ∀ b a s, OnlyDraws s (f b a s).2) (b : β) (as : List α) (s : State) :
    OnlyDraws s (foldReads f b as s).2 := by
  induction as generalizing b s with
  | nil => exact .refl s
  | cons a as ih => exact (hf b a s).trans (ih _ _)

/-- What every item of a loop keeps, the loop keeps. -/
theorem foldReads_inv {α β : Type} {f : β → α → State → β × State} {P : β → Prop}
    (h : ∀ b a s, P b → P (f b a s).1) {b : β} (hb : P b) (as : List α) (s : State) :
    P (foldReads f b as s).1 := by
  induction as generalizing b s with
  | nil => exact hb
  | cons a as ih => exact ih (h b a s hb) _

/-- A loop whose every item, from a value with `P`, reads written elements only and keeps `P`, is a
`foldl`, and draws nothing. -/
theorem foldReads_written {α β : Type} {f : β → α → State → β × State} {g : β → α → β}
    {P : β → Prop} {as : List α} {s : State}
    (h : ∀ b, P b → ∀ a ∈ as, f b a s = (g b a, s) ∧ P (g b a)) {b : β} (hb : P b) :
    foldReads f b as s = (as.foldl g b, s) ∧ P (as.foldl g b) := by
  induction as generalizing b with
  | nil => exact ⟨rfl, hb⟩
  | cons a as ih =>
    obtain ⟨h1, h2⟩ := h b hb a (by simp)
    simpa [foldReads, h1] using ih (fun b hb x hx => h b hb x (List.mem_cons_of_mem _ hx)) h2

/-! ### Ranges -/

@[simp] theorem gather_par (sp : Space) (lo n : Nat) (s : State) :
    (gather sp lo n s).2.par = s.par := (gather_state sp lo n s).par

@[simp] theorem gather_regs (sp : Space) (lo n : Nat) (s : State) :
    (gather sp lo n s).2.regs = s.regs := (gather_state sp lo n s).regs

@[simp] theorem gather_mem (sp : Space) (lo n : Nat) (s : State) :
    (gather sp lo n s).2.mem = s.mem := (gather_state sp lo n s).mem

@[simp] theorem gather_pending (sp : Space) (lo n : Nat) (s : State) :
    (gather sp lo n s).2.pending = s.pending := (gather_state sp lo n s).pending

@[simp] theorem gather_returned (sp : Space) (lo n : Nat) (s : State) :
    (gather sp lo n s).2.returned = s.returned := (gather_state sp lo n s).returned

@[simp] theorem gather_elem? (sp : Space) (lo n : Nat) (s : State) (sp' : Space) (i : Nat) :
    (gather sp lo n s).2.elem? sp' i = s.elem? sp' i := (gather_state sp lo n s).elem? sp' i

@[simp] theorem gather_length (sp : Space) (lo n : Nat) (s : State) :
    (gather sp lo n s).1.length = n := by
  induction n generalizing lo s with
  | zero => rfl
  | succ n ih => simp [gather, ih]

/-- Reading a range that is written: its values, and no draw. -/
theorem gather_written {sp : Space} {lo n : Nat} {s : State} (h : s.written sp lo n) :
    gather sp lo n s = (s.values sp lo n, s) := by
  induction n generalizing lo with
  | zero => rfl
  | succ n ih =>
    have h0 := h lo (by simp [List.mem_range'_1])
    obtain ⟨v, hv⟩ := Option.isSome_iff_exists.1 h0
    have hrest : s.written sp (lo + 1) n := fun i hi =>
      h i (by simp only [List.mem_range'_1] at hi ⊢; omega)
    simp [gather, readElem_written hv, ih hrest, State.values, List.range'_succ, hv]

/-- Reading a range that holds `vs` answers `vs`, and draws nothing. -/
theorem gather_holds {sp : Space} {lo : Nat} {s : State} {vs : List Word64}
    (h : s.holds sp lo vs) : gather sp lo vs.length s = (vs, s) := by
  have hw : s.written sp lo vs.length := by
    intro i hi
    have : s.elem? sp i ∈ vs.map some := by
      rw [← h]; exact List.mem_map.2 ⟨i, hi, rfl⟩
    obtain ⟨v, -, hv⟩ := List.mem_map.1 this
    rw [← hv]; rfl
  rw [gather_written hw]
  have hv : s.values sp lo vs.length = vs := by
    unfold State.values
    have := congrArg (List.map fun o : Option Word64 => o.getD 0) h
    simpa [List.map_map, Function.comp_def] using this
  rw [hv]

/-! ## Writing -/

/-- A write changes only the elements it writes. -/
theorem sameElemsBut_write (s : State) (sp : Space) (lo : Nat) (vs : List Word64) :
    SameElemsBut s (s.write sp lo vs) fun sp' i => sp' = sp ∧ lo ≤ i ∧ i < lo + vs.length := by
  intro sp' i h
  rw [State.elem?_write, if_neg h]

/-- After a write of values that fit the element, the space holds them. -/
theorem holds_write (s : State) (sp : Space) (lo : Nat) (vs : List Word64)
    (hfit : ∀ v ∈ vs, truncTo (sp.width s.par) v = v) : (s.write sp lo vs).holds sp lo vs := by
  apply List.ext_getElem (by simp)
  intro j h1 h2
  simp only [List.length_map, List.length_range'] at h1
  simp only [List.getElem_map, List.getElem_range', one_mul]
  rw [State.elem?_write, if_pos ⟨rfl, by omega, by omega⟩]
  have : lo + j - lo = j := by omega
  rw [this, List.getElem?_eq_getElem h1]
  simp [hfit _ (List.getElem_mem h1)]

end Sys2Proof.Machine
end

