-- ==== Sys2Proof/Laws/Ops.lean ====
section
/-! SUPPORT. For each shared operation one lemma that says once everything it can do: faults, guards, the
reads of tables and symbols, the decoder's answer, issuing a command, one host input. -/

namespace Sys2Proof.Machine

/-! ## Bits of STATUS and the fault word -/

theorem putBit_getLsbD (v : Word64) (n : Nat) (x : Bool) (m : Nat) (hm : m < 64) :
    (putBit v n x).getLsbD m = if m = n then x else v.getLsbD m := by
  unfold putBit
  cases x <;> by_cases h : m = n
  · subst h; simp [hm]
  · simp [hm, h]
  · subst h; simp [hm]
  · simp [h, Ne.symm h]

theorem Engine.validBit_lt (e : Engine) : e.validBit < 64 := by cases e <;> decide

@[simp] theorem Regs.putValid_valid_same (g : Regs) (e : Engine) (x : Bool) :
    (g.putValid e x).valid e = x := by
  rw [Regs.valid, Regs.putValid_status, putBit_getLsbD _ _ _ _ e.validBit_lt, if_pos rfl]

theorem Regs.putValid_valid_ne (g : Regs) {e e' : Engine} (x : Bool) (h : e' ≠ e) :
    (g.putValid e x).valid e' = g.valid e' := by
  rw [Regs.valid, Regs.putValid_status, putBit_getLsbD _ _ _ _ e'.validBit_lt, if_neg, Regs.valid]
  cases e <;> cases e' <;> first | exact absurd rfl h | decide

@[simp] theorem Regs.putValid_faulted (g : Regs) (e : Engine) (x : Bool) :
    (g.putValid e x).faulted = g.faulted := by
  rw [Regs.faulted, Regs.putValid_status, putBit_getLsbD _ _ _ _ (by decide), if_neg, Regs.faulted]
  cases e <;> decide

@[simp] theorem Regs.putValid_rsZero (g : Regs) (e : Engine) (x : Bool) :
    (g.putValid e x).rsZero = g.rsZero := by
  rw [Regs.rsZero, Regs.putValid_status, putBit_getLsbD _ _ _ _ (by decide), if_neg, Regs.rsZero]
  cases e <;> decide

@[simp] theorem Regs.putRsZero_valid (g : Regs) (e : Engine) (x : Bool) :
    (g.putRsZero x).valid e = g.valid e := by
  rw [Regs.valid, Regs.putRsZero_status, putBit_getLsbD _ _ _ _ e.validBit_lt, if_neg, Regs.valid]
  cases e <;> decide

@[simp] theorem Regs.putRsZero_rsZero (g : Regs) (x : Bool) : (g.putRsZero x).rsZero = x := by
  rw [Regs.rsZero, Regs.putRsZero_status, putBit_getLsbD _ _ _ _ (by decide), if_pos rfl]

@[simp] theorem Regs.putRsZero_faulted (g : Regs) (x : Bool) :
    (g.putRsZero x).faulted = g.faulted := by
  rw [Regs.faulted, Regs.putRsZero_status, putBit_getLsbD _ _ _ _ (by decide), if_neg (by decide),
    Regs.faulted]

theorem faultWord_toNat (c : Cause) (sub op : Byte) :
    (faultWord c sub op).toNat = op.toNat * 2 ^ 16 + sub.toNat * 2 ^ 8 + c.code.toNat := by
  have h1 : c.code.toNat < 2 ^ 8 := c.code.isLt
  have h2 : sub.toNat < 2 ^ 8 := sub.isLt
  unfold faultWord
  rw [BitVec.toNat_append, BitVec.toNat_append, BitVec.toNat_append,
    ← Nat.shiftLeft_add_eq_or_of_lt h1, ← Nat.shiftLeft_add_eq_or_of_lt h2]
  simp [Nat.shiftLeft_eq]
  omega

theorem faultWord_ne_zero (c : Cause) (sub op : Byte) : faultWord c sub op ≠ 0 := by
  intro h
  have h1 := congrArg BitVec.toNat h
  rw [faultWord_toNat] at h1
  have h2 : 0 < c.code.toNat := by cases c <;> decide
  simp at h1
  omega

/-- The registers after a fault: the same ones if one is recorded already, else with the record. -/
theorem Regs.recordFault_of_faulted {g : Regs} (c : Cause) (sub op : Byte) (h : g.faulted = true) :
    g.recordFault c sub op = g := by simp [Regs.recordFault, h]

theorem Regs.recordFault_of_not_faulted {g : Regs} (c : Cause) (sub op : Byte)
    (h : g.faulted = false) : g.recordFault c sub op =
      { g with fault := faultWord c sub op, status := g.status ||| 0x80 } := by
  have : BitVec.twoPow 64 faultedBit = (0x80 : Word64) := by decide
  simp [Regs.recordFault, h, putBit, this]

/-- `raise Fault` on a FAULTED block changes nothing. -/
theorem raiseFault_of_faulted {s : State} (c : Cause) (sub op : Byte)
    (h : s.regs.faulted = true) : raiseFault c sub op s = s := by
  simp [raiseFault, State.withRegs, Regs.recordFault_of_faulted c sub op h]

/-- `raise Fault` on a block that is not FAULTED records the fault and changes nothing else. -/
theorem raiseFault_recorded {s : State} (c : Cause) (sub op : Byte)
    (h : s.regs.faulted = false) :
    FaultRecorded s (raiseFault c sub op s) c.code.toNat sub.toNat op.toNat := by
  refine ⟨⟨rfl, rfl, rfl⟩, rfl, ?_⟩
  have hw : faultWord c sub op =
      BitVec.ofNat 64 (op.toNat * 2 ^ 16 + sub.toNat * 2 ^ 8 + c.code.toNat) := by
    rw [← faultWord_toNat, BitVec.ofNat_toNat, BitVec.setWidth_eq]
  rw [raiseFault_regs, Regs.recordFault_of_not_faulted c sub op h, hw]

/-! ## Guards -/

/-- A guarded operation command either runs on a configured engine or raises NOT_CONFIGURED. -/
theorem whenConfigured_next {e : Engine} {i : Instr} {s t : State} {run : State → Result}
    (h : whenConfigured e i s run = .next t) :
    (s.regs.valid e = true ∧ run s = .next t) ∨
      (s.regs.valid e = false ∧ t = raiseFault .notConfigured e.notConfiguredSub (opcode i) s) := by
  unfold whenConfigured at h
  split at h
  · exact .inl ⟨‹_›, h⟩
  · exact .inr ⟨by simp_all, (Host.Outcome.next.inj h).symm⟩

/-- A configuration command either runs or raises its first failing check. -/
theorem whenLegal_next {o : Option Byte} {i : Instr} {c : Cause} {s t : State}
    {run : State → Result} (h : whenLegal o i c s run = .next t) :
    (o = none ∧ run s = .next t) ∨
      ∃ sub, o = some sub ∧ t = raiseFault c sub (opcode i) s := by
  unfold whenLegal at h
  split at h
  · exact .inr ⟨_, rfl, (Host.Outcome.next.inj h).symm⟩
  · exact .inl ⟨rfl, h⟩

/-! ## Reads of the interleaver -/

theorem readWord_state (B i : Nat) (s : State) : OnlyDraws s (readWord B i s).2 :=
  readElem_state .iw i s

theorem readChunk_state (B k c p it : Nat) (s : State) : OnlyDraws s (readChunk B k c p it s).2 := by
  unfold readChunk
  simp only
  split
  · exact (readWord_state B _ s).trans (readWord_state B _ _)
  · exact readWord_state B _ s

theorem foldIteration_state {B : Nat} (isch : List (Word B)) (k c it : Nat) (s : State) :
    OnlyDraws s (foldIteration isch k c it s).2 :=
  foldReads_state (f := fun acc p s =>
      ((acc ||| spray (readSchedule isch p) ((readChunk B k c p it s).1 &&&
        (readSchedule isch p).inMask) : Word B), (readChunk B k c p it s).2))
    (fun _ p s => readChunk_state B k c p it s) _ _ s

theorem forwardBits_state {B : Nat} (isch : List (Word B)) (k c niter nout : Nat) (s : State) :
    OnlyDraws s (forwardBits isch k c niter nout s).2 :=
  mapReads_state (foldIteration_state isch k c) _ s

/-- ILV_FWD hands on NOUT bits for every iteration. -/
theorem forwardBits_length {B : Nat} (isch : List (Word B)) (k c niter nout : Nat) (s : State) :
    (forwardBits isch k c niter nout s).1.length = niter * nout := by
  simp [forwardBits, List.length_flatMap]

/-! ## Reads of tables and symbols -/

/-- A multiplication changes nothing but the count of draws. -/
theorem multiplyFromTables_state (a b : Nat) (s : State) :
    OnlyDraws s (multiplyFromTables a b s).2 := by
  unfold multiplyFromTables
  split
  · exact draw_state _ s
  · split
    · exact .refl s
    · exact (readElem_state _ _ s).trans ((readElem_state _ _ _).trans (readElem_state _ _ _))

theorem evaluateFromTables_state (poly : List Nat) (x : Nat) (s : State) :
    OnlyDraws s (evaluateFromTables poly x s).2 :=
  foldReads_state (fun acc _ s => multiplyFromTables_state acc x s) _ _ s

theorem divisionStep_state (gen rem : List Nat) (m : Nat) (s : State) :
    OnlyDraws s (divisionStep gen rem m s).2 :=
  mapReads_state (multiplyFromTables_state _) _ s

theorem remainderFromTables_state (gen message : List Nat) (s : State) :
    OnlyDraws s (remainderFromTables gen message s).2 :=
  foldReads_state (divisionStep_state gen) _ _ s

/-- The division register keeps its RP coefficients. -/
theorem remainderFromTables_length (gen message : List Nat) (s : State) :
    (remainderFromTables gen message s).1.length = gen.length - 1 := by
  refine foldReads_inv (P := fun rem : List Nat => rem.length = gen.length - 1)
    (fun rem m s h => ?_) (by simp) _ _
  simp only [divisionStep, symbolsOfElems, List.length_zipWith, List.length_append,
    List.length_tail, List.length_map, mapReads_length, List.length_singleton]
  omega

theorem readSymbols_state (n : Nat) (s : State) : OnlyDraws s (readSymbols n s).2 :=
  gather_state .rb 0 n s

theorem readSyndrome_state (j : Nat) (s : State) : OnlyDraws s (readSyndrome j s).2 :=
  (readSymbols_state _ s).trans ((readElem_state _ _ _).trans (evaluateFromTables_state _ _ _))

theorem readSyndromes_state (s : State) : OnlyDraws s (readSyndromes s).2 :=
  mapReads_state readSyndrome_state _ s

@[simp] theorem readSyndromes_length (s : State) :
    (readSyndromes s).1.length = s.regs.rsRp.toNat := by
  simp [readSyndromes]

/-- Reading symbols that are written: their values, and no draw. -/
theorem readSymbols_written {n : Nat} {s : State} (h : s.written .rb 0 n) :
    readSymbols n s = (symbolsOfElems (s.values .rb 0 n), s) := by
  simp [readSymbols, gather_written h]

/-- Where the tables in memory multiply as `t` does, Horner's method over them is `evaluatePoly`. -/
theorem evaluateFromTables_eq {t : GfTables} {gm x : Nat} {poly : List Nat} {s : State}
    (hmul : ∀ a b, a < 2 ^ gm → b < 2 ^ gm → gfMultiply t a b < 2 ^ gm ∧
      multiplyFromTables a b s = (BitVec.ofNat 64 (gfMultiply t a b), s))
    (hgm : gm ≤ 64) (hx : x < 2 ^ gm) (hpoly : ∀ c ∈ poly, c < 2 ^ gm) :
    evaluateFromTables poly x s = (evaluatePoly t poly x, s) ∧ evaluatePoly t poly x < 2 ^ gm := by
  refine foldReads_written (P := (· < 2 ^ gm)) (fun acc ha c hc => ?_) (Nat.two_pow_pos gm)
  obtain ⟨hlt, h⟩ := hmul acc x ha hx
  have h64 : gfMultiply t acc x < 2 ^ 64 := hlt.trans_le (Nat.pow_le_pow_right (by decide) hgm)
  refine ⟨?_, Nat.xor_lt_two_pow hlt (hpoly c hc)⟩
  simp only [h, BitVec.toNat_ofNat, Nat.mod_eq_of_lt h64]

/-- The symbol test either lets the command run, every symbol it read being below q, or raises
GF_SYMBOL_RANGE; either way it has drawn at most. -/
theorem whenSymbols_next {i : Instr} {n : Nat} {s t : State} {run : State → Result}
    (h : whenSymbols i n s run = .next t) :
    ((∀ x ∈ (readSymbols n s).1, x < 2 ^ s.regs.rsGm.toNat) ∧ run (readSymbols n s).2 = .next t) ∨
      ((∃ x ∈ (readSymbols n s).1, 2 ^ s.regs.rsGm.toNat ≤ x) ∧
        t = raiseFault .gfSymbolRange 2 (opcode i) (readSymbols n s).2) := by
  unfold whenSymbols at h
  simp only at h
  split at h
  · rename_i hx
    simp only [List.any_eq_true, decide_eq_true_eq] at hx
    exact .inr ⟨hx, (Host.Outcome.next.inj h).symm⟩
  · rename_i hx
    refine .inl ⟨fun x hm => ?_, h⟩
    by_contra hge
    exact hx (List.any_eq_true.2 ⟨x, hm, by simpa using hge⟩)

/-- What RS_ENC writes: RP symbols behind the message, and nothing else but the count of draws. -/
theorem rsEncode_state (s : State) :
    ∃ u rem, OnlyDraws s u ∧ rem.length = s.regs.rsRp.toNat ∧
      rsEncode s = u.write .rb s.regs.rsRn.toNat (elemsOfSymbols rem) := by
  refine ⟨_, _, (readSymbols_state _ s).trans ((gather_state _ _ _ _).trans
    (remainderFromTables_state _ _ _)), ?_, rfl⟩
  simp [remainderFromTables_length, symbolsOfElems]

/-- What RS_CHECK writes: SYN, RS_MAXSYN and RS_ZERO from the syndromes it computed, and nothing else but
the count of draws. -/
theorem writeSyndromes_state (s : State) :
    ∃ u, OnlyDraws s u ∧ writeSyndromes s =
      (u.write .syn 0 (elemsOfSymbols (readSyndromes s).1)).withRegs
        (({ s.regs with
          rsMaxsyn := BitVec.ofNat 64 ((readSyndromes s).1.foldl max 0) } : Regs).putRsZero
            ((readSyndromes s).1.foldl max 0 == 0)) :=
  ⟨_, readSyndromes_state s, rfl⟩

/-! ## The decoder -/

/-- What a decode of root LLRs can answer as a next state: the two LLR_RANGE faults, or the β of the walk
handed on. -/
theorem decodeRoot_next {i : Instr} {α : List Int} {s t : State} {run : List Bool → State → Result}
    (h : decodeRoot i α s run = .next t) :
    t = raiseFault .llrRange 1 (opcode i) s ∨
      (t = raiseFault .llrRange 2 (opcode i) (gather .tree 0 s.regs.pcNnodes.toNat s).2) ∨
      ∃ recs β rest, recordsOfElems (gather .tree 0 s.regs.pcNnodes.toNat s).1 = some recs ∧
        decTree s.par.llrw (log2 s.regs.pcN.toNat) α recs = .ok (β, rest) ∧
        run β (gather .tree 0 s.regs.pcNnodes.toNat s).2 = .next t := by
  unfold decodeRoot at h
  split at h
  · exact .inl (Host.Outcome.next.inj h).symm
  · simp only at h
    split at h
    · exact absurd h (by simp)
    · rename_i recs hr
      split at h
      · exact absurd h (by simp)
      · exact .inr (.inl (Host.Outcome.next.inj h).symm)
      · rename_i β rest hd
        exact .inr (.inr ⟨recs, β, rest, hr, hd, h⟩)

/-- Writing a decision changes BETA, DO and the count of draws only. -/
theorem writeDecision_state (β : List Bool) (s : State) :
    (writeDecision β s).par = s.par ∧ (writeDecision β s).regs = s.regs ∧
      (writeDecision β s).pending = s.pending ∧ (writeDecision β s).returned = s.returned ∧
      SameElemsBut s (writeDecision β s) fun sp _ => sp = .beta ∨ sp = .dout := by
  refine ⟨by simp [writeDecision], by simp [writeDecision], by simp [writeDecision],
    by simp [writeDecision], ?_⟩
  intro sp i h
  have h1 : sp ≠ .beta := fun e => h (.inl e)
  have h2 : sp ≠ .dout := fun e => h (.inr e)
  simp [writeDecision, State.elem?_write, h1, h2]

/-- Expanding the received bytes changes nothing but the count of draws. -/
theorem expandReceived_state (s : State) : OnlyDraws s (expandReceived s).2 :=
  gather_state .di 0 (s.regs.pcM.toNat / 8) s

/-! ## Commands and host inputs -/

/-- A write to CMD: ignored or SRESET while FAULTED, else ILLEGAL_CMD or the command's rule. -/
theorem issueCommand_cases (v : Word64) (s : State) :
    (s.regs.faulted = true ∧ v = 1 ∧ issueCommand v s = exec .sreset s) ∨
      (s.regs.faulted = true ∧ v ≠ 1 ∧ issueCommand v s = .next s) ∨
      (s.regs.faulted = false ∧ (∃ e, decode v = .error e) ∧
        issueCommand v s = .next (raiseFault .illegalCmd 0 (v.setWidth 8) s)) ∨
      (s.regs.faulted = false ∧ ∃ i, decode v = .ok i ∧ issueCommand v s = exec i s) := by
  unfold issueCommand
  cases hf : s.regs.faulted
  · cases hd : decode v with
    | error e => simp
    | ok i => simp
  · by_cases hv : v = 1
    · exact .inl ⟨rfl, hv, by simp [hv]⟩
    · exact .inr (.inl ⟨rfl, hv, by rw [if_pos rfl, if_neg hv]⟩)

/-- A write to a register: a fault, a command, or a store. -/
theorem hostRegWrite_cases (no : Byte) (v : Word64) (s : State) :
    (regOfNo no = none ∧ hostRegWrite no v s = .next (hostFault 1 s)) ∨
      ∃ r, regOfNo no = some r ∧
        (((r.cls = .ro ∨ r.cls = .roConst) ∧ hostRegWrite no v s = .next (hostFault 2 s)) ∨
          (r.cls = .wo ∧ hostRegWrite no v s = issueCommand v s) ∨
          (r.cls = .rw ∧ hostRegWrite no v s = .next (s.withRegs (r.hostWrite s.regs v)))) := by
  unfold hostRegWrite
  cases hr : regOfNo no with
  | none => simp
  | some r => cases hc : r.cls <;> simp [hc]

/-- A write to an element: a fault, or the one element. -/
theorem hostBufWrite_cases (space index : Nat) (v : Word64) (s : State) :
    (∃ sub, hostBufWrite space index v s = hostFault sub s) ∨
      ∃ sp, spaceOfNo space = some sp ∧ sp.kind = .data ∧ index < sp.capacity s.par ∧
        hostBufWrite space index v s = s.write sp index [v] := by
  unfold hostBufWrite
  cases hs : spaceOfNo space with
  | none => exact .inl ⟨3, rfl⟩
  | some sp =>
    cases hk : sp.kind with
    | table => simp only [hk]; exact .inl ⟨5, rfl⟩
    | data =>
      simp only [hk]
      split
      · exact .inl ⟨4, rfl⟩
      · exact .inr ⟨sp, rfl, hk, by omega, rfl⟩

/-- A read of an element: a fault and 0, or the element and at most one draw. -/
theorem hostBufRead_cases (space index : Nat) (s : State) :
    (∃ sub, hostBufRead space index s = (hostFault sub s).returning 0) ∨
      ∃ sp, spaceOfNo space = some sp ∧ index < sp.capacity s.par ∧
        hostBufRead space index s =
          (readElem sp index s).2.returning (sp.extend s.par (readElem sp index s).1) := by
  unfold hostBufRead
  cases hs : spaceOfNo space with
  | none => exact .inl ⟨3, rfl⟩
  | some sp =>
    simp only
    split
    · exact .inl ⟨4, rfl⟩
    · exact .inr ⟨sp, rfl, by omega, rfl⟩

/-- A step with nothing pending, and a step with an input pending. -/
theorem step_cases (s : State) :
    (s.pending = [] ∧ step s = .next s) ∨
      ∃ x rest, s.pending = x :: rest ∧ step s = hostStep x { s with pending := rest } := by
  unfold step stepHost
  cases h : s.pending with
  | nil => exact .inl ⟨rfl, rfl⟩
  | cons x rest => exact .inr ⟨x, rest, rfl, rfl⟩

end Sys2Proof.Machine
end

