-- ==== Sys2Proof/Laws/Invariant.lean ====
section
/-! SUPPORT. What keeps the parts of the invariant: writes of a block, of a Data space, of a register no
engine depends on. -/

namespace Sys2Proof.Machine

theorem mem_cellsWrite {c : Cells} {lo : Nat} {vs : List Word64} {x : Nat × Word64}
    (h : x ∈ cellsWrite c lo vs) : x ∈ c ∨ (lo ≤ x.1 ∧ x.1 < lo + vs.length ∧ x.2 ∈ vs) := by
  unfold cellsWrite at h
  rcases List.mem_append.1 h with h | h
  · rcases List.mem_append.1 h with h | h
    · exact .inl (List.mem_filter.1 h).1
    · have hb := mem_block h
      exact .inr ⟨hb.1, hb.2, (List.of_mem_zip (a := x.1) (b := x.2) h).2⟩
  · exact .inl (List.mem_filter.1 h).1

theorem truncTo_toNat_lt (w : Nat) (v : Word64) : (truncTo w v).toNat < 2 ^ w := by
  unfold truncTo
  rw [BitVec.toNat_setWidth]
  exact (Nat.mod_le _ _).trans_lt (v.setWidth w).isLt

/-- A write below the capacity keeps every element inside its space and width. -/
theorem elementsFit_write {s : State} {sp : Space} {lo : Nat} {vs : List Word64}
    (hc : lo + vs.length ≤ sp.capacity s.par) (h : ElementsFit s) :
    ElementsFit (s.write sp lo vs) := by
  intro sp' x hx
  by_cases hsp : sp' = sp
  · subst hsp
    simp only [State.write_mem, cells_putCells_same] at hx
    rcases mem_cellsWrite hx with hx | ⟨h1, h2, h3⟩
    · exact h sp' x hx
    · obtain ⟨v, -, hv⟩ := List.mem_map.1 h3
      simp only [List.length_map] at h2
      exact ⟨by simp only [State.write_par]; omega, by rw [← hv]; exact truncTo_toNat_lt _ _⟩
  · simp only [State.write_mem, cells_putCells_ne _ _ hsp] at hx
    exact h sp' x hx

theorem holds_congr {s t : State} {sp : Space} (h : ∀ i, t.elem? sp i = s.elem? sp i)
    {lo : Nat} {vs : List Word64} : s.holds sp lo vs → t.holds sp lo vs := by
  intro hs
  have : t.elem? sp = s.elem? sp := funext h
  unfold State.holds
  rw [this]
  exact hs

/-- What an engine's description rests on: the registers and its tables. -/
theorem IlvDescribed.congr {s t : State} (hp : t.par = s.par) (hr : t.regs = s.regs)
    (he : ∀ i, t.elem? .isch i = s.elem? .isch i) (h : IlvDescribed s) : IlvDescribed t := by
  obtain ⟨h1, h2, h3⟩ := h
  simp only [IlvDescribed, hr]
  rw [hp]
  exact ⟨h1, h2, holds_congr he h3⟩

theorem PolarDescribed.congr {s t : State} (hp : t.par = s.par) (hr : t.regs = s.regs)
    (he : ∀ sp ∈ [Space.bhat, .didx, .tree], ∀ i, t.elem? sp i = s.elem? sp i)
    (h : PolarDescribed s) : PolarDescribed t := by
  simp only [PolarDescribed, hp, hr] at h ⊢
  exact ⟨h.1, h.2.1, h.2.2.1, h.2.2.2.1, holds_congr (he _ (by simp)) h.2.2.2.2.1,
    holds_congr (he _ (by simp)) h.2.2.2.2.2.1, holds_congr (he _ (by simp)) h.2.2.2.2.2.2⟩

theorem RsDescribed.congr {s t : State} (hp : t.par = s.par) (hr : t.regs = s.regs)
    (he : ∀ sp ∈ [Space.galog, .glog, .gen], ∀ i, t.elem? sp i = s.elem? sp i)
    (h : RsDescribed s) : RsDescribed t := by
  simp only [RsDescribed, hp, hr] at h ⊢
  exact ⟨h.1, holds_congr (he _ (by simp)) h.2.1, holds_congr (he _ (by simp)) h.2.2.1,
    holds_congr (he _ (by simp)) h.2.2.2⟩

/-- A write to a Data space, below its capacity, keeps the invariant. -/
theorem Inv.write_data {s : State} {sp : Space} {lo : Nat} {vs : List Word64}
    (hk : sp.kind = .data) (hc : lo + vs.length ≤ sp.capacity s.par) (h : Inv s) :
    Inv (s.write sp lo vs) := by
  have hne : ∀ sp', sp'.kind = .table → ∀ i, (s.write sp lo vs).elem? sp' i = s.elem? sp' i := by
    intro sp' hsp i
    apply sameElemsBut_write
    rintro ⟨rfl, -⟩
    rw [hk] at hsp
    exact absurd hsp (by decide)
  exact
    { params := h.params
      canonical := Memory.wf_write _ _ _ h.canonical
      fits := elementsFit_write hc h.fits
      status := h.status
      ilv := fun hv => (h.ilv hv).congr (s := s) rfl rfl (hne _ rfl)
      polar := fun hv => (h.polar hv).congr (s := s) rfl rfl fun sp' hm => hne sp' (by
        revert hm; cases sp' <;> decide)
      rs := fun hv => (h.rs hv).congr (s := s) rfl rfl fun sp' hm => hne sp' (by
        revert hm; cases sp' <;> decide) }

/-- The operands of GF_MUL are no parameters: writing them keeps the invariant (10_state.md R45). -/
theorem Inv.gfOperands {s : State} (a b : Word64) (h : Inv s) :
    Inv (s.withRegs { s.regs with gfA := a, gfB := b }) :=
  { params := h.params
    canonical := h.canonical
    fits := h.fits
    status := h.status
    ilv := fun hv => by
      obtain ⟨h1, h2, h3⟩ := h.ilv hv
      refine ⟨h1, ?_, h3⟩
      simp only [ilvDerived, State.withRegs_regs, State.withRegs_par] at h2 ⊢
      rw [Regs.mk.injEq]
      have h2' := Regs.mk.inj h2
      simp only [h2', and_self]
    polar := fun hv => h.polar hv
    rs := fun hv => h.rs hv }

end Sys2Proof.Machine
end

