-- ==== Sys2Proof/Laws/PerInstr.lean ====
section
/-! SUPPORT. The statements made command by command. -/

namespace Sys2Proof.Laws

/-- The encoded word of a well-formed command, written to CMD, passes the three checks of
30_encoding.md R91. -/
def EncodedWord.Statement (i : Instr) : Prop :=
  i.wf = true → cmdValueWf ((encode i).setWidth 64) = true

theorem EncodedWord.nop : EncodedWord.Statement .nop := by intro _; decide
theorem EncodedWord.sreset : EncodedWord.Statement .sreset := by intro _; decide
theorem EncodedWord.ilvCfg : EncodedWord.Statement .ilvCfg := by intro _; decide
theorem EncodedWord.ilvFwd : EncodedWord.Statement .ilvFwd := by intro _; decide
theorem EncodedWord.ilvRev : EncodedWord.Statement .ilvRev := by intro _; decide
theorem EncodedWord.pcCfg : EncodedWord.Statement .pcCfg := by intro _; decide
theorem EncodedWord.penc : EncodedWord.Statement .penc := by intro _; decide
theorem EncodedWord.pdecLoad : EncodedWord.Statement .pdecLoad := by intro _; decide
theorem EncodedWord.pdecRun : EncodedWord.Statement .pdecRun := by intro _; decide
theorem EncodedWord.pdec : EncodedWord.Statement .pdec := by intro _; decide
theorem EncodedWord.rsCfg : EncodedWord.Statement .rsCfg := by intro _; decide
theorem EncodedWord.gfMul : EncodedWord.Statement .gfMul := by intro _; decide
theorem EncodedWord.rsEnc : EncodedWord.Statement .rsEnc := by intro _; decide
theorem EncodedWord.rsCheck : EncodedWord.Statement .rsCheck := by intro _; decide
theorem EncodedWord.rsDec : EncodedWord.Statement .rsDec := by intro _; decide

end Sys2Proof.Laws
end

