-- ==== Sys2Proof/Tests/Slice0.lean ====
section
/-! SUPPORT. Tests: the smoke test of WellFormed, words decoded, one step of each command on a small block with
the results the spec gives, and for every statement with hypotheses a state and operands that meet them. -/

namespace Sys2Proof.Tests

open Sys2Proof Sys2Proof.Machine

-- The kernel checks of `decide +kernel` one after another: each waiting check holds a thread of its own.
set_option Elab.async false

/-! ## WellFormed: an ill-formed term for each check -/

theorem test_params_default_wf : Params.default.wf = true := by decide
theorem test_b_not_power_refused : ({ Params.default with b := 12 } : Params).wf = false := by decide
theorem test_b_small_refused : ({ Params.default with b := 4 } : Params).wf = false := by decide
theorem test_b_large_refused : ({ Params.default with b := 128 } : Params).wf = false := by decide
theorem test_llrw_small_refused :
    ({ Params.default with llrw := 7, lognMax := 3 } : Params).wf = false := by decide
theorem test_llrw_large_refused : ({ Params.default with llrw := 65 } : Params).wf = false := by decide
theorem test_pmMax_small_refused : ({ Params.default with pmMax := 1 } : Params).wf = false := by decide
theorem test_pmMax_large_refused : ({ Params.default with pmMax := 65 } : Params).wf = false := by decide
theorem test_iwCap_refused : ({ Params.default with iwCap := 1 } : Params).wf = false := by decide
theorem test_ibCap_refused : ({ Params.default with ibCap := 0 } : Params).wf = false := by decide
theorem test_lognMax_small_refused : ({ Params.default with lognMax := 2 } : Params).wf = false := by
  decide
theorem test_lognMax_llrw_refused : ({ Params.default with lognMax := 28 } : Params).wf = false := by
  decide
theorem test_lognMax_32_refused :
    ({ Params.default with lognMax := 33, llrw := 64 } : Params).wf = false := by decide
theorem test_gmMax_small_refused : ({ Params.default with gmMax := 1 } : Params).wf = false := by decide
theorem test_gmMax_large_refused : ({ Params.default with gmMax := 9 } : Params).wf = false := by decide
theorem test_rbCap_refused : ({ Params.default with rbCap := 2 } : Params).wf = false := by decide
theorem test_cap1_iw_refused : ({ Params.default with iwCap := 2 ^ 24 } : Params).wf = false := by
  decide
theorem test_cap1_ib_refused : ({ Params.default with ibCap := 2 ^ 24 } : Params).wf = false := by
  decide
theorem test_cap1_rb_refused : ({ Params.default with rbCap := 2 ^ 16 } : Params).wf = false := by
  decide
theorem test_cmd_high_half_refused : cmdValueWf 0x100000010 = false := by decide
theorem test_cmd_zero_field_refused : cmdValueWf 0x111 = false := by decide
theorem test_cmd_reserved_opcode_refused : cmdValueWf 0x13 = false := by decide

/-! ## Decode: words of 30_encoding.md R93 written out field by field, OP in bits 7:0, ZERO above, as a
row of the opcode table gives them; and the three refusals of R91. -/

theorem test_word_sreset : decodeTableWord 32 0b00000000000000000000000000000001 = some .sreset := by
  decide
theorem test_word_ilvFwd : decodeTableWord 32 0b00000000000000000000000000010001 = some .ilvFwd := by
  decide
theorem test_word_penc : decodeTableWord 32 0b00000000000000000000000000100001 = some .penc := by decide
theorem test_word_pdec : decodeTableWord 32 0b00000000000000000000000000100100 = some .pdec := by decide
theorem test_word_rsDec : decodeTableWord 32 0b00000000000000000000000000110100 = some .rsDec := by
  decide
theorem test_decode_high_half : decode 0x100000010 = .error .highHalfNonzero := by decide
theorem test_decode_zero_field : decode 0x111 = .error .zeroFieldNonzero := by decide
theorem test_decode_reserved : decode 0x35 = .error .reservedOpcode := by decide

/-! ## A small block: B = 8, LLRW = 9, N ≤ 16 -/

/-- Small legal structural parameters. -/
def small : Params :=
  { b := 8, llrw := 9, pmMax := 6, iwCap := 8, ibCap := 16, lognMax := 4, gmMax := 8, rbCap := 8 }

/-- The parameter registers of the examples: the interleaver of 41_interleaver.md R140, the polar code of
42_polar_construct.md R171, the codec with gm = 3 of 45_gf_rs.md R284. -/
def base : State :=
  (State.resetOf small).withRegs { Regs.reset with
    ilvK := 2, ilvL := 4, ilvPm := 0xB, ilvBs := 2,
    pcN := 16, pcM := 16, pcK := 8,
    rsGm := 3, rsPrim := 0xB, rsRp := 2, rsRn := 5, gfA := 3, gfB := 5 }

/-- All three engines configured. -/
def cfgd : State := rsConfigure (pcConfigure (ilvConfigure base))

/-- Inputs written for every operation command. -/
def good : State :=
  ((((((cfgd.write .iw 0 [0xA5, 0x3C, 0x0F, 0xF0]).write .ib 0 [0x9D, 0x86, 0xE4]).write .pi 0
    [0xA5]).write .di 0 [0xA5, 0xA4]).write .llr 0
    ([5, -3, 7, -2, 4, 6, -1, 8, -9, 3, -4, 2, 6, -5, 1, -7].map (BitVec.ofInt 64))).write .rb 0
    [1, 2, 3, 4, 5, 6, 3])

/-- What a result's next state shows. -/
def after {α : Type} (r : Result) (f : State → α) : Option α :=
  match r with
  | .next t => some (f t)
  | .fault _ => none
  | .refused _ => none

theorem base_inv : Inv base :=
  { params := by decide
    canonical := by decide
    fits := fun sp x hx => absurd hx (by cases sp <;> exact List.not_mem_nil)
    status := ⟨by decide, by decide, by decide⟩
    ilv := fun h => absurd h (by decide)
    polar := fun h => absurd h (by decide)
    rs := fun h => absurd h (by decide) }

theorem cfgd_fits (sp : Space) : (cfgd.mem.cells sp).all (fun x =>
    decide (x.1 < sp.capacity cfgd.par) && decide (x.2.toNat < 2 ^ sp.width cfgd.par)) = true := by
  cases sp <;> decide +kernel

theorem cfgd_inv : Inv cfgd :=
  { params := by decide +kernel
    canonical := by decide +kernel
    fits := fun sp x hx => by
      have h := List.all_eq_true.1 (cfgd_fits sp) x hx
      simpa using h
    status := ⟨by decide +kernel, by decide +kernel, by decide +kernel⟩
    ilv := fun _ => ⟨by decide +kernel, by decide +kernel, by decide +kernel⟩
    polar := fun _ => ⟨by decide +kernel, by decide +kernel, by decide +kernel, by decide +kernel,
      by decide +kernel, by decide +kernel, by decide +kernel⟩
    rs := fun _ => ⟨by decide +kernel, by decide +kernel, by decide +kernel, by decide +kernel⟩ }

theorem cfgd_par : cfgd.par = small := rfl

theorem good_inv : Inv good := by
  refine Inv.write_data rfl ?_ (Inv.write_data rfl ?_ (Inv.write_data rfl ?_ (Inv.write_data rfl ?_
    (Inv.write_data rfl ?_ (Inv.write_data rfl ?_ cfgd_inv))))) <;> decide

/-! ## Unwritten elements: every read draws anew (10_state.md R65) -/

theorem test_second_read_draws_again :
    (readElem .rb 0 (readElem .rb 0 base).2).1 = truncTo 8 (Config.freeElem 1) := rfl

/-- The symbol test and the two evaluations of R287 each read the three unwritten symbols. -/
theorem test_reads_of_rb_are_separate :
    (readSymbols 3 (readSymbols 3 (readSymbols 3 base).2).2).2.draws = 9 := by decide

/-! ## One step of each command -/

/-- 46_system.md R320. -/
theorem test_nop : exec .nop good = .next good := rfl

/-- 46_system.md R321: PC_SNR = -2, PC_LS = 1, the rest 0; no element is specified. -/
theorem test_sreset : after (exec .sreset good) (fun t =>
    (t.regs.status, t.regs.pcN, t.regs.pcSnr, t.regs.pcLs, t.elem? .iw 0)) =
      some (0, 0, 0xFFFFFFFFFFFFFFFE, 1, none) := by decide +kernel

/-- 41_interleaver.md R138, the example: MOVE and STAY of stream 1 for PM = [1,1,1,0,0,1]. -/
theorem test_ilvCfg_masks :
    (List.range 3).map (fun r => (moveMask 8 (streamMoves 0x27 2 3 1) r,
      stayMask 8 (streamMoves 0x27 2 3 1) r)) = [(0, 0xA0), (0, 0xA0), (0xA0, 0)] := by decide +kernel

/-- 41_interleaver.md R133, R140: C = 2, ONES = 3, NITER = 8, INLEN = 4, OUTLEN = 3. -/
theorem test_ilvCfg_derived : after (exec .ilvCfg base) (fun t => (t.regs.status, t.regs.ilvC,
    t.regs.ilvOnes, t.regs.ilvNiter, t.regs.ilvInlen, t.regs.ilvOutlen)) = some (1, 2, 3, 8, 4, 3) := by
  decide +kernel

/-- 41_interleaver.md R140, the example. -/
theorem test_ilvFwd : after (exec .ilvFwd (good.write .ib 0 [0xFF, 0xFF, 0xFF, 0x77]))
    (fun t => t.values .ib 0 4) = some [0x9D, 0x86, 0xE4, 0x77] := by decide +kernel

/-- 41_interleaver.md R150, the example. -/
theorem test_ilvRev : after (exec .ilvRev good) (fun t => t.values .iw 0 4) =
    some [0xA0, 0x3C, 0x0A, 0xF0] := by decide +kernel

/-- 42_polar_construct.md R171, the example: BHAT and DIDX. -/
theorem test_pcCfg_indices : after (exec .pcCfg base)
    (fun t => (t.values .bhat 0 16, t.values .didx 0 8)) =
      some ([2, 0, 0, -2, 0, -2, -3, -8, -1, -4, -5, -12, -6, -14, -15, -32].map (BitVec.ofInt 64),
        [7, 9, 10, 11, 12, 13, 14, 15]) := by decide +kernel

/-- 42_polar_construct.md R171, 10_state.md R60: the records (16, Standard), (8, Repetition), (8, SPC); and
44_polar_decode.md R224: 255 >> 5 = 7. -/
theorem test_pcCfg_tree : after (exec .pcCfg base) (fun t => (t.values .tree 0 3, t.regs.pcNnodes,
    t.regs.pcLogn, t.regs.pcInitshort)) = some ([0x1004, 0x802, 0x803], 3, 4, 7) := by decide +kernel

/-- 43_polar_encode.md R201: PI = [0xA5] gives PO = [0xA5, 0xA5]. -/
theorem test_penc : after (exec .penc good) (fun t => t.values .po 0 2) = some [0xA5, 0xA5] := by
  decide +kernel

/-- 43_polar_encode.md R201: PI = [0x01] gives PO = [0x7E, 0x81]. -/
theorem test_penc_last_bit : after (exec .penc (good.write .pi 0 [0x01])) (fun t => t.values .po 0 2) =
    some [0x7E, 0x81] := by decide +kernel

/-- 44_polar_decode.md R223: DI = [0xA5, 0xA4]; −1 is 0x1FF in 9 bits. -/
theorem test_pdecLoad : after (exec .pdecLoad good) (fun t => t.values .llr 0 16) =
    some [0x1FF, 1, 0x1FF, 1, 1, 0x1FF, 1, 0x1FF, 0x1FF, 1, 0x1FF, 1, 1, 0x1FF, 1, 1] := by
  decide +kernel

/-- 44_polar_decode.md R226, the example: BETA is 0x5A, 0xA5 and DO is 0x25. -/
theorem test_pdecRun : after (exec .pdecRun good) (fun t => (t.values .beta 0 16, t.values .dout 0 1)) =
    some ([0, 1, 0, 1, 1, 0, 1, 0, 1, 0, 1, 0, 0, 1, 0, 1], [0x25]) := by decide +kernel

/-- 44_polar_decode.md R227: the pattern −2^(LLRW−1) raises LLR_RANGE sub 1. -/
theorem test_pdecRun_range : after (exec .pdecRun (good.write .llr 3 [0x100])) (fun t => t.regs.fault) =
    some 0x230121 := by decide +kernel

/-- 44_polar_decode.md R260: DI = [0xA5, 0xA4] has its last bit wrong and gives DO = [0xA5]. -/
theorem test_pdec : after (exec .pdec good) (fun t => t.values .dout 0 1) = some [0xA5] := by
  decide +kernel

/-- 45_gf_rs.md R274, R273, R276, the examples with gm = 3, PRIM = 0xB, RP = 2. -/
theorem test_rsCfg : after (exec .rsCfg base)
    (fun t => (t.values .galog 0 8, t.values .glog 0 8, t.values .gen 0 3)) =
      some ([1, 2, 4, 3, 6, 7, 5, 1], [0, 7, 1, 3, 2, 6, 4, 5], [1, 6, 3]) := by decide +kernel

/-- 45_gf_rs.md R277, from the tables of R274: 3 = α^3, 5 = α^6, and α^9 = α^2 = 4. -/
theorem test_gfMul : after (exec .gfMul good) (fun t => t.regs.gfR) = some 4 := by decide +kernel

/-- 45_gf_rs.md R284: gm = 3, RP = 2: message [1, 2, 3, 4, 5] gives parity [6, 3]. -/
theorem test_rsEnc : after (exec .rsEnc (good.write .rb 5 [0, 0])) (fun t => t.values .rb 0 7) =
    some [1, 2, 3, 4, 5, 6, 3] := by decide +kernel

/-- 45_gf_rs.md R291: the encoded word has no syndrome. -/
theorem test_rsCheck : after (exec .rsCheck good)
    (fun t => (t.values .syn 0 2, t.regs.rsMaxsyn, t.regs.rsZero)) = some ([0, 0], 0, true) := by
  decide +kernel

/-- 45_gf_rs.md R290: an error gives RS_DECSTAT = 1 and RB is not modified. -/
theorem test_rsDec : after (exec .rsDec (good.write .rb 3 [0]))
    (fun t => (t.regs.rsDecstat, t.regs.rsZero, t.values .rb 0 7)) =
      some (1, false, [1, 2, 3, 0, 5, 6, 3]) := by decide +kernel

/-! ## Faults through the port, with the values of the spec's examples -/

/-- 60_exceptions.md R341: after reset, PENC gives FAULT = 0x210202. -/
theorem test_fault_not_configured : after (step (State.reset.withFetchWord 32 0x21))
    (fun t => (t.regs.fault, t.regs.status)) = some (0x210202, 0x80) := by decide +kernel

/-- 60_exceptions.md R340: HRegWrite(0x03, 0x111) gives FAULT = 0x110001. -/
theorem test_fault_illegal : after (hostStep (.regWrite 0x03 0x111) State.reset)
    (fun t => t.regs.fault) = some 0x110001 := by decide +kernel

/-- 60_exceptions.md R346: HBufWrite(12, 0, 1) gives FAULT = 0x000503. -/
theorem test_fault_table : after (hostStep (.bufWrite 12 0 1) State.reset) (fun t => t.regs.fault) =
    some 0x000503 := by decide +kernel

/-- 60_exceptions.md R346: HBufRead(13, 255) gives FAULT = 0x000403 and returns 0. -/
theorem test_fault_index : after (hostStep (.bufRead 13 255) State.reset)
    (fun t => (t.regs.fault, t.returned)) = some (0x000403, [0]) := by decide +kernel

/-! ## Witnesses: a state and operands that meet the hypotheses of each statement that has some -/

/-- A test of every member of a list of words, checked along the list. -/
theorem all_of_list {l : List Word64} {P : Word64 → Prop} [DecidablePred P]
    (h : l.all (fun v => decide (P v)) = true) : ∀ v ∈ l, P v := fun v hv =>
  of_decide_eq_true (List.all_eq_true.1 h v hv)

/-- A block on which a fault has been recorded. -/
def faulty : State := raiseFault .notConfigured 2 0x21 State.reset

theorem witness_DecodeAgreesWithEncode :
    decode 0x34 = .ok .rsDec ∧ (0x34 : Word64) = (encode .rsDec).setWidth 64 := by decide

theorem witness_IllegalCommandFaults : State.reset.regs.faulted = false := by decide

/-- Both sides of R91, at the boundaries of each of its three tests. -/
theorem witness_IllegalCommandFaults_sides :
    cmdValueWf 0x34 = true ∧ cmdValueWf 0x35 = false ∧ cmdValueWf 0x100 = false ∧
      cmdValueWf 0x80000000 = false ∧ cmdValueWf 0x100000000 = false ∧
      cmdValueWf 0x8000000000000000 = false := by decide

theorem witness_StepRunsTheDecodedCommand :
    (placeCommand good 0x11).pending = .regWrite 0x03 0x11 :: [] ∧
      (placeCommand good 0x11).regs.faulted = false ∧ decode 0x11 = .ok .ilvFwd ∧
      good.regs.faulted = false ∧ decodeTableWord 32 0x24 = some .pdec := by decide +kernel

theorem witness_StepTakesOneInput : good.pending = [] ∧ step good = .next good := ⟨rfl, rfl⟩

theorem witness_StepTakesOneInput_one :
    step { good with pending := [.regRead 0x00] } = .next (good.returning 0x46454331) := rfl

theorem witness_FaultedIgnoresCommands :
    faulty.regs.faulted = true ∧ (0x00 : Word64) ≠ 0x0000000000000001 ∧
      (0x0000000100000001 : Word64) ≠ 0x0000000000000001 := by decide

theorem witness_FaultWritesOnlyItsRecord : good.regs.faulted = false ∧
    after (hostStep (.regWrite 0x03 0x13) good) (·.regs.faulted) = some true ∧
    after (hostStep (.regRead 0x07) good) (·.regs.faulted) = some true ∧
    after (hostStep (.regWrite 0x00 1) good) (·.regs.faulted) = some true ∧
    after (hostStep (.bufRead 0 0) good) (·.regs.faulted) = some true ∧
    after (hostStep (.bufWrite 18 0 0) good) (·.regs.faulted) = some true := by decide +kernel

theorem witness_FaultIsSticky_reset : faulty.regs.faulted = true ∧
    hostStep .hwReset faulty = .next (resetBlock faulty) ∧
    hostStep (.regWrite 0x03 1) faulty = .next (resetBlock faulty) := ⟨by decide, rfl, rfl⟩

theorem witness_FaultIsSticky_else : faulty.regs.faulted = true ∧
    hostStep (.regWrite 0x03 0x10) faulty = .next faulty ∧
    HostInput.regWrite 0x03 0x10 ≠ .regWrite 0x03 1 := ⟨by decide, rfl, by decide⟩

theorem witness_NotConfiguredFaults : base.regs.faulted = false ∧
    [0, 1, 2].map base.regs.status.getLsbD = [false, false, false] ∧ base.regs.fault = 0 ∧
    after (exec .nop base) (·.regs.fault) = some 0 ∧ after (exec .sreset base) (·.regs.fault) = some 0 ∧
    after (exec .ilvCfg base) (·.regs.fault) = some 0 ∧
    after (exec .pcCfg base) (·.regs.fault) = some 0 ∧
    after (exec .rsCfg base) (·.regs.fault) = some 0 := by decide +kernel

theorem witness_HostRegReadReturnsTheRegister : good.par.wf = true := good_inv.params

/-- Unknown numbers at the edges of the map, read-only ones, space numbers outside 1 … 17, the first index out
of a space and the last one in it. -/
theorem witness_HostAccessFaults :
    regOfNo 0x06 = none ∧ regOfNo 0x14 = none ∧ regOfNo 0xFF = none ∧
      (regOfNo 0x1E).map Reg.cls = some .ro ∧ (regOfNo 0x05).map Reg.cls = some .roConst ∧
      (0 < 1 ∨ 17 < 0) ∧ (18 < 1 ∨ 17 < 18) ∧ Space.rb.capacity good.par ≤ 8 ∧
      7 < Space.rb.capacity good.par := by decide

theorem witness_HostBufRead_written :
    0 < Space.llr.capacity good.par ∧ good.elem? .llr 1 = some 0x1FD ∧
      0 < Space.iw.capacity good.par ∧ good.elem? .iw 0 = some 0xA5 := by decide +kernel

theorem witness_HostBufRead_unwritten :
    7 < Space.iw.capacity good.par ∧ good.elem? .iw 7 = none ∧
      0 < Space.llr.capacity base.par ∧ base.elem? .llr 0 = none := by decide +kernel

theorem witness_HostBufWriteKeepsTheLowBits :
    15 < Space.llr.capacity good.par ∧ 7 < Space.rb.capacity good.par := by decide

theorem witness_HostLeavesTablesAlone :
    hostStep (.regRead 0x01) good = .next (good.returning good.regs.status) ∧
      HostInput.regRead 0x01 ≠ .hwReset ∧ ∀ v, HostInput.regRead 0x01 ≠ .regWrite 0x03 v :=
  ⟨rfl, by decide, fun _ => by simp⟩

theorem witness_CommandsWriteOnlyTheirOwn :
    (Instr.pdec ≠ .sreset) ∧ (after (exec .pdec good) (·.regs.fault)).isSome = true := by
  decide +kernel

/-! ### Interleaver -/

/-- A set bit of ILV_PM at or above L needs a value of at least 2^L. -/
theorem no_bit_above {pm : Word64} {L : Nat} (h : pm.toNat < 2 ^ L) :
    ¬ ∃ i, L ≤ i ∧ pm.getLsbD i = true := by
  rintro ⟨i, hi, hb⟩
  rw [BitVec.getLsbD, Nat.testBit_lt_two_pow (h.trans_le (Nat.pow_le_pow_right (by decide) hi))] at hb
  exact absurd hb (by decide)

/-- The parameters of `base` pass every row. -/
theorem ilv_rows_pass (n : Nat) : ¬ ilvFails small 2 4 0xB 2 n := by
  match n with
  | 0 => exact id
  | 1 => show ¬ (2 = 0); decide
  | 2 => show ¬ (2 < 2); decide
  | 3 => show ¬ (4 = 0 ∨ ¬ 2 ∣ 4); decide
  | 4 => exact not_or.2 ⟨by decide, no_bit_above (by decide)⟩
  | 5 => simp only [ilvFails]; decide
  | 6 => simp only [ilvFails]; decide
  | 7 => simp only [ilvFails]; decide
  | 8 => simp only [ilvFails]; decide
  | _ + 9 => exact id

theorem witness_IlvCfgDescribesTheInterleaver : base.par.wf = true ∧ base.regs.ilvK.toNat = 2 ∧
    base.regs.ilvL.toNat = 4 ∧ base.regs.ilvBs.toNat = 2 ∧
    ∀ n, ¬ ilvFails base.par 2 4 base.regs.ilvPm 2 n :=
  ⟨by decide, by decide, by decide, by decide, ilv_rows_pass⟩

/-- `base` with other interleaver parameters. -/
def ilvWith (k L pm bs : Word64) : State :=
  base.withRegs { base.regs with ilvK := k, ilvL := L, ilvPm := pm, ilvBs := bs }

/-- Row `n` of the table fails first, on a block that is not FAULTED. -/
def IlvFirst (s : State) (n : Nat) : Prop :=
  s.regs.faulted = false ∧
    ilvFails s.par s.regs.ilvK.toNat s.regs.ilvL.toNat s.regs.ilvPm s.regs.ilvBs.toNat n ∧
    ∀ m, 1 ≤ m → m < n →
      ¬ ilvFails s.par s.regs.ilvK.toNat s.regs.ilvL.toNat s.regs.ilvPm s.regs.ilvBs.toNat m

theorem witness_IlvCfgRefuses_1 : IlvFirst (ilvWith 2 4 0xB 0) 1 :=
  ⟨by decide, by show (0 : Nat) = 0; rfl, fun m h1 h2 => by omega⟩

theorem witness_IlvCfgRefuses_2 : IlvFirst (ilvWith 1 4 0xB 2) 2 :=
  ⟨by decide, by show (1 : Nat) < 2; decide, fun m h1 h2 => by
    interval_cases m; show ¬ (2 : Nat) = 0; decide⟩

theorem witness_IlvCfgRefuses_3 : IlvFirst (ilvWith 2 5 0xB 2) 3 :=
  ⟨by decide, by show (5 : Nat) = 0 ∨ ¬ 2 ∣ 5; decide, fun m h1 h2 => by
    interval_cases m
    · show ¬ (2 : Nat) = 0; decide
    · show ¬ (2 : Nat) < 2; decide⟩

theorem witness_IlvCfgRefuses_4 : IlvFirst (ilvWith 2 4 0x1B 2) 4 :=
  ⟨by decide, .inr ⟨4, by decide, by decide⟩, fun m h1 h2 => by
    interval_cases m
    · show ¬ (2 : Nat) = 0; decide
    · show ¬ (2 : Nat) < 2; decide
    · show ¬ ((4 : Nat) = 0 ∨ ¬ 2 ∣ 4); decide⟩

/-- PM_MAX = 64 with B = 8: nine ones do not fit a word. -/
def wide : State :=
  { ilvWith 2 18 0x1FF 9 with par := { small with pmMax := 64, iwCap := 64, ibCap := 64 } }

theorem witness_IlvCfgRefuses_5 : IlvFirst wide 5 :=
  ⟨by decide, by simp only [ilvFails]; decide, fun m h1 h2 => by
    interval_cases m
    · show ¬ (9 : Nat) = 0; decide
    · show ¬ (2 : Nat) < 2; decide
    · show ¬ ((18 : Nat) = 0 ∨ ¬ 2 ∣ 18); decide
    · exact not_or.2 ⟨by decide, no_bit_above (by decide)⟩⟩

theorem witness_IlvCfgRefuses_6 : IlvFirst (ilvWith 2 4 0xB 3) 6 :=
  ⟨by decide, by simp only [ilvFails]; decide, fun m h1 h2 => by
    interval_cases m
    · show ¬ (3 : Nat) = 0; decide
    · show ¬ (2 : Nat) < 2; decide
    · show ¬ ((4 : Nat) = 0 ∨ ¬ 2 ∣ 4); decide
    · exact not_or.2 ⟨by decide, no_bit_above (by decide)⟩
    · simp only [ilvFails]; decide⟩

/-- IW_CAP = 8 words: two streams of 6 bytes need 12. -/
theorem witness_IlvCfgRefuses_7 : IlvFirst (ilvWith 2 4 0xB 6) 7 :=
  ⟨by decide, by simp only [ilvFails]; decide, fun m h1 h2 => by
    interval_cases m
    · show ¬ (6 : Nat) = 0; decide
    · show ¬ (2 : Nat) < 2; decide
    · show ¬ ((4 : Nat) = 0 ∨ ¬ 2 ∣ 4); decide
    · exact not_or.2 ⟨by decide, no_bit_above (by decide)⟩
    · simp only [ilvFails]; decide
    · simp only [ilvFails]; decide⟩

/-- 41_interleaver.md R139, the second example that fails: PM = [1,1,0,0,0,1], k = 2. -/
theorem witness_IlvCfgRefuses_8 : IlvFirst (ilvWith 2 6 0x23 3) 8 :=
  ⟨by decide, by simp only [ilvFails]; decide, fun m h1 h2 => by
    interval_cases m
    · show ¬ (3 : Nat) = 0; decide
    · show ¬ (2 : Nat) < 2; decide
    · show ¬ ((6 : Nat) = 0 ∨ ¬ 2 ∣ 6); decide
    · exact not_or.2 ⟨by decide, no_bit_above (by decide)⟩
    · simp only [ilvFails]; decide
    · simp only [ilvFails]; decide
    · simp only [ilvFails]; decide⟩

theorem witness_SprayMovesEachBitToItsPlace :
    small.wf = true ∧ (∀ n, ¬ ilvFails small 2 4 0xB 2 n) ∧ 1 < 2 := ⟨by decide, ilv_rows_pass, by decide⟩

/-- A chunk that crosses a word boundary (41_interleaver.md R141, the example). -/
theorem witness_ChunkHoldsTheStreamBits : 0 < 8 ∧ 3 ≤ 8 ∧ 7 < 8 ∧
    chunk [0xC3#8, 0#8, 0x96#8, 0#8] 2 3 0 2 = 0xE0#8 := by decide

/-- The same chunk as ILV_FWD reads it, from words 0 and 2 of IW. -/
theorem witness_ChunkHoldsTheStreamBits_read : 0 < 3 ∧ 3 ≤ 8 ∧
    (base.write .iw 0 [0xC3, 0, 0x96]).written .iw 0 3 ∧
    (∀ i < 3, (2 * 3 + i) / 8 * 2 + 0 < 3) ∧
    (readChunk 8 2 3 0 2 (base.write .iw 0 [0xC3, 0, 0x96])).1 = 0xE0#8 := by decide

theorem witness_IlvFwdIsTheBitLevelFunction : Inv good ∧ good.regs.valid .ilv = true ∧
    good.regs.ilvK.toNat = 2 ∧ good.regs.ilvL.toNat = 4 ∧ good.regs.ilvBs.toNat = 2 ∧
    good.written .iw 0 good.regs.ilvInlen.toNat ∧ pmTest good.regs.ilvPm (15 % (4 / 2) * 2 + 1) = true ∧
    15 < 8 * 2 ∧ 1 < 2 :=
  ⟨good_inv, by decide +kernel, by decide +kernel, by decide +kernel, by decide +kernel,
    by decide +kernel, by decide +kernel, by decide, by decide⟩

theorem witness_IlvRevIsTheBitLevelFunction : Inv good ∧ good.regs.valid .ilv = true ∧
    good.regs.ilvK.toNat = 2 ∧ good.regs.ilvL.toNat = 4 ∧ good.regs.ilvBs.toNat = 2 ∧
    good.written .ib 0 good.regs.ilvOutlen.toNat :=
  ⟨good_inv, by decide +kernel, by decide +kernel, by decide +kernel, by decide +kernel,
    by decide +kernel⟩

theorem witness_IlvRoundTrip : Inv good ∧ good.regs.valid .ilv = true ∧
    good.regs.ilvK.toNat = 2 ∧ good.regs.ilvL.toNat = 4 ∧ good.regs.ilvBs.toNat = 2 ∧
    good.written .iw 0 good.regs.ilvInlen.toNat ∧ good.written .ib 0 good.regs.ilvOutlen.toNat :=
  ⟨good_inv, by decide +kernel, by decide +kernel, by decide +kernel, by decide +kernel,
    by decide +kernel, by decide +kernel⟩

/-! ### Polar code -/

/-- The parameters of `base` pass every row. -/
theorem pc_rows_pass (n : Nat) : ¬ pcFails small (2 ^ 4) 16 8 (-2) 1 n := by
  match n with
  | 0 => exact id
  | 1 => exact not_or.2 ⟨not_not_intro ⟨4, rfl⟩, by decide⟩
  | 2 => simp only [pcFails]; decide
  | 3 => simp only [pcFails]; decide
  | 4 => simp only [pcFails]; decide
  | 5 => simp only [pcFails]; decide
  | 6 => simp only [pcFails]; decide
  | _ + 7 => exact id

theorem witness_PcCfgDescribesTheCode : base.par.wf = true ∧ base.regs.pcN.toNat = 2 ^ 4 ∧
    base.regs.pcM.toNat = 16 ∧ base.regs.pcK.toNat = 8 ∧ base.regs.pcSnr.toInt = -2 ∧
    ∀ m, ¬ pcFails base.par (2 ^ 4) 16 8 (-2) base.regs.pcLs.toNat m :=
  ⟨by decide, by decide, by decide, by decide, by decide, pc_rows_pass⟩

/-- `base` with other polar parameters. -/
def pcWith (N M K snr ls : Word64) : State :=
  base.withRegs { base.regs with pcN := N, pcM := M, pcK := K, pcSnr := snr, pcLs := ls }

/-- Row `n` of the table fails first, on a block that is not FAULTED. -/
def PcFirst (s : State) (n : Nat) : Prop :=
  s.regs.faulted = false ∧
    pcFails s.par s.regs.pcN.toNat s.regs.pcM.toNat s.regs.pcK.toNat s.regs.pcSnr.toInt
      s.regs.pcLs.toNat n ∧
    ∀ m, 1 ≤ m → m < n → ¬ pcFails s.par s.regs.pcN.toNat s.regs.pcM.toNat s.regs.pcK.toNat
      s.regs.pcSnr.toInt s.regs.pcLs.toNat m

theorem witness_PcCfgRefuses_1 : PcFirst (pcWith 4 0 0 0 0) 1 :=
  ⟨by decide, .inr (by decide), fun m h1 h2 => by omega⟩

theorem witness_PcCfgRefuses_1_power : PcFirst (pcWith 12 8 8 0 1) 1 := by
  refine ⟨by decide, .inl ?_, fun m h1 h2 => by omega⟩
  rintro ⟨e, he⟩
  have h12 : (12 : Nat) = 2 ^ e := he
  have : e < 4 := by
    by_contra hge
    have := Nat.pow_le_pow_right (n := 2) (by decide) (Nat.le_of_not_lt hge)
    omega
  interval_cases e <;> omega

theorem witness_PcCfgRefuses_2 : PcFirst (pcWith 32 16 8 0 1) 2 :=
  ⟨by decide, by simp only [pcFails]; decide, fun m h1 h2 => by
    interval_cases m; exact not_or.2 ⟨not_not_intro ⟨5, rfl⟩, by decide⟩⟩

theorem witness_PcCfgRefuses_3 : PcFirst (pcWith 16 24 8 0 1) 3 :=
  ⟨by decide, by simp only [pcFails]; decide, fun m h1 h2 => by
    interval_cases m
    · exact not_or.2 ⟨not_not_intro ⟨4, rfl⟩, by decide⟩
    · simp only [pcFails]; decide⟩

theorem witness_PcCfgRefuses_4 : PcFirst (pcWith 16 8 16 0 1) 4 :=
  ⟨by decide, by simp only [pcFails]; decide, fun m h1 h2 => by
    interval_cases m
    · exact not_or.2 ⟨not_not_intro ⟨4, rfl⟩, by decide⟩
    · simp only [pcFails]; decide
    · simp only [pcFails]; decide⟩

theorem witness_PcCfgRefuses_5 : PcFirst (pcWith 16 16 8 0x8000 1) 5 :=
  ⟨by decide, by simp only [pcFails]; decide, fun m h1 h2 => by
    interval_cases m
    · exact not_or.2 ⟨not_not_intro ⟨4, rfl⟩, by decide⟩
    · simp only [pcFails]; decide
    · simp only [pcFails]; decide
    · simp only [pcFails]; decide⟩

theorem witness_PcCfgRefuses_6 : PcFirst (pcWith 16 16 8 0xFFFFFFFFFFFF8000 0) 6 :=
  ⟨by decide, by simp only [pcFails]; decide, fun m h1 h2 => by
    interval_cases m
    · exact not_or.2 ⟨not_not_intro ⟨4, rfl⟩, by decide⟩
    · simp only [pcFails]; decide
    · simp only [pcFails]; decide
    · simp only [pcFails]; decide
    · simp only [pcFails]; decide⟩

theorem witness_BhattacharyyaExpandsLevelByLevel :
    7 < 2 ^ 3 ∧ (bhattacharyya 3 (-2))[7]? = some (-16) ∧ (-2 : Int) ∈ bhattacharyya 3 (-2) ∧
      (32768 : Int).natAbs ≤ 32768 := by decide

theorem witness_SelectTakesTheFirstByScoreAndIndex :
    16 ≤ (bhattacharyya 5 (-2)).length ∧ 1 ≤ 8 ∧ 8 ≤ 16 ∧
      selectIndices (bhattacharyya 5 (-2)) 16 8 = [3, 5, 7, 11, 12, 13, 14, 15] := by decide +kernel

/-- 42_polar_construct.md R178, the examples: a subtree of each class. -/
theorem witness_ClassifyMeansItsDescription :
    [7, 9, 10, 11, 12, 13, 14, 15].Pairwise (· < ·) ∧ 0 < 4 ∧
      [(0, 16), (0, 8), (8, 8), (0, 4), (12, 4), (7, 1)].map
        (fun x => classify [7, 9, 10, 11, 12, 13, 14, 15] x.1 x.2) =
          [.standard, .rep, .spc, .rate0, .rate1, .rate1] ∧ classify [0] 0 2 = .standard := by decide

theorem witness_TreeRecordsTileTheBlock :
    [7, 9, 10, 11, 12, 13, 14, 15].Pairwise (· < ·) ∧ 4 ≤ 32 := by decide

theorem witness_TransformHasItsClosedForm : [false, true, true, false].length = 2 ^ 2 ∧ 1 < 2 ∧ 3 < 2 ^ 2 := by
  decide

theorem witness_TransformIsAnInvolution : [false, true, true, false].length = 2 ^ 2 := by decide

theorem witness_PencWritesTheCodeword : Inv good ∧ good.regs.valid .polar = true ∧
    good.regs.pcN.toNat = 2 ^ 4 ∧ good.regs.pcM.toNat = 16 ∧ good.regs.pcK.toNat = 8 ∧
    good.written .pi 0 (8 / 8) :=
  ⟨good_inv, by decide +kernel, by decide +kernel, by decide +kernel, by decide +kernel,
    by decide +kernel⟩

theorem witness_PencTailIsZero : (∀ d ∈ [7, 13, 14, 15, 19, 21, 22, 23], d < 24) ∧ 24 ≤ 24 ∧ 24 < 2 ^ 5 := by
  decide

theorem witness_PencIsLinear : [true, false].length = [1, 3].length ∧ [true, true].length = [1, 3].length := by
  decide

theorem witness_PdecLoadExpandsTheBits : Inv good ∧ good.regs.valid .polar = true ∧
    good.regs.pcN.toNat = 2 ^ 4 ∧ good.regs.pcM.toNat = 16 ∧ good.written .di 0 (16 / 8) :=
  ⟨good_inv, by decide +kernel, by decide +kernel, by decide +kernel, by decide +kernel⟩

/-- A shortened code, N = 16, M = 8, K = 8, whose tail has positions 8 to 15. -/
def shortened : State := pcConfigure (pcWith 16 8 8 0xFFFFFFFFFFFFFFFE 1)

theorem shortened_fits (sp : Space) : (shortened.mem.cells sp).all (fun x =>
    decide (x.1 < sp.capacity shortened.par) && decide (x.2.toNat < 2 ^ sp.width shortened.par)) =
      true := by
  cases sp <;> decide +kernel

theorem shortened_inv : Inv shortened :=
  { params := by decide +kernel
    canonical := by decide +kernel
    fits := fun sp x hx => by
      have h := List.all_eq_true.1 (shortened_fits sp) x hx
      simpa using h
    status := ⟨by decide +kernel, by decide +kernel, by decide +kernel⟩
    ilv := fun h => absurd h (by decide +kernel)
    polar := fun _ => ⟨by decide +kernel, by decide +kernel, by decide +kernel, by decide +kernel,
      by decide +kernel, by decide +kernel, by decide +kernel⟩
    rs := fun h => absurd h (by decide +kernel) }

theorem witness_PdecLoadExpandsTheBits_tail : Inv (shortened.write .di 0 [0xA5]) ∧
    (shortened.write .di 0 [0xA5]).regs.valid .polar = true ∧
    (shortened.write .di 0 [0xA5]).regs.pcN.toNat = 2 ^ 4 ∧
    (shortened.write .di 0 [0xA5]).regs.pcM.toNat = 8 ∧
    (shortened.write .di 0 [0xA5]).written .di 0 (8 / 8) ∧ 8 ≤ 8 ∧ 15 < 2 ^ 4 :=
  ⟨Inv.write_data rfl (by decide) shortened_inv, by decide +kernel, by decide +kernel,
    by decide +kernel, by decide +kernel, by decide, by decide⟩

theorem witness_FOperationsAreMinSum : signbit 5 = signbit 6 ∧ signbit 5 ≠ signbit (-9) ∧
    [(5 : Int)][0]? = some 5 ∧ [(-9 : Int)][0]? = some (-9) ∧ 0 < 32 ∧ (-2 ^ (9 - 1) : Int) ≤ -256 ∧
    (255 : Int) < 2 ^ (9 - 1) := by decide

theorem witness_GAndHOperations : [(5 : Int), -3].length = 2 ∧ [(-9 : Int), 3].length = 2 ∧
    [false, true].length = 2 ∧ [true, true].length = 2 ∧
    gOp 255 [5, -3] [-9, 3] [false, true] = .ok [-4, 6] := ⟨rfl, rfl, rfl, rfl, rfl⟩

/-- 44_polar_decode.md R243, the examples: even parity, odd parity with a tie, odd parity with a zero. -/
theorem witness_SpcLeafFlipsTheLeastReliable :
    (([-14, 6, -11, 4, 2, -11, 2, -15].map signbit).count true) % 2 = 0 ∧
      (([-14, 6, -11, 4, 2, -11, -2, -15].map signbit).count true) % 2 = 1 ∧
      leafSpc [0, 0, 0, -1] = [true, false, false, true] := by decide

theorem witness_TreeWalkEqualsClassify : [7, 9, 10, 11, 12, 13, 14, 15].Pairwise (· < ·) := by decide

/-- The three answers of PDEC_RUN: the example of R226, the most negative pattern, and LLRs whose sums leave
the range. -/
theorem witness_PdecRunDecodesTheLlrs : Inv good ∧ good.regs.faulted = false ∧
    good.regs.valid .polar = true ∧ good.regs.pcN.toNat = 2 ^ 4 ∧ good.regs.pcK.toNat = 8 ∧
    good.written .llr 0 (2 ^ 4) ∧
    (decNode 9 (polarIndices good.regs) 4 0
      ((good.values .llr 0 (2 ^ 4)).map (llrOfElem 9))).isOk = true :=
  ⟨good_inv, by decide +kernel, by decide +kernel, by decide +kernel, by decide +kernel,
    by decide +kernel, by decide +kernel⟩

theorem witness_PdecRunDecodesTheLlrs_pattern : Inv (good.write .llr 15 [0x100]) ∧
    (good.write .llr 15 [0x100]).regs.faulted = false ∧
    (good.write .llr 15 [0x100]).regs.valid .polar = true ∧
    (good.write .llr 15 [0x100]).written .llr 0 (2 ^ 4) ∧
    -(2 ^ (9 - 1) : Int) ∈ ((good.write .llr 15 [0x100]).values .llr 0 (2 ^ 4)).map (llrOfElem 9) :=
  ⟨Inv.write_data rfl (by decide) good_inv, by decide +kernel, by decide +kernel, by decide +kernel,
    by decide +kernel⟩

theorem witness_PdecRunDecodesTheLlrs_range :
    Inv (good.write .llr 0 (List.replicate 16 0xFF)) ∧
    (good.write .llr 0 (List.replicate 16 0xFF)).regs.faulted = false ∧
    (good.write .llr 0 (List.replicate 16 0xFF)).regs.valid .polar = true ∧
    (good.write .llr 0 (List.replicate 16 0xFF)).written .llr 0 (2 ^ 4) ∧
    (decNode 9 (polarIndices good.regs) 4 0 (((good.write .llr 0 (List.replicate 16 0xFF)).values
      .llr 0 (2 ^ 4)).map (llrOfElem 9))).isOk = false :=
  ⟨Inv.write_data rfl (by decide) good_inv, by decide +kernel, by decide +kernel, by decide +kernel,
    by decide +kernel⟩

theorem witness_PdecRunCompletesOnSafeLlrs : Inv good ∧ good.regs.valid .polar = true ∧
    good.regs.pcN.toNat = 2 ^ 4 ∧ good.regs.pcK.toNat = 8 ∧ good.written .llr 0 (2 ^ 4) ∧
    ∀ v ∈ good.values .llr 0 (2 ^ 4), (llrOfElem good.par.llrw v).natAbs ≤
      (2 ^ (good.par.llrw - 1) - 1) / 2 ^ 4 :=
  ⟨good_inv, by decide +kernel, by decide +kernel, by decide +kernel, by decide +kernel,
    all_of_list (by decide +kernel)⟩

theorem witness_PdecIsLoadThenRun : Inv good ∧ good.regs.pcN.toNat = 2 ^ 4 ∧ good.regs.pcK.toNat = 8 ∧
    good.regs.valid .polar = true :=
  ⟨good_inv, by decide +kernel, by decide +kernel, by decide +kernel⟩

theorem witness_PdecIsLoadThenRun_unconfigured : Inv base ∧ base.regs.pcN.toNat = 2 ^ 4 ∧
    base.regs.pcK.toNat = 8 ∧ base.regs.valid .polar = false ∧ base.regs.faulted = false :=
  ⟨base_inv, by decide, by decide, by decide, by decide⟩

/-! ### Galois field and Reed–Solomon -/

theorem alpha_least : ∀ i, 1 ≤ i → i < 2 ^ 3 - 1 → alphaPow 3 0xB i ≠ 1 := by
  intro i h1 h2
  have : i < 7 := h2
  interval_cases i <;> decide

theorem witness_PrimitivePoly : PrimitivePoly 3 0xB :=
  { degree := by decide
    bounded := by decide
    top := by decide
    const := by decide
    full := by decide
    least := alpha_least }

/-- The parameters of `base` pass every row. -/
theorem rs_rows_pass (n : Nat) : ¬ rsFails small 3 0xB 2 5 n := by
  match n with
  | 0 => exact id
  | 1 => simp only [rsFails]; decide
  | 2 => simp only [rsFails]; decide
  | 3 => exact not_not_intro ⟨by decide, alpha_least⟩
  | 4 => simp only [rsFails]; decide
  | 5 => simp only [rsFails]; decide
  | 6 => simp only [rsFails]; decide
  | 7 => simp only [rsFails]; decide
  | _ + 8 => exact id

theorem witness_RsCfgDescribesTheField : base.par.wf = true ∧ base.regs.rsGm.toNat = 3 ∧
    base.regs.rsPrim.toNat = 0xB ∧ base.regs.rsRp.toNat = 2 ∧
    ∀ n, ¬ rsFails base.par 3 0xB 2 base.regs.rsRn.toNat n :=
  ⟨by decide, by decide, by decide, by decide, rs_rows_pass⟩

/-- `base` with other Reed–Solomon parameters. -/
def rsWith (gm prim rp rn : Word64) : State :=
  base.withRegs { base.regs with rsGm := gm, rsPrim := prim, rsRp := rp, rsRn := rn }

/-- Row `n` of the table fails first, on a block that is not FAULTED. -/
def RsFirst (s : State) (n : Nat) : Prop :=
  s.regs.faulted = false ∧
    rsFails s.par s.regs.rsGm.toNat s.regs.rsPrim.toNat s.regs.rsRp.toNat s.regs.rsRn.toNat n ∧
    ∀ m, 1 ≤ m → m < n →
      ¬ rsFails s.par s.regs.rsGm.toNat s.regs.rsPrim.toNat s.regs.rsRp.toNat s.regs.rsRn.toNat m

theorem witness_RsCfgRefuses_1 : RsFirst (rsWith 9 0x211 1 1) 1 :=
  ⟨by decide, by simp only [rsFails]; decide, fun m h1 h2 => by omega⟩

theorem witness_RsCfgRefuses_2 : RsFirst (rsWith 3 0x3 2 5) 2 :=
  ⟨by decide, by simp only [rsFails]; decide, fun m h1 h2 => by
    interval_cases m; simp only [rsFails]; decide⟩

/-- 45_gf_rs.md R272: gm = 4, PRIM = 0x1F has order 5. -/
theorem witness_RsCfgRefuses_3 : RsFirst (rsWith 4 0x1F 2 5) 3 :=
  ⟨by decide, fun h => h.2 5 (by decide) (by decide) (by decide), fun m h1 h2 => by
    interval_cases m <;> · simp only [rsFails]; decide⟩

theorem witness_RsCfgRefuses_4 : RsFirst (rsWith 3 0xB 0 5) 4 :=
  ⟨by decide, by simp only [rsFails]; decide, fun m h1 h2 => by
    interval_cases m
    · simp only [rsFails]; decide
    · simp only [rsFails]; decide
    · exact not_not_intro ⟨by decide, alpha_least⟩⟩

theorem witness_RsCfgRefuses_5 : RsFirst (rsWith 3 0xB 2 0) 5 :=
  ⟨by decide, by simp only [rsFails]; decide, fun m h1 h2 => by
    interval_cases m
    · simp only [rsFails]; decide
    · simp only [rsFails]; decide
    · exact not_not_intro ⟨by decide, alpha_least⟩
    · simp only [rsFails]; decide⟩

theorem witness_RsCfgRefuses_6 : RsFirst (rsWith 3 0xB 2 6) 6 :=
  ⟨by decide, by simp only [rsFails]; decide, fun m h1 h2 => by
    interval_cases m
    · simp only [rsFails]; decide
    · simp only [rsFails]; decide
    · exact not_not_intro ⟨by decide, alpha_least⟩
    · simp only [rsFails]; decide
    · simp only [rsFails]; decide⟩

theorem alpha4_least : ∀ i, 1 ≤ i → i < 2 ^ 4 - 1 → alphaPow 4 0x13 i ≠ 1 := by
  intro i h1 h2
  have : i < 15 := h2
  interval_cases i <;> decide

/-- RB_CAP = 8. -/
theorem witness_RsCfgRefuses_7 : RsFirst (rsWith 4 0x13 2 7) 7 :=
  ⟨by decide, by simp only [rsFails]; decide, fun m h1 h2 => by
    interval_cases m
    · simp only [rsFails]; decide
    · simp only [rsFails]; decide
    · exact not_not_intro ⟨by decide, alpha4_least⟩
    · simp only [rsFails]; decide
    · simp only [rsFails]; decide
    · simp only [rsFails]; decide⟩

theorem witness_MultiplyIsTheFieldProduct : PrimitivePoly 3 0xB ∧ 7 < 2 ^ 3 := ⟨witness_PrimitivePoly, by decide⟩

theorem witness_GeneratorHasItsRoots : PrimitivePoly 3 0xB ∧ 6 + 1 ≤ 2 ^ 3 - 1 ∧ 7 < 2 ^ 3 :=
  ⟨witness_PrimitivePoly, by decide, by decide⟩

theorem witness_RemainderIsLongDivision : 2 ≤ [1, 6, 8].length ∧
    remainderPoly (gfTables 16 0x13) [1, 6, 8] [1, 2, 3, 4, 5] = [0, 4] := by decide +kernel

theorem witness_GfMulWritesTheProduct : Inv good ∧ good.regs.faulted = false ∧
    good.regs.valid .rs = true ∧ good.regs.gfA.toNat < 2 ^ good.regs.rsGm.toNat ∧
    good.regs.gfB.toNat < 2 ^ good.regs.rsGm.toNat :=
  ⟨good_inv, by decide +kernel, by decide +kernel, by decide +kernel, by decide +kernel⟩

theorem witness_GfMulWritesTheProduct_range :
    Inv (good.withRegs { good.regs with gfA := 8, gfB := 0 }) ∧
    (good.withRegs { good.regs with gfA := 8, gfB := 0 }).regs.faulted = false ∧
    (good.withRegs { good.regs with gfA := 8, gfB := 0 }).regs.valid .rs = true ∧
    2 ^ good.regs.rsGm.toNat ≤ (8 : Word64).toNat :=
  ⟨Inv.gfOperands 8 0 good_inv, by decide +kernel, by decide +kernel, by decide +kernel⟩

theorem witness_GfMulWritesTheProduct_unconfigured :
    Inv base ∧ base.regs.faulted = false ∧ base.regs.valid .rs = false :=
  ⟨base_inv, by decide, by decide⟩

theorem witness_RsEncWritesTheRemainder : Inv good ∧ good.regs.valid .rs = true ∧
    good.regs.rsRn.toNat = 5 ∧ good.regs.rsRp.toNat = 2 ∧ good.written .rb 0 5 ∧
    ∀ x ∈ symbolsOfElems (good.values .rb 0 5), x < 2 ^ good.regs.rsGm.toNat :=
  ⟨good_inv, by decide +kernel, by decide +kernel, by decide +kernel, by decide +kernel,
    by decide +kernel⟩

/-- A symbol 8 = q in the message, so in the range of all three commands. -/
theorem witness_RsSymbolRangeFaults : Inv (good.write .rb 4 [8]) ∧
    (good.write .rb 4 [8]).regs.faulted = false ∧ (good.write .rb 4 [8]).regs.valid .rs = true ∧
    (good.write .rb 4 [8]).regs.rsRn.toNat = 5 ∧ (good.write .rb 4 [8]).regs.rsRp.toNat = 2 ∧
    (good.write .rb 4 [8]).written .rb 0 5 ∧ (good.write .rb 4 [8]).written .rb 0 (5 + 2) ∧
    (∃ v ∈ (good.write .rb 4 [8]).values .rb 0 5, 2 ^ 3 ≤ v.toNat) ∧
    ∃ v ∈ (good.write .rb 4 [8]).values .rb 0 (5 + 2), 2 ^ 3 ≤ v.toNat :=
  ⟨Inv.write_data rfl (by decide) good_inv, by decide +kernel, by decide +kernel, by decide +kernel,
    by decide +kernel, by decide +kernel, by decide +kernel, ⟨8, by decide +kernel, by decide⟩,
    ⟨8, by decide +kernel, by decide⟩⟩

/-- gm = 8, with the largest byte in RB. -/
def byteField : State := (rsWith 8 0x11D 2 5).write .rb 0 [0xFF]

theorem witness_RsSymbolRangeFaults_never : Inv byteField ∧ byteField.regs.rsGm.toNat = 8 ∧
    0xFF ∈ byteField.values .rb 0 7 :=
  ⟨Inv.write_data rfl (by decide)
    { params := by decide
      canonical := by decide
      fits := fun sp x hx => absurd hx (by cases sp <;> exact List.not_mem_nil)
      status := ⟨by decide, by decide, by decide⟩
      ilv := fun h => absurd h (by decide)
      polar := fun h => absurd h (by decide)
      rs := fun h => absurd h (by decide) }, by decide, by decide⟩

/-- Configured, and nothing written to RB. -/
theorem witness_RsCommandsRunOnUnwrittenSymbols : Inv cfgd ∧ cfgd.regs.faulted = false ∧
    cfgd.regs.valid .rs = true ∧ cfgd.regs.rsRn.toNat = 5 ∧ cfgd.regs.rsRp.toNat = 2 ∧
    (∀ i < 7, cfgd.elem? .rb i = none) :=
  ⟨cfgd_inv, by decide +kernel, by decide +kernel, by decide +kernel, by decide +kernel,
    by decide +kernel⟩

theorem witness_RsCheckAndDecWriteTheSyndromes : Inv good ∧ good.regs.valid .rs = true ∧
    good.regs.rsRn.toNat + good.regs.rsRp.toNat = 7 ∧ good.regs.rsRp.toNat = 2 ∧
    good.written .rb 0 7 ∧
    ∀ x ∈ symbolsOfElems (good.values .rb 0 7), x < 2 ^ good.regs.rsGm.toNat :=
  ⟨good_inv, by decide +kernel, by decide +kernel, by decide +kernel, by decide +kernel,
    by decide +kernel⟩

theorem witness_RsRoundTrip : Inv good ∧ good.regs.valid .rs = true ∧ good.regs.rsRn.toNat = 5 ∧
    good.regs.rsRp.toNat = 2 ∧ good.written .rb 0 5 ∧
    ∀ v ∈ good.values .rb 0 5, v.toNat < 2 ^ good.regs.rsGm.toNat :=
  ⟨good_inv, by decide +kernel, by decide +kernel, by decide +kernel, by decide +kernel,
    all_of_list (by decide +kernel)⟩

/-- The codeword [1, 2, 3, 4, 5, 6, 3] with its last symbol changed by 7. -/
theorem witness_RsSingleErrorIsDetected : Inv (good.write .rb 6 [4]) ∧
    (good.write .rb 6 [4]).regs.valid .rs = true ∧
    (good.write .rb 6 [4]).regs.rsRn.toNat + (good.write .rb 6 [4]).regs.rsRp.toNat = 7 ∧
    (good.write .rb 6 [4]).regs.rsRp.toNat = 2 ∧ (∀ x ∈ [1, 2, 3, 4, 5, 6, 3], x < 2 ^ 3) ∧
    (∀ j, 1 ≤ j → j ≤ 2 → evaluatePoly (gfTables 8 0xB) [1, 2, 3, 4, 5, 6, 3] (alphaPow 3 0xB j) = 0) ∧
    6 < 7 ∧ 0 < 7 ∧ 7 < 2 ^ 3 ∧
    (good.write .rb 6 [4]).holds .rb 0
      (elemsOfSymbols ([1, 2, 3, 4, 5, 6, 3].set 6 ([1, 2, 3, 4, 5, 6, 3].getD 6 0 ^^^ 7))) :=
  ⟨Inv.write_data rfl (by decide) good_inv, by decide +kernel, by decide +kernel, by decide +kernel,
    by decide, fun j h1 h2 => by interval_cases j <;> decide +kernel, by decide, by decide, by decide,
    by decide +kernel⟩

/-! ### Invariant -/

theorem witness_ResetIsGood : small.wf = true := by decide

theorem witness_StepKeepsTheInvariant : Inv good ∧ step good = .next good := ⟨good_inv, rfl⟩

theorem witness_GoodStatesNeverStop : Inv good := good_inv

end Sys2Proof.Tests
end

