-- ==== Sys2Proof/Proofs/Port.lean ====
section
/-! PROOFS. Commands leave the port alone: no command changes the structural parameters, the pending inputs
or the returned values (`exec_samePort`); a host input adds at most the one value of a read
(`hostStep_samePort_or_returning`). -/

namespace Sys2Proof.Machine

/-! ## What keeps the port -/

theorem SamePort.refl (s : State) : SamePort s s := ⟨rfl, rfl, rfl⟩

theorem SamePort.trans {s t u : State} (h : SamePort s t) (h' : SamePort t u) : SamePort s u := by
  obtain ⟨hpar, hpending, hreturned⟩ := h
  obtain ⟨hpar', hpending', hreturned'⟩ := h'
  exact ⟨hpar'.trans hpar, hpending'.trans hpending, hreturned'.trans hreturned⟩

/-- Reading keeps the port: it moves the count of draws only. -/
theorem OnlyDraws.samePort {s t : State} (h : OnlyDraws s t) : SamePort s t :=
  ⟨h.par, h.pending, h.returned⟩

theorem samePort_withRegs (s : State) (g : Regs) : SamePort s (s.withRegs g) := ⟨rfl, rfl, rfl⟩

theorem samePort_write (s : State) (sp : Space) (lo : Nat) (vs : List Word64) :
    SamePort s (s.write sp lo vs) := ⟨rfl, rfl, rfl⟩

theorem samePort_raiseFault (c : Cause) (sub op : Byte) (s : State) :
    SamePort s (raiseFault c sub op s) := ⟨rfl, rfl, rfl⟩

theorem samePort_resetBlock (s : State) : SamePort s (resetBlock s) := ⟨rfl, rfl, rfl⟩

theorem SamePort.returning {s t : State} (h : SamePort s t) (v : Word64) :
    SamePort (s.returning v) (t.returning v) := by
  obtain ⟨hpar, hpending, hreturned⟩ := h
  exact ⟨hpar, hpending, congrArg (v :: ·) hreturned⟩

/-! ## The effects of the commands -/

theorem samePort_ilvConfigure (s : State) : SamePort s (ilvConfigure s) :=
  (samePort_write s _ _ _).trans (samePort_withRegs _ _)

theorem samePort_ilvForward (s : State) : SamePort s (ilvForward s) :=
  ((gather_state _ _ _ s).trans (forwardBits_state _ _ _ _ _ _)).samePort.trans (samePort_write _ _ _ _)

theorem samePort_ilvReverse (s : State) : SamePort s (ilvReverse s) :=
  ((gather_state _ _ _ s).trans (gather_state _ _ _ _)).samePort.trans (samePort_write _ _ _ _)

theorem samePort_pcConfigure (s : State) : SamePort s (pcConfigure s) :=
  (samePort_write s .bhat 0 _).trans ((samePort_write _ .didx 0 _).trans
    ((samePort_write _ .tree 0 _).trans (samePort_withRegs _ _)))

theorem samePort_polarEncode (s : State) : SamePort s (polarEncode s) :=
  ((gather_state _ _ _ s).trans (gather_state _ _ _ _)).samePort.trans (samePort_write _ _ _ _)

theorem samePort_writeDecision (β : List Bool) (s : State) : SamePort s (writeDecision β s) := by
  obtain ⟨hpar, -, hpending, hreturned, -⟩ := writeDecision_state β s
  exact ⟨hpar, hpending, hreturned⟩

theorem samePort_rsConfigure (s : State) : SamePort s (rsConfigure s) :=
  (samePort_write s .galog 0 _).trans ((samePort_write _ .glog 0 _).trans
    ((samePort_write _ .gen 0 _).trans (samePort_withRegs _ _)))

theorem samePort_rsEncode (s : State) : SamePort s (rsEncode s) := by
  obtain ⟨u, rem, hu, -, heq⟩ := rsEncode_state s
  exact heq ▸ hu.samePort.trans (samePort_write _ _ _ _)

theorem samePort_writeSyndromes (s : State) : SamePort s (writeSyndromes s) := by
  obtain ⟨u, hu, heq⟩ := writeSyndromes_state s
  exact heq ▸ hu.samePort.trans ((samePort_write _ _ _ _).trans (samePort_withRegs _ _))

theorem samePort_writeDecstat (s : State) : SamePort s (writeDecstat s) := samePort_withRegs s _

/-! ## The guards -/

/-- `r` stops the model or hands on a state with the port of `s`. -/
def KeepsPort (s : State) (r : Result) : Prop := ∀ t, r = .next t → SamePort s t

theorem keepsPort_next {s t : State} (h : SamePort s t) : KeepsPort s (.next t) :=
  fun _ ht => Host.Outcome.next.inj ht ▸ h

theorem KeepsPort.of_samePort {s u : State} {r : Result} (hr : KeepsPort u r) (hu : SamePort s u) :
    KeepsPort s r := fun t ht => hu.trans (hr t ht)

theorem keepsPort_commandFault (i : Instr) (c : Cause) (sub : Byte) (s : State) :
    KeepsPort s (commandFault i c sub s) := keepsPort_next (samePort_raiseFault _ _ _ s)

theorem keepsPort_whenConfigured {e : Engine} {i : Instr} {s : State} {run : State → Result}
    (hrun : ∀ u, KeepsPort u (run u)) : KeepsPort s (whenConfigured e i s run) := by
  intro t h
  obtain ⟨-, ht⟩ | ⟨-, rfl⟩ := whenConfigured_next h
  · exact hrun s t ht
  · exact samePort_raiseFault _ _ _ s

theorem keepsPort_whenLegal {o : Option Byte} {i : Instr} {c : Cause} {s : State}
    {run : State → Result} (hrun : ∀ u, KeepsPort u (run u)) : KeepsPort s (whenLegal o i c s run) := by
  intro t h
  obtain ⟨-, ht⟩ | ⟨_, -, rfl⟩ := whenLegal_next h
  · exact hrun s t ht
  · exact samePort_raiseFault _ _ _ s

theorem keepsPort_whenSymbols {i : Instr} {n : Nat} {s : State} {run : State → Result}
    (hrun : ∀ u, KeepsPort u (run u)) : KeepsPort s (whenSymbols i n s run) := by
  intro t h
  have hread := (readSymbols_state n s).samePort
  obtain ⟨-, ht⟩ | ⟨-, rfl⟩ := whenSymbols_next h
  · exact hread.trans (hrun _ t ht)
  · exact hread.trans (samePort_raiseFault _ _ _ _)

theorem keepsPort_decodeRoot {i : Instr} {α : List Int} {s : State}
    {run : List Bool → State → Result} (hrun : ∀ β u, KeepsPort u (run β u)) :
    KeepsPort s (decodeRoot i α s run) := by
  intro t h
  have htree := (gather_state .tree 0 s.regs.pcNnodes.toNat s).samePort
  obtain rfl | rfl | ⟨_, β, _, -, -, ht⟩ := decodeRoot_next h
  · exact samePort_raiseFault _ _ _ s
  · exact htree.trans (samePort_raiseFault _ _ _ _)
  · exact htree.trans (hrun β _ t ht)

/-! ## The commands -/

theorem keepsPort_execPdecLoad (s : State) : KeepsPort s (execPdecLoad s) :=
  keepsPort_whenConfigured fun u =>
    keepsPort_next ((expandReceived_state u).samePort.trans (samePort_write _ _ _ _))

theorem keepsPort_execPdecRun (s : State) : KeepsPort s (execPdecRun s) :=
  keepsPort_whenConfigured fun u =>
    (keepsPort_decodeRoot fun β v => keepsPort_next (samePort_writeDecision β v)).of_samePort
      (gather_state _ _ _ u).samePort

theorem keepsPort_execPdec (s : State) : KeepsPort s (execPdec s) :=
  keepsPort_whenConfigured fun u =>
    (keepsPort_decodeRoot fun β v =>
      keepsPort_next ((samePort_write v _ _ _).trans (samePort_writeDecision β _))).of_samePort
      (expandReceived_state u).samePort

theorem keepsPort_execGfMul (s : State) : KeepsPort s (execGfMul s) := by
  refine keepsPort_whenConfigured fun u => ?_
  dsimp only
  split
  · exact keepsPort_commandFault _ _ _ u
  · exact keepsPort_next ((multiplyFromTables_state _ _ u).samePort.trans (samePort_withRegs _ _))

/-- No command changes the structural parameters, the pending inputs or the returned values. -/
theorem exec_samePort {i : Instr} {s t : State} (h : exec i s = .next t) : SamePort s t := by
  suffices hk : KeepsPort s (exec i s) from hk t h
  cases i with
  | nop => exact keepsPort_next (.refl s)
  | sreset => exact keepsPort_next (samePort_resetBlock s)
  | ilvCfg => exact keepsPort_whenLegal fun u => keepsPort_next (samePort_ilvConfigure u)
  | ilvFwd => exact keepsPort_whenConfigured fun u => keepsPort_next (samePort_ilvForward u)
  | ilvRev => exact keepsPort_whenConfigured fun u => keepsPort_next (samePort_ilvReverse u)
  | pcCfg => exact keepsPort_whenLegal fun u => keepsPort_next (samePort_pcConfigure u)
  | penc => exact keepsPort_whenConfigured fun u => keepsPort_next (samePort_polarEncode u)
  | pdecLoad => exact keepsPort_execPdecLoad s
  | pdecRun => exact keepsPort_execPdecRun s
  | pdec => exact keepsPort_execPdec s
  | rsCfg => exact keepsPort_whenLegal fun u => keepsPort_next (samePort_rsConfigure u)
  | gfMul => exact keepsPort_execGfMul s
  | rsEnc =>
    exact keepsPort_whenConfigured
      fun _ => keepsPort_whenSymbols fun u => keepsPort_next (samePort_rsEncode u)
  | rsCheck =>
    exact keepsPort_whenConfigured
      fun _ => keepsPort_whenSymbols fun u => keepsPort_next (samePort_writeSyndromes u)
  | rsDec =>
    exact keepsPort_whenConfigured fun _ => keepsPort_whenSymbols fun u =>
      keepsPort_next ((samePort_writeSyndromes u).trans (samePort_writeDecstat _))

/-! ## The host inputs -/

theorem issueCommand_samePort {v : Word64} {s t : State} (h : issueCommand v s = .next t) :
    SamePort s t := by
  obtain ⟨-, -, hexec⟩ | ⟨-, -, hignored⟩ | ⟨-, -, hillegal⟩ | ⟨-, i, -, hexec⟩ :=
    issueCommand_cases v s
  · exact exec_samePort (hexec ▸ h)
  · exact keepsPort_next (.refl s) t (hignored ▸ h)
  · exact keepsPort_next (samePort_raiseFault _ _ _ s) t (hillegal ▸ h)
  · exact exec_samePort (hexec ▸ h)

theorem hostRegWrite_samePort {no : Byte} {v : Word64} {s t : State}
    (h : hostRegWrite no v s = .next t) : SamePort s t := by
  obtain ⟨-, hfault⟩ | ⟨r, -, ⟨-, hfault⟩ | ⟨-, hcommand⟩ | ⟨-, hstore⟩⟩ := hostRegWrite_cases no v s
  · exact keepsPort_next (samePort_raiseFault _ _ _ s) t (hfault ▸ h)
  · exact keepsPort_next (samePort_raiseFault _ _ _ s) t (hfault ▸ h)
  · exact issueCommand_samePort (hcommand ▸ h)
  · exact keepsPort_next (samePort_withRegs s _) t (hstore ▸ h)

theorem samePort_hostBufWrite (space index : Nat) (v : Word64) (s : State) :
    SamePort s (hostBufWrite space index v s) := by
  obtain ⟨sub, hfault⟩ | ⟨sp, -, -, -, hwrite⟩ := hostBufWrite_cases space index v s
  · exact hfault ▸ samePort_raiseFault _ _ _ s
  · exact hwrite ▸ samePort_write s _ _ _

/-- A register read hands one value to the host, faulting or not (60_exceptions.md R346). -/
theorem hostRegRead_samePort (no : Byte) (s : State) :
    ∃ v, SamePort (s.returning v) (hostRegRead no s) := by
  unfold hostRegRead
  split
  · exact ⟨0, (samePort_raiseFault _ _ _ s).returning 0⟩
  · exact ⟨_, .refl _⟩

/-- A read of an element hands one value to the host, faulting or not (60_exceptions.md R346). -/
theorem hostBufRead_samePort (space index : Nat) (s : State) :
    ∃ v, SamePort (s.returning v) (hostBufRead space index s) := by
  obtain ⟨sub, hfault⟩ | ⟨sp, -, -, hread⟩ := hostBufRead_cases space index s
  · exact ⟨0, hfault ▸ (samePort_raiseFault _ _ _ s).returning 0⟩
  · exact ⟨_, hread ▸ (readElem_state sp index s).samePort.returning _⟩

/-- A host input keeps the port, or hands the host the one value of a read and keeps the rest. -/
theorem hostStep_samePort_or_returning {x : HostInput} {s t : State} (h : hostStep x s = .next t) :
    SamePort s t ∨ ∃ v, SamePort (s.returning v) t := by
  cases x with
  | regRead no => exact .inr (Host.Outcome.next.inj h ▸ hostRegRead_samePort no s)
  | regWrite no v => exact .inl (hostRegWrite_samePort h)
  | bufRead space index => exact .inr (Host.Outcome.next.inj h ▸ hostBufRead_samePort space index s)
  | bufWrite space index v =>
    exact .inl (keepsPort_next (samePort_hostBufWrite space index v s) t h)
  | hwReset => exact .inl (keepsPort_next (samePort_resetBlock s) t h)

/-! ## The step -/

/-- A step with nothing pending changes nothing (20_memory.md R78). -/
theorem step_of_idle {s : State} (h : s.pending = []) : step s = .next s := by
  obtain ⟨-, hstep⟩ | ⟨x, rest, hpending, -⟩ := step_cases s
  · exact hstep
  · exact absurd (h.symm.trans hpending) (List.cons_ne_nil x rest).symm

/-- A step keeps the port of the state without its first pending input, or returns one value to it. -/
theorem step_samePort_or_returning {s t : State} (h : step s = .next t) :
    SamePort { s with pending := s.pending.tail } t ∨
      ∃ v, SamePort ({ s with pending := s.pending.tail }.returning v) t := by
  obtain ⟨hidle, hstep⟩ | ⟨x, rest, hpending, hstep⟩ := step_cases s
  · obtain rfl := Host.Outcome.next.inj (hstep.symm.trans h)
    exact .inl ⟨rfl, by simp [hidle], rfl⟩
  · rw [hpending]
    exact hostStep_samePort_or_returning (hstep.symm.trans h)

/-- Settles O8: a step is one host input, and host inputs keep the port but for the value of a read. -/
theorem stepTakesOneInput : Obligations.StepTakesOneInput := by
  intro s
  refine ⟨step_of_idle, fun t h => ?_⟩
  obtain ⟨hpar, hpending, hreturned⟩ | ⟨v, hpar, hpending, hreturned⟩ := step_samePort_or_returning h
  · exact ⟨hpar, hpending, [], Nat.zero_le 1, hreturned⟩
  · exact ⟨hpar, hpending, [v], le_rfl, hreturned⟩

end Sys2Proof.Machine
end

/-! PROOFS. The host port and the state: what the four accesses return and leave (10_state.md R23, R47,
R50, R64), the frame of every command (R50, R34, R40, R46), the Reed-Solomon commands on unwritten symbols
(R65), and the invariant of every step (R25, R26, R50, R81). -/

namespace Sys2Proof.Machine

/-! ## Structural parameters -/

/-- `Params.wf`, its bounds named (00_scope.md R7, 10_state.md R28). -/
structure LegalParams (p : Params) : Prop where
  b_le : p.b ≤ 64
  llrw_le : p.llrw ≤ 64
  pmMax_le : p.pmMax ≤ 64
  lognMax_le : p.lognMax ≤ 32
  gmMax_le : p.gmMax ≤ 8
  iwCap_lt : p.iwCap < 2 ^ 24
  ibCap_lt : p.ibCap < 2 ^ 24
  rbCap_lt : p.rbCap < 2 ^ 16

theorem legalParams_of_wf {p : Params} (h : p.wf = true) : LegalParams p := by
  simp only [Params.wf, Bool.and_eq_true, decide_eq_true_eq] at h
  constructor <;> omega

/-! ## Numbers of registers and spaces -/

theorem regOfNo_no (r : Reg) : regOfNo r.no = some r := by cases r <;> rfl

theorem spaceOfNo_no (sp : Space) : spaceOfNo sp.no = some sp := by cases sp <;> rfl

theorem no_of_regOfNo {no : Byte} {r : Reg} (h : regOfNo no = some r) : no = r.no := by
  unfold regOfNo at h
  split at h <;> first | (obtain rfl := Option.some.inj h; rfl) | exact absurd h (by simp)

/-! ## Reading a register -/

/-- The registers of 10_state.md R23, in the order of its table. -/
def allRegs : List Reg :=
  [.id, .status, .fault, .cmd, .cap0, .cap1, .ilvK, .ilvL, .ilvPm, .ilvBs, .ilvC, .ilvOnes, .ilvNin,
    .ilvNout, .ilvNiter, .ilvInlen, .ilvOutlen, .pcN, .pcM, .pcK, .pcSnr, .pcLs, .pcLogn, .pcInitshort,
    .pcNnodes, .rsGm, .rsPrim, .rsRp, .rsRn, .gfA, .gfB, .gfR, .rsMaxsyn, .rsDecstat]

theorem hostStep_regRead (r : Reg) (s : State) :
    hostStep (.regRead r.no) s = .next (s.returning (r.read s.par s.regs)) := by
  simp [hostStep, hostRegRead, regOfNo_no]

theorem log2_lt_of_le {x : Nat} (h : x ≤ 64) : Nat.log2 x < 2 ^ 8 := by
  by_cases hx : x = 0
  · subst hx; decide
  · exact (Nat.log2_lt hx).2 (h.trans_lt (by decide))

/-- A field appended below: the value above it is shifted by the width, and the field added. -/
theorem toNat_append_ofNat {n m : Nat} (v : BitVec n) {x : Nat} (hx : x < 2 ^ m) :
    (v ++ BitVec.ofNat m x).toNat = v.toNat * 2 ^ m + x := by
  rw [BitVec.toNat_append, BitVec.toNat_ofNat, Nat.mod_eq_of_lt hx,
    ← Nat.shiftLeft_add_eq_or_of_lt hx, Nat.shiftLeft_eq]

/-- CAP0 as a sum: its fields do not overlap and each parameter fits its own (10_state.md R28). -/
theorem cap0Const_eq {p : Params} (h : p.wf = true) : cap0Const p =
    BitVec.ofNat 64 (Nat.log2 p.b + p.llrw * 2 ^ 8 + p.pmMax * 2 ^ 16 + p.lognMax * 2 ^ 24 +
      p.gmMax * 2 ^ 32) := by
  obtain ⟨hb, hllrw, hpm, hlogn, hgm, -, -, -⟩ := legalParams_of_wf h
  have hlog := log2_lt_of_le hb
  apply BitVec.eq_of_toNat_eq
  rw [cap0Const, toNat_append_ofNat _ hlog, toNat_append_ofNat _ (by omega),
    toNat_append_ofNat _ (by omega), toNat_append_ofNat _ (by omega), toNat_append_ofNat _ (by omega),
    BitVec.toNat_ofNat, BitVec.toNat_ofNat]
  omega

/-- CAP1 as a sum, for capacities that fit their fields (10_state.md R28; log entry 9). -/
theorem cap1Const_eq {p : Params} (h : p.wf = true) : cap1Const p =
    BitVec.ofNat 64 (p.iwCap + p.ibCap * 2 ^ 24 + p.rbCap * 2 ^ 48) := by
  obtain ⟨-, -, -, -, -, hiw, hib, hrb⟩ := legalParams_of_wf h
  apply BitVec.eq_of_toNat_eq
  rw [cap1Const, toNat_append_ofNat _ hiw, toNat_append_ofNat _ hib, BitVec.toNat_ofNat,
    BitVec.toNat_ofNat]
  omega

/-- Settles O13: the list of the statement is the register map read register by register. -/
theorem hostRegReadReturnsTheRegister : Obligations.HostRegReadReturnsTheRegister := by
  intro s hwf x hx
  rw [← cap0Const_eq hwf, ← cap1Const_eq hwf] at hx
  obtain ⟨r, -, rfl⟩ := List.mem_map.1
    (show x ∈ allRegs.map fun r => (r.no, r.read s.par s.regs) from hx)
  exact hostStep_regRead r s

/-! ## Updates of the registers, read by name -/

theorem read_putValid {r : Reg} (h : r ≠ .status) (p : Params) (g : Regs) (e : Engine) (x : Bool) :
    r.read p (g.putValid e x) = r.read p g := by
  cases r <;> first | rfl | exact absurd rfl h

theorem read_putRsZero {r : Reg} (h : r ≠ .status) (p : Params) (g : Regs) (x : Bool) :
    r.read p (g.putRsZero x) = r.read p g := by
  cases r <;> first | rfl | exact absurd rfl h

theorem read_recordFault {r : Reg} (h : r ≠ .status) (h' : r ≠ .fault) (p : Params) (g : Regs)
    (c : Cause) (sub op : Byte) : r.read p (g.recordFault c sub op) = r.read p g := by
  unfold Regs.recordFault
  split
  · rfl
  · cases r <;> first | rfl | exact absurd rfl h | exact absurd rfl h'

theorem read_store_same {r : Reg} (h : r.cls = .rw) (p : Params) (g : Regs) (v : Word64) :
    r.read p (r.store g v) = v := by
  cases r <;> first | rfl | exact absurd h (by decide)

theorem read_store_ne {r r' : Reg} (h : r' ≠ r) (p : Params) (g : Regs) (v : Word64) :
    r'.read p (r.store g v) = r'.read p g := by
  cases r <;> first | rfl | (cases r' <;> first | rfl | exact absurd rfl h)

theorem store_status (r : Reg) (g : Regs) (v : Word64) : (r.store g v).status = g.status := by
  cases r <;> rfl

theorem store_fault (r : Reg) (g : Regs) (v : Word64) : (r.store g v).fault = g.fault := by
  cases r <;> rfl

/-! ## Writing a register -/

/-- The bit of STATUS that a host write to the register clears (10_state.md R47). -/
def Reg.validMask (r : Reg) : Word64 :=
  match r.engine with
  | some e => BitVec.twoPow 64 e.validBit
  | none => 0

theorem hostWrite_status (r : Reg) (g : Regs) (v : Word64) :
    (r.hostWrite g v).status = g.status &&& ~~~r.validMask := by
  unfold Reg.hostWrite Reg.validMask
  cases r.engine with
  | none => exact (store_status r g v).trans (BitVec.and_allOnes (x := g.status)).symm
  | some e => simp [putBit, store_status]

theorem read_hostWrite_same {r : Reg} (h : r.cls = .rw) (p : Params) (g : Regs) (v : Word64) :
    r.read p (r.hostWrite g v) = v := by
  unfold Reg.hostWrite
  cases r.engine with
  | none => exact read_store_same h p g v
  | some e =>
    have hstatus : r ≠ .status := by rintro rfl; exact absurd h (by decide)
    exact (read_putValid hstatus p _ e false).trans (read_store_same h p g v)

theorem read_hostWrite_ne {r r' : Reg} (h : r' ≠ r) (hstatus : r' ≠ .status) (p : Params) (g : Regs)
    (v : Word64) : r'.read p (r.hostWrite g v) = r'.read p g := by
  unfold Reg.hostWrite
  cases r.engine with
  | none => exact read_store_ne h p g v
  | some e => exact (read_putValid hstatus p _ e false).trans (read_store_ne h p g v)

theorem hostStep_regWrite {r : Reg} (h : r.cls = .rw) (v : Word64) (s : State) :
    hostStep (.regWrite r.no v) s = .next (s.withRegs (r.hostWrite s.regs v)) := by
  simp [hostStep, hostRegWrite, regOfNo_no, h]

/-- Settles O14: a register of class RW stores the value, and STATUS loses `Reg.validMask`. -/
theorem hostRegWriteStoresAndClearsValid : Obligations.HostRegWriteStoresAndClearsValid := by
  intro s v x hx
  obtain ⟨hcls, hmask⟩ : x.1.cls = .rw ∧ x.2 = x.1.validMask := by revert x; decide
  refine ⟨_, hostStep_regWrite hcls v s, samePort_withRegs s _, rfl, rfl,
    read_hostWrite_same hcls _ _ v, ?_, fun r hr hstatus => read_hostWrite_ne hr hstatus _ _ v⟩
  rw [hmask]
  exact hostWrite_status x.1 s.regs v

/-! ## Reading and writing an element -/

theorem Space.extend_eq (p : Params) (sp : Space) (v : Word64) :
    sp.extend p v = if sp = .llr then (v.setWidth p.llrw).signExtend 64 else v := by
  cases sp <;> rfl

theorem hostStep_bufRead {sp : Space} {i : Nat} {s : State} (h : i < sp.capacity s.par) :
    hostStep (.bufRead sp.no i) s =
      .next ((readElem sp i s).2.returning (sp.extend s.par (readElem sp i s).1)) := by
  simp [hostStep, hostBufRead, spaceOfNo_no, h]

/-- Settles O16: `readElem` hands on the written element, or one draw of the element's width. -/
theorem hostBufReadReturnsTheElement : Obligations.HostBufReadReturnsTheElement := by
  intro s sp i hi
  refine ⟨fun v hv => ?_, fun hnone => ?_⟩
  · rw [hostStep_bufRead hi, readElem_written hv, Space.extend_eq]
  · have hdraw := draw_state (sp.width s.par) s
    refine ⟨_, (draw (sp.width s.par) s).1, draw_toNat_lt _ s, hostStep_bufRead hi, ?_⟩
    rw [readElem_unwritten hnone, Space.extend_eq]
    exact ⟨hdraw.par, hdraw.pending, hdraw.mem, hdraw.regs, rfl⟩

theorem hostStep_bufWrite {sp : Space} {i : Nat} {s : State} (hk : sp.kind = .data)
    (h : i < sp.capacity s.par) (v : Word64) :
    hostStep (.bufWrite sp.no i v) s = .next (s.write sp i [v]) := by
  simp [hostStep, hostBufWrite, spaceOfNo_no, hk, h]

theorem truncTo_eq_ofNat (w : Nat) (v : Word64) :
    truncTo w v = BitVec.ofNat 64 (v.toNat % 2 ^ w) := by
  apply BitVec.eq_of_toNat_eq
  simp [truncTo]

/-- Cutting to a width twice is cutting once. -/
theorem setWidth_truncTo (w : Nat) (v : Word64) : (truncTo w v).setWidth w = v.setWidth w := by
  apply BitVec.eq_of_toNat_eq
  have h : v.toNat % 2 ^ w < 2 ^ 64 := (Nat.mod_le _ _).trans_lt v.isLt
  rw [truncTo_eq_ofNat, BitVec.toNat_setWidth, BitVec.toNat_ofNat, Nat.mod_eq_of_lt h, Nat.mod_mod,
    BitVec.toNat_setWidth]

theorem elem?_write_single (s : State) (sp : Space) (i : Nat) (v : Word64) :
    (s.write sp i [v]).elem? sp i = some (truncTo (sp.width s.par) v) := by
  simp [State.elem?_write]

/-- Settles O17: the write keeps the low bits that fit, and the read finds them. -/
theorem hostBufWriteKeepsTheLowBits : Obligations.HostBufWriteKeepsTheLowBits := by
  intro s i v sp hsp hi
  have hk : sp.kind = .data :=
    (by decide : ∀ sp ∈ [Space.iw, .ib, .pi, .po, .di, .llr, .rb], sp.kind = .data) sp hsp
  have helem := elem?_write_single s sp i v
  refine ⟨_, hostStep_bufWrite hk hi v, samePort_write s _ _ _, rfl, rfl, ?_, ?_, ?_⟩
  · rw [helem, truncTo_eq_ofNat]
  · intro sp' i' h
    refine sameElemsBut_write s sp i [v] sp' i' fun hin => h ⟨hin.1, ?_⟩
    have := hin.2.2
    simp only [List.length_singleton] at this
    omega
  · rw [hostStep_bufRead (by exact hi), readElem_written helem, Space.extend_eq, State.write_par]
    by_cases hllr : sp = .llr
    · subst hllr
      rw [if_pos rfl, if_pos rfl]
      exact congrArg (fun x => Host.Outcome.next (State.returning _ (x.signExtend 64)))
        (setWidth_truncTo s.par.llrw v)
    · rw [if_neg hllr, if_neg hllr, truncTo_eq_ofNat]

/-! ## What a host access leaves -/

/-- No element of a Table space and no register that is not RW differs, STATUS and FAULT apart. -/
def LeavesTables (s t : State) : Prop :=
  (∀ sp : Space, sp.kind = .table → ∀ i, t.elem? sp i = s.elem? sp i) ∧
    ∀ r : Reg, r.cls ≠ .rw → r ≠ .status → r ≠ .fault → r.read t.par t.regs = r.read s.par s.regs

theorem leavesTables_hostFault (sub : Byte) (s : State) : LeavesTables s (hostFault sub s) :=
  ⟨fun _ _ _ => rfl, fun _ _ hstatus hfault => read_recordFault hstatus hfault _ _ _ _ _⟩

theorem OnlyDraws.leavesTables {s t : State} (h : OnlyDraws s t) : LeavesTables s t :=
  ⟨fun sp _ i => h.elem? sp i, fun r _ _ _ => by rw [h.par, h.regs]⟩

theorem leavesTables_hostRegRead (no : Byte) (s : State) : LeavesTables s (hostRegRead no s) := by
  unfold hostRegRead
  split
  · exact leavesTables_hostFault 1 s
  · exact (OnlyDraws.refl s).leavesTables

theorem leavesTables_hostBufRead (space index : Nat) (s : State) :
    LeavesTables s (hostBufRead space index s) := by
  obtain ⟨sub, hfault⟩ | ⟨sp, -, -, hread⟩ := hostBufRead_cases space index s
  · exact hfault ▸ leavesTables_hostFault sub s
  · exact hread ▸ (readElem_state sp index s).leavesTables

theorem leavesTables_hostBufWrite (space index : Nat) (v : Word64) (s : State) :
    LeavesTables s (hostBufWrite space index v s) := by
  obtain ⟨sub, hfault⟩ | ⟨sp, -, hdata, -, hwrite⟩ := hostBufWrite_cases space index v s
  · exact hfault ▸ leavesTables_hostFault sub s
  · rw [hwrite]
    refine ⟨fun sp' htable i => sameElemsBut_write s sp index [v] sp' i ?_, fun _ _ _ _ => rfl⟩
    rintro ⟨rfl, -⟩
    exact absurd (hdata.symm.trans htable) (by decide)

/-- A write to a register other than CMD. -/
theorem leavesTables_hostRegWrite {no : Byte} {v : Word64} {s t : State} (hno : no ≠ 0x03)
    (h : hostRegWrite no v s = .next t) : LeavesTables s t := by
  obtain ⟨-, hfault⟩ | ⟨r, hr, ⟨-, hfault⟩ | ⟨hwo, -⟩ | ⟨hrw, hstore⟩⟩ := hostRegWrite_cases no v s
  · exact Host.Outcome.next.inj (hfault.symm.trans h) ▸ leavesTables_hostFault 1 s
  · exact Host.Outcome.next.inj (hfault.symm.trans h) ▸ leavesTables_hostFault 2 s
  · have hcmd : r = .cmd := by cases r <;> first | rfl | exact absurd hwo (by decide)
    exact absurd ((no_of_regOfNo hr).trans (congrArg Reg.no hcmd)) hno
  · obtain rfl := Host.Outcome.next.inj (hstore.symm.trans h)
    refine ⟨fun _ _ _ => rfl, fun r' hr' hstatus _ => read_hostWrite_ne ?_ hstatus _ _ v⟩
    rintro rfl
    exact hr' hrw

/-- Settles O18, by the four accesses. -/
theorem hostLeavesTablesAlone : Obligations.HostLeavesTablesAlone := by
  intro s t x h hreset hcmd
  suffices hleaves : LeavesTables s t by
    obtain ⟨helems, hregs⟩ := hleaves
    refine ⟨fun sp hsp => helems sp ?_, fun r hr => ?_⟩
    · exact (by decide : ∀ sp ∈ [Space.isch, .beta, .dout, .bhat, .didx, .tree, .syn, .glog, .galog,
        .gen], sp.kind = .table) sp hsp
    · obtain ⟨hcls, hstatus, hfault⟩ := (by decide : ∀ r ∈ [Reg.id, .cmd, .cap0, .cap1, .ilvC,
        .ilvOnes, .ilvNin, .ilvNout, .ilvNiter, .ilvInlen, .ilvOutlen, .pcLogn, .pcInitshort, .pcNnodes,
        .gfR, .rsMaxsyn, .rsDecstat], r.cls ≠ .rw ∧ r ≠ .status ∧ r ≠ .fault) r hr
      exact hregs r hcls hstatus hfault
  cases x with
  | regRead no => exact Host.Outcome.next.inj h ▸ leavesTables_hostRegRead no s
  | regWrite no v => exact leavesTables_hostRegWrite (fun hno => hcmd v (hno ▸ rfl)) h
  | bufRead space index => exact Host.Outcome.next.inj h ▸ leavesTables_hostBufRead space index s
  | bufWrite space index v => exact Host.Outcome.next.inj h ▸ leavesTables_hostBufWrite space index v s
  | hwReset => exact absurd rfl hreset

/-! ## Lengths of what the commands write -/

theorem foldl_length_eq {α β : Type} {f : List α → β → List α}
    (hf : ∀ acc x, (f acc x).length = acc.length) (acc : List α) (xs : List β) :
    (xs.foldl f acc).length = acc.length := by
  induction xs generalizing acc with
  | nil => rfl
  | cons x xs ih => exact (ih (f acc x)).trans (hf acc x)

theorem pack_length_le (bits : List Bool) : (pack bits).length ≤ bits.length / 8 := by
  fun_induction pack bits with
  | case1 b0 b1 b2 b3 b4 b5 b6 b7 bs ih => simp only [List.length_cons]; omega
  | case2 => exact Nat.zero_le _

theorem packElems_length_le (bits : List Bool) : (packElems bits).length ≤ bits.length / 8 := by
  simpa [packElems] using pack_length_le bits

/-! ### Interleaver -/

theorem scheduleWords_length (B : Nat) (pm : Word64) (k c p : Nat) :
    (scheduleWords B pm k c p).length = scheduleLen B := by
  simp [scheduleWords, scheduleLen, List.length_flatMap, log2, Nat.mul_comm]

theorem scheduleTable_length (B : Nat) (pm : Word64) (k c : Nat) :
    (scheduleTable B pm k c).length = k * scheduleLen B := by
  simp [scheduleTable, List.length_flatMap, scheduleWords_length]

theorem orChunk_length {B : Nat} (iw : List (Word B)) (k c p it : Nat) (w : Word B) :
    (orChunk iw k c p it w).length = iw.length := by
  refine foldl_length_eq (fun acc i => ?_) iw _
  dsimp only
  split
  · exact List.length_modify ..
  · rfl

theorem reverseWords_length {B : Nat} (isch : List (Word B)) (inbit : List Bool)
    (k c niter nout inlen : Nat) :
    (reverseWords isch inbit k c niter nout inlen).length = inlen := by
  refine (foldl_length_eq (fun acc it => ?_) _ _).trans List.length_replicate
  exact foldl_length_eq (fun acc p => orChunk_length _ _ _ _ _ _) acc _

/-! ### Polar code -/

theorem bhattacharyya_length (n : Nat) (snr : Int) : (bhattacharyya n snr).length = 2 ^ n := by
  induction n with
  | zero => rfl
  | succ n ih => simp [bhattacharyya, List.length_flatMap, ih, Nat.pow_succ]

theorem takeSelected_length_le (v : Int) (i r : Nat) (zs : List Int) :
    (takeSelected v i r zs).length ≤ zs.length := by
  induction zs generalizing i r with
  | nil => exact le_refl _
  | cons z zs ih =>
    unfold takeSelected
    split
    · exact Nat.succ_le_succ (ih (i + 1) r)
    · split
      · exact Nat.succ_le_succ (ih (i + 1) (r - 1))
      · exact (ih (i + 1) r).trans (Nat.le_succ _)

/-- The positions selected are positions of the list. -/
theorem lt_of_mem_takeSelected {v : Int} {i r x : Nat} {zs : List Int}
    (h : x ∈ takeSelected v i r zs) : x < i + zs.length := by
  induction zs generalizing i r with
  | nil => exact absurd h List.not_mem_nil
  | cons z zs ih =>
    have hrest : ∀ {r'}, x ∈ takeSelected v (i + 1) r' zs → x < i + (z :: zs).length := fun hx => by
      have := ih hx
      simp only [List.length_cons]
      omega
    have hhead : ∀ {r'}, x ∈ i :: takeSelected v (i + 1) r' zs → x < i + (z :: zs).length := fun hx => by
      obtain rfl | hx := List.mem_cons.1 hx
      · simp
      · exact hrest hx
    unfold takeSelected at h
    split at h
    · exact hhead h
    · split at h
      · exact hhead h
      · exact hrest h

theorem selectIndices_length_le (z : List Int) (M K : Nat) :
    (selectIndices z M K).length ≤ z.length :=
  (takeSelected_length_le _ _ _ _).trans (List.length_take_le' ..)

theorem lt_of_mem_selectIndices {z : List Int} {M K x : Nat} (h : x ∈ selectIndices z M K) :
    x < z.length := by
  have hx := lt_of_mem_takeSelected h
  have hz := List.length_take_le' M z
  omega

theorem buildTree_length_lt (D : List Nat) (n lo : Nat) : (buildTree D n lo).length < 2 ^ (n + 1) := by
  induction n generalizing lo with
  | zero => simp [buildTree]
  | succ n ih =>
    have hleft := ih lo
    have hright := ih (lo + 2 ^ n)
    have hpow : 2 ^ (n + 1 + 1) = 2 ^ (n + 1) + 2 ^ (n + 1) := by rw [Nat.pow_succ, Nat.mul_two]
    simp only [buildTree, List.length_cons]
    split
    · rw [List.length_append]
      omega
    · have := Nat.two_pow_pos (n + 1)
      simp only [List.length_nil]
      omega

theorem unpackElems_length (vs : List Word64) : (unpackElems vs).length = vs.length * 8 := by
  simp [unpackElems, unpack, bitsOfByte, List.length_flatMap, Function.comp_def]

theorem loadedLlrs_length {llrw N M : Nat} {initshort : Word64} {bits : List Bool} (hM : M ≤ N)
    (hbits : M ≤ bits.length) : (loadedLlrs llrw N M initshort bits).length = N := by
  simp only [loadedLlrs, List.length_append, List.length_map, List.length_take, List.length_replicate]
  omega

/-! ### The decoder keeps the size of a node (44_polar_decode.md R245) -/

theorem except_bind_eq_ok {ε α β : Type} {x : Except ε α} {f : α → Except ε β} {b : β}
    (h : (x >>= f) = .ok b) : ∃ a, x = .ok a ∧ f a = .ok b := by
  cases x with
  | error e => exact absurd h (by simp [bind, Except.bind])
  | ok a => exact ⟨a, rfl, h⟩

theorem checkRange_eq_ok {maxl : Nat} {xs ys : List Int} (h : checkRange maxl xs = .ok ys) :
    ys = xs := by
  unfold checkRange at h
  split at h
  · exact (Except.ok.inj h).symm
  · exact absurd h (by simp)

theorem leftLlrs_length {llrw m : Nat} {tl : NodeTag} {a0 a1 : List Int} (h0 : a0.length = m)
    (h1 : a1.length = m) : (leftLlrs llrw tl a0 a1).length = m := by
  unfold leftLlrs
  split <;> simp [fOpR1, fOp, h0, h1]

theorem gOp0_length {maxl m : Nat} {a0 a1 α : List Int} (h0 : a0.length = m) (h1 : a1.length = m)
    (h : gOp0 maxl a0 a1 = .ok α) : α.length = m := by
  rw [checkRange_eq_ok h]
  simp [h0, h1]

theorem rightLlrs_length {maxl m : Nat} {tl : NodeTag} {a0 a1 α : List Int} {bl : List Bool}
    (h0 : a0.length = m) (h1 : a1.length = m) (hb : bl.length = m)
    (h : rightLlrs maxl tl a0 a1 bl = .ok α) : α.length = m := by
  unfold rightLlrs at h
  split at h
  · split at h
    · rw [checkRange_eq_ok h]; simp [h0, h1]
    · exact gOp0_length h0 h1 h
  · rw [checkRange_eq_ok h]; simp [h0, h1, hb]

theorem leaf_length {t : NodeTag} {nv : Nat} {α : List Int} {β : List Bool} (hα : α.length = nv)
    (h : leaf t nv α = some β) : β.length = nv := by
  cases t with
  | rate0 => obtain rfl := Option.some.inj h; exact List.length_replicate
  | rate1 => obtain rfl := Option.some.inj h; simp [leafRate1, hα]
  | rep => obtain rfl := Option.some.inj h; simp [leafRep, hα]
  | spc =>
    obtain rfl := Option.some.inj h
    unfold leafSpc
    dsimp only
    split <;> simp [hα]
  | standard => exact absurd h (by simp [leaf])

/-- What a Standard node answers (R245 steps 2 to 7), `a0` and `a1` being the halves of α: zeros, or its two
halves joined, the right one decoded from the LLRs of one of the g operations. -/
def StandardAnswer (llrw n : Nat) (a0 a1 : List Int) (β : List Bool) : Prop :=
  let maxl := 2 ^ (llrw - 1) - 1
  β = leafRate0 (2 ^ (n + 1)) ∨
    (∃ αr rs right, gOp0 maxl a0 a1 = .ok αr ∧ decTree llrw n αr rs = .ok right ∧ β = hOp0 right.1) ∨
    ∃ tl rs left, decTree llrw n (leftLlrs llrw tl a0 a1) rs = .ok left ∧
      (β = left.1 ++ leafRate0 (2 ^ n) ∨
        ∃ αr rs right, rightLlrs maxl tl a0 a1 left.1 = .ok αr ∧ decTree llrw n αr rs = .ok right ∧
          β = hOp left.1 right.1)

theorem decTree_zero_eq_ok {llrw : Nat} {α : List Int} {recs rest : List NodeRecord} {β : List Bool}
    (h : decTree llrw 0 α recs = .ok (β, rest)) : ∃ t, leaf t 1 α = some β := by
  cases recs with
  | nil => exact absurd h (by simp [decTree])
  | cons r rs =>
    unfold decTree at h
    split at h
    · exact absurd h (by simp)
    · split at h
      · rename_i β' hleaf
        obtain ⟨rfl, -⟩ := Prod.mk.inj (Except.ok.inj h)
        exact ⟨r.tag, hleaf⟩
      · exact absurd h (by simp)

theorem decTree_succ_eq_ok {llrw n : Nat} {α : List Int} {recs rest : List NodeRecord}
    {β : List Bool} (h : decTree llrw (n + 1) α recs = .ok (β, rest)) :
    (∃ t, leaf t (2 ^ (n + 1)) α = some β) ∨
      StandardAnswer llrw n (α.take (2 ^ n)) (α.drop (2 ^ n)) β := by
  cases recs with
  | nil => exact absurd h (by simp [decTree])
  | cons r rs =>
    unfold decTree at h
    split at h
    · exact absurd h (by simp)
    split at h
    · rename_i β' hleaf
      obtain ⟨rfl, -⟩ := Prod.mk.inj (Except.ok.inj h)
      exact .inl ⟨r.tag, hleaf⟩
    refine .inr ?_
    dsimp only at h
    split at h
    · exact absurd h (by simp)
    split at h
    · split at h
      · obtain ⟨rfl, -⟩ := Prod.mk.inj (Except.ok.inj h)
        exact .inl rfl
      · obtain ⟨αr, hg, h⟩ := except_bind_eq_ok h
        obtain ⟨right, hright, h⟩ := except_bind_eq_ok h
        obtain ⟨rfl, -⟩ := Prod.mk.inj (Except.ok.inj h)
        exact .inr (.inl ⟨αr, _, right, hg, hright, rfl⟩)
    · obtain ⟨left, hleft, h⟩ := except_bind_eq_ok h
      split at h
      · obtain ⟨rfl, -⟩ := Prod.mk.inj (Except.ok.inj h)
        exact .inr (.inr ⟨_, _, left, hleft, .inl rfl⟩)
      · obtain ⟨αr, hg, h⟩ := except_bind_eq_ok h
        obtain ⟨right, hright, h⟩ := except_bind_eq_ok h
        obtain ⟨rfl, -⟩ := Prod.mk.inj (Except.ok.inj h)
        exact .inr (.inr ⟨_, _, left, hleft, .inr ⟨αr, _, right, hg, hright, rfl⟩⟩)

theorem decTree_length {llrw n : Nat} {α : List Int} {recs rest : List NodeRecord} {β : List Bool}
    (hα : α.length = 2 ^ n) (h : decTree llrw n α recs = .ok (β, rest)) : β.length = 2 ^ n := by
  induction n generalizing α recs rest β with
  | zero =>
    obtain ⟨t, hleaf⟩ := decTree_zero_eq_ok h
    exact leaf_length hα hleaf
  | succ n ih =>
    have hpow : 2 ^ (n + 1) = 2 ^ n + 2 ^ n := by rw [Nat.pow_succ, Nat.mul_two]
    have h0 : (α.take (2 ^ n)).length = 2 ^ n := by rw [List.length_take]; omega
    have h1 : (α.drop (2 ^ n)).length = 2 ^ n := by rw [List.length_drop]; omega
    obtain ⟨t, hleaf⟩ | rfl | ⟨αr, rs, right, hg, hright, rfl⟩ |
      ⟨tl, rs, left, hleft, rfl | ⟨αr, rs', right, hg, hright, rfl⟩⟩ := decTree_succ_eq_ok h
    · exact leaf_length hα hleaf
    · exact List.length_replicate
    · have hr := ih (gOp0_length h0 h1 hg) hright
      simp only [hOp0, List.length_append]
      omega
    · have hl := ih (leftLlrs_length h0 h1) hleft
      simp only [leafRate0, List.length_append, List.length_replicate]
      omega
    · have hl := ih (leftLlrs_length h0 h1) hleft
      have hr := ih (rightLlrs_length h0 h1 hl hg) hright
      simp only [hOp, List.length_append, List.length_zipWith]
      omega

/-! ### Reed–Solomon -/

theorem xtimeChain_length (q prim n a : Nat) : (xtimeChain q prim n a).length = n := by
  induction n generalizing a with
  | zero => rfl
  | succ n ih => simp [xtimeChain, ih]

theorem glogTable_length (q : Nat) (galog : List Nat) : (glogTable q galog).length = q :=
  (foldl_length_eq (fun _ _ => List.length_set) _ _).trans List.length_replicate

theorem timesLinear_length (t : GfTables) (g : List Nat) (r : Nat) :
    (timesLinear t g r).length = g.length + 1 := by
  simp [timesLinear]

theorem foldl_timesLinear_length (t : GfTables) (g is : List Nat) :
    (is.foldl (fun g i => timesLinear t g (t.antilog.getD i 0)) g).length = g.length + is.length := by
  induction is generalizing g with
  | nil => rfl
  | cons i is ih => rw [List.foldl_cons, ih, timesLinear_length, List.length_cons]; omega

theorem generatorPoly_length (t : GfTables) (rp : Nat) : (generatorPoly t rp).length = rp + 1 := by
  rw [generatorPoly, foldl_timesLinear_length, List.length_range', List.length_singleton, Nat.add_comm]

/-! ## What the passed checks give -/

theorem ilvCheck_eq_none {p : Params} {k L : Nat} {pm : Word64} {bs : Nat}
    (h : ilvCheck p k L pm bs = none) : k ≤ L ∧ L ≤ p.pmMax ∧ inBufLen p.b k bs ≤ p.iwCap ∧
      outBufLen bs (hammingWeight pm) (L / k) ≤ p.ibCap := by
  unfold ilvCheck at h
  split_ifs at h with _ _ hL hpm _ _ hcap
  have hk : k ≤ L := Nat.le_of_dvd (by omega) (Nat.dvd_of_mod_eq_zero (by omega))
  omega

theorem pcCheck_eq_none {p : Params} {N M K : Nat} {snr : Int} {ls : Nat}
    (h : pcCheck p N M K snr ls = none) :
    isPowerOfTwo N = true ∧ N ≤ 2 ^ p.lognMax ∧ M ≤ N ∧ K ≤ M ∧ M % 8 = 0 := by
  unfold pcCheck at h
  split_ifs at h with hN hcap hM hK _ _
  exact ⟨by simpa using (not_or.1 hN).1, by omega, by omega, by omega, by omega⟩

theorem rsCheck_eq_none {p : Params} {gm prim rp rn : Nat} (h : rsCheck p gm prim rp rn = none) :
    gm ≤ p.gmMax ∧ prim < 2 ^ (gm + 1) ∧ prim.testBit gm = true ∧ 1 ≤ gm ∧ 1 ≤ rp ∧ 1 ≤ rn ∧
      rn + rp ≤ p.rbCap := by
  unfold rsCheck at h
  split_ifs at h with hgm hprim _ hrp hrn _ hcap
  obtain ⟨hbound, hbits⟩ := not_or.1 hprim
  exact ⟨by omega, by omega, by simpa using (not_or.1 hbits).1, by omega, by omega, by omega, by omega⟩

theorem two_pow_log2 {N : Nat} (h : isPowerOfTwo N = true) : 2 ^ log2 N = N := by
  have hpow : N.isPowerOfTwo := Nat.ne_zero_and_sub_one_eq_zero_iff_isPowerOfTwo.1
    (by simpa [isPowerOfTwo] using h)
  obtain ⟨n, rfl⟩ := hpow
  rw [log2, Nat.log2_two_pow]

theorem pmOnes_le_hammingWeight (pm : Word64) {L : Nat} (h : L ≤ 64) :
    pmOnes pm L ≤ hammingWeight pm :=
  (List.range_sublist.2 h).countP_le

theorem outBufLen_mono {ones ones' : Nat} (bs c : Nat) (h : ones ≤ ones') :
    outBufLen bs ones c ≤ outBufLen bs ones' c :=
  Nat.div_le_div_right (Nat.mul_le_mul_left bs h)

theorem toNat_ofNat_le (x : Nat) : (BitVec.ofNat 64 x).toNat ≤ x := by
  rw [BitVec.toNat_ofNat]
  exact Nat.mod_le _ _

/-! ## Bits of STATUS under a mask -/

/-- A mask that leaves a bit out does not see it written. -/
theorem putBit_and {v m : Word64} {n : Nat} (x : Bool) (h : m.getLsbD n = false) :
    putBit v n x &&& m = v &&& m := by
  apply BitVec.eq_of_getLsbD_eq
  intro j hj
  rw [BitVec.getLsbD_and, BitVec.getLsbD_and, putBit_getLsbD _ _ _ _ hj]
  split
  · subst j
    simp [h]
  · rfl

/-- What is equal under a mask is equal under a smaller one. -/
theorem and_eq_of_and_eq {v w m m' : Word64} (h : v &&& m = w &&& m) (hm : m &&& m' = m') :
    v &&& m' = w &&& m' := by
  rw [← hm, ← BitVec.and_assoc, ← BitVec.and_assoc, h]

theorem getLsbD_eq_of_and_eq {v w m : Word64} {n : Nat} (h : v &&& m = w &&& m)
    (hm : m.getLsbD n = true) : v.getLsbD n = w.getLsbD n := by
  simpa [hm] using congrArg (BitVec.getLsbD · n) h

/-! ## FAULT -/

/-- FAULT reads as 10_state.md R26 says: 0 exactly when the block is not FAULTED, and 0 above bit 23. -/
def FaultLegal (g : Regs) : Prop :=
  (g.faulted = true ↔ g.fault ≠ 0) ∧ g.fault.extractLsb' 24 40 = 0#40

theorem FaultLegal.congr {g g' : Regs} (hfaulted : g'.faulted = g.faulted) (hfault : g'.fault = g.fault)
    (h : FaultLegal g) : FaultLegal g' := by
  rw [FaultLegal, hfaulted, hfault]
  exact h

theorem extractLsb'_faultWord (c : Cause) (sub op : Byte) :
    (faultWord c sub op).extractLsb' 24 40 = 0#40 := by
  have hcode := c.code.isLt
  have hsub := sub.isLt
  have hop := op.isLt
  apply BitVec.eq_of_toNat_eq
  rw [BitVec.extractLsb'_toNat, faultWord_toNat, Nat.shiftRight_eq_div_pow,
    Nat.div_eq_of_lt (by omega)]
  rfl

theorem FaultLegal.recordFault {g : Regs} (h : FaultLegal g) (c : Cause) (sub op : Byte) :
    FaultLegal (g.recordFault c sub op) := by
  unfold Regs.recordFault
  split
  · exact h
  · refine ⟨iff_of_true ?_ (faultWord_ne_zero c sub op), extractLsb'_faultWord c sub op⟩
    exact (putBit_getLsbD _ _ _ _ (by decide)).trans (if_pos rfl)

/-! ## What a command may do to the registers -/

/-- From `g` to `g'`, the command `i` has written none but its own registers and STATUS bits, and FAULT only
to record a fault. -/
structure RegsFrame (i : Instr) (g g' : Regs) : Prop where
  others : ∀ (p : Params) (r : Reg), r ∉ writesRegs i → r ≠ .status → r ≠ .fault →
    r.read p g' = r.read p g
  status : g'.status &&& ~~~(writesStatus i) = g.status &&& ~~~(writesStatus i)
  fault : FaultLegal g → FaultLegal g'

/-- The command can change STATUS bit `n`. -/
abbrev WritesBit (i : Instr) (n : Nat) : Prop := (~~~(writesStatus i)).getLsbD n = false

theorem RegsFrame.refl (i : Instr) (g : Regs) : RegsFrame i g g := ⟨fun _ _ _ _ _ => rfl, rfl, id⟩

theorem RegsFrame.trans {i : Instr} {g g' g'' : Regs} (h : RegsFrame i g g') (h' : RegsFrame i g' g'') :
    RegsFrame i g g'' :=
  ⟨fun p r hr hstatus hfault =>
      (h'.others p r hr hstatus hfault).trans (h.others p r hr hstatus hfault),
    h'.status.trans h.status, h'.fault ∘ h.fault⟩

theorem regsFrame_recordFault {i : Instr} (hi : WritesBit i faultedBit) (g : Regs) (c : Cause)
    (sub op : Byte) : RegsFrame i g (g.recordFault c sub op) := by
  refine ⟨fun p r _ hstatus hfault => read_recordFault hstatus hfault p g c sub op, ?_,
    fun h => h.recordFault c sub op⟩
  unfold Regs.recordFault
  split
  · rfl
  · exact putBit_and true hi

theorem regsFrame_putValid {i : Instr} {e : Engine} (hi : WritesBit i e.validBit) (g : Regs) (x : Bool) :
    RegsFrame i g (g.putValid e x) :=
  ⟨fun p _ _ hstatus _ => read_putValid hstatus p g e x, putBit_and x hi,
    FaultLegal.congr (g.putValid_faulted e x) rfl⟩

theorem regsFrame_putRsZero {i : Instr} (hi : WritesBit i rsZeroBit) (g : Regs) (x : Bool) :
    RegsFrame i g (g.putRsZero x) :=
  ⟨fun p _ _ hstatus _ => read_putRsZero hstatus p g x, putBit_and x hi,
    FaultLegal.congr (g.putRsZero_faulted x) rfl⟩

/-- An update of registers the command writes, which leaves STATUS and FAULT. -/
theorem regsFrame_of_read {i : Instr} {g g' : Regs} (hstatus : g'.status = g.status)
    (hfault : g'.fault = g.fault)
    (hread : ∀ (p : Params) (r : Reg), r ∉ writesRegs i → r.read p g' = r.read p g) :
    RegsFrame i g g' :=
  ⟨fun p r hr _ _ => hread p r hr, by rw [hstatus],
    FaultLegal.congr (by rw [Regs.faulted, hstatus, Regs.faulted]) hfault⟩

/-! ## What a command may do to the state -/

/-- Memory is in canonical form and every element exists and fits: the parts of the invariant about what is
stored. -/
structure StoreGood (s : State) : Prop where
  canonical : s.mem.wf = true
  fits : ElementsFit s

theorem StoreGood.congr {s t : State} (hpar : t.par = s.par) (hmem : t.mem = s.mem)
    (h : StoreGood s) : StoreGood t := by
  refine ⟨hmem ▸ h.canonical, ?_⟩
  rw [ElementsFit, hpar, hmem]
  exact h.fits

/-- From `s` to `t`, the command `i` has written none but its own spaces, registers and STATUS bits, and kept
what is stored good if `good` holds: the part of the premise its table indices rest on. -/
structure Effect (i : Instr) (good : Prop) (s t : State) : Prop where
  port : SamePort s t
  elems : ∀ sp, sp ∉ writesSpaces i → ∀ j, t.elem? sp j = s.elem? sp j
  regs : RegsFrame i s.regs t.regs
  store : good → StoreGood s → StoreGood t

theorem Effect.trans {i : Instr} {good : Prop} {s t u : State} (h : Effect i good s t)
    (h' : Effect i good t u) : Effect i good s u :=
  ⟨h.port.trans h'.port, fun sp hsp j => (h'.elems sp hsp j).trans (h.elems sp hsp j),
    h.regs.trans h'.regs, fun hg hs => h'.store hg (h.store hg hs)⟩

theorem OnlyDraws.effect {s t : State} (h : OnlyDraws s t) (i : Instr) (good : Prop) :
    Effect i good s t :=
  ⟨h.samePort, fun sp _ j => h.elem? sp j, h.regs ▸ .refl i _, fun _ => StoreGood.congr h.par h.mem⟩

theorem effect_withRegs {i : Instr} {s : State} {g : Regs} (h : RegsFrame i s.regs g) (good : Prop) :
    Effect i good s (s.withRegs g) :=
  ⟨samePort_withRegs s g, fun _ _ _ => rfl, h, fun _ => StoreGood.congr rfl rfl⟩

theorem effect_raiseFault {i : Instr} (hi : WritesBit i faultedBit) (good : Prop) (c : Cause)
    (sub op : Byte) (s : State) : Effect i good s (raiseFault c sub op s) :=
  effect_withRegs (regsFrame_recordFault hi s.regs c sub op) good

theorem effect_write {i : Instr} {good : Prop} {s : State} {sp : Space} {lo : Nat} {vs : List Word64}
    (hsp : sp ∈ writesSpaces i) (hcap : good → lo + vs.length ≤ sp.capacity s.par) :
    Effect i good s (s.write sp lo vs) := by
  refine ⟨samePort_write s sp lo vs, fun sp' hsp' j => ?_, .refl i _, fun hg hs =>
    ⟨Memory.wf_write sp lo vs hs.canonical, elementsFit_write (hcap hg) hs.fits⟩⟩
  refine sameElemsBut_write s sp lo vs sp' j ?_
  rintro ⟨rfl, -⟩
  exact hsp' hsp

/-- Reads, then one write; the capacity is asked of the state before the reads. -/
theorem OnlyDraws.effect_write {i : Instr} {good : Prop} {s u : State} (h : OnlyDraws s u) {sp : Space}
    {lo : Nat} {vs : List Word64} (hsp : sp ∈ writesSpaces i)
    (hcap : good → lo + vs.length ≤ sp.capacity s.par) : Effect i good s (u.write sp lo vs) :=
  (h.effect i good).trans (Machine.effect_write hsp fun hg => h.par ▸ hcap hg)

/-! ## The invariant and reads -/

/-- The invariant says nothing of the count of draws, the pending inputs and the returned values. -/
theorem Inv.congr {s t : State} (hpar : t.par = s.par) (hregs : t.regs = s.regs) (hmem : t.mem = s.mem)
    (h : Inv s) : Inv t := by
  obtain ⟨par, regs, mem, draws, pending, returned⟩ := s
  obtain ⟨par', regs', mem', draws', pending', returned'⟩ := t
  obtain rfl : par' = par := hpar
  obtain rfl : regs' = regs := hregs
  obtain rfl : mem' = mem := hmem
  exact ⟨h.params, h.canonical, h.fits, h.status, h.ilv, h.polar, h.rs⟩

theorem Inv.reads {s t : State} (hd : OnlyDraws s t) (h : Inv s) : Inv t :=
  h.congr hd.par hd.regs hd.mem

/-- A command that reads first and then acts from a good state. -/
theorem Effect.after_reads {i : Instr} {s u t : State} (hd : OnlyDraws s u)
    (h : Effect i (Inv u) u t) : Effect i (Inv s) s t :=
  (hd.effect i (Inv s)).trans { h with store := fun hinv => h.store (hinv.reads hd) }

/-! ## Capacities on a configured engine -/

theorem IlvDescribed.outlen_le {s : State} (h : IlvDescribed s) (hpar : s.par.wf = true) :
    s.regs.ilvOutlen.toNat ≤ s.par.ibCap := by
  obtain ⟨hcheck, hderived, -⟩ := h
  obtain ⟨-, hL, -, hout⟩ := ilvCheck_eq_none hcheck
  have hones := pmOnes_le_hammingWeight s.regs.ilvPm (hL.trans (legalParams_of_wf hpar).pmMax_le)
  rw [congrArg Regs.ilvOutlen hderived, ilvDerived_ilvOutlen]
  exact (toNat_ofNat_le _).trans ((outBufLen_mono _ _ hones).trans hout)

theorem IlvDescribed.inlen_le {s : State} (h : IlvDescribed s) : s.regs.ilvInlen.toNat ≤ s.par.iwCap := by
  obtain ⟨hcheck, hderived, -⟩ := h
  obtain ⟨-, -, hin, -⟩ := ilvCheck_eq_none hcheck
  rw [congrArg Regs.ilvInlen hderived, ilvDerived_ilvInlen]
  exact (toNat_ofNat_le _).trans hin

theorem PolarDescribed.sizes {s : State} (h : PolarDescribed s) :
    2 ^ log2 s.regs.pcN.toNat = s.regs.pcN.toNat ∧ s.regs.pcN.toNat ≤ 2 ^ s.par.lognMax ∧
      s.regs.pcM.toNat ≤ s.regs.pcN.toNat ∧ s.regs.pcK.toNat ≤ s.regs.pcM.toNat ∧
      s.regs.pcM.toNat % 8 = 0 := by
  obtain ⟨hpow, hsizes⟩ := pcCheck_eq_none h.1
  exact ⟨two_pow_log2 hpow, hsizes⟩

theorem RsDescribed.sizes {s : State} (h : RsDescribed s) : 1 ≤ s.regs.rsRp.toNat ∧
    s.regs.rsRn.toNat + s.regs.rsRp.toNat ≤ s.par.rbCap := by
  obtain ⟨-, -, -, -, hrp, -, hcap⟩ := rsCheck_eq_none h.1
  exact ⟨hrp, hcap⟩

/-! ## The effects of the commands -/

theorem effect_ilvConfigure {s : State} (hcheck : ilvCheck s.par s.regs.ilvK.toNat s.regs.ilvL.toNat
    s.regs.ilvPm s.regs.ilvBs.toNat = none) (good : Prop) :
    Effect .ilvCfg good s (ilvConfigure s) := by
  refine (effect_write (sp := .isch) (by decide) fun _ => ?_).trans (effect_withRegs
    (.trans ?_ (regsFrame_putValid (i := .ilvCfg) (e := .ilv) (by decide) _ _)) good)
  · obtain ⟨hk, hL, -, -⟩ := ilvCheck_eq_none hcheck
    rw [elemsOfWords, List.length_map, scheduleTable_length, Nat.zero_add]
    exact Nat.mul_le_mul_right _ (hk.trans hL)
  · refine regsFrame_of_read rfl rfl fun p r hr => ?_
    cases r <;> first | rfl | exact absurd (by decide) hr

theorem effect_ilvForward {s : State} (hv : s.regs.valid .ilv = true) :
    Effect .ilvFwd (Inv s) s (ilvForward s) := by
  refine OnlyDraws.effect_write ((gather_state _ _ _ s).trans (forwardBits_state _ _ _ _ _ _))
    (by decide) fun hinv => ?_
  have hout := (hinv.ilv hv).outlen_le hinv.params
  rw [Nat.zero_add]
  refine (packElems_length_le _).trans (le_trans ?_ hout)
  rw [List.length_take]
  omega

theorem effect_ilvReverse {s : State} (hv : s.regs.valid .ilv = true) :
    Effect .ilvRev (Inv s) s (ilvReverse s) := by
  refine OnlyDraws.effect_write ((gather_state _ _ _ s).trans (gather_state _ _ _ _))
    (by decide) fun hinv => ?_
  rw [elemsOfWords, List.length_map, reverseWords_length, Nat.zero_add]
  exact (hinv.ilv hv).inlen_le

theorem effect_pcConfigure {s : State} (hcheck : pcCheck s.par s.regs.pcN.toNat s.regs.pcM.toNat
    s.regs.pcK.toNat s.regs.pcSnr.toInt s.regs.pcLs.toNat = none) (good : Prop) :
    Effect .pcCfg good s (pcConfigure s) := by
  obtain ⟨hpow, hN, -⟩ := pcCheck_eq_none hcheck
  have hlen : (bhattacharyya (log2 s.regs.pcN.toNat) s.regs.pcSnr.toInt).length ≤ 2 ^ s.par.lognMax := by
    rw [bhattacharyya_length, two_pow_log2 hpow]
    exact hN
  refine (effect_write (sp := .bhat) (by decide) fun _ => ?_).trans
    ((effect_write (sp := .didx) (by decide) fun _ => ?_).trans
      ((effect_write (sp := .tree) (by decide) fun _ => ?_).trans (effect_withRegs
        (.trans ?_ (regsFrame_putValid (i := .pcCfg) (e := .polar) (by decide) _ _)) good)))
  · rw [List.length_map, Nat.zero_add]
    exact hlen
  · rw [List.length_map, Nat.zero_add]
    exact (selectIndices_length_le _ _ _).trans hlen
  · rw [List.length_map, Nat.zero_add]
    refine (buildTree_length_lt _ _ _).le.trans ?_
    rw [Nat.pow_succ, two_pow_log2 hpow]
    exact Nat.mul_le_mul_right 2 hN
  · refine regsFrame_of_read rfl rfl fun p r hr => ?_
    cases r <;> first | rfl | exact absurd (by decide) hr

theorem effect_polarEncode {s : State} (hv : s.regs.valid .polar = true) :
    Effect .penc (Inv s) s (polarEncode s) := by
  refine OnlyDraws.effect_write ((gather_state _ _ _ s).trans (gather_state _ _ _ _))
    (by decide) fun hinv => ?_
  obtain ⟨-, hN, hM, -⟩ := (hinv.polar hv).sizes
  rw [Nat.zero_add]
  refine (packElems_length_le _).trans (Nat.div_le_div_right ?_)
  exact (List.length_take_le ..).trans (hM.trans hN)

theorem expandReceived_length {s : State} (h : PolarDescribed s) :
    (expandReceived s).1.length = s.regs.pcN.toNat := by
  obtain ⟨-, -, hM, -, hdvd⟩ := h.sizes
  refine loadedLlrs_length hM ?_
  rw [unpackElems_length, gather_length]
  omega

theorem effect_pdecLoad {s : State} (hv : s.regs.valid .polar = true) :
    Effect .pdecLoad (Inv s) s ((expandReceived s).2.write .llr 0 (expandReceived s).1) := by
  refine (expandReceived_state s).effect_write (by decide) fun hinv => ?_
  obtain ⟨-, hN, -⟩ := (hinv.polar hv).sizes
  rw [Nat.zero_add]
  exact (expandReceived_length (hinv.polar hv)).trans_le hN

theorem effect_writeDecision {i : Instr} {good : Prop} {s : State} {β : List Bool}
    (hbeta : .beta ∈ writesSpaces i) (hdout : .dout ∈ writesSpaces i)
    (hβ : good → β.length ≤ 2 ^ s.par.lognMax) (hK : good → s.regs.pcK.toNat ≤ 2 ^ s.par.lognMax) :
    Effect i good s (writeDecision β s) := by
  refine (OnlyDraws.effect_write (gather_state _ _ _ s) hbeta fun hg => ?_).trans
    (effect_write hdout fun hg => ?_)
  · rw [List.length_map, Nat.zero_add]
    exact hβ hg
  · rw [Nat.zero_add, State.write_par, gather_par]
    refine (packElems_length_le _).trans (Nat.div_le_div_right ?_)
    rw [List.length_map, indicesOfElems, List.length_map, gather_length]
    exact hK hg

theorem effect_rsConfigure {s : State} (hcheck : rsCheck s.par s.regs.rsGm.toNat s.regs.rsPrim.toNat
    s.regs.rsRp.toNat s.regs.rsRn.toNat = none) (good : Prop) :
    Effect .rsCfg good s (rsConfigure s) := by
  obtain ⟨hgm, -, -, -, -, hrn, hcap⟩ := rsCheck_eq_none hcheck
  have hq : 2 ^ s.regs.rsGm.toNat ≤ 2 ^ s.par.gmMax := Nat.pow_le_pow_right (by decide) hgm
  refine (effect_write (sp := .galog) (by decide) fun _ => ?_).trans
    ((effect_write (sp := .glog) (by decide) fun _ => ?_).trans
      ((effect_write (sp := .gen) (by decide) fun _ => ?_).trans
        (effect_withRegs (regsFrame_putValid (e := .rs) (by decide) _ _) good)))
  · rw [elemsOfSymbols, List.length_map, Nat.zero_add]
    exact (xtimeChain_length _ _ _ _).trans_le (Nat.mul_le_mul_left 2 hq)
  · rw [elemsOfSymbols, List.length_map, Nat.zero_add]
    exact (glogTable_length _ _).trans_le hq
  · rw [elemsOfSymbols, List.length_map, Nat.zero_add, generatorPoly_length]
    change s.regs.rsRp.toNat + 1 ≤ s.par.rbCap
    omega

theorem effect_rsEncode {s : State} (hv : s.regs.valid .rs = true) :
    Effect .rsEnc (Inv s) s (rsEncode s) := by
  obtain ⟨u, rem, hu, hlen, heq⟩ := rsEncode_state s
  rw [heq]
  refine hu.effect_write (by decide) fun hinv => ?_
  rw [elemsOfSymbols, List.length_map, hlen]
  exact (hinv.rs hv).sizes.2

theorem effect_writeSyndromes {i : Instr} {s : State} (hv : s.regs.valid .rs = true)
    (hsyn : .syn ∈ writesSpaces i) (hmax : .rsMaxsyn ∈ writesRegs i) (hzero : WritesBit i rsZeroBit) :
    Effect i (Inv s) s (writeSyndromes s) := by
  obtain ⟨u, hu, heq⟩ := writeSyndromes_state s
  rw [heq]
  refine (hu.effect_write hsyn fun hinv => ?_).trans (effect_withRegs (.trans ?_
    (regsFrame_putRsZero hzero _ _)) _)
  · rw [elemsOfSymbols, List.length_map, readSyndromes_length, Nat.zero_add]
    exact le_trans (Nat.le_add_left _ _) (hinv.rs hv).sizes.2
  · rw [State.write_regs, hu.regs]
    refine regsFrame_of_read rfl rfl fun p r hr => ?_
    cases r <;> first | rfl | exact absurd hmax hr

theorem effect_writeDecstat (good : Prop) (s : State) : Effect .rsDec good s (writeDecstat s) :=
  effect_withRegs (g := { s.regs with rsDecstat := if s.regs.rsMaxsyn = 0 then 0 else 1 })
    (regsFrame_of_read rfl rfl fun p r hr => by
      cases r <;> first | rfl | exact absurd (by decide) hr) good

/-! ## The guards -/

/-- `r` stops the model or hands on a state that the command `i` may leave behind `s`. -/
def HasEffect (i : Instr) (good : Prop) (s : State) (r : Result) : Prop :=
  ∀ t, r = .next t → Effect i good s t

theorem Effect.next {i : Instr} {good : Prop} {s t : State} (h : Effect i good s t) :
    HasEffect i good s (.next t) := fun _ ht => Host.Outcome.next.inj ht ▸ h

theorem hasEffect_commandFault {i : Instr} (hi : WritesBit i faultedBit) (good : Prop) (c : Cause)
    (sub : Byte) (s : State) : HasEffect i good s (commandFault i c sub s) :=
  (effect_raiseFault hi good c sub _ s).next

theorem hasEffect_whenConfigured {e : Engine} {i : Instr} {good : Prop} {s : State}
    {run : State → Result} (hi : WritesBit i faultedBit)
    (hrun : s.regs.valid e = true → HasEffect i good s (run s)) :
    HasEffect i good s (whenConfigured e i s run) := by
  intro t h
  obtain ⟨hv, ht⟩ | ⟨-, rfl⟩ := whenConfigured_next h
  · exact hrun hv t ht
  · exact effect_raiseFault hi good _ _ _ s

theorem hasEffect_whenLegal {o : Option Byte} {i : Instr} {good : Prop} {c : Cause} {s : State}
    {run : State → Result} (hi : WritesBit i faultedBit) (hrun : o = none → HasEffect i good s (run s)) :
    HasEffect i good s (whenLegal o i c s run) := by
  intro t h
  obtain ⟨ho, ht⟩ | ⟨sub, -, rfl⟩ := whenLegal_next h
  · exact hrun ho t ht
  · exact effect_raiseFault hi good _ _ _ s

theorem hasEffect_whenSymbols {i : Instr} {n : Nat} {s : State} {run : State → Result}
    (hi : WritesBit i faultedBit) (hv : s.regs.valid .rs = true)
    (hrun : ∀ u, u.regs.valid .rs = true → HasEffect i (Inv u) u (run u)) :
    HasEffect i (Inv s) s (whenSymbols i n s run) := by
  intro t h
  have hread := readSymbols_state n s
  obtain ⟨-, ht⟩ | ⟨-, rfl⟩ := whenSymbols_next h
  · exact .after_reads hread (hrun _ (hread.regs ▸ hv) t ht)
  · exact .after_reads hread (effect_raiseFault hi _ _ _ _ _)

theorem hasEffect_decodeRoot {i : Instr} {good : Prop} {α : List Int} {s : State}
    {run : List Bool → State → Result} (hi : WritesBit i faultedBit)
    (hrun : ∀ β u, OnlyDraws s u →
      (α.length = 2 ^ log2 s.regs.pcN.toNat → β.length = 2 ^ log2 s.regs.pcN.toNat) →
      HasEffect i good u (run β u)) :
    HasEffect i good s (decodeRoot i α s run) := by
  intro t h
  have htree := gather_state .tree 0 s.regs.pcNnodes.toNat s
  obtain rfl | rfl | ⟨recs, β, rest, -, hdec, ht⟩ := decodeRoot_next h
  · exact effect_raiseFault hi good _ _ _ s
  · exact (htree.effect i good).trans (effect_raiseFault hi good _ _ _ _)
  · exact (htree.effect i good).trans (hrun β _ htree (fun hα => decTree_length hα hdec) t ht)

/-! ## The commands -/

theorem hasEffect_execIlvCfg (s : State) : HasEffect .ilvCfg (Inv s) s (execIlvCfg s) :=
  hasEffect_whenLegal (by decide) fun ho => (effect_ilvConfigure ho _).next

theorem hasEffect_execIlvFwd (s : State) : HasEffect .ilvFwd (Inv s) s (execIlvFwd s) :=
  hasEffect_whenConfigured (by decide) fun hv => (effect_ilvForward hv).next

theorem hasEffect_execIlvRev (s : State) : HasEffect .ilvRev (Inv s) s (execIlvRev s) :=
  hasEffect_whenConfigured (by decide) fun hv => (effect_ilvReverse hv).next

theorem hasEffect_execPcCfg (s : State) : HasEffect .pcCfg (Inv s) s (execPcCfg s) :=
  hasEffect_whenLegal (by decide) fun ho => (effect_pcConfigure ho _).next

theorem hasEffect_execPenc (s : State) : HasEffect .penc (Inv s) s (execPenc s) :=
  hasEffect_whenConfigured (by decide) fun hv => (effect_polarEncode hv).next

theorem hasEffect_execPdecLoad (s : State) : HasEffect .pdecLoad (Inv s) s (execPdecLoad s) :=
  hasEffect_whenConfigured (by decide) fun hv => (effect_pdecLoad hv).next

theorem hasEffect_execPdecRun (s : State) : HasEffect .pdecRun (Inv s) s (execPdecRun s) := by
  refine hasEffect_whenConfigured (by decide) fun hv t ht => ?_
  have hllr := gather_state .llr 0 s.regs.pcN.toNat s
  refine (hllr.effect _ _).trans (hasEffect_decodeRoot (by decide) (fun β u hu hβ =>
    (effect_writeDecision (by decide) (by decide) (fun hinv => ?_) (fun hinv => ?_)).next) t ht)
  · obtain ⟨hpow, hN, -⟩ := (hinv.polar hv).sizes
    rw [hllr.regs] at hβ
    rw [hβ (by simpa using hpow.symm), hpow, hu.par, hllr.par]
    exact hN
  · obtain ⟨-, hN, hM, hK, -⟩ := (hinv.polar hv).sizes
    rw [hu.regs, hu.par, hllr.regs, hllr.par]
    exact hK.trans (hM.trans hN)

theorem hasEffect_execPdec (s : State) : HasEffect .pdec (Inv s) s (execPdec s) := by
  refine hasEffect_whenConfigured (by decide) fun hv t ht => ?_
  have hdi := expandReceived_state s
  refine (hdi.effect _ _).trans (hasEffect_decodeRoot (by decide) (fun β u hu hβ =>
    ((effect_write (by decide) fun hinv => ?_).trans (effect_writeDecision (by decide) (by decide)
      (fun hinv => ?_) (fun hinv => ?_))).next) t ht)
  · obtain ⟨-, hN, -⟩ := (hinv.polar hv).sizes
    rw [hu.par, hdi.par, Nat.zero_add]
    exact (expandReceived_length (hinv.polar hv)).trans_le hN
  · obtain ⟨hpow, hN, -⟩ := (hinv.polar hv).sizes
    rw [hdi.regs] at hβ
    rw [hβ (by rw [List.length_map, expandReceived_length (hinv.polar hv), hpow]), hpow,
      State.write_par, hu.par, hdi.par]
    exact hN
  · obtain ⟨-, hN, hM, hK, -⟩ := (hinv.polar hv).sizes
    rw [State.write_regs, State.write_par, hu.regs, hu.par, hdi.regs, hdi.par]
    exact hK.trans (hM.trans hN)

theorem hasEffect_execRsCfg (s : State) : HasEffect .rsCfg (Inv s) s (execRsCfg s) :=
  hasEffect_whenLegal (by decide) fun ho => (effect_rsConfigure ho _).next

theorem hasEffect_execGfMul (s : State) : HasEffect .gfMul (Inv s) s (execGfMul s) := by
  refine hasEffect_whenConfigured (by decide) fun _ => ?_
  dsimp only
  split
  · exact hasEffect_commandFault (by decide) _ _ _ s
  · refine (((multiplyFromTables_state _ _ s).effect .gfMul _).trans
      (effect_withRegs ?_ _)).next
    refine regsFrame_of_read rfl rfl fun p r hr => ?_
    cases r <;> first | rfl | exact absurd (by decide) hr

theorem hasEffect_execRsEnc (s : State) : HasEffect .rsEnc (Inv s) s (execRsEnc s) :=
  hasEffect_whenConfigured (by decide) fun hv =>
    hasEffect_whenSymbols (by decide) hv fun _ hu => (effect_rsEncode hu).next

theorem hasEffect_execRsCheck (s : State) : HasEffect .rsCheck (Inv s) s (execRsCheck s) :=
  hasEffect_whenConfigured (by decide) fun hv => hasEffect_whenSymbols (by decide) hv
    fun _ hu => (effect_writeSyndromes hu (by decide) (by decide) (by decide)).next

theorem hasEffect_execRsDec (s : State) : HasEffect .rsDec (Inv s) s (execRsDec s) :=
  hasEffect_whenConfigured (by decide) fun hv => hasEffect_whenSymbols (by decide) hv
    fun _ hu => ((effect_writeSyndromes hu (by decide) (by decide) (by decide)).trans
      (effect_writeDecstat _ _)).next

/-- What any command but SRESET does. -/
theorem exec_effect {i : Instr} {s t : State} (hi : i ≠ .sreset) (h : exec i s = .next t) :
    Effect i (Inv s) s t := by
  suffices hs : HasEffect i (Inv s) s (exec i s) from hs t h
  cases i with
  | nop => exact ((OnlyDraws.refl s).effect .nop _).next
  | sreset => exact absurd rfl hi
  | ilvCfg => exact hasEffect_execIlvCfg s
  | ilvFwd => exact hasEffect_execIlvFwd s
  | ilvRev => exact hasEffect_execIlvRev s
  | pcCfg => exact hasEffect_execPcCfg s
  | penc => exact hasEffect_execPenc s
  | pdecLoad => exact hasEffect_execPdecLoad s
  | pdecRun => exact hasEffect_execPdecRun s
  | pdec => exact hasEffect_execPdec s
  | rsCfg => exact hasEffect_execRsCfg s
  | gfMul => exact hasEffect_execGfMul s
  | rsEnc => exact hasEffect_execRsEnc s
  | rsCheck => exact hasEffect_execRsCheck s
  | rsDec => exact hasEffect_execRsDec s

/-- Settles O19: the frame of the command's effect. -/
theorem commandsWriteOnlyTheirOwn : Obligations.CommandsWriteOnlyTheirOwn := by
  intro i s t hi h
  obtain ⟨hport, helems, hregs, -⟩ := exec_effect hi h
  refine ⟨hport, helems, fun r hr hstatus hfault => ?_, hregs.status⟩
  rw [hport.1]
  exact hregs.others s.par r hr hstatus hfault

/-! ## Values that fit their element -/

theorem truncTo_of_lt {w : Nat} {v : Word64} (h : v.toNat < 2 ^ w) : truncTo w v = v := by
  rw [truncTo_eq_ofNat, Nat.mod_eq_of_lt h, BitVec.ofNat_toNat, BitVec.setWidth_eq]

theorem truncTo_ofNat {w x : Nat} (h : x < 2 ^ w) : truncTo w (BitVec.ofNat 64 x) = BitVec.ofNat 64 x :=
  truncTo_of_lt ((toNat_ofNat_le x).trans_lt h)

theorem truncTo_64 (v : Word64) : truncTo 64 v = v := truncTo_of_lt v.isLt

theorem truncTo_word {B : Nat} (w : Word B) : truncTo B (w.setWidth 64) = w.setWidth 64 := by
  refine truncTo_of_lt ?_
  rw [BitVec.toNat_setWidth]
  exact (Nat.mod_le _ _).trans_lt w.isLt

theorem truncTo_elemsOfSymbols {xs : List Nat} (h : ∀ x ∈ xs, x < 2 ^ 8) :
    ∀ v ∈ elemsOfSymbols xs, truncTo 8 v = v := by
  intro v hv
  obtain ⟨x, hx, rfl⟩ := List.mem_map.1 hv
  exact truncTo_ofNat (h x hx)

/-- A write to another space leaves what a space holds. -/
theorem holds_write_ne {s : State} {sp sp' : Space} {lo lo' : Nat} {vs vs' : List Word64}
    (h : sp' ≠ sp) (hs : s.holds sp' lo' vs') : (s.write sp lo vs).holds sp' lo' vs' :=
  holds_congr (fun i => sameElemsBut_write s sp lo vs sp' i fun hin => h hin.1) hs

/-! ## The tables of the field hold field elements (45_gf_rs.md R273, R274, R276) -/

/-- Multiplying by x stays below q: PRIM has degree gm, so the reduction clears bit gm. -/
theorem xtime_lt {gm prim a : Nat} (hprim : prim < 2 ^ (gm + 1)) (htop : prim.testBit gm = true)
    (ha : a < 2 ^ gm) : xtime (2 ^ gm) prim a < 2 ^ gm := by
  have hshift : a <<< 1 < 2 ^ (gm + 1) := by
    rw [Nat.shiftLeft_eq, Nat.pow_succ 2 gm]
    omega
  have below : ∀ {x : Nat}, x < 2 ^ (gm + 1) → x.testBit gm = false → x < 2 ^ gm := by
    intro x hx hbit
    by_contra hge
    have := Nat.testBit_of_two_pow_le_and_two_pow_add_one_gt (Nat.le_of_not_lt hge) hx
    exact absurd (hbit.symm.trans this) (by decide)
  unfold xtime
  dsimp only
  cases hbit : (a <<< 1).testBit gm with
  | false =>
    rw [if_neg (by rw [Nat.and_two_pow, hbit]; simp)]
    exact below hshift hbit
  | true =>
    rw [if_pos (by rw [Nat.and_two_pow, hbit]; simp)]
    exact below (Nat.xor_lt_two_pow hshift hprim) (by rw [Nat.testBit_xor, hbit, htop]; rfl)

theorem lt_of_mem_xtimeChain {gm prim n a x : Nat} (hprim : prim < 2 ^ (gm + 1))
    (htop : prim.testBit gm = true) (ha : a < 2 ^ gm) (hx : x ∈ xtimeChain (2 ^ gm) prim n a) :
    x < 2 ^ gm := by
  induction n generalizing a with
  | zero => exact absurd hx List.not_mem_nil
  | succ n ih =>
    obtain rfl | hx := List.mem_cons.1 hx
    · exact ha
    · exact ih (xtime_lt hprim htop ha) hx

theorem lt_of_mem_glogTable {q x : Nat} {galog : List Nat} (hq : 0 < q) (hx : x ∈ glogTable q galog) :
    x < q := by
  refine List.foldlRecOn (motive := fun t : List Nat => ∀ x ∈ t, x < q) _ _ (fun y hy => ?_)
    (fun t ht i hi y hy => ?_) x hx
  · rw [List.eq_of_mem_replicate hy]
    exact hq
  · obtain hy | rfl := List.mem_or_eq_of_mem_set hy
    · exact ht y hy
    · rw [List.mem_range'_1] at hi
      omega

theorem getD_lt {q : Nat} {l : List Nat} (hq : 0 < q) (h : ∀ x ∈ l, x < q) (i : Nat) :
    l.getD i 0 < q := by
  rw [List.getD_eq_getElem?_getD]
  cases hi : l[i]? with
  | none => exact hq
  | some x => exact h x (List.mem_of_getElem? hi)

theorem gfMultiply_lt {q : Nat} {t : GfTables} (hq : 0 < q) (ht : ∀ x ∈ t.antilog, x < q) (a b : Nat) :
    gfMultiply t a b < q := by
  unfold gfMultiply
  split
  · exact hq
  · exact getD_lt hq ht _

theorem zipWith_xor_lt {gm : Nat} {l l' : List Nat} (h : ∀ x ∈ l, x < 2 ^ gm) (h' : ∀ x ∈ l', x < 2 ^ gm) :
    ∀ x ∈ List.zipWith (· ^^^ ·) l l', x < 2 ^ gm := by
  intro x hx
  obtain ⟨i, hi, rfl⟩ := List.mem_iff_getElem.1 hx
  rw [List.getElem_zipWith]
  exact Nat.xor_lt_two_pow (h _ (List.getElem_mem _)) (h' _ (List.getElem_mem _))

theorem timesLinear_lt {gm : Nat} {t : GfTables} (ht : ∀ x ∈ t.antilog, x < 2 ^ gm) {g : List Nat}
    (hg : ∀ x ∈ g, x < 2 ^ gm) (r : Nat) : ∀ x ∈ timesLinear t g r, x < 2 ^ gm := by
  have hpos := Nat.two_pow_pos gm
  refine zipWith_xor_lt (fun x hx => ?_) (fun x hx => ?_)
  · obtain hx | hx := List.mem_append.1 hx
    · exact hg x hx
    · rw [List.mem_singleton.1 hx]
      exact hpos
  · obtain rfl | hx := List.mem_cons.1 hx
    · exact hpos
    · obtain ⟨c, -, rfl⟩ := List.mem_map.1 hx
      exact gfMultiply_lt hpos ht c r

theorem generatorPoly_lt {gm : Nat} (hgm : 1 ≤ gm) {t : GfTables} (ht : ∀ x ∈ t.antilog, x < 2 ^ gm)
    (rp : Nat) : ∀ x ∈ generatorPoly t rp, x < 2 ^ gm := by
  refine List.foldlRecOn (motive := fun g : List Nat => ∀ x ∈ g, x < 2 ^ gm) _ _ (fun x hx => ?_)
    (fun g hg i _ => timesLinear_lt ht hg _)
  rw [List.mem_singleton.1 hx]
  exact Nat.one_lt_two_pow (by omega)

/-! ## A configuration command describes its parameters (10_state.md R25) -/

theorem ilvDescribed_ilvConfigure {s : State} (hcheck : ilvCheck s.par s.regs.ilvK.toNat
    s.regs.ilvL.toNat s.regs.ilvPm s.regs.ilvBs.toNat = none) : IlvDescribed (ilvConfigure s) := by
  refine ⟨hcheck, rfl, holds_write s .isch 0 _ fun v hv => ?_⟩
  obtain ⟨w, -, rfl⟩ := List.mem_map.1 hv
  exact truncTo_word w

theorem polarDescribed_pcConfigure {s : State} (hpar : s.par.wf = true)
    (hcheck : pcCheck s.par s.regs.pcN.toNat s.regs.pcM.toNat s.regs.pcK.toNat s.regs.pcSnr.toInt
      s.regs.pcLs.toNat = none) : PolarDescribed (pcConfigure s) := by
  refine ⟨hcheck, rfl, rfl, rfl, ?_, ?_, ?_⟩
  · exact holds_write_ne (by decide) (holds_write_ne (by decide)
      (holds_write s .bhat 0 _ fun v _ => truncTo_64 v))
  · refine holds_write_ne (by decide) (holds_write _ .didx 0 _ fun v hv => ?_)
    obtain ⟨d, hd, rfl⟩ := List.mem_map.1 hv
    have hlt := lt_of_mem_selectIndices hd
    obtain ⟨hpow, hN, -⟩ := pcCheck_eq_none hcheck
    rw [bhattacharyya_length, two_pow_log2 hpow] at hlt
    refine truncTo_ofNat (hlt.trans_le (hN.trans ?_))
    exact Nat.pow_le_pow_right (by decide) (legalParams_of_wf hpar).lognMax_le
  · exact holds_write _ .tree 0 _ fun v _ => truncTo_64 v

theorem rsDescribed_rsConfigure {s : State} (hpar : s.par.wf = true)
    (hcheck : rsCheck s.par s.regs.rsGm.toNat s.regs.rsPrim.toNat s.regs.rsRp.toNat
      s.regs.rsRn.toNat = none) : RsDescribed (rsConfigure s) := by
  obtain ⟨hgm, hprim, htop, hpos, -⟩ := rsCheck_eq_none hcheck
  have hq : 2 ^ s.regs.rsGm.toNat ≤ 2 ^ 8 :=
    Nat.pow_le_pow_right (by decide) (hgm.trans (legalParams_of_wf hpar).gmMax_le)
  have hantilog : ∀ x ∈ (rsTables s.regs).antilog, x < 2 ^ s.regs.rsGm.toNat := fun x hx =>
    lt_of_mem_xtimeChain hprim htop (Nat.one_lt_two_pow (by omega)) hx
  refine ⟨hcheck, ?_, ?_, ?_⟩
  · refine holds_write_ne (by decide) (holds_write_ne (by decide)
      (holds_write s .galog 0 _ (truncTo_elemsOfSymbols fun x hx => ?_)))
    exact (hantilog x hx).trans_le hq
  · refine holds_write_ne (by decide) (holds_write _ .glog 0 _ (truncTo_elemsOfSymbols fun x hx => ?_))
    exact (lt_of_mem_glogTable (Nat.two_pow_pos _) hx).trans_le hq
  · refine holds_write _ .gen 0 _ (truncTo_elemsOfSymbols fun x hx => ?_)
    exact (generatorPoly_lt hpos hantilog _ x hx).trans_le hq

/-! ## What an engine's description rests on -/

/-- A set VALID bit of the engine stands for this (10_state.md R25). -/
def Described : Engine → State → Prop
  | .ilv => IlvDescribed
  | .polar => PolarDescribed
  | .rs => RsDescribed

/-- The parameter registers and the derived registers of an engine. -/
def Engine.regs : Engine → List Reg
  | .ilv => [.ilvK, .ilvL, .ilvPm, .ilvBs, .ilvC, .ilvOnes, .ilvNin, .ilvNout, .ilvNiter, .ilvInlen,
      .ilvOutlen]
  | .polar => [.pcN, .pcM, .pcK, .pcSnr, .pcLs, .pcLogn, .pcInitshort, .pcNnodes]
  | .rs => [.rsGm, .rsPrim, .rsRp, .rsRn]

/-- The tables of an engine. -/
def Engine.tables : Engine → List Space
  | .ilv => [.isch]
  | .polar => [.bhat, .didx, .tree]
  | .rs => [.galog, .glog, .gen]

/-- The command that configures an engine. -/
def Engine.cfg : Engine → Instr
  | .ilv => .ilvCfg
  | .polar => .pcCfg
  | .rs => .rsCfg

/-- The registers and tables of the engine are the same. -/
structure SameEngine (e : Engine) (s t : State) : Prop where
  par : t.par = s.par
  regs : ∀ r ∈ e.regs, r.read t.par t.regs = r.read s.par s.regs
  tables : ∀ sp ∈ e.tables, ∀ i, t.elem? sp i = s.elem? sp i

/-- The seven derived registers, one equation each. -/
theorem eq_ilvDerived_iff (g : Regs) (B k L : Nat) (pm : Word64) (bs : Nat) :
    g = ilvDerived g B k L pm bs ↔
      g.ilvC = BitVec.ofNat 64 (L / k) ∧ g.ilvOnes = BitVec.ofNat 64 (pmOnes pm L) ∧
        g.ilvNin = BitVec.ofNat 64 (L / k) ∧ g.ilvNout = BitVec.ofNat 64 (pmOnes pm L) ∧
        g.ilvNiter = BitVec.ofNat 64 (ceilDiv (8 * bs) (L / k)) ∧
        g.ilvInlen = BitVec.ofNat 64 (inBufLen B k bs) ∧
        g.ilvOutlen = BitVec.ofNat 64 (outBufLen bs (pmOnes pm L) (L / k)) := by
  constructor
  · intro h
    exact ⟨congrArg Regs.ilvC h, congrArg Regs.ilvOnes h, congrArg Regs.ilvNin h,
      congrArg Regs.ilvNout h, congrArg Regs.ilvNiter h, congrArg Regs.ilvInlen h,
      congrArg Regs.ilvOutlen h⟩
  · rintro ⟨hc, hones, hnin, hnout, hniter, hinlen, houtlen⟩
    cases g
    dsimp only at hc hones hnin hnout hniter hinlen houtlen
    subst hc hones hnin hnout hniter hinlen houtlen
    rfl

/-- Where an engine's registers and tables are the same, its description is. -/
theorem Described.congr {e : Engine} {s t : State} (h : SameEngine e s t) (hs : Described e s) :
    Described e t := by
  obtain ⟨hpar, hregs, htables⟩ := h
  cases e with
  | ilv =>
    obtain ⟨hcheck, hderived, hisch⟩ := hs
    have hK : t.regs.ilvK = s.regs.ilvK := hregs .ilvK (by decide)
    have hL : t.regs.ilvL = s.regs.ilvL := hregs .ilvL (by decide)
    have hPm : t.regs.ilvPm = s.regs.ilvPm := hregs .ilvPm (by decide)
    have hBs : t.regs.ilvBs = s.regs.ilvBs := hregs .ilvBs (by decide)
    obtain ⟨hc, hones, hnin, hnout, hniter, hinlen, houtlen⟩ := (eq_ilvDerived_iff ..).1 hderived
    refine ⟨?_, (eq_ilvDerived_iff ..).2 ?_, ?_⟩
    · rw [hpar, hK, hL, hPm, hBs]
      exact hcheck
    · rw [hpar, hK, hL, hPm, hBs]
      exact ⟨(hregs .ilvC (by decide)).trans hc, (hregs .ilvOnes (by decide)).trans hones,
        (hregs .ilvNin (by decide)).trans hnin, (hregs .ilvNout (by decide)).trans hnout,
        (hregs .ilvNiter (by decide)).trans hniter, (hregs .ilvInlen (by decide)).trans hinlen,
        (hregs .ilvOutlen (by decide)).trans houtlen⟩
    · rw [hpar, hK, hL, hPm]
      exact holds_congr (htables .isch (by decide)) hisch
  | polar =>
    obtain ⟨hcheck, hlogn, hinitshort, hnnodes, hbhat, hdidx, htree⟩ := hs
    have hN : t.regs.pcN = s.regs.pcN := hregs .pcN (by decide)
    have hM : t.regs.pcM = s.regs.pcM := hregs .pcM (by decide)
    have hK : t.regs.pcK = s.regs.pcK := hregs .pcK (by decide)
    have hSnr : t.regs.pcSnr = s.regs.pcSnr := hregs .pcSnr (by decide)
    have hLs : t.regs.pcLs = s.regs.pcLs := hregs .pcLs (by decide)
    have hscores : polarScores t.regs = polarScores s.regs := by rw [polarScores, hN, hSnr]; rfl
    have hindices : polarIndices t.regs = polarIndices s.regs := by
      rw [polarIndices, hscores, hM, hK]; rfl
    have hrecords : polarRecords t.regs = polarRecords s.regs := by
      rw [polarRecords, hindices, hN]; rfl
    refine ⟨?_, ?_, ?_, ?_, ?_, ?_, ?_⟩
    · rw [hpar, hN, hM, hK, hSnr, hLs]
      exact hcheck
    · rw [hN]
      exact (hregs .pcLogn (by decide)).trans hlogn
    · rw [hpar, hN]
      exact (hregs .pcInitshort (by decide)).trans hinitshort
    · rw [hrecords]
      exact (hregs .pcNnodes (by decide)).trans hnnodes
    · rw [hscores]
      exact holds_congr (htables .bhat (by decide)) hbhat
    · rw [hindices]
      exact holds_congr (htables .didx (by decide)) hdidx
    · rw [hrecords]
      exact holds_congr (htables .tree (by decide)) htree
  | rs =>
    obtain ⟨hcheck, hgalog, hglog, hgen⟩ := hs
    have hGm : t.regs.rsGm = s.regs.rsGm := hregs .rsGm (by decide)
    have hPrim : t.regs.rsPrim = s.regs.rsPrim := hregs .rsPrim (by decide)
    have hRp : t.regs.rsRp = s.regs.rsRp := hregs .rsRp (by decide)
    have hRn : t.regs.rsRn = s.regs.rsRn := hregs .rsRn (by decide)
    have hfield : rsTables t.regs = rsTables s.regs := by rw [rsTables, hGm, hPrim]; rfl
    refine ⟨?_, ?_, ?_, ?_⟩
    · rw [hpar, hGm, hPrim, hRp, hRn]
      exact hcheck
    · rw [hfield]
      exact holds_congr (htables .galog (by decide)) hgalog
    · rw [hfield]
      exact holds_congr (htables .glog (by decide)) hglog
    · rw [hfield, hRp]
      exact holds_congr (htables .gen (by decide)) hgen

/-! ## The invariant, engine by engine -/

theorem Inv.described {s : State} (h : Inv s) {e : Engine} (hv : s.regs.valid e = true) :
    Described e s := by
  cases e with
  | ilv => exact h.ilv hv
  | polar => exact h.polar hv
  | rs => exact h.rs hv

theorem Inv.storeGood {s : State} (h : Inv s) : StoreGood s := ⟨h.canonical, h.fits⟩

theorem StoreGood.withRegs {s : State} (h : StoreGood s) (g : Regs) : StoreGood (s.withRegs g) :=
  .congr (s := s) rfl rfl h

theorem Inv.of_described {s : State} (hpar : s.par.wf = true) (hstore : StoreGood s)
    (hstatus : StatusLegal s.regs) (hdesc : ∀ e, s.regs.valid e = true → Described e s) : Inv s :=
  { params := hpar
    canonical := hstore.canonical
    fits := hstore.fits
    status := hstatus
    ilv := hdesc .ilv
    polar := hdesc .polar
    rs := hdesc .rs }

/-- The reserved bits of STATUS (10_state.md R25). -/
def reservedBits : Word64 := 0xFFFFFFFFFFFFFF68

theorem statusLegal_iff (g : Regs) :
    StatusLegal g ↔ g.status &&& reservedBits = 0 ∧ FaultLegal g := Iff.rfl

/-- The registers of an engine are neither STATUS nor FAULT. -/
theorem Engine.regs_ne {e : Engine} {r : Reg} (h : r ∈ e.regs) : r ≠ .status ∧ r ≠ .fault := by
  cases e <;> revert r <;> decide

/-- The invariant is kept where memory stays good, STATUS and FAULT stay legal, and every VALID bit set
afterwards was set before, with its engine's registers and tables the same. -/
theorem Inv.of_sameEngines {s t : State} (h : Inv s) (hpar : t.par = s.par) (hstore : StoreGood t)
    (hstatus : StatusLegal t.regs)
    (hengine : ∀ e, t.regs.valid e = true → s.regs.valid e = true ∧ SameEngine e s t) : Inv t :=
  .of_described (hpar ▸ h.params) hstore hstatus fun e hv => by
    obtain ⟨hvs, hsame⟩ := hengine e hv
    exact (h.described hvs).congr hsame

/-! ## Faults, resets and register writes keep the invariant -/

theorem valid_recordFault (g : Regs) (c : Cause) (sub op : Byte) (e : Engine) :
    (g.recordFault c sub op).valid e = g.valid e := by
  unfold Regs.recordFault
  split
  · rfl
  · refine (putBit_getLsbD _ _ _ _ e.validBit_lt).trans (if_neg ?_)
    cases e <;> decide

theorem reserved_recordFault (g : Regs) (c : Cause) (sub op : Byte) :
    (g.recordFault c sub op).status &&& reservedBits = g.status &&& reservedBits := by
  unfold Regs.recordFault
  split
  · rfl
  · exact putBit_and true (by decide)

theorem sameEngine_raiseFault (e : Engine) (c : Cause) (sub op : Byte) (s : State) :
    SameEngine e s (raiseFault c sub op s) :=
  ⟨rfl, fun _ hr => read_recordFault (Engine.regs_ne hr).1 (Engine.regs_ne hr).2 _ _ _ _ _,
    fun _ _ _ => rfl⟩

theorem Inv.raiseFault {s : State} (h : Inv s) (c : Cause) (sub op : Byte) :
    Inv (raiseFault c sub op s) := by
  obtain ⟨hreserved, hfault⟩ := (statusLegal_iff _).1 h.status
  exact h.of_sameEngines rfl (h.storeGood.withRegs _)
    ((statusLegal_iff _).2 ⟨(reserved_recordFault ..).trans hreserved, hfault.recordFault ..⟩)
    fun e hv => ⟨(valid_recordFault ..).symm.trans hv, sameEngine_raiseFault e c sub op s⟩

theorem elementsFit_unspecified {s : State} (h : s.mem = Memory.unspecified) : ElementsFit s := by
  intro sp x hx
  rw [h] at hx
  exact absurd hx (by cases sp <;> exact List.not_mem_nil)

theorem statusLegal_reset : StatusLegal Regs.reset := ⟨by decide, by decide, by decide⟩

theorem valid_reset (e : Engine) : ¬Regs.reset.valid e = true := by cases e <;> decide

/-- After a reset nothing is written and no VALID bit is set (70_reset_and_hazards.md R371). -/
theorem Inv.resetBlock {s : State} (h : Inv s) : Inv (resetBlock s) :=
  .of_described h.params ⟨Memory.unspecified_wf, elementsFit_unspecified rfl⟩
    statusLegal_reset fun e hv => absurd hv (valid_reset e)

theorem Reg.engine_of_mem_regs {e : Engine} {r : Reg} (hr : r ∈ e.regs) (hrw : r.cls = .rw) :
    r.engine = some e := by
  cases e <;> cases r <;> first | rfl | exact absurd hr (by decide) | exact absurd hrw (by decide)

/-- A host write clears the VALID bit of its own engine and leaves the others'. -/
theorem valid_hostWrite {r : Reg} {g : Regs} {v : Word64} {e : Engine}
    (h : (r.hostWrite g v).valid e = true) : g.valid e = true ∧ r.engine ≠ some e := by
  have hbit : (r.hostWrite g v).valid e = (g.status &&& ~~~r.validMask).getLsbD e.validBit :=
    congrArg (BitVec.getLsbD · e.validBit) (hostWrite_status r g v)
  rw [hbit, BitVec.getLsbD_and, Bool.and_eq_true] at h
  obtain ⟨hg, hmask⟩ := h
  refine ⟨hg, fun he => ?_⟩
  rw [Reg.validMask, he] at hmask
  exact absurd hmask (by cases e <;> decide)

theorem hostWrite_faulted (r : Reg) (g : Regs) (v : Word64) :
    (r.hostWrite g v).faulted = g.faulted := by
  have hstore : (r.store g v).faulted = g.faulted := congrArg (BitVec.getLsbD · 7) (store_status r g v)
  unfold Reg.hostWrite
  cases r.engine with
  | none => exact hstore
  | some e => exact (Regs.putValid_faulted _ e false).trans hstore

theorem hostWrite_fault (r : Reg) (g : Regs) (v : Word64) : (r.hostWrite g v).fault = g.fault := by
  unfold Reg.hostWrite
  cases r.engine with
  | none => exact store_fault r g v
  | some e => exact store_fault r g v

theorem sameEngine_hostWrite {r : Reg} {e : Engine} (hrw : r.cls = .rw) (he : r.engine ≠ some e)
    (s : State) (v : Word64) : SameEngine e s (s.withRegs (r.hostWrite s.regs v)) := by
  refine ⟨rfl, fun r' hr' => read_hostWrite_ne ?_ (Engine.regs_ne hr').1 _ _ v, fun _ _ _ => rfl⟩
  rintro rfl
  exact he (Reg.engine_of_mem_regs hr' hrw)

theorem Inv.hostWrite {s : State} (h : Inv s) {r : Reg} (hrw : r.cls = .rw) (v : Word64) :
    Inv (s.withRegs (r.hostWrite s.regs v)) := by
  obtain ⟨hreserved, hfault⟩ := (statusLegal_iff _).1 h.status
  refine h.of_sameEngines rfl (h.storeGood.withRegs _) ((statusLegal_iff _).2 ⟨?_, ?_⟩)
    fun e hv => ⟨(valid_hostWrite hv).1, sameEngine_hostWrite hrw (valid_hostWrite hv).2 s v⟩
  · rw [State.withRegs_regs, hostWrite_status, BitVec.and_assoc, BitVec.and_comm (~~~_),
      ← BitVec.and_assoc, hreserved]
    exact BitVec.zero_and
  · exact hfault.congr (hostWrite_faulted r _ v) (hostWrite_fault r _ v)

/-! ## Commands keep the invariant -/

/-- No command but an engine's own configuration and SRESET writes its registers, its tables or its VALID
bit (10_state.md R25, R50). -/
theorem Engine.untouched {e : Engine} {i : Instr} : i ≠ e.cfg → i ≠ .sreset →
    (∀ r ∈ e.regs, r ∉ writesRegs i) ∧ (∀ sp ∈ e.tables, sp ∉ writesSpaces i) ∧
      (~~~(writesStatus i)).getLsbD e.validBit = true := by
  cases e <;> cases i <;> decide

/-- The reserved bits of STATUS are written by no command. -/
theorem reservedBits_unwritten (i : Instr) : ~~~(writesStatus i) &&& reservedBits = reservedBits := by
  cases i <;> decide

theorem Effect.statusLegal {i : Instr} {good : Prop} {s t : State} (h : Effect i good s t)
    (hs : StatusLegal s.regs) : StatusLegal t.regs := by
  obtain ⟨hreserved, hfault⟩ := (statusLegal_iff _).1 hs
  exact (statusLegal_iff _).2 ⟨(and_eq_of_and_eq h.regs.status (reservedBits_unwritten i)).trans hreserved,
    h.regs.fault hfault⟩

theorem Effect.sameEngine {i : Instr} {good : Prop} {s t : State} {e : Engine} (h : Effect i good s t)
    (hcfg : i ≠ e.cfg) (hreset : i ≠ .sreset) :
    t.regs.valid e = s.regs.valid e ∧ SameEngine e s t := by
  obtain ⟨hregs, htables, hbit⟩ := Engine.untouched hcfg hreset
  refine ⟨getLsbD_eq_of_and_eq h.regs.status hbit, h.port.1, fun r hr => ?_,
    fun sp hsp => h.elems sp (htables sp hsp)⟩
  rw [h.port.1]
  exact h.regs.others s.par r (hregs r hr) (Engine.regs_ne hr).1 (Engine.regs_ne hr).2

/-- After an engine's own configuration command a set VALID bit describes its parameters: either they passed
the checks and the command described them, or it raised a fault and left everything else. -/
theorem described_of_exec_cfg {e : Engine} {s t : State} (hinv : Inv s) (h : exec e.cfg s = .next t)
    (hv : t.regs.valid e = true) : Described e t := by
  have hfaulted : ∀ {c : Cause} {sub op : Byte}, t = raiseFault c sub op s → Described e t := by
    rintro c sub op rfl
    exact (hinv.raiseFault c sub op).described hv
  cases e with
  | ilv =>
    change execIlvCfg s = .next t at h
    obtain ⟨hcheck, hrun⟩ | ⟨sub, -, ht⟩ := whenLegal_next h
    · exact Host.Outcome.next.inj hrun ▸ ilvDescribed_ilvConfigure hcheck
    · exact hfaulted ht
  | polar =>
    change execPcCfg s = .next t at h
    obtain ⟨hcheck, hrun⟩ | ⟨sub, -, ht⟩ := whenLegal_next h
    · exact Host.Outcome.next.inj hrun ▸ polarDescribed_pcConfigure hinv.params hcheck
    · exact hfaulted ht
  | rs =>
    change execRsCfg s = .next t at h
    obtain ⟨hcheck, hrun⟩ | ⟨sub, -, ht⟩ := whenLegal_next h
    · exact Host.Outcome.next.inj hrun ▸ rsDescribed_rsConfigure hinv.params hcheck
    · exact hfaulted ht

/-- Every command keeps the invariant. -/
theorem Inv.exec {i : Instr} {s t : State} (hinv : Inv s) (h : exec i s = .next t) : Inv t := by
  by_cases hreset : i = .sreset
  · subst hreset
    exact Host.Outcome.next.inj h ▸ hinv.resetBlock
  · have heffect := exec_effect hreset h
    refine .of_described (heffect.port.1 ▸ hinv.params) (heffect.store hinv hinv.storeGood)
      (heffect.statusLegal hinv.status) fun e hv => ?_
    by_cases hcfg : i = e.cfg
    · subst hcfg
      exact described_of_exec_cfg hinv h hv
    · obtain ⟨hvalid, hsame⟩ := heffect.sameEngine hcfg hreset
      exact (hinv.described (hvalid.symm.trans hv)).congr hsame

/-! ## Every step keeps the invariant -/

theorem Inv.issueCommand {v : Word64} {s t : State} (hinv : Inv s) (h : issueCommand v s = .next t) :
    Inv t := by
  obtain ⟨-, -, hexec⟩ | ⟨-, -, hignored⟩ | ⟨-, -, hillegal⟩ | ⟨-, i, -, hexec⟩ :=
    issueCommand_cases v s
  · exact hinv.exec (hexec.symm.trans h)
  · exact Host.Outcome.next.inj (hignored.symm.trans h) ▸ hinv
  · exact Host.Outcome.next.inj (hillegal.symm.trans h) ▸ hinv.raiseFault _ _ _
  · exact hinv.exec (hexec.symm.trans h)

theorem Inv.returning {s : State} (hinv : Inv s) (v : Word64) : Inv (s.returning v) :=
  .congr (s := s) rfl rfl rfl hinv

theorem Inv.hostFault {s : State} (hinv : Inv s) (sub : Byte) : Inv (hostFault sub s) :=
  hinv.raiseFault _ _ _

theorem Inv.hostRegRead {s : State} (hinv : Inv s) (no : Byte) : Inv (hostRegRead no s) := by
  unfold Machine.hostRegRead
  split
  · exact (hinv.hostFault 1).returning 0
  · exact hinv.returning _

theorem Inv.hostRegWrite {no : Byte} {v : Word64} {s t : State} (hinv : Inv s)
    (h : hostRegWrite no v s = .next t) : Inv t := by
  obtain ⟨-, hfault⟩ | ⟨r, -, ⟨-, hfault⟩ | ⟨-, hcommand⟩ | ⟨hrw, hstore⟩⟩ := hostRegWrite_cases no v s
  · exact Host.Outcome.next.inj (hfault.symm.trans h) ▸ hinv.hostFault 1
  · exact Host.Outcome.next.inj (hfault.symm.trans h) ▸ hinv.hostFault 2
  · exact hinv.issueCommand (hcommand.symm.trans h)
  · exact Host.Outcome.next.inj (hstore.symm.trans h) ▸ hinv.hostWrite hrw v

theorem Inv.hostBufRead {s : State} (hinv : Inv s) (space index : Nat) :
    Inv (hostBufRead space index s) := by
  obtain ⟨sub, hfault⟩ | ⟨sp, -, -, hread⟩ := hostBufRead_cases space index s
  · exact hfault ▸ (hinv.hostFault sub).returning 0
  · exact hread ▸ (hinv.reads (readElem_state sp index s)).returning _

theorem Inv.hostBufWrite {s : State} (hinv : Inv s) (space index : Nat) (v : Word64) :
    Inv (hostBufWrite space index v s) := by
  obtain ⟨sub, hfault⟩ | ⟨sp, -, hdata, hindex, hwrite⟩ := hostBufWrite_cases space index v s
  · exact hfault ▸ hinv.hostFault sub
  · exact hwrite ▸ hinv.write_data hdata hindex

/-- Every host input keeps the invariant. -/
theorem Inv.hostStep {x : HostInput} {s t : State} (hinv : Inv s) (h : hostStep x s = .next t) :
    Inv t := by
  cases x with
  | regRead no => exact Host.Outcome.next.inj h ▸ hinv.hostRegRead no
  | regWrite no v => exact hinv.hostRegWrite h
  | bufRead space index => exact Host.Outcome.next.inj h ▸ hinv.hostBufRead space index
  | bufWrite space index v => exact Host.Outcome.next.inj h ▸ hinv.hostBufWrite space index v
  | hwReset => exact Host.Outcome.next.inj h ▸ hinv.resetBlock

/-- Settles O59: an idle step changes nothing, and every host input keeps the invariant. -/
theorem stepKeepsTheInvariant : Obligations.StepKeepsTheInvariant := by
  intro s t hinv h
  obtain ⟨-, hidle⟩ | ⟨x, rest, -, hstep⟩ := step_cases s
  · exact Host.Outcome.next.inj (hidle.symm.trans h) ▸ hinv
  · exact (Inv.congr (s := s) (t := { s with pending := rest }) rfl rfl rfl hinv).hostStep
      (hstep.symm.trans h)

/-! ## What a read answers fits its element -/

theorem mem_of_cellAt {c : Cells} {i : Nat} {v : Word64} (h : cellAt c i = some v) : (i, v) ∈ c := by
  obtain ⟨l, r, rfl, -⟩ := List.lookup_eq_some_iff.1 h
  simp

theorem ElementsFit.reads {s t : State} (h : ElementsFit s) (hd : OnlyDraws s t) : ElementsFit t := by
  rw [ElementsFit, hd.par, hd.mem]
  exact h

/-- A read answers a value of the element's width, written or drawn. -/
theorem readElem_toNat_lt {s : State} (h : ElementsFit s) (sp : Space) (i : Nat) :
    (readElem sp i s).1.toNat < 2 ^ sp.width s.par := by
  cases hi : s.elem? sp i with
  | some v =>
    rw [readElem_written hi]
    exact (h sp _ (mem_of_cellAt hi)).2
  | none =>
    rw [readElem_unwritten hi]
    exact draw_toNat_lt _ s

theorem gather_toNat_lt {s : State} (h : ElementsFit s) (sp : Space) (lo n : Nat) :
    ∀ v ∈ (gather sp lo n s).1, v.toNat < 2 ^ sp.width s.par := by
  induction n generalizing lo s with
  | zero => exact fun v hv => absurd hv List.not_mem_nil
  | succ n ih =>
    intro v hv
    have hd := readElem_state sp lo s
    obtain rfl | hv := List.mem_cons.1 hv
    · exact readElem_toNat_lt h sp lo
    · exact hd.par ▸ ih (h.reads hd) (lo + 1) v hv

/-- A loop whose every item answers below `q` on elements that fit lists values below `q`. -/
theorem mapReads_lt {α : Type} {q : Nat} {f : α → State → Nat × State}
    (hd : ∀ a s, OnlyDraws s (f a s).2) (hf : ∀ a s, ElementsFit s → (f a s).1 < q) {s : State}
    (h : ElementsFit s) (as : List α) : ∀ x ∈ (mapReads f as s).1, x < q := by
  induction as generalizing s with
  | nil => exact fun x hx => absurd hx List.not_mem_nil
  | cons a as ih =>
    intro x hx
    obtain rfl | hx := List.mem_cons.1 hx
    · exact hf a s h
    · exact ih (h.reads (hd a s)) x hx

/-- A loop whose every item carries a value below `q` on elements that fit ends below `q`. -/
theorem foldReads_lt {α : Type} {q : Nat} {f : Nat → α → State → Nat × State} {as : List α}
    (hd : ∀ b a s, OnlyDraws s (f b a s).2)
    (hf : ∀ b, ∀ a ∈ as, ∀ s, ElementsFit s → (f b a s).1 < q) {s : State} (h : ElementsFit s) {b : Nat}
    (hb : b < q) : (foldReads f b as s).1 < q := by
  induction as generalizing b s with
  | nil => exact hb
  | cons a as ih =>
    exact ih (fun b' x hx => hf b' x (List.mem_cons_of_mem _ hx)) (h.reads (hd b a s))
      (hf b a (by simp) s h)

theorem readSymbols_lt {s : State} (h : ElementsFit s) (n : Nat) : ∀ x ∈ (readSymbols n s).1, x < 2 ^ 8 := by
  intro x hx
  obtain ⟨v, hv, rfl⟩ := List.mem_map.1 hx
  exact gather_toNat_lt h .rb 0 n v hv

/-! ## Syndromes are bytes -/

/-- A product is a byte, a free value too (log entry 16). -/
theorem multiplyFromTables_toNat_lt {s : State} (h : ElementsFit s) (a b : Nat) :
    (multiplyFromTables a b s).1.toNat < 2 ^ 8 := by
  unfold multiplyFromTables
  split
  · exact draw_toNat_lt _ s
  · split
    · exact (by decide : (0 : Word64).toNat < 2 ^ 8)
    · exact readElem_toNat_lt
        ((h.reads (readElem_state .glog a s)).reads (readElem_state .glog b _)) .galog _

theorem evaluateFromTables_lt {s : State} (h : ElementsFit s) {poly : List Nat}
    (hpoly : ∀ c ∈ poly, c < 2 ^ 8) (x : Nat) : (evaluateFromTables poly x s).1 < 2 ^ 8 :=
  foldReads_lt (fun acc _ s => multiplyFromTables_state acc x s)
    (fun acc c hc _ hs => Nat.xor_lt_two_pow (multiplyFromTables_toNat_lt hs acc x) (hpoly c hc))
    h (by decide)

theorem readSyndrome_lt {s : State} (h : ElementsFit s) (j : Nat) : (readSyndrome j s).1 < 2 ^ 8 :=
  evaluateFromTables_lt ((h.reads (readSymbols_state _ s)).reads (readElem_state .galog j _))
    (readSymbols_lt h _) _

theorem readSyndromes_lt {s : State} (h : ElementsFit s) : ∀ x ∈ (readSyndromes s).1, x < 2 ^ 8 :=
  mapReads_lt readSyndrome_state (fun j _ hs => readSyndrome_lt hs j) h _

/-- The running maximum of a list that is not empty is its greatest element. -/
theorem foldl_max_spec {l : List Nat} (h : l ≠ []) :
    l.foldl max 0 ∈ l ∧ ∀ x ∈ l, x ≤ l.foldl max 0 := by
  cases l with
  | nil => exact absurd rfl h
  | cons x l =>
    exact List.max?_eq_some_iff.1 (by rw [List.max?_cons', List.foldl_cons, Nat.zero_max])

/-! ## Reed–Solomon commands on any RB (10_state.md R65) -/

theorem OnlyDraws.faultRecorded {s u t : State} (hd : OnlyDraws s u) {cause sub op : Nat}
    (h : FaultRecorded u t cause sub op) : FaultRecorded s t cause sub op := by
  obtain ⟨hport, hmem, hregs⟩ := h
  refine ⟨hd.samePort.trans hport, hmem.trans hd.mem, ?_⟩
  rw [← hd.regs]
  exact hregs

/-- The symbol test of a good state that is not FAULTED: a recorded fault, impossible where every byte is a
field element, or the command runs on a state with reads counted. -/
theorem whenSymbols_cases {i : Instr} {n : Nat} {s : State} {run : State → Result}
    (hfit : ElementsFit s) (hf : s.regs.faulted = false) :
    (∃ t, whenSymbols i n s run = .next t ∧ s.regs.rsGm.toNat ≠ 8 ∧
        FaultRecorded s t 0x31 2 (opcode i).toNat) ∨
      ∃ u, OnlyDraws s u ∧ whenSymbols i n s run = run u := by
  have hread := readSymbols_state n s
  unfold whenSymbols
  dsimp only
  split
  · rename_i hany
    obtain ⟨x, hx, hge⟩ := List.any_eq_true.1 hany
    refine .inl ⟨_, rfl, fun hgm => ?_, hread.faultRecorded (raiseFault_recorded _ _ _ (hread.regs ▸ hf))⟩
    have hlt := readSymbols_lt hfit n x hx
    rw [hgm, decide_eq_true_eq] at hge
    omega
  · exact .inr ⟨_, hread, rfl⟩

theorem truncTo_truncTo (w : Nat) (v : Word64) : truncTo w (truncTo w v) = truncTo w v :=
  truncTo_of_lt (truncTo_toNat_lt w v)

/-- A write stores what it has cut to the width, so cutting first changes nothing. -/
theorem write_map_truncTo (s : State) (sp : Space) (lo : Nat) (vs : List Word64) :
    s.write sp lo (vs.map (truncTo (sp.width s.par))) = s.write sp lo vs := by
  simp [State.write, Function.comp_def, truncTo_truncTo]

/-- Reads, then one write: the elements written hold the low bits of the values. -/
theorem OnlyDraws.wroteOnly_write {s u : State} (h : OnlyDraws s u) (sp : Space) (lo : Nat)
    (vs : List Word64) :
    WroteOnly s (u.write sp lo vs) sp lo (vs.map (truncTo (sp.width u.par))) := by
  refine ⟨h.samePort.trans (samePort_write u sp lo vs), h.regs, ?_, fun sp' j hout => ?_⟩
  · rw [← write_map_truncTo]
    refine holds_write u sp lo _ fun v hv => ?_
    obtain ⟨v, -, rfl⟩ := List.mem_map.1 hv
    exact truncTo_truncTo _ v
  · rw [List.length_map] at hout
    exact (sameElemsBut_write u sp lo vs sp' j hout).trans (h.elem? sp' j)

theorem exec_rsEnc_of_valid {s : State} (hv : s.regs.valid .rs = true) :
    exec .rsEnc s = whenSymbols .rsEnc s.regs.rsRn.toNat s fun s => .next (rsEncode s) :=
  if_pos hv

theorem exec_rsCheck_of_valid {s : State} (hv : s.regs.valid .rs = true) :
    exec .rsCheck s = whenSymbols .rsCheck (wordLength s.regs) s fun s => .next (writeSyndromes s) :=
  if_pos hv

theorem exec_rsDec_of_valid {s : State} (hv : s.regs.valid .rs = true) :
    exec .rsDec s =
      whenSymbols .rsDec (wordLength s.regs) s fun s => .next (writeDecstat (writeSyndromes s)) :=
  if_pos hv

theorem putRsZero_status_eq (v : Word64) (top : Nat) :
    putBit v rsZeroBit (top == 0) = if top = 0 then v ||| 0x10 else v &&& ~~~0x10 := by
  by_cases h : top = 0
  · rw [if_pos h, h]; rfl
  · rw [if_neg h, beq_eq_false_iff_ne.2 h]; rfl

/-- What RS_CHECK and RS_DEC leave after a test that passed: RP byte syndromes in SYN, their maximum, RS_ZERO,
and `decstat` in RS_DECSTAT (45_gf_rs.md R287, R290). -/
def SyndromesWritten (s t : State) (rp : Nat) (syn : List Nat) (top : Nat) (decstat : Word64) : Prop :=
  syn.length = rp ∧ top ∈ syn ∧ (∀ y ∈ syn, y ≤ top) ∧ top < 256 ∧ SamePort s t ∧
    t.holds .syn 0 (elemsOfSymbols syn) ∧ SameElemsBut s t (fun sp i => sp = .syn ∧ i < rp) ∧
    t.regs = { s.regs with
      rsMaxsyn := BitVec.ofNat 64 top
      rsDecstat := decstat
      status := if top = 0 then s.regs.status ||| 0x10 else s.regs.status &&& ~~~0x10 }

theorem writeSyndromes_written {s u : State} (hinv : Inv s) (hv : s.regs.valid .rs = true)
    (hd : OnlyDraws s u) : SyndromesWritten s (writeSyndromes u) s.regs.rsRp.toNat
      (readSyndromes u).1 ((readSyndromes u).1.foldl max 0) s.regs.rsDecstat := by
  obtain ⟨v, hdv, heq⟩ := writeSyndromes_state u
  have hdraws := hd.trans hdv
  have hlt := readSyndromes_lt (hinv.fits.reads hd)
  have hlen : (readSyndromes u).1.length = s.regs.rsRp.toNat := by rw [readSyndromes_length, hd.regs]
  have hrp := (hinv.rs hv).sizes.1
  obtain ⟨hmem, hmax⟩ := foldl_max_spec (l := (readSyndromes u).1) (List.ne_nil_of_length_pos (by omega))
  rw [heq]
  refine ⟨hlen, hmem, hmax, hlt _ hmem, hdraws.samePort.trans ((samePort_write v _ _ _).trans
    (samePort_withRegs _ _)), ?_, fun sp i hout => ?_, ?_⟩
  · exact holds_write v .syn 0 _ (truncTo_elemsOfSymbols hlt)
  · refine (sameElemsBut_write v .syn 0 _ sp i fun hin => hout ⟨hin.1, ?_⟩).trans (hdraws.elem? sp i)
    have := hin.2.2
    rw [elemsOfSymbols, List.length_map, hlen] at this
    omega
  · rw [hd.regs, ← putRsZero_status_eq]
    rfl

theorem SyndromesWritten.writeDecstat {s t : State} {rp : Nat} {syn : List Nat} {top : Nat}
    {decstat : Word64} (h : SyndromesWritten s t rp syn top decstat) :
    SyndromesWritten s (writeDecstat t) rp syn top (if top = 0 then 0 else 1) := by
  obtain ⟨hlen, hmem, hmax, hlt, hport, hholds, hsame, hregs⟩ := h
  refine ⟨hlen, hmem, hmax, hlt, hport.trans (samePort_writeDecstat t), hholds, hsame, ?_⟩
  have hzero : BitVec.ofNat 64 top = 0 ↔ top = 0 := by
    rw [← BitVec.toNat_inj, BitVec.toNat_ofNat, Nat.mod_eq_of_lt (by omega)]
    rfl
  rw [writeDecstat_regs, hregs]
  simp only [hzero]

theorem rsEnc_on_any_symbols {s : State} (hinv : Inv s) (hf : s.regs.faulted = false)
    (hv : s.regs.valid .rs = true) : ∃ t, exec .rsEnc s = .next t ∧
      ((s.regs.rsGm.toNat ≠ 8 ∧ FaultRecorded s t 0x31 2 0x32) ∨
        ∃ vs, vs.length = s.regs.rsRp.toNat ∧ WroteOnly s t .rb s.regs.rsRn.toNat vs) := by
  rw [exec_rsEnc_of_valid hv]
  obtain ⟨t, ht, hgm, hfault⟩ | ⟨u, hu, hrun⟩ := whenSymbols_cases hinv.fits hf
  · exact ⟨t, ht, .inl ⟨hgm, hfault⟩⟩
  · obtain ⟨w, rem, hw, hlen, heq⟩ := rsEncode_state u
    have hwrote := (hu.trans hw).wroteOnly_write .rb s.regs.rsRn.toNat (elemsOfSymbols rem)
    rw [hu.regs] at heq hlen
    refine ⟨_, hrun, .inr ⟨_, ?_, heq ▸ hwrote⟩⟩
    rw [List.length_map, elemsOfSymbols, List.length_map, hlen]

theorem rsCheck_on_any_symbols {s : State} (hinv : Inv s) (hf : s.regs.faulted = false)
    (hv : s.regs.valid .rs = true) : ∃ t, exec .rsCheck s = .next t ∧
      ((s.regs.rsGm.toNat ≠ 8 ∧ FaultRecorded s t 0x31 2 0x33) ∨
        ∃ syn top, SyndromesWritten s t s.regs.rsRp.toNat syn top s.regs.rsDecstat) := by
  rw [exec_rsCheck_of_valid hv]
  obtain ⟨t, ht, hgm, hfault⟩ | ⟨u, hu, hrun⟩ := whenSymbols_cases hinv.fits hf
  · exact ⟨t, ht, .inl ⟨hgm, hfault⟩⟩
  · exact ⟨_, hrun, .inr ⟨_, _, writeSyndromes_written hinv hv hu⟩⟩

theorem rsDec_on_any_symbols {s : State} (hinv : Inv s) (hf : s.regs.faulted = false)
    (hv : s.regs.valid .rs = true) : ∃ t, exec .rsDec s = .next t ∧
      ((s.regs.rsGm.toNat ≠ 8 ∧ FaultRecorded s t 0x31 2 0x34) ∨
        ∃ syn top, SyndromesWritten s t s.regs.rsRp.toNat syn top (if top = 0 then 0 else 1)) := by
  rw [exec_rsDec_of_valid hv]
  obtain ⟨t, ht, hgm, hfault⟩ | ⟨u, hu, hrun⟩ := whenSymbols_cases hinv.fits hf
  · exact ⟨t, ht, .inl ⟨hgm, hfault⟩⟩
  · exact ⟨_, hrun, .inr ⟨_, _, (writeSyndromes_written hinv hv hu).writeDecstat⟩⟩

/-- Settles O54, command by command. -/
theorem rsCommandsRunOnUnwrittenSymbols : Obligations.RsCommandsRunOnUnwrittenSymbols := by
  rintro s rn rp hinv hf hv rfl rfl
  refine ⟨rsEnc_on_any_symbols hinv hf hv, fun x hx => ?_⟩
  simp only [List.mem_cons, List.not_mem_nil, or_false] at hx
  obtain rfl | rfl := hx
  · exact rsCheck_on_any_symbols hinv hf hv
  · exact rsDec_on_any_symbols hinv hf hv

end Sys2Proof.Machine

/-! PROOFS. The encoding: decoder and encoder agree both ways (30_encoding.md R90, R91, R92), and a write to
CMD is exactly one command or ILLEGAL_CMD (R91, 60_exceptions.md R340). -/

namespace Sys2Proof.Machine

/-! ## Opcodes -/

/-- The commands, in the order of the rows of 30_encoding.md R93. -/
def allInstrs : List Instr :=
  [.nop, .sreset, .ilvCfg, .ilvFwd, .ilvRev, .pcCfg, .penc, .pdecLoad, .pdecRun, .pdec, .rsCfg, .gfMul,
    .rsEnc, .rsCheck, .rsDec]

theorem mem_allInstrs (i : Instr) : i ∈ allInstrs := by cases i <;> decide

theorem decodeOpcode_opcode (i : Instr) : decodeOpcode (opcode i) = some i := by cases i <;> rfl

theorem opcode_of_decodeOpcode {b : Byte} {i : Instr} (h : decodeOpcode b = some i) : opcode i = b := by
  unfold decodeOpcode at h
  split at h
  case h_16 => nomatch h
  all_goals
    obtain rfl := Option.some.inj h
    rfl

theorem decodeOpcode_eq_some_iff {b : Byte} {i : Instr} : decodeOpcode b = some i ↔ b = opcode i :=
  ⟨fun h => (opcode_of_decodeOpcode h).symm, fun h => h ▸ decodeOpcode_opcode i⟩

/-- The assigned opcodes of 30_encoding.md R93 are the opcodes of the commands. -/
theorem toNat_mem_opcodes_iff {b : Byte} :
    b.toNat ∈ [0x00, 0x01, 0x10, 0x11, 0x12, 0x20, 0x21, 0x22, 0x23, 0x24, 0x30, 0x31, 0x32, 0x33, 0x34] ↔
      ∃ i, b = opcode i := by
  change b.toNat ∈ allInstrs.map (fun i => (opcode i).toNat) ↔ _
  simp only [List.mem_map, mem_allInstrs, true_and, BitVec.toNat_inj, eq_comm]

/-! ## Words -/

theorem extractLsb'_low_byte (v : Word64) : v.extractLsb' 0 8 = v.setWidth 8 :=
  (BitVec.setWidth_eq_extractLsb' (by decide)).symm

/-- The three tests of 30_encoding.md R91 are all that the decoder asks. -/
theorem decode_eq_ok_iff {v : Word64} {i : Instr} :
    decode v = .ok i ↔
      v.extractLsb' 32 32 = 0 ∧ v.extractLsb' 8 24 = 0 ∧ v.extractLsb' 0 8 = opcode i := by
  rw [extractLsb'_low_byte, ← decodeOpcode_eq_some_iff]
  unfold decode
  split
  case isTrue hhigh => exact iff_of_false (by simp) fun ⟨hzero, _⟩ => hhigh hzero
  case isFalse hhigh =>
    split
    case isTrue hfield => exact iff_of_false (by simp) fun ⟨_, hzero, _⟩ => hfield hzero
    case isFalse hfield =>
      cases decodeOpcode (v.setWidth 8) <;> simp [not_not.1 hhigh, not_not.1 hfield]

theorem encode_toNat (i : Instr) : (encode i).toNat = (opcode i).toNat := by
  rw [encode, BitVec.toNat_append]
  simp

/-- The encoded word is the opcode byte below 56 zeros (30_encoding.md R90). -/
theorem eq_encode_iff {v : Word64} {i : Instr} :
    v = (encode i).setWidth 64 ↔
      v.extractLsb' 32 32 = 0 ∧ v.extractLsb' 8 24 = 0 ∧ v.extractLsb' 0 8 = opcode i := by
  have hop := (opcode i).isLt
  have hv := v.isLt
  simp [← BitVec.toNat_inj, encode_toNat, Nat.shiftRight_eq_div_pow]
  omega

/-- Settles O1: both sides are the three tests of 30_encoding.md R91. -/
theorem decodeAgreesWithEncode : Obligations.DecodeAgreesWithEncode :=
  fun _ _ => decode_eq_ok_iff.trans eq_encode_iff.symm

/-- Settles O2, word by word. -/
theorem decodeReadsTheWordsOfTheMap : Obligations.DecodeReadsTheWordsOfTheMap := by
  unfold Obligations.DecodeReadsTheWordsOfTheMap
  simp only [List.forall_mem_cons]
  exact ⟨decode_word_nop, decode_word_sreset, decode_word_ilvCfg, decode_word_ilvFwd, decode_word_ilvRev,
    decode_word_pcCfg, decode_word_penc, decode_word_pdecLoad, decode_word_pdecRun, decode_word_pdec,
    decode_word_rsCfg, decode_word_gfMul, decode_word_rsEnc, decode_word_rsCheck, decode_word_rsDec,
    List.forall_mem_nil _⟩

/-! ## Writes to CMD -/

/-- The values that 30_encoding.md R91 accepts are those that decode to a command. -/
theorem exists_decode_eq_ok_iff {v : Word64} :
    (∃ i, decode v = .ok i) ↔
      v.extractLsb' 32 32 = 0 ∧ v.extractLsb' 8 24 = 0 ∧
        (v.extractLsb' 0 8).toNat ∈ [0x00, 0x01, 0x10, 0x11, 0x12, 0x20, 0x21, 0x22, 0x23, 0x24, 0x30, 0x31,
          0x32, 0x33, 0x34] := by
  simp only [decode_eq_ok_iff, exists_and_left, toNat_mem_opcodes_iff]

theorem hostStep_regWrite_cmd (v : Word64) (s : State) :
    hostStep (.regWrite 0x03 v) s = issueCommand v s := rfl

theorem issueCommand_of_decode_ok {v : Word64} {i : Instr} {s : State} (hf : s.regs.faulted = false)
    (h : decode v = .ok i) : issueCommand v s = exec i s := by
  simp [issueCommand, hf, h]

theorem issueCommand_of_decode_error {v : Word64} {e : DecodeError} {s : State}
    (hf : s.regs.faulted = false) (h : decode v = .error e) :
    issueCommand v s = .next (raiseFault .illegalCmd 0 (v.setWidth 8) s) := by
  simp [issueCommand, hf, h]

/-- Settles O3: a write to CMD on a block that is not FAULTED issues the decoded command or raises
ILLEGAL_CMD (60_exceptions.md R348). -/
theorem illegalCommandFaults : Obligations.IllegalCommandFaults := by
  intro v s hf
  rw [hostStep_regWrite_cmd]
  cases hd : decode v with
  | ok i =>
    rw [if_pos (exists_decode_eq_ok_iff.1 ⟨i, hd⟩)]
    exact ⟨i, ((decodeAgreesWithEncode v i).1 hd).symm, issueCommand_of_decode_ok hf hd⟩
  | error e =>
    rw [if_neg fun htests => by simpa [hd] using exists_decode_eq_ok_iff.2 htests, extractLsb'_low_byte]
    exact ⟨_, issueCommand_of_decode_error hf hd, raiseFault_recorded .illegalCmd 0 _ hf⟩

end Sys2Proof.Machine

/-! PROOFS. The interleaver: bits of words and masks (00_scope.md R11, 40_bitutil.md R111, R112), the order of
the set bits of the puncturing matrix (40_bitutil.md R117), and the word-level chunk (41_interleaver.md R141). -/

namespace Sys2Proof.Machine

/-! ## Bits of a word by position (00_scope.md R11) -/

@[simp] theorem wbit_zero {B : Nat} (x : Nat) : wbit (0#B) x = false := by simp [wbit]

@[simp] theorem wbit_or {B : Nat} (v w : Word B) (x : Nat) : wbit (v ||| w) x = (wbit v x || wbit w x) :=
  BitVec.getMsbD_or

@[simp] theorem wbit_and {B : Nat} (v w : Word B) (x : Nat) : wbit (v &&& w) x = (wbit v x && wbit w x) :=
  BitVec.getMsbD_and

@[simp] theorem wbit_shiftLeft {B : Nat} (w : Word B) (n x : Nat) : wbit (w <<< n) x = wbit w (x + n) :=
  BitVec.getMsbD_shiftLeft w n

theorem wbit_shiftRight {B : Nat} (w : Word B) (n : Nat) {x : Nat} (hx : x < B) :
    wbit (w >>> n) x = (decide (n ≤ x) && wbit w (x - n)) := by
  rw [wbit, BitVec.getMsbD_ushiftRight, decide_eq_true hx, Bool.true_and, ← decide_not]
  simp only [Nat.not_lt, wbit]

theorem wbit_of_le {B : Nat} (w : Word B) {x : Nat} (hx : B ≤ x) : wbit w x = false :=
  BitVec.getMsbD_of_ge w x hx

theorem word_ext {B : Nat} {v w : Word B} (h : ∀ x < B, wbit v x = wbit w x) : v = w :=
  BitVec.eq_of_getMsbD_eq h

theorem wbit_setpos {B i x : Nat} (hi : i < B) (hx : x < B) : wbit (setpos B i) x = decide (x = i) := by
  rw [wbit, setpos, BitVec.getMsbD_twoPow, decide_eq_true (by omega), Bool.true_and, decide_eq_decide]
  omega

theorem wbit_maskBits {B n x : Nat} (hn : n ≤ B) (hx : x < B) :
    wbit (maskBits B n) x = decide (x < n) := by
  simp only [wbit, maskBits, BitVec.getMsbD_eq_getLsbD, BitVec.getLsbD_ofNat, Nat.testBit_mul_two_pow,
    Nat.testBit_two_pow_sub_one]
  grind

/-! ## Folds that OR -/

/-- A fold whose every item can only set a bit of what it carries: the bit is set at the end if it was at
the start or some item sets it. -/
theorem foldl_sets {α β : Type} {P : β → Prop} {bit : β → Bool} {sets : α → Bool} {f : β → α → β}
    (h : ∀ b a, P b → P (f b a) ∧ bit (f b a) = (bit b || sets a)) (as : List α) {b : β} (hb : P b) :
    P (as.foldl f b) ∧ bit (as.foldl f b) = (bit b || as.any sets) := by
  induction as generalizing b with
  | nil => exact ⟨hb, (Bool.or_false _).symm⟩
  | cons a as ih =>
    obtain ⟨hP, hbit⟩ := h b a hb
    obtain ⟨hP', hbit'⟩ := ih hP
    exact ⟨hP', by rw [List.foldl_cons, hbit', hbit, List.any_cons, Bool.or_assoc]⟩

theorem wbit_foldl {B : Nat} {α : Type} {sets : α → Bool} {f : Word B → α → Word B} {x : Nat}
    (h : ∀ w a, wbit (f w a) x = (wbit w x || sets a)) (as : List α) :
    wbit (as.foldl f 0#B) x = as.any sets := by
  simpa using (foldl_sets (P := fun _ => True) (bit := (wbit · x)) (fun w a _ => ⟨trivial, h w a⟩) as
    (b := 0#B) trivial).2

theorem wbit_foldl_or {B : Nat} {α : Type} (f : α → Word B) (as : List α) (x : Nat) :
    wbit (as.foldl (fun acc a => acc ||| f a) 0#B) x = as.any fun a => wbit (f a) x :=
  wbit_foldl (fun w a => wbit_or w (f a) x) as

/-- A mask has its set bits exactly at its positions (40_bitutil.md R112). -/
theorem wbit_maskFromPositions {B x : Nat} {ps : List Nat} (hps : ∀ p ∈ ps, p < B) (hx : x < B) :
    wbit (maskFromPositions B ps) x = true ↔ x ∈ ps := by
  induction ps using List.reverseRecOn with
  | nil => simp [maskFromPositions]
  | append_singleton ps p ih =>
    have hp : p < B := hps p (by simp)
    have hih := ih fun q hq => hps q (by simp [hq])
    rw [maskFromPositions] at hih ⊢
    rw [List.foldl_append, List.foldl_cons, List.foldl_nil, if_neg hp.ne, wbit_or, wbit_setpos hp hx]
    simp [hih]

/-! ## Lists of equal blocks -/

/-- Blocks of equal length, one after the other, are one list over the positions. -/
theorem flatMap_range_map_range {α : Type} (f : Nat → Nat → α) (m n : Nat) :
    ((List.range m).flatMap fun i => (List.range n).map (f i)) =
      (List.range (m * n)).map fun x => f (x / n) (x % n) := by
  induction m with
  | zero => simp
  | succ m ih =>
    rw [List.range_succ, List.flatMap_append, ih, Nat.succ_mul, List.range_add, List.map_append,
      List.flatMap_singleton, List.map_map]
    congr 1
    refine List.map_congr_left fun j hj => ?_
    have hj := List.mem_range.1 hj
    have hn : 0 < n := by omega
    simp [Nat.mul_comm m n, Nat.mul_add_div hn, Nat.div_eq_of_lt hj,
      Nat.mod_eq_of_lt hj]

/-- A position has one block and one place in it. -/
theorem block_place_inj {k a a' p p' : Nat} (hp : p < k) (hp' : p' < k) (h : a * k + p = a' * k + p') :
    a = a' ∧ p = p' := by
  have hdiv := congrArg (· / k) h
  have hmod := congrArg (· % k) h
  simp only [Nat.add_comm (_ * k), Nat.add_mul_mod_self_right, Nat.add_mul_div_right _ _ (Nat.zero_lt_of_lt hp),
    Nat.mod_eq_of_lt, Nat.div_eq_of_lt, hp, hp', Nat.zero_add] at hdiv hmod
  exact ⟨hdiv, hmod⟩

theorem getElem?_flatMap_range {α : Type} {f : Nat → List α} {n : Nat} (hf : ∀ i, (f i).length = n)
    {m i j : Nat} (hi : i < m) (hj : j < n) :
    ((List.range m).flatMap f)[i * n + j]? = (f i)[j]? := by
  induction m with
  | zero => omega
  | succ m ih =>
    have hlen : ((List.range m).flatMap f).length = m * n := by simp [List.length_flatMap, hf]
    rw [List.range_succ, List.flatMap_append, List.flatMap_singleton]
    obtain rfl | him := (Nat.lt_succ_iff.1 hi).eq_or_lt
    · rw [List.getElem?_append_right (by omega), hlen, Nat.add_sub_cancel_left]
    · have hle : (i + 1) * n ≤ m * n := Nat.mul_le_mul_right n him
      rw [Nat.succ_mul] at hle
      rw [List.getElem?_append_left (by omega), ih him]

/-! ## The set positions of a sequence, in order -/

/-- The positions that pass a test, each counted by how many pass before it, count up from 0. -/
theorem filter_range_map_countP (p : Nat → Bool) (n : Nat) :
    ((List.range n).filter p).map (fun i => (List.range i).countP p) =
      List.range ((List.range n).countP p) := by
  induction n with
  | zero => rfl
  | succ n ih =>
    rw [List.range_succ, List.filter_append, List.map_append, ih, List.countP_append]
    by_cases hp : p n <;> simp [hp, List.range_succ]

theorem pmSum_succ (pm : Word64) (i : Nat) :
    pmSum pm (i + 1) = pmSum pm i + if pmTest pm i then 1 else 0 := by
  simp [pmSum, List.range_succ, List.countP_cons]

theorem pmSum_mono (pm : Word64) {i j : Nat} (h : i ≤ j) : pmSum pm i ≤ pmSum pm j :=
  (List.range_sublist.2 h).countP_le

/-- PM.sum rises strictly across a set position (41_interleaver.md R135). -/
theorem pmSum_lt {pm : Word64} {i j : Nat} (h : i < j) (hi : pmTest pm i = true) :
    pmSum pm i < pmSum pm j := by
  have hsucc := pmSum_succ pm i
  rw [if_pos hi] at hsucc
  have hmono : pmSum pm (i + 1) ≤ pmSum pm j := pmSum_mono pm h
  omega

/-! ## Words and elements -/

theorem setWidth_setWidth_64 {B : Nat} (hB : B ≤ 64) (w : Word B) : (w.setWidth 64).setWidth B = w := by
  rw [BitVec.setWidth_setWidth_of_le _ hB, BitVec.setWidth_eq]

theorem wordsOfElems_elemsOfWords {B : Nat} (hB : B ≤ 64) (ws : List (Word B)) :
    wordsOfElems B (elemsOfWords ws) = ws := by
  rw [wordsOfElems, elemsOfWords, List.map_map]
  exact (List.map_congr_left fun w _ => setWidth_setWidth_64 hB w).trans (List.map_id ws)

theorem State.elem?_of_written {s : State} {sp : Space} {lo n i : Nat} (h : s.written sp lo n)
    (hlo : lo ≤ i) (hi : i < lo + n) : s.elem? sp i = some ((s.values sp lo n).getD (i - lo) 0) := by
  obtain ⟨v, hv⟩ := Option.isSome_iff_exists.1 (h i (List.mem_range'_1.2 ⟨hlo, hi⟩))
  have hidx : lo + (i - lo) = i := by omega
  have hlt : i - lo < n := by omega
  simp [State.values, hlt, hidx, hv]

theorem wordsOfElems_getD (B : Nat) (vs : List Word64) (i : Nat) :
    (wordsOfElems B vs).getD i 0#B = (vs.getD i 0).setWidth B := by
  simp only [wordsOfElems, List.getD_eq_getElem?_getD, List.getElem?_map]
  cases vs[i]? <;> simp

/-- A written word of IW reads as itself. -/
theorem readWord_written {B n i : Nat} {s : State} (h : s.written .iw 0 n) (hi : i < n) :
    readWord B i s = ((wordsOfElems B (s.values .iw 0 n)).getD i 0#B, s) := by
  rw [readWord, readElem_written (State.elem?_of_written h (Nat.zero_le i) (by omega)), wordsOfElems_getD]
  rfl

/-! ## The chunk (41_interleaver.md R141) -/

/-- Position `i` of a packed chunk: from the first word up to its end, then from the second. -/
theorem wbit_packChunk {B c fine i : Nat} (w w' : Word B) (hfine : fine < B) (hc : c ≤ B) (hi : i < B) :
    wbit (packChunk c fine w w') i =
      (decide (i < c) && if fine + i < B then wbit w (fine + i) else wbit w' (fine + i - B)) := by
  rw [packChunk, wbit_and, wbit_maskBits hc hi, Bool.and_comm]
  by_cases hic : i < c
  · rw [decide_eq_true hic, Bool.true_and, Bool.true_and]
    by_cases hcross : B < fine + c
    · rw [if_pos hcross, wbit_or, wbit_shiftLeft, wbit_shiftRight _ _ hi, Nat.add_comm i fine]
      by_cases hin : fine + i < B
      · simp [hin, show ¬ B ≤ i + fine by omega]
      · rw [wbit_of_le w (by omega), Bool.false_or, if_neg hin, decide_eq_true (by omega), Bool.true_and]
        congr 1
        omega
    · rw [if_neg hcross, if_pos (by omega), wbit_shiftLeft, Nat.add_comm i fine]
  · simp [hic]

/-- The chunk holds the C stream bits from `it·C` on: `fine + i` positions past the start of word `coarse`, in it
or in the next one. -/
theorem wbit_chunk {B : Nat} (iw : List (Word B)) {k c p it i : Nat} (hc : c ≤ B) (hi : i < B) :
    wbit (chunk iw k c p it) i = (decide (i < c) && streamBit iw k p (it * c + i)) := by
  have hB : 0 < B := by omega
  have hfine := Nat.mod_lt (it * c) hB
  have hdecomp : it * c + i = it * c % B + i + it * c / B * B := by
    have := Nat.mod_add_div' (it * c) B
    omega
  rw [chunk, wbit_packChunk _ _ hfine hc hi, streamBit, hdecomp, Nat.add_mul_div_right _ _ hB,
    Nat.add_mul_mod_self_right]
  by_cases hin : it * c % B + i < B
  · rw [if_pos hin, Nat.div_eq_of_lt hin, Nat.mod_eq_of_lt hin, Nat.zero_add]
  · have hsub : it * c % B + i = it * c % B + i - B + 1 * B := by omega
    have hlt : it * c % B + i - B < B := by omega
    rw [if_neg hin, hsub, Nat.add_mul_div_right _ _ hB, Nat.add_mul_mod_self_right, Nat.div_eq_of_lt hlt,
      Nat.mod_eq_of_lt hlt, show it * c % B + i - B + 1 * B - B = it * c % B + i - B by omega,
      show (0 + 1 + it * c / B) * k + p = it * c / B * k + p + k by ring]

/-- A chunk that does not cross into the next word does not depend on it. -/
theorem packChunk_of_not_cross {B c fine : Nat} (w v v' : Word B) (h : ¬ B < fine + c) :
    packChunk c fine w v = packChunk c fine w v' := by
  rw [packChunk, packChunk, if_neg h, if_neg h]

/-- ILV_FWD reads exactly the chunk, from the words of IW that hold its bits, and draws nothing. -/
theorem readChunk_written {B n k c p it : Nat} {s : State} (hc : 0 < c) (hcB : c ≤ B)
    (hw : s.written .iw 0 n) (hn : ∀ i < c, (it * c + i) / B * k + p < n) :
    readChunk B k c p it s = (chunk (wordsOfElems B (s.values .iw 0 n)) k c p it, s) := by
  have hB : 0 < B := by omega
  have hfirst : it * c / B * k + p < n := hn 0 hc
  rw [readChunk, chunk]
  simp only [readWord_written hw hfirst]
  by_cases hcross : B < it * c % B + c
  · have hlast : (it * c + (c - 1)) / B = it * c / B + 1 := by
      have hmod := Nat.mod_add_div' (it * c) B
      have hfine := Nat.mod_lt (it * c) hB
      rw [Nat.div_eq_iff hB]
      simp only [Nat.add_mul, one_mul]
      omega
    have hsecond := hn (c - 1) (by omega)
    rw [hlast, show (it * c / B + 1) * k + p = it * c / B * k + p + k by ring] at hsecond
    simp only [if_pos hcross, readWord_written hw hsecond]
  · simp only [if_neg hcross]
    rw [packChunk_of_not_cross _ _ _ hcross]

/-- Settles O23: position by position, then read by read. -/
theorem chunkHoldsTheStreamBits : Obligations.ChunkHoldsTheStreamBits := by
  refine ⟨fun B iw k c p it i _ hc hi => wbit_chunk iw hc hi, ?_⟩
  intro s B n k c p it hc hcB hw hn
  exact readChunk_written hc hcB hw hn

end Sys2Proof.Machine

/-! PROOFS. The check table of ILV_CFG: the rows as the command tests them and as the statements write them
(41_interleaver.md R132, R139), and what legal parameters give. -/

namespace Sys2Proof.Machine

/-! ## The rows (41_interleaver.md R132) -/

theorem nonDecreasing_iff_pairwise (l : List Int) : nonDecreasing l = true ↔ l.Pairwise (· ≤ ·) := by
  rw [← List.isChain_iff_pairwise]
  fun_induction nonDecreasing l with
  | case1 => simp
  | case2 => simp
  | case3 x y l ih => simp [ih]

/-- The spray condition (41_interleaver.md R139): no bit of the stream moves left, and none moves less far than
one before it. -/
theorem sprayCondition_iff (pm : Word64) (k c q : Nat) :
    sprayCondition pm k c q = true ↔
      ∀ j < c, rowTest pm k q j = true → j ≤ pmSum pm (j * k + q) ∧
        ∀ i < j, rowTest pm k q i = true → pmSum pm (i * k + q) + j ≤ pmSum pm (j * k + q) + i := by
  rw [sprayCondition, nonDecreasing_iff_pairwise, List.pairwise_cons, diffs, List.pairwise_map, inputIndices,
    List.pairwise_filter, List.pairwise_iff_getElem]
  simp only [List.forall_mem_map, List.mem_filter, List.mem_range, List.getElem_range, List.length_range]
  constructor
  · rintro ⟨hright, hmono⟩ j hj hrow
    have hj0 := hright j ⟨hj, hrow⟩
    refine ⟨by omega, fun i hij hi => ?_⟩
    have := hmono i j (by omega) hj hij hi hrow
    omega
  · intro h
    refine ⟨fun j hj => ?_, fun i j _ hj hij hi hrow => ?_⟩
    · have := (h j hj.1 hj.2).1
      omega
    · have := (h j hj hrow).2 i hij hi
      omega

theorem ilvFails_divide_iff (p : Params) (k L : Nat) (pm : Word64) (bs : Nat) :
    ilvFails p k L pm bs 3 ↔ L = 0 ∨ L % k ≠ 0 := by
  rw [ilvFails, Nat.dvd_iff_mod_eq_zero]

theorem ilvFails_matrix_iff (p : Params) (k L : Nat) (pm : Word64) (bs : Nat) :
    ilvFails p k L pm bs 4 ↔ p.pmMax < L ∨ pm.toNat >>> L ≠ 0 := by
  refine or_congr_right ⟨?_, fun h => ?_⟩
  · rintro ⟨i, hi, hbit⟩ hzero
    have hshift : (pm.toNat >>> L).testBit (i - L) = true := by
      rw [Nat.testBit_shiftRight, Nat.add_sub_cancel' hi]
      exact hbit
    rw [hzero, Nat.zero_testBit] at hshift
    exact absurd hshift (by decide)
  · obtain ⟨i, hi⟩ := Nat.exists_testBit_of_ne_zero h
    rw [Nat.testBit_shiftRight] at hi
    exact ⟨L + i, Nat.le_add_right L i, hi⟩

theorem ilvFails_block_iff (p : Params) (k L : Nat) (pm : Word64) (bs : Nat) :
    ilvFails p k L pm bs 6 ↔ bs % (L / k) ≠ 0 := by
  rw [ilvFails, Nat.dvd_iff_mod_eq_zero]

theorem ilvFails_spray_iff (p : Params) (k L : Nat) (pm : Word64) (bs : Nat) :
    ilvFails p k L pm bs 8 ↔ ¬ (List.range k).all (sprayCondition pm k (L / k)) = true := by
  simp only [ilvFails, List.all_eq_true, List.mem_range, sprayCondition_iff]
  push Not
  refine exists_congr fun q => and_congr_right fun _ => exists_congr fun j => and_congr_right fun _ =>
    and_congr_right fun _ => ?_
  rw [or_iff_not_imp_left, Nat.not_lt]

/-- No row before row `n` of the table fails. -/
def IlvRowsPass (p : Params) (k L : Nat) (pm : Word64) (bs n : Nat) : Prop :=
  ∀ m, 1 ≤ m → m < n → ¬ ilvFails p k L pm bs m

theorem ilvRowsPass_one (p : Params) (k L : Nat) (pm : Word64) (bs : Nat) : IlvRowsPass p k L pm bs 1 :=
  fun m hm hm' => by omega

theorem IlvRowsPass.succ {p : Params} {k L : Nat} {pm : Word64} {bs n : Nat}
    (h : IlvRowsPass p k L pm bs n) (hn : ¬ ilvFails p k L pm bs n) : IlvRowsPass p k L pm bs (n + 1) := by
  intro m hm hm'
  obtain hlt | rfl := Nat.lt_succ_iff_lt_or_eq.1 hm'
  · exact h m hm hlt
  · exact hn

theorem IlvRowsPass.none_fails {p : Params} {k L : Nat} {pm : Word64} {bs : Nat}
    (h : IlvRowsPass p k L pm bs 9) (n : Nat) : ¬ ilvFails p k L pm bs n := by
  obtain rfl | hn := Nat.eq_zero_or_pos n
  · exact id
  · obtain hlt | hge := Nat.lt_or_ge n 9
    · exact h n hn hlt
    · obtain ⟨m, rfl⟩ := Nat.exists_eq_add_of_le' hge
      exact id

/-- The checks of ILV_CFG answer none where no row fails, else the number of the first that fails. -/
theorem ilvCheck_cases (p : Params) (k L : Nat) (pm : Word64) (bs : Nat) :
    (ilvCheck p k L pm bs = none ∧ ∀ n, ¬ ilvFails p k L pm bs n) ∨
      ∃ n, 1 ≤ n ∧ n < 2 ^ 8 ∧ ilvFails p k L pm bs n ∧ IlvRowsPass p k L pm bs n ∧
        ilvCheck p k L pm bs = some (BitVec.ofNat 8 n) := by
  have hpass1 := ilvRowsPass_one p k L pm bs
  rw [ilvCheck]
  by_cases h1 : bs = 0
  · exact .inr ⟨1, by decide, by decide, h1, hpass1, if_pos h1⟩
  have hpass2 := hpass1.succ h1
  rw [if_neg h1]
  by_cases h2 : k < 2
  · exact .inr ⟨2, by decide, by decide, h2, hpass2, if_pos h2⟩
  have hpass3 := hpass2.succ h2
  rw [if_neg h2]
  by_cases h3 : L = 0 ∨ L % k ≠ 0
  · exact .inr ⟨3, by decide, by decide, (ilvFails_divide_iff ..).2 h3, hpass3, if_pos h3⟩
  have hpass4 := hpass3.succ (mt (ilvFails_divide_iff ..).1 h3)
  rw [if_neg h3]
  by_cases h4 : p.pmMax < L ∨ pm.toNat >>> L ≠ 0
  · exact .inr ⟨4, by decide, by decide, (ilvFails_matrix_iff ..).2 h4, hpass4, if_pos h4⟩
  have hpass5 := hpass4.succ (mt (ilvFails_matrix_iff ..).1 h4)
  rw [if_neg h4]
  by_cases h5 : p.b < hammingWeight pm ∨ p.b < L / k
  · exact .inr ⟨5, by decide, by decide, h5, hpass5, if_pos h5⟩
  have hpass6 := hpass5.succ h5
  rw [if_neg h5]
  by_cases h6 : bs % (L / k) ≠ 0
  · exact .inr ⟨6, by decide, by decide, (ilvFails_block_iff ..).2 h6, hpass6, if_pos h6⟩
  have hpass7 := hpass6.succ (mt (ilvFails_block_iff ..).1 h6)
  rw [if_neg h6]
  by_cases h7 : p.iwCap < inBufLen p.b k bs ∨ p.ibCap < outBufLen bs (hammingWeight pm) (L / k)
  · exact .inr ⟨7, by decide, by decide, h7, hpass7, if_pos h7⟩
  have hpass8 := hpass7.succ h7
  rw [if_neg h7]
  by_cases h8 : (List.range k).all (sprayCondition pm k (L / k)) = true
  · have hpass9 := hpass8.succ (mt (ilvFails_spray_iff ..).1 (not_not_intro h8))
    exact .inl ⟨if_pos h8, hpass9.none_fails⟩
  · exact .inr ⟨8, by decide, by decide, (ilvFails_spray_iff ..).2 h8, hpass8, if_neg h8⟩

theorem ilvCheck_eq_none_iff {p : Params} {k L : Nat} {pm : Word64} {bs : Nat} :
    ilvCheck p k L pm bs = none ↔ ∀ n, ¬ ilvFails p k L pm bs n := by
  obtain ⟨hnone, hrows⟩ | ⟨n, -, -, hfails, -, hsome⟩ := ilvCheck_cases p k L pm bs
  · exact iff_of_true hnone hrows
  · exact iff_of_false (by rw [hsome]; exact Option.some_ne_none _) fun h => h n hfails

/-- The first row that fails is the answer of the checks. -/
theorem ilvCheck_eq_some {p : Params} {k L : Nat} {pm : Word64} {bs n : Nat}
    (hfails : ilvFails p k L pm bs n) (hpass : IlvRowsPass p k L pm bs n) :
    n < 2 ^ 8 ∧ ilvCheck p k L pm bs = some (BitVec.ofNat 8 n) := by
  have hn : 1 ≤ n := Nat.pos_of_ne_zero fun h0 => by rw [h0] at hfails; exact hfails
  obtain ⟨-, hrows⟩ | ⟨m, hm, hlt, hfails', hpass', hsome⟩ := ilvCheck_cases p k L pm bs
  · exact absurd hfails (hrows n)
  · obtain h | rfl | h := Nat.lt_trichotomy m n
    · exact absurd hfails' (hpass m hm h)
    · exact ⟨hlt, hsome⟩
    · exact absurd hfails (hpass' n hn h)

theorem exec_ilvCfg (s : State) : exec .ilvCfg s =
    whenLegal
      (ilvCheck s.par s.regs.ilvK.toNat s.regs.ilvL.toNat s.regs.ilvPm s.regs.ilvBs.toNat)
      .ilvCfg .ilvCfgInvalid s fun s => .next (ilvConfigure s) := rfl

/-- Settles O20: the checks answer the first row that fails, and the command records it. -/
theorem ilvCfgRefusesTheFirstFailingCheck : Obligations.IlvCfgRefusesTheFirstFailingCheck := by
  intro s n hf hfails hpass
  obtain ⟨hn, hcheck⟩ := ilvCheck_eq_some hfails hpass
  refine ⟨raiseFault .ilvCfgInvalid (BitVec.ofNat 8 n) (opcode .ilvCfg) s, ?_, ?_⟩
  · rw [exec_ilvCfg, hcheck]
    rfl
  · have hrecorded := raiseFault_recorded .ilvCfgInvalid (BitVec.ofNat 8 n) (opcode .ilvCfg) hf
    rwa [BitVec.toNat_ofNat, Nat.mod_eq_of_lt hn] at hrecorded

/-! ## What legal parameters give -/

/-- What the structural parameters and the passed rows give the interleaver (00_scope.md R7,
41_interleaver.md R132): `n` passes over words of `2^n` bits, and a whole number of cycles. -/
structure LegalIlv (p : Params) (k L : Nat) (pm : Word64) (bs : Nat) : Prop where
  width : 2 ^ log2 p.b = p.b
  width_le : p.b ≤ 64
  bytes : p.b = 8 * (p.b / 8)
  bytes_pos : 0 < p.b / 8
  streams_pos : 0 < k
  cycle_mul : L / k * k = L
  cycle_pos : 0 < L / k
  cycle_le : L / k ≤ p.b
  cycle_dvd : L / k ∣ bs
  ones_le : pmOnes pm L ≤ p.b
  inlen_lt : inBufLen p.b k bs < 2 ^ 24
  outlen_lt : outBufLen bs (pmOnes pm L) (L / k) < 2 ^ 24
  spray : ∀ q < k, sprayCondition pm k (L / k) q = true

/-- B is a power of two from 8 to 64 (00_scope.md R7). -/
theorem width_of_wf {p : Params} (h : p.wf = true) : 2 ^ log2 p.b = p.b ∧ 8 ≤ p.b ∧ p.b ≤ 64 := by
  simp only [Params.wf, Bool.and_eq_true, decide_eq_true_eq] at h
  exact ⟨two_pow_log2 (by tauto), by omega, by omega⟩

theorem legalIlv_of_rows {p : Params} {k L : Nat} {pm : Word64} {bs : Nat} (hpar : p.wf = true)
    (hrows : ∀ n, ¬ ilvFails p k L pm bs n) : LegalIlv p k L pm bs := by
  obtain ⟨hwidth, h8, h64⟩ := width_of_wf hpar
  have hlegal := legalParams_of_wf hpar
  have hk : ¬ k < 2 := hrows 2
  obtain ⟨hL, hdvd⟩ := not_or.1 (hrows 3)
  obtain ⟨hmax, -⟩ := not_or.1 (hrows 4)
  obtain ⟨hones, hc⟩ := not_or.1 (hrows 5)
  obtain ⟨hin, hout⟩ := not_or.1 (hrows 7)
  have hkL : L / k * k = L := Nat.div_mul_cancel (not_not.1 hdvd)
  have hL64 : L ≤ 64 := (Nat.not_lt.1 hmax).trans hlegal.pmMax_le
  have honesLe := pmOnes_le_hammingWeight pm hL64
  have hdiv8 : 8 ∣ p.b := by
    rw [← hwidth, show 8 = 2 ^ 3 from rfl, Nat.pow_dvd_pow_iff_le_right (by decide)]
    rw [← hwidth, show 8 = 2 ^ 3 from rfl] at h8
    exact (Nat.pow_le_pow_iff_right (by decide)).1 h8
  exact
    { width := hwidth
      width_le := h64
      bytes := (Nat.mul_div_cancel' hdiv8).symm
      bytes_pos := by omega
      streams_pos := by omega
      cycle_mul := hkL
      cycle_pos := Nat.pos_of_ne_zero fun h0 => hL (by rw [← hkL, h0, Nat.zero_mul])
      cycle_le := Nat.not_lt.1 hc
      cycle_dvd := not_not.1 (hrows 6)
      ones_le := honesLe.trans (Nat.not_lt.1 hones)
      inlen_lt := (Nat.not_lt.1 hin).trans_lt hlegal.iwCap_lt
      outlen_lt := (outBufLen_mono _ _ honesLe).trans_lt
        ((Nat.not_lt.1 hout).trans_lt hlegal.ibCap_lt)
      spray := by
        have hspray := hrows 8
        rw [ilvFails_spray_iff, not_not, List.all_eq_true] at hspray
        exact fun q hq => hspray q (List.mem_range.2 hq) }

end Sys2Proof.Machine

/-! PROOFS. The shift-and-mask schedule: the places of a stream's bits pass by pass (41_interleaver.md R136,
R139), the masks as ISCH holds them (R137, 10_state.md R53), `spray` and `despray` (R138), and what ILV_CFG
writes (R131, R133). -/

namespace Sys2Proof.Machine

/-! ## Shift amounts (41_interleaver.md R136) -/

theorem passShift_two_pow {n r : Nat} (hr : r < n) : passShift (2 ^ n) r = 2 ^ (n - (r + 1)) := by
  rw [passShift, Nat.shiftRight_eq_div_pow, Nat.pow_div (by omega) (by decide)]

/-- A shift amount is one binary digit: a difference has it whole or not at all. -/
theorem and_passShift {n r : Nat} (hr : r < n) (d : Nat) :
    d &&& passShift (2 ^ n) r = d / passShift (2 ^ n) r % 2 * passShift (2 ^ n) r := by
  rw [passShift_two_pow hr, Nat.and_two_pow, Nat.testBit_eq_decide_div_mod_eq]
  obtain h | h := Nat.mod_two_eq_zero_or_one (d / 2 ^ (n - (r + 1))) <;> simp [h]

theorem and_passShift_of_ne_zero {n r : Nat} (hr : r < n) {d : Nat} (h : d &&& passShift (2 ^ n) r ≠ 0) :
    d &&& passShift (2 ^ n) r = passShift (2 ^ n) r := by
  rw [and_passShift hr] at h ⊢
  obtain hd | hd := Nat.mod_two_eq_zero_or_one (d / passShift (2 ^ n) r)
  · exact absurd (by rw [hd, Nat.zero_mul]) h
  · rw [hd, Nat.one_mul]

/-- After `r` passes a bit has moved by the `r` highest binary digits of its difference. -/
theorem passPos_eq {n d : Nat} (hd : d < 2 ^ n) (i : Nat) {r : Nat} (hr : r ≤ n) :
    passPos (2 ^ n) i d r = i + d / 2 ^ (n - r) * 2 ^ (n - r) := by
  induction r with
  | zero => simp [passPos, Nat.div_eq_of_lt hd]
  | succ r ih =>
    have hpow : 2 ^ (n - r) = 2 ^ (n - (r + 1)) * 2 := by rw [← Nat.pow_succ]; congr 1; omega
    rw [passPos, ih (by omega), and_passShift hr, passShift_two_pow hr, hpow, ← Nat.div_div_eq_div_mul,
      Nat.add_assoc]
    congr 1
    have hdigit := Nat.div_add_mod' (d / 2 ^ (n - (r + 1))) 2
    calc d / 2 ^ (n - (r + 1)) / 2 * (2 ^ (n - (r + 1)) * 2) +
            d / 2 ^ (n - (r + 1)) % 2 * 2 ^ (n - (r + 1))
        = (d / 2 ^ (n - (r + 1)) / 2 * 2 + d / 2 ^ (n - (r + 1)) % 2) * 2 ^ (n - (r + 1)) := by ring
      _ = d / 2 ^ (n - (r + 1)) * 2 ^ (n - (r + 1)) := by rw [hdigit]

/-! ## A stream that the passes can move (41_interleaver.md R139) -/

theorem mem_inputIndices {pm : Word64} {k c q i : Nat} :
    i ∈ inputIndices pm k c q ↔ i < c ∧ rowTest pm k q i = true := by
  simp [inputIndices]

/-- The word has `2^log2 B` positions, the bits of the stream stay in it, and the spray condition holds. -/
structure StreamFits (B : Nat) (pm : Word64) (k c q : Nat) : Prop where
  width : 2 ^ log2 B = B
  cycle_le : c ≤ B
  out_lt : ∀ i ∈ inputIndices pm k c q, pmSum pm (i * k + q) < B
  right : ∀ i ∈ inputIndices pm k c q, i ≤ pmSum pm (i * k + q)
  mono : ∀ j ∈ inputIndices pm k c q, ∀ i ∈ inputIndices pm k c q, i < j →
    pmSum pm (i * k + q) + j ≤ pmSum pm (j * k + q) + i

/-- An emission position lies among the ones of the cycle (41_interleaver.md R135). -/
theorem pmSum_lt_pmOnes {pm : Word64} {k c L q i : Nat} (hL : c * k = L) (hq : q < k) (hi : i < c)
    (hrow : rowTest pm k q i = true) : pmSum pm (i * k + q) < pmOnes pm L := by
  refine pmSum_lt ?_ hrow
  calc i * k + q < (i + 1) * k := by rw [Nat.succ_mul]; omega
    _ ≤ L := hL ▸ Nat.mul_le_mul_right k hi

theorem LegalIlv.streamFits {p : Params} {k L : Nat} {pm : Word64} {bs : Nat} (h : LegalIlv p k L pm bs)
    {q : Nat} (hq : q < k) : StreamFits p.b pm k (L / k) q := by
  have hspray := (sprayCondition_iff pm k (L / k) q).1 (h.spray q hq)
  exact
    { width := h.width
      cycle_le := h.cycle_le
      out_lt := fun i hi => by
        obtain ⟨hic, hrow⟩ := mem_inputIndices.1 hi
        exact (pmSum_lt_pmOnes h.cycle_mul hq hic hrow).trans_le h.ones_le
      right := fun i hi => by
        obtain ⟨hic, hrow⟩ := mem_inputIndices.1 hi
        exact (hspray i hic hrow).1
      mono := fun j hj i hi hij => by
        obtain ⟨hjc, hrow⟩ := mem_inputIndices.1 hj
        exact (hspray j hjc hrow).2 i hij (mem_inputIndices.1 hi).2 }

/-! ## Where the bits are after each pass (41_interleaver.md R136) -/

/-- diff_p of the bit at position `i` of the chunk. -/
def bitDiff (pm : Word64) (k q i : Nat) : Nat := pmSum pm (i * k + q) - i

/-- pos_p^r of the bit at position `i` of the chunk. -/
def bitPlace (B : Nat) (pm : Word64) (k q r i : Nat) : Nat := passPos B i (bitDiff pm k q i) r

theorem bitPlace_succ (B : Nat) (pm : Word64) (k q r i : Nat) :
    bitPlace B pm k q (r + 1) i = bitPlace B pm k q r i + (bitDiff pm k q i &&& passShift B r) := rfl

theorem bitPlace_succ_of_stays {B : Nat} {pm : Word64} {k q r i : Nat}
    (h : bitDiff pm k q i &&& passShift B r = 0) : bitPlace B pm k q (r + 1) i = bitPlace B pm k q r i := by
  rw [bitPlace_succ, h, Nat.add_zero]

theorem streamMoves_eq (pm : Word64) (k c q : Nat) :
    streamMoves pm k c q = (inputIndices pm k c q).map fun i => (i, bitDiff pm k q i) := by
  simp [streamMoves, bitDiff]

namespace StreamFits

variable {B k c q : Nat} {pm : Word64} (h : StreamFits B pm k c q)
include h

theorem bitDiff_lt {i : Nat} (hi : i ∈ inputIndices pm k c q) : bitDiff pm k q i < B :=
  (Nat.sub_le _ _).trans_lt (h.out_lt i hi)

theorem bitDiff_mono {i j : Nat} (hi : i ∈ inputIndices pm k c q) (hj : j ∈ inputIndices pm k c q)
    (hij : i < j) : bitDiff pm k q i ≤ bitDiff pm k q j := by
  have hmono := h.mono j hj i hi hij
  have hright := h.right j hj
  rw [bitDiff, bitDiff]
  omega

theorem bitPlace_eq {r i : Nat} (hr : r ≤ log2 B) (hi : i ∈ inputIndices pm k c q) :
    bitPlace B pm k q r i = i + bitDiff pm k q i / 2 ^ (log2 B - r) * 2 ^ (log2 B - r) := by
  have hd := h.bitDiff_lt hi
  rw [← h.width] at hd
  exact (congrArg (passPos · i _ r) h.width.symm).trans (passPos_eq hd i hr)

/-- After the last pass a bit is where it is emitted. -/
theorem bitPlace_last {i : Nat} (hi : i ∈ inputIndices pm k c q) :
    bitPlace B pm k q (log2 B) i = pmSum pm (i * k + q) := by
  rw [h.bitPlace_eq le_rfl hi, Nat.sub_self, Nat.pow_zero, Nat.div_one, Nat.mul_one, bitDiff]
  have hright := h.right i hi
  omega

theorem bitPlace_lt {r i : Nat} (hr : r ≤ log2 B) (hi : i ∈ inputIndices pm k c q) :
    bitPlace B pm k q r i < B := by
  have hle := Nat.div_mul_le_self (bitDiff pm k q i) (2 ^ (log2 B - r))
  have hdiff : i + bitDiff pm k q i = pmSum pm (i * k + q) := Nat.add_sub_cancel' (h.right i hi)
  have hlt := h.out_lt i hi
  rw [h.bitPlace_eq hr hi]
  omega

/-- The passes keep the order of the bits: a later bit has at least the higher digits of an earlier one. -/
theorem bitPlace_strictMono {r i j : Nat} (hr : r ≤ log2 B) (hi : i ∈ inputIndices pm k c q)
    (hj : j ∈ inputIndices pm k c q) (hij : i < j) : bitPlace B pm k q r i < bitPlace B pm k q r j := by
  rw [h.bitPlace_eq hr hi, h.bitPlace_eq hr hj]
  exact Nat.add_lt_add_of_lt_of_le hij
    (Nat.mul_le_mul_right _ (Nat.div_le_div_right (h.bitDiff_mono hi hj hij)))

/-- No two bits of the stream ever meet. -/
theorem bitPlace_inj {r i j : Nat} (hr : r ≤ log2 B) (hi : i ∈ inputIndices pm k c q)
    (hj : j ∈ inputIndices pm k c q) (heq : bitPlace B pm k q r i = bitPlace B pm k q r j) : i = j := by
  obtain hij | hij | hij := Nat.lt_trichotomy i j
  · exact absurd heq (h.bitPlace_strictMono hr hi hj hij).ne
  · exact hij
  · exact absurd heq (h.bitPlace_strictMono hr hj hi hij).ne'

theorem bitPlace_succ_of_moves {r i : Nat} (hr : r < log2 B) (hi : bitDiff pm k q i &&& passShift B r ≠ 0) :
    bitPlace B pm k q (r + 1) i = bitPlace B pm k q r i + passShift B r := by
  have hshift : bitDiff pm k q i &&& passShift B r = passShift B r := by
    rw [← h.width] at hi ⊢
    exact and_passShift_of_ne_zero hr hi
  rw [bitPlace_succ, hshift]

/-! ## The masks (41_interleaver.md R137) -/

theorem wbit_inMask {x : Nat} (hx : x < B) :
    wbit (maskFromPositions B (inputIndices pm k c q)) x = true ↔ x ∈ inputIndices pm k c q :=
  wbit_maskFromPositions (fun _ hi => (mem_inputIndices.1 hi).1.trans_le h.cycle_le) hx

theorem wbit_outMask {x : Nat} (hx : x < B) :
    wbit (maskFromPositions B (outputIndices pm k c q)) x = true ↔
      ∃ i ∈ inputIndices pm k c q, pmSum pm (i * k + q) = x := by
  rw [outputIndices, wbit_maskFromPositions (List.forall_mem_map.2 h.out_lt) hx, List.mem_map]

/-- A mask of the bits of a stream that pass a test has its set bits at their places. -/
theorem wbit_placeMask {r x : Nat} (hr : r ≤ log2 B) (hx : x < B) (test : Nat → Bool) :
    wbit (maskFromPositions B
        (((streamMoves pm k c q).filter fun y => test y.2).map fun y => passPos B y.1 y.2 r)) x = true ↔
      ∃ i ∈ inputIndices pm k c q, test (bitDiff pm k q i) = true ∧ bitPlace B pm k q r i = x := by
  have hps : ((streamMoves pm k c q).filter fun y => test y.2).map (fun y => passPos B y.1 y.2 r) =
      ((inputIndices pm k c q).filter fun i => test (bitDiff pm k q i)).map (bitPlace B pm k q r) := by
    rw [streamMoves_eq, List.filter_map, List.map_map]
    rfl
  rw [hps, wbit_maskFromPositions ?_ hx]
  · simp only [List.mem_map, List.mem_filter, and_assoc]
  · simp only [List.forall_mem_map, List.mem_filter]
    exact fun i hi => h.bitPlace_lt hr hi.1

theorem wbit_moveMask {r x : Nat} (hr : r ≤ log2 B) (hx : x < B) :
    wbit (moveMask B (streamMoves pm k c q) r) x = true ↔
      ∃ i ∈ inputIndices pm k c q, bitDiff pm k q i &&& passShift B r ≠ 0 ∧ bitPlace B pm k q r i = x := by
  rw [moveMask, h.wbit_placeMask hr hx fun d => d &&& passShift B r != 0]
  simp only [bne_iff_ne]

theorem wbit_stayMask {r x : Nat} (hr : r ≤ log2 B) (hx : x < B) :
    wbit (stayMask B (streamMoves pm k c q) r) x = true ↔
      ∃ i ∈ inputIndices pm k c q, bitDiff pm k q i &&& passShift B r = 0 ∧ bitPlace B pm k q r i = x := by
  rw [stayMask, h.wbit_placeMask hr hx fun d => d &&& passShift B r == 0]
  simp only [beq_iff_eq]

end StreamFits

end Sys2Proof.Machine

/-! PROOFS. ISCH and the passes: the words of a stream (10_state.md R53), `spray` and `despray` by induction on
the passes (41_interleaver.md R138), and what ILV_CFG writes (R131, R133). -/

namespace Sys2Proof.Machine

/-! ## The words of ISCH (10_state.md R53) -/

section Words

variable (B : Nat) (pm : Word64) (k c q : Nat)

theorem scheduleWords_inMask :
    (scheduleWords B pm k c q)[0]? = some (maskFromPositions B (inputIndices pm k c q)) := rfl

theorem scheduleWords_outMask :
    (scheduleWords B pm k c q)[1]? = some (maskFromPositions B (outputIndices pm k c q)) := rfl

variable {B}

theorem scheduleWords_move {r : Nat} (hr : r < log2 B) :
    (scheduleWords B pm k c q)[2 + 2 * r]? = some (moveMask B (streamMoves pm k c q) r) := by
  rw [scheduleWords, Nat.add_comm, List.getElem?_cons_succ, List.getElem?_cons_succ, Nat.mul_comm]
  exact getElem?_flatMap_range (n := 2) (j := 0) (fun _ => rfl) hr (by decide)

theorem scheduleWords_stay {r : Nat} (hr : r < log2 B) :
    (scheduleWords B pm k c q)[3 + 2 * r]? = some (stayMask B (streamMoves pm k c q) r) := by
  rw [scheduleWords, show 3 + 2 * r = r * 2 + 1 + 1 + 1 by omega, List.getElem?_cons_succ,
    List.getElem?_cons_succ]
  exact getElem?_flatMap_range (n := 2) (j := 1) (fun _ => rfl) hr (by decide)

variable {q}

/-- The words of the streams stand one stream after the other. -/
theorem scheduleTable_getElem? (hq : q < k) {j : Nat} (hj : j < scheduleLen B) :
    (scheduleTable B pm k c)[q * scheduleLen B + j]? = (scheduleWords B pm k c q)[j]? :=
  getElem?_flatMap_range (scheduleWords_length B pm k c) hq hj

theorem scheduleWord_scheduleTable (hq : q < k) {j : Nat} (hj : j < scheduleLen B) {w : Word B}
    (hw : (scheduleWords B pm k c q)[j]? = some w) : scheduleWord (scheduleTable B pm k c) q j = w := by
  rw [scheduleWord, List.getD_eq_getElem?_getD, scheduleTable_getElem? pm k c hq hj, hw]
  rfl

end Words

/-- Pass `r` of a stream (41_interleaver.md R137). -/
def streamPass (B : Nat) (pm : Word64) (k c q r : Nat) : Pass B :=
  { shift := passShift B r
    move := moveMask B (streamMoves pm k c q) r
    stay := stayMask B (streamMoves pm k c q) r }

/-- The schedule of a stream as its words in ISCH say it. -/
theorem readSchedule_scheduleTable {B : Nat} (pm : Word64) {k q : Nat} (c : Nat) (hq : q < k) :
    readSchedule (scheduleTable B pm k c) q =
      { inMask := maskFromPositions B (inputIndices pm k c q)
        outMask := maskFromPositions B (outputIndices pm k c q)
        passes := (List.range (log2 B)).map (streamPass B pm k c q) } := by
  have hlen : scheduleLen B = 2 * log2 B + 2 := rfl
  rw [readSchedule, scheduleWord_scheduleTable pm k c hq (by omega) (scheduleWords_inMask B pm k c q),
    scheduleWord_scheduleTable pm k c hq (by omega) (scheduleWords_outMask B pm k c q)]
  congr 1
  refine List.map_congr_left fun r hr => ?_
  have hr := List.mem_range.1 hr
  rw [scheduleWord_scheduleTable pm k c hq (by omega) (scheduleWords_move pm k c q hr),
    scheduleWord_scheduleTable pm k c hq (by omega) (scheduleWords_stay pm k c q hr), streamPass]

/-! ## The passes (41_interleaver.md R138) -/

theorem wbit_sprayPass {B : Nat} (v : Word B) (g : Pass B) {x : Nat} (hx : x < B) :
    wbit (sprayPass v g) x = true ↔
      (g.shift ≤ x ∧ wbit v (x - g.shift) = true ∧ wbit g.move (x - g.shift) = true) ∨
        (wbit v x = true ∧ wbit g.stay x = true) := by
  simp [sprayPass, wbit_shiftRight _ _ hx]

theorem wbit_desprayPass {B : Nat} (v : Word B) (g : Pass B) (x : Nat) :
    wbit (desprayPass v g) x = true ↔
      (wbit v (x + g.shift) = true ∧ wbit g.move x = true) ∨ (wbit v x = true ∧ wbit g.stay x = true) := by
  rw [desprayPass, wbit_or, wbit_shiftLeft, wbit_and, wbit_and]
  by_cases hx : x + g.shift < B
  · rw [wbit_shiftRight _ _ hx, decide_eq_true (Nat.le_add_left _ _), Nat.add_sub_cancel]
    simp
  · simp [wbit_of_le v (Nat.not_lt.1 hx)]

/-- The word holds at the place of every bit of the stream after `r` passes what `bit` says of it, and 0
elsewhere. -/
def PlacedAt (B : Nat) (pm : Word64) (k c q r : Nat) (bit : Nat → Bool) (v : Word B) : Prop :=
  ∀ x < B, wbit v x = true ↔
    ∃ i ∈ inputIndices pm k c q, bitPlace B pm k q r i = x ∧ bit i = true

namespace StreamFits

variable {B k c q : Nat} {pm : Word64} (h : StreamFits B pm k c q)
include h

theorem placedAt_inMask (w : Word B) :
    PlacedAt B pm k c q 0 (wbit w) (w &&& maskFromPositions B (inputIndices pm k c q)) := by
  intro x hx
  rw [wbit_and, Bool.and_eq_true, h.wbit_inMask hx]
  exact ⟨fun ⟨hw, hi⟩ => ⟨x, hi, rfl, hw⟩, fun ⟨_, hi, hplace, hw⟩ => hplace ▸ ⟨hw, hi⟩⟩

theorem placedAt_outMask (w : Word B) :
    PlacedAt B pm k c q (log2 B) (fun i => wbit w (pmSum pm (i * k + q)))
      (w &&& maskFromPositions B (outputIndices pm k c q)) := by
  intro x hx
  rw [wbit_and, Bool.and_eq_true, h.wbit_outMask hx]
  constructor
  · rintro ⟨hw, i, hi, rfl⟩
    exact ⟨i, hi, h.bitPlace_last hi, hw⟩
  · rintro ⟨i, hi, hplace, hw⟩
    rw [h.bitPlace_last hi] at hplace
    exact ⟨hplace ▸ hw, i, hi, hplace⟩

/-- A pass of `spray` takes every bit to its next place: no other bit is where a moving or a staying bit
is. -/
theorem placedAt_sprayPass {r : Nat} (hr : r < log2 B) {bit : Nat → Bool} {v : Word B}
    (hv : PlacedAt B pm k c q r bit v) :
    PlacedAt B pm k c q (r + 1) bit (sprayPass v (streamPass B pm k c q r)) := by
  intro x hx
  rw [wbit_sprayPass v _ hx]
  dsimp only [streamPass]
  constructor
  · rintro (⟨hle, hbit, hmask⟩ | ⟨hbit, hmask⟩)
    · obtain ⟨i, hi, hplace, hbit⟩ := (hv _ (by omega)).1 hbit
      obtain ⟨i', hi', hmoves, hplace'⟩ := (h.wbit_moveMask hr.le (by omega)).1 hmask
      obtain rfl := h.bitPlace_inj hr.le hi hi' (hplace.trans hplace'.symm)
      refine ⟨i, hi, ?_, hbit⟩
      rw [h.bitPlace_succ_of_moves hr hmoves, hplace]
      omega
    · obtain ⟨i, hi, hplace, hbit⟩ := (hv x hx).1 hbit
      obtain ⟨i', hi', hstays, hplace'⟩ := (h.wbit_stayMask hr.le hx).1 hmask
      obtain rfl := h.bitPlace_inj hr.le hi hi' (hplace.trans hplace'.symm)
      exact ⟨i, hi, (bitPlace_succ_of_stays hstays).trans hplace, hbit⟩
  · rintro ⟨i, hi, hplace, hbit⟩
    by_cases hd : bitDiff pm k q i &&& passShift B r = 0
    · rw [bitPlace_succ_of_stays hd] at hplace
      exact .inr ⟨(hv x hx).2 ⟨i, hi, hplace, hbit⟩, (h.wbit_stayMask hr.le hx).2 ⟨i, hi, hd, hplace⟩⟩
    · rw [h.bitPlace_succ_of_moves hr hd] at hplace
      have hback : bitPlace B pm k q r i = x - passShift B r := by omega
      exact .inl ⟨by omega, (hv _ (by omega)).2 ⟨i, hi, hback, hbit⟩,
        (h.wbit_moveMask hr.le (by omega)).2 ⟨i, hi, hd, hback⟩⟩

/-- A pass of `despray` takes every bit back to its place before it. -/
theorem placedAt_desprayPass {r : Nat} (hr : r < log2 B) {bit : Nat → Bool} {v : Word B}
    (hv : PlacedAt B pm k c q (r + 1) bit v) :
    PlacedAt B pm k c q r bit (desprayPass v (streamPass B pm k c q r)) := by
  intro x hx
  rw [wbit_desprayPass]
  dsimp only [streamPass]
  rw [h.wbit_moveMask hr.le hx, h.wbit_stayMask hr.le hx]
  constructor
  · rintro (⟨hbit, i, hi, hmoves, rfl⟩ | ⟨hbit, i, hi, hstays, rfl⟩)
    · rw [← h.bitPlace_succ_of_moves hr hmoves] at hbit
      obtain ⟨i', hi', hplace, hbit'⟩ := (hv _ (h.bitPlace_lt hr hi)).1 hbit
      obtain rfl := h.bitPlace_inj hr hi' hi hplace
      exact ⟨i', hi', rfl, hbit'⟩
    · rw [← bitPlace_succ_of_stays hstays] at hbit
      obtain ⟨i', hi', hplace, hbit'⟩ := (hv _ (h.bitPlace_lt hr hi)).1 hbit
      obtain rfl := h.bitPlace_inj hr hi' hi hplace
      exact ⟨i', hi', rfl, hbit'⟩
  · rintro ⟨i, hi, rfl, hbit⟩
    have hnext := (hv _ (h.bitPlace_lt hr hi)).2 ⟨i, hi, rfl, hbit⟩
    by_cases hd : bitDiff pm k q i &&& passShift B r = 0
    · rw [bitPlace_succ_of_stays hd] at hnext
      exact .inr ⟨hnext, i, hi, hd, rfl⟩
    · rw [h.bitPlace_succ_of_moves hr hd] at hnext
      exact .inl ⟨hnext, i, hi, hd, rfl⟩

theorem placedAt_sprayPasses {bit : Nat → Bool} {v : Word B} (hv : PlacedAt B pm k c q 0 bit v) {m : Nat}
    (hm : m ≤ log2 B) :
    PlacedAt B pm k c q m bit (((List.range m).map (streamPass B pm k c q)).foldl sprayPass v) := by
  induction m with
  | zero => exact hv
  | succ m ih =>
    rw [List.range_succ, List.map_append, List.foldl_append]
    exact h.placedAt_sprayPass hm (ih (by omega))

theorem placedAt_desprayPasses {bit : Nat → Bool} {m : Nat} (hm : m ≤ log2 B) {v : Word B}
    (hv : PlacedAt B pm k c q m bit v) :
    PlacedAt B pm k c q 0 bit
      (((List.range m).map (streamPass B pm k c q)).reverse.foldl desprayPass v) := by
  induction m generalizing v with
  | zero => exact hv
  | succ m ih =>
    rw [List.range_succ, List.map_append, List.reverse_append]
    exact ih (by omega) (h.placedAt_desprayPass hm hv)

variable {sch : Schedule B} (hq : q < k) (hsch : sch = readSchedule (scheduleTable B pm k c) q)
include hq hsch

theorem placedAt_spray (w : Word B) :
    PlacedAt B pm k c q (log2 B) (wbit w) (spray sch (w &&& sch.inMask)) := by
  rw [hsch, readSchedule_scheduleTable pm c hq]
  exact h.placedAt_sprayPasses (h.placedAt_inMask w) le_rfl

theorem placedAt_despray {bit : Nat → Bool} {v : Word B} (hv : PlacedAt B pm k c q (log2 B) bit v) :
    PlacedAt B pm k c q 0 bit (despray sch v) := by
  rw [hsch, readSchedule_scheduleTable pm c hq]
  exact h.placedAt_desprayPasses le_rfl hv

/-- `spray_p` moves the bit at II_p[j] to OO_p[j] (41_interleaver.md R138). -/
theorem wbit_spray (w : Word B) {x : Nat} (hx : x < B) :
    wbit (spray sch (w &&& sch.inMask)) x = true ↔
      ∃ i < c, rowTest pm k q i = true ∧ pmSum pm (i * k + q) = x ∧ wbit w i = true := by
  rw [h.placedAt_spray hq hsch w x hx]
  refine exists_congr fun i => ?_
  rw [mem_inputIndices, and_assoc]
  refine and_congr_right fun hi => and_congr_right fun hrow => ?_
  rw [h.bitPlace_last (mem_inputIndices.2 ⟨hi, hrow⟩)]

/-- `despray_p` moves the bit at OO_p[j] to II_p[j] (41_interleaver.md R138). -/
theorem wbit_despray (w : Word B) {x : Nat} (hx : x < B) :
    wbit (despray sch (w &&& sch.outMask)) x = true ↔
      x < c ∧ rowTest pm k q x = true ∧ wbit w (pmSum pm (x * k + q)) = true := by
  have hout : sch.outMask = maskFromPositions B (outputIndices pm k c q) := by
    rw [hsch, readSchedule_scheduleTable pm c hq]
  rw [h.placedAt_despray hq hsch (hout ▸ h.placedAt_outMask w) x hx]
  refine Iff.trans ?_ and_assoc
  rw [← mem_inputIndices]
  exact ⟨fun ⟨_, hi, hplace, hw⟩ => hplace ▸ ⟨hi, hw⟩, fun ⟨hi, hw⟩ => ⟨x, hi, rfl, hw⟩⟩

theorem despray_spray (w : Word B) : despray sch (spray sch (w &&& sch.inMask)) = w &&& sch.inMask := by
  have hback := h.placedAt_despray hq hsch (h.placedAt_spray hq hsch w)
  have hin : PlacedAt B pm k c q 0 (wbit w) (w &&& sch.inMask) := by
    rw [hsch, readSchedule_scheduleTable pm c hq]
    exact h.placedAt_inMask w
  exact word_ext fun x hx => Bool.eq_iff_iff.2 ((hback x hx).trans (hin x hx).symm)

end StreamFits

/-- Settles O22, by induction on the passes: after every pass each bit of the stream is at its place. -/
theorem sprayMovesEachBitToItsPlace : Obligations.SprayMovesEachBitToItsPlace := by
  intro p k L pm bs q hpar hrows hq sch w hsch
  have hfits := (legalIlv_of_rows hpar hrows).streamFits hq
  exact ⟨fun x hx => hfits.wbit_spray hq hsch w hx, fun x hx => hfits.wbit_despray hq hsch w hx,
    hfits.despray_spray hq hsch w⟩

/-! ## What ILV_CFG writes (41_interleaver.md R131, R133) -/

theorem elem?_of_holds {s : State} {sp : Space} {vs : List Word64} (h : s.holds sp 0 vs) {i : Nat}
    (hi : i < vs.length) : s.elem? sp i = vs[i]? := by
  have hget := congrArg (fun l => l[i]?) h
  simpa [hi] using hget

/-- A word of a stream in ISCH that ILV_CFG has written, with its set positions where `P` says. -/
theorem maskAt_ilvConfigure {s : State}
    (hcheck : ilvCheck s.par s.regs.ilvK.toNat s.regs.ilvL.toNat s.regs.ilvPm s.regs.ilvBs.toNat = none)
    (hB : s.par.b ≤ 64) {q j : Nat} {P : Nat → Prop} {w : Word s.par.b} (hq : q < s.regs.ilvK.toNat)
    (hw : (scheduleWords s.par.b s.regs.ilvPm s.regs.ilvK.toNat
      (s.regs.ilvL.toNat / s.regs.ilvK.toNat) q)[j]? = some w)
    (hP : ∀ x < s.par.b, wbit w x = true ↔ P x) :
    MaskAt (ilvConfigure s) (q * scheduleLen s.par.b + j) P := by
  obtain ⟨-, -, hholds⟩ := ilvDescribed_ilvConfigure hcheck
  have hj : j < scheduleLen s.par.b := by
    rw [← scheduleWords_length s.par.b s.regs.ilvPm s.regs.ilvK.toNat _ q]
    exact (List.getElem?_eq_some_iff.1 hw).1
  have hlt : q * scheduleLen s.par.b + j < s.regs.ilvK.toNat * scheduleLen s.par.b :=
    calc q * scheduleLen s.par.b + j < (q + 1) * scheduleLen s.par.b := by rw [Nat.succ_mul]; omega
      _ ≤ s.regs.ilvK.toNat * scheduleLen s.par.b := Nat.mul_le_mul_right _ hq
  refine ⟨w.setWidth 64, ?_, fun x hx => ?_⟩
  · refine (elem?_of_holds hholds ?_).trans ?_
    · rw [elemsOfWords, List.length_map, scheduleTable_length]
      exact hlt
    · rw [elemsOfWords, List.getElem?_map]
      exact congrArg (Option.map _) ((scheduleTable_getElem? _ _ _ hq hj).trans hw)
  · exact (setWidth_setWidth_64 hB w).symm ▸ hP x hx

/-- 8·BS is a whole number of cycles (41_interleaver.md R133). -/
theorem ceilDiv_of_dvd {a b : Nat} (hb : 0 < b) (h : b ∣ a) : ceilDiv a b = a / b := by
  obtain ⟨m, rfl⟩ := h
  rw [ceilDiv, Nat.mul_div_cancel_left m hb, Nat.add_sub_assoc hb, Nat.mul_add_div hb,
    Nat.div_eq_of_lt (by omega), Nat.add_zero]

theorem ilvConfigure_regs {s : State}
    (hlegal : LegalIlv s.par s.regs.ilvK.toNat s.regs.ilvL.toNat s.regs.ilvPm s.regs.ilvBs.toNat) :
    (ilvConfigure s).regs = { s.regs with
      status := s.regs.status ||| 0x1
      ilvC := BitVec.ofNat 64 (s.regs.ilvL.toNat / s.regs.ilvK.toNat)
      ilvOnes := BitVec.ofNat 64 (pmOnes s.regs.ilvPm s.regs.ilvL.toNat)
      ilvNin := BitVec.ofNat 64 (s.regs.ilvL.toNat / s.regs.ilvK.toNat)
      ilvNout := BitVec.ofNat 64 (pmOnes s.regs.ilvPm s.regs.ilvL.toNat)
      ilvNiter := BitVec.ofNat 64
        (8 * s.regs.ilvBs.toNat / (s.regs.ilvL.toNat / s.regs.ilvK.toNat))
      ilvInlen := BitVec.ofNat 64 (inBufLen s.par.b s.regs.ilvK.toNat s.regs.ilvBs.toNat)
      ilvOutlen := BitVec.ofNat 64 (outBufLen s.regs.ilvBs.toNat
        (pmOnes s.regs.ilvPm s.regs.ilvL.toNat) (s.regs.ilvL.toNat / s.regs.ilvK.toNat)) } := by
  have hstatus : putBit s.regs.status Engine.ilv.validBit true = s.regs.status ||| 0x1 := rfl
  rw [← ceilDiv_of_dvd hlegal.cycle_pos (hlegal.cycle_dvd.mul_left 8), ← hstatus]
  rfl

theorem sameElemsBut_ilvConfigure (s : State) :
    SameElemsBut s (ilvConfigure s) fun sp i =>
      sp = .isch ∧ i < s.regs.ilvK.toNat * scheduleLen s.par.b := by
  intro sp i hout
  refine sameElemsBut_write s .isch 0 _ sp i fun hin => hout ⟨hin.1, ?_⟩
  have hlt := hin.2.2
  rwa [Nat.zero_add, elemsOfWords, List.length_map, scheduleTable_length] at hlt

/-- Settles O21: the registers, the frame, and the masks word by word. -/
theorem ilvCfgDescribesTheInterleaver : Obligations.IlvCfgDescribesTheInterleaver := by
  rintro s k L bs hpar rfl rfl rfl hrows
  have hlegal := legalIlv_of_rows hpar hrows
  have hcheck := ilvCheck_eq_none_iff.2 hrows
  refine ⟨ilvConfigure s, by rw [exec_ilvCfg, hcheck]; rfl, samePort_ilvConfigure s,
    ilvConfigure_regs hlegal, sameElemsBut_ilvConfigure s, ?_⟩
  rintro q hq E on out d rfl hon hout hd
  have hfits := hlegal.streamFits hq
  obtain rfl : out = fun i => pmSum s.regs.ilvPm (i * s.regs.ilvK.toNat + q) := funext hout
  obtain rfl : d = bitDiff s.regs.ilvPm s.regs.ilvK.toNat q := funext hd
  obtain rfl : on = fun i => i ∈ inputIndices s.regs.ilvPm s.regs.ilvK.toNat
      (s.regs.ilvL.toNat / s.regs.ilvK.toNat) q :=
    funext fun i => propext ((hon i).trans mem_inputIndices.symm)
  refine ⟨maskAt_ilvConfigure hcheck hlegal.width_le hq (scheduleWords_inMask ..)
      fun x hx => hfits.wbit_inMask hx,
    maskAt_ilvConfigure hcheck hlegal.width_le hq (scheduleWords_outMask ..)
      fun x hx => hfits.wbit_outMask hx, fun r hr => ⟨?_, ?_⟩⟩
  · rw [Nat.add_assoc]
    exact maskAt_ilvConfigure hcheck hlegal.width_le hq (scheduleWords_move _ _ _ _ hr)
      fun x hx => hfits.wbit_moveMask hr.le hx
  · rw [Nat.add_assoc]
    exact maskAt_ilvConfigure hcheck hlegal.width_le hq (scheduleWords_stay _ _ _ _ hr)
      fun x hx => hfits.wbit_stayMask hr.le hx

end Sys2Proof.Machine

/-! PROOFS. ILV_FWD: the emission order and its index (41_interleaver.md R143), the words that ILV_FWD folds
(R140, R142), packing (00_scope.md R12), and the command on a configured interleaver. -/

namespace Sys2Proof.Machine

/-! ## The emission order (41_interleaver.md R143) -/

theorem countP_range_add (p : Nat → Bool) (m n : Nat) :
    (List.range (m + n)).countP p =
      (List.range m).countP p + (List.range n).countP fun i => p (m + i) := by
  rw [List.range_add, List.countP_append, List.countP_map]
  rfl

/-- The ones before position `a·L + b` of the repeated matrix: `a` whole cycles and a part of one. -/
theorem countP_range_cycles (pm : Word64) (L a : Nat) {b : Nat} (hb : b ≤ L) :
    (List.range (a * L + b)).countP (fun m => pmTest pm (m % L)) = a * pmOnes pm L + pmSum pm b := by
  have hcycle : ∀ n ≤ L, (List.range n).countP (fun m => pmTest pm (m % L)) = pmSum pm n := fun n hn =>
    List.countP_congr fun m hm => by rw [Nat.mod_eq_of_lt ((List.mem_range.1 hm).trans_le hn)]
  induction a with
  | zero => rw [Nat.zero_mul, Nat.zero_add, Nat.zero_mul, Nat.zero_add, hcycle b hb]
  | succ a ih =>
    rw [Nat.succ_mul, Nat.add_comm (a * L), Nat.add_assoc, countP_range_add, hcycle L le_rfl]
    simp only [Nat.add_mod_left]
    rw [ih, pmOnes]
    ring

theorem mem_emissionOrder {pm : Word64} {k c nbits t p : Nat} :
    (t, p) ∈ emissionOrder pm k c nbits ↔
      t < nbits ∧ p < k ∧ pmTest pm (t % c * k + p) = true := by
  simp [emissionOrder]

/-- The emission order is the set positions of the repeated matrix. -/
theorem emissionOrder_eq_filter (pm : Word64) (k c nbits : Nat) :
    emissionOrder pm k c nbits =
      ((List.range (nbits * k)).filter fun m => pmTest pm (m % (c * k))).map fun m => (m / k, m % k) := by
  have hrow : ∀ t, ((List.range k).filter fun p => pmTest pm (t % c * k + p)).map (fun p => (t, p)) =
      ((List.range k).map (Prod.mk t)).filter fun x => pmTest pm (x.1 % c * k + x.2) := fun t => by
    rw [List.filter_map]
    rfl
  simp only [emissionOrder, hrow]
  rw [← List.filter_flatMap, flatMap_range_map_range, List.filter_map]
  congr 1
  refine List.filter_congr fun m _ => ?_
  rw [Nat.mul_comm c k, Nat.mod_mul, Nat.add_comm, Nat.mul_comm]
  rfl

section Emission

variable {k L : Nat} (hc : 0 < L / k) (hL : L / k * k = L) (pm : Word64)
include hc hL

/-- The index of a pair counts the ones before it. -/
theorem emissionIndex_eq_countP (t : Nat) {p : Nat} (hp : p < k) :
    emissionIndex pm L k t p = (List.range (t * k + p)).countP fun m => pmTest pm (m % L) := by
  have hpart : t % (L / k) * k + p ≤ L :=
    calc t % (L / k) * k + p ≤ (t % (L / k) + 1) * k := by rw [Nat.succ_mul]; omega
      _ ≤ L / k * k := Nat.mul_le_mul_right k (Nat.mod_lt t hc)
      _ = L := hL
  have hsplit : t * k + p = t / (L / k) * L + (t % (L / k) * k + p) := by
    conv_lhs => rw [← Nat.div_add_mod' t (L / k), Nat.add_mul, Nat.mul_assoc, hL]
    rw [Nat.add_assoc]
  rw [hsplit, countP_range_cycles pm L _ hpart, emissionIndex]

/-- The pairs of whole cycles are emitted at 0, 1, 2, …, in order. -/
theorem emissionOrder_map_emissionIndex (a : Nat) :
    (emissionOrder pm k (L / k) (a * (L / k))).map (fun x => emissionIndex pm L k x.1 x.2) =
      List.range (a * pmOnes pm L) := by
  have hk : 0 < k := Nat.pos_of_ne_zero fun h0 => by simp [h0] at hc
  have hindex : ∀ m, emissionIndex pm L k (m / k) (m % k) =
      (List.range m).countP fun m => pmTest pm (m % L) := fun m => by
    rw [emissionIndex_eq_countP hc hL pm _ (Nat.mod_lt m hk), Nat.div_add_mod']
  rw [emissionOrder_eq_filter, hL, List.map_map, Nat.mul_assoc, hL]
  simp only [Function.comp_def, hindex]
  rw [filter_range_map_countP, ← Nat.add_zero (a * L), countP_range_cycles pm L a (Nat.zero_le L)]
  rfl

/-- A pair that is not punctured stands in the emission order at its index. -/
theorem emissionOrder_getElem?_emissionIndex {a t p : Nat}
    (hmem : (t, p) ∈ emissionOrder pm k (L / k) (a * (L / k))) :
    (emissionOrder pm k (L / k) (a * (L / k)))[emissionIndex pm L k t p]? = some (t, p) := by
  obtain ⟨n, hn⟩ := List.mem_iff_getElem?.1 hmem
  have hindex := congrArg (fun l => l[n]?) (emissionOrder_map_emissionIndex hc hL pm a)
  simp only [List.getElem?_map, hn, Option.map_some] at hindex
  obtain ⟨_, hrange⟩ := List.getElem?_eq_some_iff.1 hindex.symm
  rw [List.getElem_range] at hrange
  rw [← hrange]
  exact hn

end Emission

/-- A pair that is not punctured is emitted in the cycle of its time, at the place of its bit there. -/
theorem emissionIndex_div_mod {pm : Word64} {k L t p : Nat} (hc : 0 < L / k) (hL : L / k * k = L) (hp : p < k)
    (htest : pmTest pm (t % (L / k) * k + p) = true) :
    emissionIndex pm L k t p / pmOnes pm L = t / (L / k) ∧
      emissionIndex pm L k t p % pmOnes pm L = pmSum pm (t % (L / k) * k + p) := by
  have hlt := pmSum_lt_pmOnes (pm := pm) hL hp (Nat.mod_lt t hc) htest
  have hones : 0 < pmOnes pm L := by omega
  rw [emissionIndex, Nat.add_comm, Nat.add_mul_div_right _ _ hones, Nat.add_mul_mod_self_right,
    Nat.div_eq_of_lt hlt, Nat.mod_eq_of_lt hlt, Nat.zero_add]
  exact ⟨rfl, rfl⟩

/-! ## The folded words (41_interleaver.md R140, R142) -/

/-- `acc` of one iteration, on words of IW that have been read. -/
def forwardWord {B : Nat} (isch iw : List (Word B)) (k c it : Nat) : Word B :=
  (List.range k).foldl (fun acc p =>
    acc ||| spray (readSchedule isch p) (chunk iw k c p it &&& (readSchedule isch p).inMask)) 0#B

/-- Where the words of IW that hold the chunks are written, an iteration folds them and draws nothing. -/
theorem foldIteration_written {B n k c it : Nat} (isch : List (Word B)) {s : State} (hc : 0 < c)
    (hcB : c ≤ B) (hw : s.written .iw 0 n) (hn : ∀ p < k, ∀ i < c, (it * c + i) / B * k + p < n) :
    foldIteration isch k c it s =
      (forwardWord isch (wordsOfElems B (s.values .iw 0 n)) k c it, s) := by
  refine (foldReads_written (P := fun _ => True) (fun acc _ p hp => ?_) trivial).1
  rw [readChunk_written hc hcB hw (hn p (List.mem_range.1 hp))]
  exact ⟨rfl, trivial⟩

/-- A position of a sequence of ones has one stream and one phase: PM.sum tells set positions apart. -/
theorem pmSum_inj {pm : Word64} {k p p' i i' : Nat} (hp : p < k) (hp' : p' < k)
    (hi : rowTest pm k p i = true) (hi' : rowTest pm k p' i' = true)
    (h : pmSum pm (i * k + p) = pmSum pm (i' * k + p')) : p = p' ∧ i = i' := by
  have hpos : i * k + p = i' * k + p' := by
    obtain hlt | heq | hlt := Nat.lt_trichotomy (i * k + p) (i' * k + p')
    · exact absurd h (pmSum_lt hlt hi).ne
    · exact heq
    · exact absurd h (pmSum_lt hlt hi').ne'
  exact (block_place_inj hp hp' hpos).symm

namespace LegalIlv

variable {par : Params} {k L bs : Nat} {pm : Word64} (h : LegalIlv par k L pm bs)
include h

/-- The folded word holds at the place of an emitted bit the stream bit that is emitted there. -/
theorem wbit_forwardWord (iw : List (Word par.b)) (it : Nat) {p i : Nat} (hp : p < k) (hi : i < L / k)
    (hrow : rowTest pm k p i = true) :
    wbit (forwardWord (scheduleTable par.b pm k (L / k)) iw k (L / k) it) (pmSum pm (i * k + p)) =
      streamBit iw k p (it * (L / k) + i) := by
  have hx := (h.streamFits hp).out_lt i (mem_inputIndices.2 ⟨hi, hrow⟩)
  have hchunk : ∀ {p i}, i < L / k → wbit (chunk iw k (L / k) p it) i = streamBit iw k p (it * (L / k) + i) :=
    fun hi => by rw [wbit_chunk iw h.cycle_le (hi.trans_le h.cycle_le), decide_eq_true hi, Bool.true_and]
  rw [forwardWord, wbit_foldl_or, Bool.eq_iff_iff, List.any_eq_true]
  constructor
  · rintro ⟨p', hp', hbit⟩
    have hp' := List.mem_range.1 hp'
    obtain ⟨i', hi', hrow', hsum, hsource⟩ := ((h.streamFits hp').wbit_spray hp' rfl _ hx).1 hbit
    obtain ⟨rfl, rfl⟩ := pmSum_inj hp' hp hrow' hrow hsum
    rwa [hchunk hi'] at hsource
  · intro hbit
    refine ⟨p, List.mem_range.2 hp, ((h.streamFits hp).wbit_spray hp rfl _ hx).2 ⟨i, hi, hrow, rfl, ?_⟩⟩
    rwa [hchunk hi]

/-- The block is a whole number of cycles (41_interleaver.md R133). -/
theorem niter_mul_cycle : 8 * bs / (L / k) * (L / k) = 8 * bs :=
  Nat.div_mul_cancel (h.cycle_dvd.mul_left 8)

/-- The iterations emit exactly the bytes of IB (41_interleaver.md R133). -/
theorem niter_mul_ones : 8 * bs / (L / k) * pmOnes pm L = 8 * outBufLen bs (pmOnes pm L) (L / k) := by
  obtain ⟨m, hm⟩ := h.cycle_dvd
  rw [hm, outBufLen, Nat.mul_left_comm, Nat.mul_assoc, Nat.mul_div_cancel_left _ h.cycle_pos,
    Nat.mul_div_cancel_left _ h.cycle_pos, Nat.mul_assoc]

/-- The pairs of the block are emitted at 0, 1, 2, …, in order. -/
theorem emissionOrder_map_emissionIndex :
    (emissionOrder pm k (L / k) (8 * bs)).map (fun x => emissionIndex pm L k x.1 x.2) =
      List.range (8 * outBufLen bs (pmOnes pm L) (L / k)) := by
  have horder := Machine.emissionOrder_map_emissionIndex h.cycle_pos h.cycle_mul pm (8 * bs / (L / k))
  rwa [h.niter_mul_cycle, h.niter_mul_ones] at horder

theorem emissionOrder_getElem?_emissionIndex {t p : Nat} (ht : t < 8 * bs) (hp : p < k)
    (htest : pmTest pm (t % (L / k) * k + p) = true) :
    (emissionOrder pm k (L / k) (8 * bs))[emissionIndex pm L k t p]? = some (t, p) := by
  have hmem := mem_emissionOrder.2 ⟨ht, hp, htest⟩
  rw [← h.niter_mul_cycle] at hmem ⊢
  exact Machine.emissionOrder_getElem?_emissionIndex h.cycle_pos h.cycle_mul pm hmem

theorem emissionOrder_length :
    (emissionOrder pm k (L / k) (8 * bs)).length = 8 * outBufLen bs (pmOnes pm L) (L / k) := by
  simpa using congrArg List.length h.emissionOrder_map_emissionIndex

/-- The bits of the block lie in the words of IW (41_interleaver.md R133). -/
theorem wordIndex_lt {t p : Nat} (ht : t < 8 * bs) (hp : p < k) :
    t / par.b * k + p < inBufLen par.b k bs := by
  have hbytes := h.bytes_pos
  have hdiv : t / par.b < ceilDiv bs (par.b / 8) := by
    have hceil := Nat.div_add_mod (bs + par.b / 8 - 1) (par.b / 8)
    have hrest := Nat.mod_lt (bs + par.b / 8 - 1) hbytes
    rw [Nat.div_lt_iff_lt_mul (by have := h.bytes; omega), ceilDiv, h.bytes, Nat.mul_left_comm,
      Nat.mul_div_cancel_left _ (by decide : 0 < 8), Nat.mul_comm _ (par.b / 8)]
    omega
  calc t / par.b * k + p < (t / par.b + 1) * k := by rw [Nat.succ_mul]; omega
    _ ≤ ceilDiv bs (par.b / 8) * k := Nat.mul_le_mul_right k hdiv
    _ = inBufLen par.b k bs := Nat.mul_comm ..

theorem blockTime_lt {it i : Nat} (hit : it < 8 * bs / (L / k)) (hi : i < L / k) :
    it * (L / k) + i < 8 * bs :=
  calc it * (L / k) + i < (it + 1) * (L / k) := by rw [Nat.succ_mul]; omega
    _ ≤ 8 * bs / (L / k) * (L / k) := Nat.mul_le_mul_right _ hit
    _ = 8 * bs := h.niter_mul_cycle

/-- On written words of IW the iterations give the bit-level function, and draw nothing
(41_interleaver.md R143). -/
theorem forwardBits_written {s : State} (hw : s.written .iw 0 (inBufLen par.b k bs)) :
    forwardBits (scheduleTable par.b pm k (L / k)) k (L / k) (8 * bs / (L / k)) (pmOnes pm L) s =
      (forwardReference (wordsOfElems par.b (s.values .iw 0 (inBufLen par.b k bs))) pm k (L / k) (8 * bs),
        s) := by
  have hreads := mapReads_written (f := foldIteration (scheduleTable par.b pm k (L / k)) k (L / k)) (s := s)
    (as := List.range (8 * bs / (L / k))) fun it hit =>
      foldIteration_written _ h.cycle_pos h.cycle_le hw fun p hp i hi =>
        h.wordIndex_lt (h.blockTime_lt (List.mem_range.1 hit) hi) hp
  rw [forwardBits]
  simp only [hreads, List.flatMap_map]
  rw [flatMap_range_map_range, h.niter_mul_ones, ← h.emissionOrder_map_emissionIndex, List.map_map,
    forwardReference]
  congr 1
  refine List.map_congr_left fun ⟨t, p⟩ hmem => ?_
  obtain ⟨-, hp, htest⟩ := mem_emissionOrder.1 hmem
  obtain ⟨hdiv, hmod⟩ := emissionIndex_div_mod h.cycle_pos h.cycle_mul hp htest
  simp only [Function.comp_apply]
  rw [hdiv, hmod, h.wbit_forwardWord _ _ hp (Nat.mod_lt t h.cycle_pos) htest, Nat.div_add_mod']

end LegalIlv

end Sys2Proof.Machine

/-! PROOFS. ILV_FWD: packing (00_scope.md R12), the configured interleaver (10_state.md R25), and the command
(41_interleaver.md R140, R143, R145). -/

namespace Sys2Proof.Machine

/-! ## Packing (00_scope.md R12) -/

theorem bitsOfByte_byteOfBits (b0 b1 b2 b3 b4 b5 b6 b7 : Bool) :
    bitsOfByte (byteOfBits b0 b1 b2 b3 b4 b5 b6 b7) = [b0, b1, b2, b3, b4, b5, b6, b7] := by
  revert b0 b1 b2 b3 b4 b5 b6 b7
  decide

theorem bitsOfByte_eq (x : Byte) : bitsOfByte x =
    [wbit x 0, wbit x 1, wbit x 2, wbit x 3, wbit x 4, wbit x 5, wbit x 6, wbit x 7] := rfl

theorem byteOfBits_wbit (x : Byte) :
    byteOfBits (wbit x 0) (wbit x 1) (wbit x 2) (wbit x 3) (wbit x 4) (wbit x 5) (wbit x 6) (wbit x 7) =
      x := by
  have hbits := bitsOfByte_byteOfBits (wbit x 0) (wbit x 1) (wbit x 2) (wbit x 3) (wbit x 4) (wbit x 5)
    (wbit x 6) (wbit x 7)
  rw [← bitsOfByte_eq, bitsOfByte, bitsOfByte, List.map_inj_left] at hbits
  exact word_ext fun i hi => hbits i (List.mem_range.2 hi)

theorem unpack_pack {bits : List Bool} (h : bits.length % 8 = 0) : unpack (pack bits) = bits := by
  fun_induction pack bits with
  | case1 b0 b1 b2 b3 b4 b5 b6 b7 bs ih =>
    simp only [List.length_cons] at h
    rw [unpack, List.flatMap_cons, bitsOfByte_byteOfBits]
    exact congrArg _ (ih (by omega))
  | case2 bits hshort =>
    match bits, hshort, h with
    | [], _, _ => rfl
    | b0 :: b1 :: b2 :: b3 :: b4 :: b5 :: b6 :: b7 :: bs, hshort, _ =>
      exact absurd rfl (hshort b0 b1 b2 b3 b4 b5 b6 b7 bs)

theorem pack_unpack (bytes : List Byte) : pack (unpack bytes) = bytes := by
  induction bytes with
  | nil => rfl
  | cons x bytes ih =>
    rw [unpack, List.flatMap_cons, bitsOfByte_eq]
    exact congrArg₂ List.cons (byteOfBits_wbit x) ih

theorem byteOfElem_elemOfByte (x : Byte) : byteOfElem (elemOfByte x) = x :=
  setWidth_setWidth_64 (by decide) x

theorem unpackElems_packElems {bits : List Bool} (h : bits.length % 8 = 0) :
    unpackElems (packElems bits) = bits := by
  rw [unpackElems, packElems, List.map_map]
  simp only [Function.comp_def, byteOfElem_elemOfByte, List.map_id', unpack_pack h]

theorem packElems_length {bits : List Bool} {n : Nat} (h : bits.length = 8 * n) :
    (packElems bits).length = n := by
  have hlen := unpackElems_length (packElems bits)
  rw [unpackElems_packElems (by omega), h] at hlen
  omega

theorem elemOfByte_byteOfElem {v : Word64} (h : v.toNat < 2 ^ 8) : elemOfByte (byteOfElem v) = v :=
  truncTo_of_lt h

theorem packElems_unpackElems {vs : List Word64} (h : ∀ v ∈ vs, v.toNat < 2 ^ 8) :
    packElems (unpackElems vs) = vs := by
  rw [packElems, unpackElems, pack_unpack, List.map_map]
  exact (List.map_congr_left fun v hv => elemOfByte_byteOfElem (h v hv)).trans (List.map_id vs)

theorem map_truncTo_packElems (bits : List Bool) : (packElems bits).map (truncTo 8) = packElems bits := by
  rw [packElems, List.map_map]
  exact List.map_congr_left fun x _ => truncTo_word x

/-! ## A configured interleaver (10_state.md R25, 41_interleaver.md R133) -/

/-- What ILV_FWD and ILV_REV read of a configured interleaver with these parameters. -/
structure IlvReady (s : State) (k L bs : Nat) : Prop where
  legal : LegalIlv s.par k L s.regs.ilvPm bs
  streams : s.regs.ilvK.toNat = k
  cycle : s.regs.ilvC.toNat = L / k
  nout : s.regs.ilvNout.toNat = pmOnes s.regs.ilvPm L
  niter : s.regs.ilvNiter.toNat = 8 * bs / (L / k)
  inlen : s.regs.ilvInlen.toNat = inBufLen s.par.b k bs
  outlen : s.regs.ilvOutlen.toNat = outBufLen bs (pmOnes s.regs.ilvPm L) (L / k)
  isch : s.holds .isch 0 (elemsOfWords (scheduleTable s.par.b s.regs.ilvPm k (L / k)))

/-- The block lies in the words of IW, so every derived number fits its register. -/
theorem LegalIlv.block_le {p : Params} {k L bs : Nat} {pm : Word64} (h : LegalIlv p k L pm bs) :
    8 * bs ≤ 2 ^ 30 := by
  obtain rfl | hbs := Nat.eq_zero_or_pos bs
  · exact Nat.zero_le _
  have hword := (h.wordIndex_lt (t := 8 * bs - 1) (by omega) h.streams_pos).trans h.inlen_lt
  have hwidth : (8 * bs - 1) / 64 ≤ (8 * bs - 1) / p.b :=
    Nat.div_le_div_left h.width_le (by have := h.bytes; have := h.bytes_pos; omega)
  have hstreams := Nat.le_mul_of_pos_right ((8 * bs - 1) / p.b) h.streams_pos
  omega

theorem toNat_ofNat_of_lt {x : Nat} (h : x < 2 ^ 64) : (BitVec.ofNat 64 x).toNat = x := by
  rw [BitVec.toNat_ofNat, Nat.mod_eq_of_lt h]

theorem ilvReady_of_inv {s : State} {k L bs : Nat} (hinv : Inv s) (hv : s.regs.valid .ilv = true)
    (hk : s.regs.ilvK.toNat = k) (hL : s.regs.ilvL.toNat = L) (hbs : s.regs.ilvBs.toNat = bs) :
    IlvReady s k L bs := by
  obtain ⟨hcheck, hderived, hisch⟩ := hinv.ilv hv
  obtain ⟨hc, -, -, hnout, hniter, hinlen, houtlen⟩ := (eq_ilvDerived_iff ..).1 hderived
  rw [hk, hL, hbs] at hcheck
  rw [hk, hL] at hc hisch
  rw [hk, hbs] at hinlen
  rw [hL] at hnout
  rw [hk, hL, hbs] at hniter houtlen
  have hlegal := legalIlv_of_rows hinv.params (ilvCheck_eq_none_iff.1 hcheck)
  have hblock := hlegal.block_le
  have hwidth := hlegal.width_le
  have hniterLe := Nat.div_le_self (8 * bs) (L / k)
  exact
    { legal := hlegal
      streams := hk
      cycle := by rw [hc, toNat_ofNat_of_lt (by have := hlegal.cycle_le; omega)]
      nout := by rw [hnout, toNat_ofNat_of_lt (by have := hlegal.ones_le; omega)]
      niter := by
        rw [hniter, ceilDiv_of_dvd hlegal.cycle_pos (hlegal.cycle_dvd.mul_left 8),
          toNat_ofNat_of_lt (by omega)]
      inlen := by rw [hinlen, toNat_ofNat_of_lt (by have := hlegal.inlen_lt; omega)]
      outlen := by rw [houtlen, toNat_ofNat_of_lt (by have := hlegal.outlen_lt; omega)]
      isch := hisch }

/-- A command reads back the schedule that ILV_CFG wrote, and draws nothing for it. -/
theorem IlvReady.gather_isch {s u : State} {k L bs : Nat} (h : IlvReady s k L bs) (hu : OnlyDraws s u) :
    gather .isch 0 (k * scheduleLen s.par.b) u =
      (elemsOfWords (scheduleTable s.par.b s.regs.ilvPm k (L / k)), u) := by
  have hlen : (elemsOfWords (scheduleTable s.par.b s.regs.ilvPm k (L / k))).length =
      k * scheduleLen s.par.b := by rw [elemsOfWords, List.length_map, scheduleTable_length]
  rw [← hlen]
  exact gather_holds (holds_congr (hu.elem? .isch) h.isch)

/-! ## The command (41_interleaver.md R140) -/

theorem exec_ilvFwd_of_valid {s : State} (hv : s.regs.valid .ilv = true) :
    exec .ilvFwd s = .next (ilvForward s) := if_pos hv

namespace IlvReady

variable {s : State} {k L bs : Nat} (h : IlvReady s k L bs)
include h

/-- The bits that ILV_FWD hands on. -/
theorem forwardBits_length_eq :
    (forwardBits (scheduleTable s.par.b s.regs.ilvPm k (L / k)) k (L / k) (8 * bs / (L / k))
      (pmOnes s.regs.ilvPm L) s).1.length = 8 * outBufLen bs (pmOnes s.regs.ilvPm L) (L / k) := by
  rw [forwardBits_length, h.legal.niter_mul_ones]

theorem ilvForward_eq :
    ilvForward s =
      (forwardBits (scheduleTable s.par.b s.regs.ilvPm k (L / k)) k (L / k) (8 * bs / (L / k))
          (pmOnes s.regs.ilvPm L) s).2.write .ib 0
        (packElems (forwardBits (scheduleTable s.par.b s.regs.ilvPm k (L / k)) k (L / k) (8 * bs / (L / k))
          (pmOnes s.regs.ilvPm L) s).1) := by
  rw [ilvForward]
  simp only [h.gather_isch (.refl s), wordsOfElems_elemsOfWords h.legal.width_le, h.streams, h.cycle, h.niter,
    h.nout, h.outlen]
  rw [List.take_of_length_le h.forwardBits_length_eq.le]

/-- ILV_FWD writes OUTLEN bytes of IB and nothing else, whatever it read. -/
theorem ilvForward_wroteOnly :
    ∃ vs, WroteOnly s (ilvForward s) .ib 0 vs ∧
      vs.length = outBufLen bs (pmOnes s.regs.ilvPm L) (L / k) := by
  rw [h.ilvForward_eq]
  refine ⟨_, (forwardBits_state _ _ _ _ _ s).wroteOnly_write .ib 0 _, ?_⟩
  rw [List.length_map, packElems_length h.forwardBits_length_eq]

/-- On written words of IW it packs the bits of the bit-level function, and draws nothing. -/
theorem ilvForward_written (hw : s.written .iw 0 s.regs.ilvInlen.toNat) :
    ilvForward s = s.write .ib 0 (packElems (forwardReference
      (wordsOfElems s.par.b (s.values .iw 0 s.regs.ilvInlen.toNat)) s.regs.ilvPm k (L / k) (8 * bs))) := by
  rw [h.inlen] at hw ⊢
  rw [h.ilvForward_eq, h.legal.forwardBits_written hw]

end IlvReady

theorem wroteOnly_write_packElems (s : State) (bits : List Bool) :
    WroteOnly s (s.write .ib 0 (packElems bits)) .ib 0 (packElems bits) := by
  have hwrote := (OnlyDraws.refl s).wroteOnly_write .ib 0 (packElems bits)
  rwa [show Space.ib.width s.par = 8 from rfl, map_truncTo_packElems] at hwrote

/-- Settles O24: the folded words hold the emitted bits at their indices, and the pairs of the block count
through the indices in order. -/
theorem ilvFwdIsTheBitLevelFunction : Obligations.IlvFwdIsTheBitLevelFunction := by
  intro s k L bs hinv hv hk hL hbs
  have hready := ilvReady_of_inv hinv hv hk hL hbs
  obtain ⟨vs, hwrote, hlen⟩ := hready.ilvForward_wroteOnly
  refine ⟨⟨_, vs, exec_ilvFwd_of_valid hv, hwrote, hlen⟩, fun hw => ?_, fun t p ht hp htest =>
    hready.legal.emissionOrder_getElem?_emissionIndex ht hp htest⟩
  refine ⟨_, exec_ilvFwd_of_valid hv, ?_⟩
  rw [hready.ilvForward_written hw]
  exact ⟨rfl, wroteOnly_write_packElems s _⟩

end Sys2Proof.Machine

/-! PROOFS. ILV_REV: the words that ILV_REV unfolds (41_interleaver.md R150), the bit-level function (R152), the
command, and the round trips (R153). -/

namespace Sys2Proof.Machine

/-! ## The unfolded words (41_interleaver.md R150) -/

/-- `acc` of one iteration: NOUT input bits at positions 0 to NOUT − 1. -/
theorem wbit_unfoldIteration {B nout x : Nat} (inbit : List Bool) (it : Nat) (hnout : nout ≤ B)
    (hx : x < nout) : wbit (unfoldIteration B inbit nout it) x = inbit.getD (it * nout + x) false := by
  have hfold := wbit_foldl (B := B) (x := x)
    (f := fun acc j => if inbit.getD (it * nout + j) false then acc ||| setpos B j else acc)
    (sets := fun j => inbit.getD (it * nout + j) false && wbit (setpos B j) x)
    (fun w j => by cases inbit.getD (it * nout + j) false <;> simp) (List.range nout)
  rw [unfoldIteration, hfold, Bool.eq_iff_iff, List.any_eq_true]
  simp only [List.mem_range, Bool.and_eq_true]
  constructor
  · rintro ⟨j, hj, hbit, hset⟩
    rw [wbit_setpos (by omega) (by omega), decide_eq_true_iff] at hset
    exact hset ▸ hbit
  · intro hbit
    exact ⟨x, hx, hbit, by rw [wbit_setpos (by omega) (by omega), decide_eq_true rfl]⟩

theorem wbit_orElem {B : Nat} {iw : List (Word B)} {e : Nat} (he : e < iw.length) (e' : Nat) (m : Word B)
    (x : Nat) :
    wbit ((orElem iw e' m).getD e 0#B) x = (wbit (iw.getD e 0#B) x || (decide (e' = e) && wbit m x)) := by
  simp only [orElem, List.getD_eq_getElem?_getD, List.getElem?_modify, List.getElem?_eq_getElem he]
  by_cases h : e' = e <;> simp [h]

/-- A chunk of stream `p` in iteration `it` sets bit `x` of word `e`. -/
def chunkSets {B : Nat} (k c p it e x : Nat) (w : Word B) : Bool :=
  (List.range c).any fun i =>
    wbit w i && (decide ((it * c + i) / B * k + p = e) && wbit (setpos B ((it * c + i) % B)) x)

theorem chunkSets_iff {B k c p it e x : Nat} {w : Word B} (hx : x < B) :
    chunkSets k c p it e x w = true ↔
      ∃ i < c, wbit w i = true ∧ (it * c + i) / B * k + p = e ∧ (it * c + i) % B = x := by
  have hmod : ∀ i, (it * c + i) % B < B := fun i => Nat.mod_lt _ (by omega)
  simp only [chunkSets, List.any_eq_true, List.mem_range, Bool.and_eq_true, decide_eq_true_iff,
    wbit_setpos (hmod _) hx, eq_comm (a := x)]

theorem wbit_orChunk {B : Nat} {iw : List (Word B)} {e : Nat} (he : e < iw.length) (k c p it x : Nat)
    (w : Word B) :
    wbit ((orChunk iw k c p it w).getD e 0#B) x =
      (wbit (iw.getD e 0#B) x || chunkSets k c p it e x w) := by
  refine (foldl_sets (P := fun l : List (Word B) => e < l.length)
    (bit := fun l => wbit (l.getD e 0#B) x) (fun l i hl => ?_) (List.range c) he).2
  dsimp only
  split
  case isTrue hbit =>
    rw [hbit, Bool.true_and]
    exact ⟨by rwa [orElem, List.length_modify], wbit_orElem hl _ _ x⟩
  case isFalse hbit =>
    rw [Bool.eq_false_of_not_eq_true hbit, Bool.false_and, Bool.or_false]
    exact ⟨hl, rfl⟩

/-- The chunk of stream `p` in iteration `it` of ILV_REV. -/
def reverseChunk {B : Nat} (isch : List (Word B)) (inbit : List Bool) (nout p it : Nat) : Word B :=
  despray (readSchedule isch p) (unfoldIteration B inbit nout it &&& (readSchedule isch p).outMask)

/-- One iteration of ILV_REV: the chunks of all streams. -/
def orIteration {B : Nat} (isch : List (Word B)) (inbit : List Bool) (k c nout : Nat)
    (iw : List (Word B)) (it : Nat) : List (Word B) :=
  (List.range k).foldl (fun iw p => orChunk iw k c p it (reverseChunk isch inbit nout p it)) iw

theorem reverseWords_eq {B : Nat} (isch : List (Word B)) (inbit : List Bool) (k c niter nout inlen : Nat) :
    reverseWords isch inbit k c niter nout inlen =
      (List.range niter).foldl (orIteration isch inbit k c nout) (List.replicate inlen 0#B) := rfl

theorem wbit_orIteration {B : Nat} (isch : List (Word B)) (inbit : List Bool) (k c nout x : Nat)
    {iw : List (Word B)} {e : Nat} (he : e < iw.length) (it : Nat) :
    e < (orIteration isch inbit k c nout iw it).length ∧
      wbit ((orIteration isch inbit k c nout iw it).getD e 0#B) x =
        (wbit (iw.getD e 0#B) x || (List.range k).any fun p =>
          chunkSets k c p it e x (reverseChunk isch inbit nout p it)) := by
  refine foldl_sets (P := fun l : List (Word B) => e < l.length) (bit := fun l => wbit (l.getD e 0#B) x)
    (sets := fun p => chunkSets k c p it e x (reverseChunk isch inbit nout p it))
    (f := fun l p => orChunk l k c p it (reverseChunk isch inbit nout p it))
    (fun l p hl => ⟨?_, wbit_orChunk hl k c p it x _⟩) (List.range k) he
  rwa [orChunk_length]

/-- A bit is set at the end where some chunk sets it. -/
theorem wbit_reverseWords {B : Nat} (isch : List (Word B)) (inbit : List Bool) (k c niter nout x : Nat)
    {inlen e : Nat} (he : e < inlen) :
    wbit ((reverseWords isch inbit k c niter nout inlen).getD e 0#B) x =
      (List.range niter).any fun it => (List.range k).any fun p =>
        chunkSets k c p it e x (reverseChunk isch inbit nout p it) := by
  have hfold := (foldl_sets (P := fun l : List (Word B) => e < l.length)
    (bit := fun l => wbit (l.getD e 0#B) x)
    (fun _ it hl => wbit_orIteration isch inbit k c nout x hl it) (List.range niter)
    (b := List.replicate inlen 0#B) (by rwa [List.length_replicate])).2
  have hstart : wbit ((List.replicate inlen 0#B).getD e 0#B) x = false := by
    rw [List.getD_eq_getElem?_getD, List.getElem?_replicate, if_pos he, Option.getD_some, wbit_zero]
  rwa [hstart, Bool.false_or, ← reverseWords_eq] at hfold

namespace LegalIlv

variable {par : Params} {k L bs : Nat} {pm : Word64} (h : LegalIlv par k L pm bs)
include h

/-- A desprayed chunk holds the received bit of every pair that is not punctured. -/
theorem wbit_reverseChunk (y : List Bool) {p i : Nat} (hp : p < k) (hi : i < L / k) (it : Nat) :
    wbit (reverseChunk (scheduleTable par.b pm k (L / k)) y (pmOnes pm L) p it) i = true ↔
      rowTest pm k p i = true ∧
        y.getD (it * pmOnes pm L + pmSum pm (i * k + p)) false = true := by
  rw [reverseChunk, (h.streamFits hp).wbit_despray hp rfl _ (hi.trans_le h.cycle_le)]
  constructor
  · rintro ⟨-, hrow, hbit⟩
    rw [wbit_unfoldIteration y it h.ones_le (pmSum_lt_pmOnes h.cycle_mul hp hi hrow)] at hbit
    exact ⟨hrow, hbit⟩
  · rintro ⟨hrow, hbit⟩
    rw [← wbit_unfoldIteration y it h.ones_le (pmSum_lt_pmOnes h.cycle_mul hp hi hrow)] at hbit
    exact ⟨hi, hrow, hbit⟩

/-- ILV_REV leaves the bits of the bit-level function (41_interleaver.md R152). -/
theorem streamBit_reverseWords (y : List Bool) {p T inlen : Nat} (hp : p < k)
    (he : T / par.b * k + p < inlen) :
    streamBit (reverseWords (scheduleTable par.b pm k (L / k)) y k (L / k) (8 * bs / (L / k)) (pmOnes pm L)
        inlen) k p T =
      reverseReferenceBit y pm L k (8 * bs) T p := by
  have hB : 0 < par.b := by have := h.bytes; have := h.bytes_pos; omega
  have hx := Nat.mod_lt T hB
  rw [streamBit, wbit_reverseWords _ _ _ _ _ _ _ he, Bool.eq_iff_iff]
  simp only [List.any_eq_true, List.mem_range, chunkSets_iff hx, reverseReferenceBit]
  constructor
  · rintro ⟨it, hit, p', hp', i, hi, hbit, hword, hpos⟩
    obtain ⟨hrow, hy⟩ := (h.wbit_reverseChunk y hp' hi it).1 hbit
    obtain ⟨hquot, rfl⟩ := block_place_inj hp' hp hword
    obtain rfl : it * (L / k) + i = T := by
      rw [← Nat.div_add_mod' (it * (L / k) + i) par.b, hquot, hpos, Nat.div_add_mod']
    have hcycle : (it * (L / k) + i) / (L / k) = it ∧ (it * (L / k) + i) % (L / k) = i :=
      block_place_inj (Nat.mod_lt _ h.cycle_pos) hi (Nat.div_add_mod' _ _)
    rw [emissionIndex, hcycle.1, hcycle.2, if_pos ⟨h.blockTime_lt hit hi, hrow⟩]
    exact hy
  · intro href
    split at href
    case isFalse => exact absurd href (by decide)
    case isTrue hpair =>
      obtain ⟨hT, htest⟩ := hpair
      have hsplit := Nat.div_add_mod' T (L / k)
      have hi := Nat.mod_lt T h.cycle_pos
      refine ⟨T / (L / k), ?_, p, hp, T % (L / k), hi, (h.wbit_reverseChunk y hp hi _).2 ⟨htest, href⟩, ?_, ?_⟩
      · exact Nat.div_lt_div_of_lt_of_dvd (h.cycle_dvd.mul_left 8) hT
      · rw [hsplit]
      · rw [hsplit]

end LegalIlv

/-! ## The command (41_interleaver.md R150, R152) -/

theorem exec_ilvRev_of_valid {s : State} (hv : s.regs.valid .ilv = true) :
    exec .ilvRev s = .next (ilvReverse s) := if_pos hv

theorem map_truncTo_elemsOfWords {B : Nat} (ws : List (Word B)) :
    (elemsOfWords ws).map (truncTo B) = elemsOfWords ws := by
  rw [elemsOfWords, List.map_map]
  exact List.map_congr_left fun w _ => truncTo_word w

/-- The words that ILV_REV leaves in IW for the bits `y` of IB. -/
def unfoldedWords (s : State) (k L bs : Nat) (y : List Bool) : List (Word s.par.b) :=
  reverseWords (scheduleTable s.par.b s.regs.ilvPm k (L / k)) y k (L / k) (8 * bs / (L / k))
    (pmOnes s.regs.ilvPm L) (inBufLen s.par.b k bs)

theorem unfoldedWords_length (s : State) (k L bs : Nat) (y : List Bool) :
    (elemsOfWords (unfoldedWords s k L bs y)).length = inBufLen s.par.b k bs := by
  rw [elemsOfWords, List.length_map, unfoldedWords, reverseWords_length]

namespace IlvReady

variable {s : State} {k L bs : Nat} (h : IlvReady s k L bs)
include h

theorem ilvReverse_eq :
    ilvReverse s = (gather .ib 0 s.regs.ilvOutlen.toNat s).2.write .iw 0
      (elemsOfWords (unfoldedWords s k L bs (unpackElems (gather .ib 0 s.regs.ilvOutlen.toNat s).1))) := by
  rw [ilvReverse]
  simp only [h.streams, h.gather_isch (gather_state .ib 0 _ s), wordsOfElems_elemsOfWords h.legal.width_le,
    h.cycle, h.niter, h.nout, h.inlen]
  rfl

/-- ILV_REV writes INLEN words of IW and nothing else, whatever it read. -/
theorem ilvReverse_wroteOnly :
    WroteOnly s (ilvReverse s) .iw 0
      (elemsOfWords (unfoldedWords s k L bs (unpackElems (gather .ib 0 s.regs.ilvOutlen.toNat s).1))) := by
  have hread := gather_state .ib 0 s.regs.ilvOutlen.toNat s
  have hwrote := hread.wroteOnly_write .iw 0
    (elemsOfWords (unfoldedWords s k L bs (unpackElems (gather .ib 0 s.regs.ilvOutlen.toNat s).1)))
  rwa [hread.par, show Space.iw.width s.par = s.par.b from rfl, map_truncTo_elemsOfWords,
    ← h.ilvReverse_eq] at hwrote

/-- On written bytes of IB it draws nothing. -/
theorem ilvReverse_written (hw : s.written .ib 0 s.regs.ilvOutlen.toNat) :
    ilvReverse s = s.write .iw 0
      (elemsOfWords (unfoldedWords s k L bs (unpackElems (s.values .ib 0 s.regs.ilvOutlen.toNat)))) := by
  rw [h.ilvReverse_eq, gather_written hw]

/-- Bit `T` of stream `p` in the unfolded words (41_interleaver.md R152). -/
theorem streamBit_unfoldedWords (y : List Bool) {p T : Nat} (hp : p < k)
    (he : T / s.par.b * k + p < inBufLen s.par.b k bs) :
    streamBit (unfoldedWords s k L bs y) k p T = reverseReferenceBit y s.regs.ilvPm L k (8 * bs) T p :=
  h.legal.streamBit_reverseWords y hp he

end IlvReady

/-- Settles O25: each bit of the words is set by the one chunk that holds its pair. -/
theorem ilvRevIsTheBitLevelFunction : Obligations.IlvRevIsTheBitLevelFunction := by
  intro s k L bs hinv hv hk hL hbs
  have h := ilvReady_of_inv hinv hv hk hL hbs
  have hlen : ∀ y, (elemsOfWords (unfoldedWords s k L bs y)).length = s.regs.ilvInlen.toNat := fun y =>
    (unfoldedWords_length s k L bs y).trans h.inlen.symm
  have hwrote := h.ilvReverse_wroteOnly
  refine ⟨⟨_, _, exec_ilvRev_of_valid hv, hwrote, hlen _⟩, fun hw => ?_⟩
  rw [gather_written hw] at hwrote
  refine ⟨_, _, exec_ilvRev_of_valid hv, ?_, hwrote, hlen _, fun e he x hx => ?_⟩
  · rw [h.ilvReverse_written hw]
    rfl
  · have hk := h.legal.streams_pos
    have hword : (e / k * s.par.b + x) / s.par.b * k + e % k = e := by
      rw [Nat.add_comm (_ * _) x, Nat.add_mul_div_right _ _ (by omega), Nat.div_eq_of_lt hx, Nat.zero_add,
        Nat.div_add_mod']
    have hpos : (e / k * s.par.b + x) % s.par.b = x := by
      rw [Nat.add_comm (_ * _) x, Nat.add_mul_mod_self_right, Nat.mod_eq_of_lt hx]
    rw [← h.streamBit_unfoldedWords _ (Nat.mod_lt e hk) (by rw [hword, ← h.inlen]; exact he), streamBit, hword,
      hpos, ← wordsOfElems_getD, wordsOfElems_elemsOfWords h.legal.width_le]

end Sys2Proof.Machine

/-! PROOFS. The round trips of the interleaver (41_interleaver.md R153). -/

namespace Sys2Proof.Machine

/-! ## Reading back what was written -/

theorem written_of_holds {s : State} {sp : Space} {vs : List Word64} (h : s.holds sp 0 vs) :
    s.written sp 0 vs.length := by
  intro i hi
  have hi : i < vs.length := by simpa [List.mem_range'_1] using hi
  rw [elem?_of_holds h hi, List.getElem?_eq_getElem hi]
  rfl

theorem values_of_holds {s : State} {sp : Space} {vs : List Word64} (h : s.holds sp 0 vs) :
    s.values sp 0 vs.length = vs :=
  congrArg Prod.fst ((gather_written (written_of_holds h)).symm.trans (gather_holds h))

theorem State.values_length (s : State) (sp : Space) (lo n : Nat) : (s.values sp lo n).length = n := by
  simp [State.values]

/-- The values of written elements fit their width (10_state.md R64). -/
theorem values_toNat_lt {s : State} {sp : Space} {lo n : Nat} (hfit : ElementsFit s)
    (hw : s.written sp lo n) : ∀ v ∈ s.values sp lo n, v.toNat < 2 ^ sp.width s.par := by
  have hread := gather_toNat_lt hfit sp lo n
  rwa [gather_written hw] at hread

/-! ## The two bit-level functions undo each other (41_interleaver.md R143, R152) -/

namespace LegalIlv

variable {par : Params} {k L bs : Nat} {pm : Word64} (h : LegalIlv par k L pm bs)
include h

theorem forwardReference_length (iw : List (Word par.b)) :
    (forwardReference iw pm k (L / k) (8 * bs)).length = 8 * outBufLen bs (pmOnes pm L) (L / k) := by
  rw [forwardReference, List.length_map, h.emissionOrder_length]

/-- The emitted bits, received, are the stream bits that are within the block and not punctured. -/
theorem reverseReferenceBit_forwardReference (iw : List (Word par.b)) {p : Nat} (hp : p < k) (T : Nat) :
    reverseReferenceBit (forwardReference iw pm k (L / k) (8 * bs)) pm L k (8 * bs) T p =
      if T < 8 * bs ∧ pmTest pm (T % (L / k) * k + p) = true then streamBit iw k p T else false := by
  rw [reverseReferenceBit]
  refine ite_congr rfl (fun hpair => ?_) fun _ => rfl
  rw [forwardReference, List.getD_eq_getElem?_getD, List.getElem?_map,
    h.emissionOrder_getElem?_emissionIndex hpair.1 hp hpair.2]
  rfl

/-- Words whose stream bits are the received bits emit the received bits. -/
theorem forwardReference_of_reverseReferenceBit {iw : List (Word par.b)} {y : List Bool}
    (hy : y.length = 8 * outBufLen bs (pmOnes pm L) (L / k))
    (hiw : ∀ p < k, ∀ t < 8 * bs, streamBit iw k p t = reverseReferenceBit y pm L k (8 * bs) t p) :
    forwardReference iw pm k (L / k) (8 * bs) = y := by
  have hbits : forwardReference iw pm k (L / k) (8 * bs) =
      (emissionOrder pm k (L / k) (8 * bs)).map fun x => y.getD (emissionIndex pm L k x.1 x.2) false := by
    refine List.map_congr_left fun ⟨t, p⟩ hmem => ?_
    obtain ⟨ht, hp, htest⟩ := mem_emissionOrder.1 hmem
    rw [hiw p hp t ht, reverseReferenceBit, if_pos ⟨ht, htest⟩]
  rw [hbits, ← Function.comp_def (fun n => y.getD n false), ← List.map_map, h.emissionOrder_map_emissionIndex,
    ← hy]
  refine List.ext_getElem (by simp) fun n _ hn => ?_
  rw [List.getElem_map, List.getElem_range, List.getD_eq_getElem _ _ hn]

end LegalIlv

/-! ## The commands one after the other -/

/-- Writing IW or IB leaves the interleaver configured. -/
theorem IlvReady.write {s : State} {k L bs : Nat} (h : IlvReady s k L bs) {sp : Space} (hsp : Space.isch ≠ sp)
    (vs : List Word64) : IlvReady (s.write sp 0 vs) k L bs :=
  { h with isch := holds_write_ne hsp h.isch }

namespace IlvReady

variable {s : State} {k L bs : Nat} (h : IlvReady s k L bs)
include h

/-- ILV_REV on packed bits leaves the words unfolded from them. -/
theorem words_ilvReverse {y : List Bool} (hy : y.length = 8 * outBufLen bs (pmOnes s.regs.ilvPm L) (L / k))
    (hib : s.holds .ib 0 (packElems y)) :
    wordsOfElems s.par.b ((ilvReverse s).values .iw 0 s.regs.ilvInlen.toNat) = unfoldedWords s k L bs y := by
  obtain ⟨-, -, hwords, -⟩ := h.ilvReverse_wroteOnly
  have hvalues := values_of_holds hwords
  rw [h.outlen, ← packElems_length hy, gather_holds hib, unpackElems_packElems (by omega),
    unfoldedWords_length] at hvalues
  rw [h.inlen, hvalues, wordsOfElems_elemsOfWords h.legal.width_le]

/-- ILV_FWD on words that are held packs the bits of the bit-level function. -/
theorem ilvForward_of_holds {iw : List (Word s.par.b)} (hlen : (elemsOfWords iw).length = inBufLen s.par.b k bs)
    (hiw : s.holds .iw 0 (elemsOfWords iw)) :
    ilvForward s = s.write .ib 0 (packElems (forwardReference iw s.regs.ilvPm k (L / k) (8 * bs))) := by
  have hinlen := hlen.trans h.inlen.symm
  rw [h.ilvForward_written (hinlen ▸ written_of_holds hiw), ← hinlen, values_of_holds hiw,
    wordsOfElems_elemsOfWords h.legal.width_le]

/-- A bit of the words of IW lies in one of the INLEN words. -/
theorem wordIndex_lt_inlen {p T : Nat} (hp : p < k) (hT : T < s.regs.ilvInlen.toNat / k * s.par.b) :
    T / s.par.b * k + p < inBufLen s.par.b k bs := by
  have hB : 0 < s.par.b := by have := h.legal.bytes; have := h.legal.bytes_pos; omega
  rw [h.inlen] at hT
  calc T / s.par.b * k + p < (T / s.par.b + 1) * k := by rw [Nat.succ_mul]; omega
    _ ≤ inBufLen s.par.b k bs / k * k := Nat.mul_le_mul_right k ((Nat.div_lt_iff_lt_mul hB).2 hT)
    _ ≤ inBufLen s.par.b k bs := Nat.div_mul_le_self _ _

/-- ILV_FWD then ILV_REV: the received bits are the emitted ones. -/
theorem streamBit_ilvReverse_ilvForward (hw : s.written .iw 0 s.regs.ilvInlen.toNat) {p T : Nat} (hp : p < k)
    (hT : T < s.regs.ilvInlen.toNat / k * s.par.b) :
    streamBit (wordsOfElems s.par.b
        ((ilvReverse (ilvForward s)).values .iw 0 s.regs.ilvInlen.toNat)) k p T =
      if T < 8 * bs ∧ pmTest s.regs.ilvPm (T % (L / k) * k + p) = true then
        streamBit (wordsOfElems s.par.b (s.values .iw 0 s.regs.ilvInlen.toNat)) k p T
      else false := by
  have hforward := h.ilvForward_written hw
  generalize wordsOfElems s.par.b (s.values .iw 0 s.regs.ilvInlen.toNat) = iw at hforward ⊢
  obtain ⟨-, -, hib, -⟩ := wroteOnly_write_packElems s (forwardReference iw s.regs.ilvPm k (L / k) (8 * bs))
  have hready := h.write (sp := .ib) (by decide)
    (packElems (forwardReference iw s.regs.ilvPm k (L / k) (8 * bs)))
  have hwords := hready.words_ilvReverse (h.legal.forwardReference_length iw) hib
  rw [hforward]
  exact (congrArg (streamBit · k p T) hwords).trans
    ((hready.streamBit_unfoldedWords _ hp (h.wordIndex_lt_inlen hp hT)).trans
      (h.legal.reverseReferenceBit_forwardReference iw hp T))

/-- ILV_REV then ILV_FWD: the emitted bits are the received ones, so IB holds what it held. -/
theorem holds_ilvForward_ilvReverse (hfit : ElementsFit s) (hw : s.written .ib 0 s.regs.ilvOutlen.toNat) :
    (ilvForward (ilvReverse s)).holds .ib 0 (s.values .ib 0 s.regs.ilvOutlen.toNat) := by
  have hpacked := packElems_unpackElems (values_toNat_lt hfit hw)
  have hlen : (unpackElems (s.values .ib 0 s.regs.ilvOutlen.toNat)).length =
      8 * outBufLen bs (pmOnes s.regs.ilvPm L) (L / k) := by
    rw [unpackElems_length, State.values_length, h.outlen, Nat.mul_comm]
  obtain ⟨-, -, hiw, -⟩ := h.ilvReverse_wroteOnly
  rw [gather_written hw, h.ilvReverse_written hw] at hiw
  rw [h.ilvReverse_written hw]
  generalize unpackElems (s.values .ib 0 s.regs.ilvOutlen.toNat) = y at hpacked hlen hiw ⊢
  have hready := h.write (sp := .iw) (by decide) (elemsOfWords (unfoldedWords s k L bs y))
  have hbits : forwardReference (unfoldedWords s k L bs y) s.regs.ilvPm k (L / k) (8 * bs) = y :=
    h.legal.forwardReference_of_reverseReferenceBit hlen fun p hp t ht =>
      h.streamBit_unfoldedWords y hp (h.legal.wordIndex_lt ht hp)
  have hforward := (hready.ilvForward_of_holds (unfoldedWords_length s k L bs y) hiw).trans
    (congrArg (fun bits => State.write _ .ib 0 (packElems bits)) hbits)
  obtain ⟨-, -, hib, -⟩ := wroteOnly_write_packElems
    (s.write .iw 0 (elemsOfWords (unfoldedWords s k L bs y))) y
  rw [← hforward, hpacked] at hib
  exact hib

end IlvReady

/-- Settles O26: the bit-level functions undo each other, and packing and unpacking do. -/
theorem ilvRoundTrip : Obligations.IlvRoundTrip := by
  intro s k L bs hinv hv hk hL hbs
  have h := ilvReady_of_inv hinv hv hk hL hbs
  refine ⟨fun hw => ⟨ilvForward s, _, exec_ilvFwd_of_valid hv, exec_ilvRev_of_valid ?_, fun p hp T hT =>
    h.streamBit_ilvReverse_ilvForward hw hp hT⟩, fun hw => ⟨ilvReverse s, _, exec_ilvRev_of_valid hv,
    exec_ilvFwd_of_valid ?_, ?_⟩⟩
  · rw [h.ilvForward_written hw]
    exact hv
  · rw [h.ilvReverse_written hw]
    exact hv
  · have hholds := h.holds_ilvForward_ilvReverse hinv.fits hw
    have hwritten := written_of_holds hholds
    have hvalues := values_of_holds hholds
    rw [State.values_length] at hwritten hvalues
    exact ⟨hwritten, hvalues⟩

end Sys2Proof.Machine

/-! PROOFS. The Bhattacharyya sequence (42_polar_construct.md R173, R174) and the selection of the data indices: the
pivot, the walk that takes the positions, and the rank by the key (score, index) (R175). -/

namespace Sys2Proof.Machine

/-! ## The Bhattacharyya sequence (42_polar_construct.md R173, R174) -/

theorem getElem?_flatMap_pair {α β : Type} (f g : α → β) (l : List α) (j : Nat) :
    (l.flatMap fun a => [f a, g a])[2 * j]? = l[j]?.map f ∧
      (l.flatMap fun a => [f a, g a])[2 * j + 1]? = l[j]?.map g := by
  induction l generalizing j with
  | nil => exact ⟨rfl, rfl⟩
  | cons a l ih =>
    cases j with
    | zero => exact ⟨rfl, rfl⟩
    | succ j => exact ih j

theorem upper_natAbs_lt {u : Int} {b : Nat} (h : u.natAbs < b) : (upper u).natAbs < 2 * b := by
  unfold upper
  split <;> omega

theorem lower_natAbs_lt {u : Int} {b : Nat} (h : u.natAbs < b) : (lower u).natAbs < 2 * b := by
  unfold lower
  split <;> omega

/-- A level at most doubles the bound: neither child's magnitude is above `2|u| + 1`. -/
theorem bhattacharyya_natAbs_lt {n : Nat} {snr u : Int} (h : u ∈ bhattacharyya n snr) :
    u.natAbs < 2 ^ n * (snr.natAbs + 1) := by
  induction n generalizing u with
  | zero =>
    rw [List.mem_singleton.1 h]
    omega
  | succ n ih =>
    obtain ⟨w, hw, hu⟩ := List.mem_flatMap.1 h
    have hbound := ih hw
    rw [Nat.pow_succ', Nat.mul_assoc]
    simp only [List.mem_cons, List.not_mem_nil, or_false] at hu
    obtain rfl | rfl := hu
    · exact upper_natAbs_lt hbound
    · exact lower_natAbs_lt hbound

/-- Settles O29, the bound by induction on the levels. -/
theorem bhattacharyyaExpandsLevelByLevel : Obligations.BhattacharyyaExpandsLevelByLevel := by
  refine ⟨fun u => ⟨rfl, rfl⟩, fun n snr => ⟨rfl, bhattacharyya_length n snr, fun j _ u hu => ?_,
    fun u => bhattacharyya_natAbs_lt, fun hsnr u hu => ?_⟩⟩
  · obtain ⟨hupper, hlower⟩ := getElem?_flatMap_pair upper lower (bhattacharyya n snr) j
    rw [hu] at hupper hlower
    exact ⟨hupper, hlower⟩
  · calc u.natAbs < 2 ^ n * (snr.natAbs + 1) := bhattacharyya_natAbs_lt hu
      _ ≤ 2 ^ n * 2 ^ 16 := Nat.mul_le_mul_left _ (by omega)
      _ = 2 ^ (n + 16) := (Nat.pow_add 2 n 16).symm

/-! ## The pivot (42_polar_construct.md R175) -/

theorem exists_greatest {l : List Int} (h : l ≠ []) : ∃ w ∈ l, ∀ z ∈ l, z ≤ w := by
  obtain ⟨w, hw⟩ := Option.ne_none_iff_exists'.1 (mt List.max?_eq_none_iff.1 h)
  exact ⟨w, List.max?_eq_some_iff.1 hw⟩

theorem countP_le_eq_add (zs : List Int) (v : Int) :
    (zs.countP fun z => decide (z ≤ v)) =
      (zs.countP fun z => decide (z < v)) + zs.countP fun z => decide (z = v) := by
  induction zs with
  | nil => rfl
  | cons z zs ih =>
    simp only [List.countP_cons, decide_eq_true_eq, ih]
    split_ifs <;> omega

/-- Where `K` of the scores have a property, the greatest score that has it reaches the count `K`. -/
theorem exists_reaching_of_le_countP {zs : List Int} {K : Nat} {p : Int → Bool} (hK : 1 ≤ K)
    (h : K ≤ zs.countP p) : ∃ w ∈ zs, p w = true ∧ K ≤ zs.countP fun z => decide (z ≤ w) := by
  have hne : zs.filter p ≠ [] := by
    rw [← List.length_pos_iff, ← List.countP_eq_length_filter]
    omega
  obtain ⟨w, hw, hmax⟩ := exists_greatest hne
  obtain ⟨hmem, hp⟩ := List.mem_filter.1 hw
  refine ⟨w, hmem, hp, h.trans (List.countP_mono_left fun z hz hpz => ?_)⟩
  exact decide_eq_true (hmax z (List.mem_filter.2 ⟨hz, hpz⟩))

/-- The pivot: fewer than `K` scores lie below it, and `K` or more do not lie above it. -/
theorem kthSmallest_spec {zs : List Int} {K : Nat} (hK : 1 ≤ K) (hlen : K ≤ zs.length) :
    (zs.countP fun z => decide (z < kthSmallest zs K)) < K ∧
      K ≤ zs.countP fun z => decide (z ≤ kthSmallest zs K) := by
  have mem_candidates : ∀ w, (w ∈ zs.eraseDups.filter fun v =>
      decide (K ≤ zs.countP fun z => decide (z ≤ v))) ↔
        w ∈ zs ∧ K ≤ zs.countP fun z => decide (z ≤ w) := fun w => by
    rw [List.mem_filter, List.mem_eraseDups, decide_eq_true_eq]
  unfold kthSmallest
  cases hmin : (zs.eraseDups.filter fun v =>
      decide (K ≤ zs.countP fun z => decide (z ≤ v))).min? with
  | none =>
    obtain ⟨w, hw, -, hreach⟩ := exists_reaching_of_le_countP (p := fun _ => true) hK
      (by rwa [List.countP_true])
    have hcandidate := (mem_candidates w).2 ⟨hw, hreach⟩
    rw [List.min?_eq_none_iff.1 hmin] at hcandidate
    exact absurd hcandidate List.not_mem_nil
  | some v =>
    obtain ⟨hv, hleast⟩ := List.min?_eq_some_iff.1 hmin
    refine ⟨Nat.lt_of_not_le fun hge => ?_, ((mem_candidates v).1 hv).2⟩
    obtain ⟨w, hw, hlt, hreach⟩ := exists_reaching_of_le_countP hK hge
    exact absurd (hleast w ((mem_candidates w).2 ⟨hw, hreach⟩)) (not_le.2 (of_decide_eq_true hlt))

/-! ## The positions taken (42_polar_construct.md R175) -/

/-- One position: it is taken below the pivot, or at the pivot while some are left to take; a score at the
pivot uses up one. -/
theorem takeSelected_cons (v : Int) (i r : Nat) (z : Int) (zs : List Int) :
    takeSelected v i r (z :: zs) =
      (if z < v ∨ z = v ∧ 0 < r then [i] else []) ++
        takeSelected v (i + 1) (if z = v then r - 1 else r) zs := by
  rw [takeSelected]
  by_cases hlt : z < v
  · simp [hlt, hlt.ne]
  · by_cases heq : z = v
    · obtain rfl | hr := Nat.eq_zero_or_pos r <;> simp_all
    · simp [hlt, heq]

theorem takeSelected_sublist (v : Int) (i r : Nat) (zs : List Int) :
    (takeSelected v i r zs).Sublist (List.range' i zs.length) := by
  induction zs generalizing i r with
  | nil => exact List.Sublist.slnil
  | cons z zs ih =>
    rw [takeSelected_cons, List.length_cons, List.range'_succ]
    split
    · exact (ih _ _).cons_cons i
    · exact (ih _ _).cons i

theorem takeSelected_length (v : Int) (i r : Nat) (zs : List Int) :
    (takeSelected v i r zs).length =
      (zs.countP fun z => decide (z < v)) + min r (zs.countP fun z => decide (z = v)) := by
  induction zs generalizing i r with
  | nil => simp [takeSelected]
  | cons z zs ih =>
    rw [takeSelected_cons, List.length_append, ih]
    simp only [List.countP_cons, decide_eq_true_eq]
    split_ifs <;> simp only [List.length_cons, List.length_nil] <;> omega

/-- A position is taken exactly when its score lies below the pivot, or is the pivot and fewer than `r`
positions before it hold the pivot. -/
theorem mem_takeSelected_iff {v : Int} {i r x : Nat} {zs : List Int} :
    x ∈ takeSelected v i r zs ↔ ∃ j z, x = i + j ∧ zs[j]? = some z ∧
      (z < v ∨ z = v ∧ ((zs.take j).countP fun y => decide (y = v)) < r) := by
  induction zs generalizing i r with
  | nil => simp [takeSelected]
  | cons y zs ih =>
    have head_iff : (x ∈ if y < v ∨ y = v ∧ 0 < r then [i] else []) ↔
        x = i ∧ (y < v ∨ y = v ∧ 0 < r) := by split_ifs with h <;> simp [h]
    rw [takeSelected_cons, List.mem_append, head_iff, ih]
    constructor
    · rintro (⟨rfl, h⟩ | ⟨j, z, rfl, hz, h⟩)
      · exact ⟨0, y, rfl, rfl, h⟩
      · refine ⟨j + 1, z, by omega, hz, h.imp_right fun ⟨heq, hcount⟩ => ⟨heq, ?_⟩⟩
        rw [List.take_succ_cons, List.countP_cons]
        simp only [decide_eq_true_eq]
        split_ifs at hcount ⊢ <;> omega
    · rintro ⟨j, z, rfl, hz, h⟩
      cases j with
      | zero =>
        obtain rfl : y = z := Option.some.inj hz
        exact .inl ⟨rfl, h⟩
      | succ j =>
        refine .inr ⟨j, z, by omega, hz, h.imp_right fun ⟨heq, hcount⟩ => ⟨heq, ?_⟩⟩
        rw [List.take_succ_cons, List.countP_cons] at hcount
        simp only [decide_eq_true_eq] at hcount
        split_ifs at hcount ⊢ <;> omega

/-! ## The rank by the key (score, index) (42_polar_construct.md R175) -/

theorem take_eq_map_range {z : List Int} {M : Nat} (h : M ≤ z.length) :
    z.take M = (List.range M).map fun j => z.getD j 0 := by
  refine List.ext_getElem (by simpa using h) fun j hj _ => ?_
  rw [List.length_take] at hj
  rw [List.getElem_take, List.getElem_map, List.getElem_range, List.getD_eq_getElem]

theorem filter_lt_range {M i : Nat} (h : i ≤ M) :
    (List.range M).filter (fun j => decide (j < i)) = List.range i := by
  obtain ⟨d, rfl⟩ := Nat.exists_eq_add_of_le h
  rw [List.range_add, List.filter_append, List.filter_eq_self.2, List.filter_eq_nil_iff.2, List.append_nil]
  · simp
  · simp

/-- Before `i` come the positions of a smaller score, and of the positions of the same score those before
`i`. -/
theorem scoreRank_eq {z : List Int} {M i : Nat} (hM : M ≤ z.length) (hi : i < M) :
    scoreRank z M i = ((z.take M).countP fun y => decide (y < z.getD i 0)) +
      ((z.take M).take i).countP fun y => decide (y = z.getD i 0) := by
  have hsplit : scoreRank z M i =
      ((List.range M).countP fun j => decide (z.getD j 0 < z.getD i 0)) +
        (List.range M).countP fun j => decide (z.getD j 0 = z.getD i 0) && decide (j < i) := by
    unfold scoreRank
    induction List.range M with
    | nil => rfl
    | cons j js ih =>
      simp only [List.countP_cons, ih, Bool.or_eq_true, Bool.and_eq_true, decide_eq_true_eq]
      split_ifs <;> omega
  rw [hsplit, ← List.countP_filter, filter_lt_range hi.le, List.take_take, Nat.min_eq_left hi.le,
    take_eq_map_range hM, take_eq_map_range (hi.le.trans hM), List.countP_map, List.countP_map]
  rfl

theorem selectIndices_length {z : List Int} {M K : Nat} (hM : M ≤ z.length) (hK : 1 ≤ K) (hKM : K ≤ M) :
    (selectIndices z M K).length = K := by
  obtain ⟨hlt, hle⟩ := kthSmallest_spec (zs := z.take M) hK (by rwa [List.length_take_of_le hM])
  rw [countP_le_eq_add] at hle
  rw [selectIndices, takeSelected_length]
  omega

theorem selectIndices_pairwise (z : List Int) (M K : Nat) : (selectIndices z M K).Pairwise (· < ·) :=
  (List.pairwise_lt_range' 1).sublist (takeSelected_sublist _ _ _ _)

theorem getElem?_take_eq_some_iff {z : List Int} {M i : Nat} {x : Int} (hM : M ≤ z.length) :
    (z.take M)[i]? = some x ↔ i < M ∧ z.getD i 0 = x := by
  rw [take_eq_map_range hM, List.getElem?_map, Option.map_eq_some_iff]
  simp only [List.getElem?_eq_some_iff, List.getElem_range, List.length_range]
  constructor
  · rintro ⟨_, ⟨hi, rfl⟩, rfl⟩
    exact ⟨hi, rfl⟩
  · rintro ⟨hi, rfl⟩
    exact ⟨i, ⟨hi, rfl⟩, rfl⟩

theorem mem_selectIndices_iff_pivot {z : List Int} {M K i : Nat} (hM : M ≤ z.length) :
    i ∈ selectIndices z M K ↔ i < M ∧ (z.getD i 0 < kthSmallest (z.take M) K ∨
      z.getD i 0 = kthSmallest (z.take M) K ∧
        (((z.take M).take i).countP fun y => decide (y = kthSmallest (z.take M) K)) <
          K - (z.take M).countP fun y => decide (y < kthSmallest (z.take M) K)) := by
  simp only [selectIndices, mem_takeSelected_iff, getElem?_take_eq_some_iff hM, Nat.zero_add]
  constructor
  · rintro ⟨_, _, rfl, ⟨hi, rfl⟩, h⟩
    exact ⟨hi, h⟩
  · rintro ⟨hi, h⟩
    exact ⟨i, _, rfl, ⟨hi, rfl⟩, h⟩

/-- A position is selected exactly when fewer than `K` come before it: a score below the pivot leaves the
rank below `K`, one above it takes the rank to `K`, and at the pivot the positions before it decide. -/
theorem mem_selectIndices_iff {z : List Int} {M K i : Nat} (hM : M ≤ z.length) (hK : 1 ≤ K)
    (hKM : K ≤ M) : i ∈ selectIndices z M K ↔ i < M ∧ scoreRank z M i < K := by
  obtain ⟨hlt, hle⟩ := kthSmallest_spec (zs := z.take M) hK (by rwa [List.length_take_of_le hM])
  rw [mem_selectIndices_iff_pivot hM]
  refine and_congr_right fun hi => ?_
  rw [scoreRank_eq hM hi]
  generalize kthSmallest (z.take M) K = v at hlt hle ⊢
  generalize z.getD i 0 = x
  obtain hbelow | rfl | habove := lt_trichotomy x v
  · have hrank : ((z.take M).countP fun y => decide (y ≤ x)) ≤
        (z.take M).countP fun y => decide (y < v) :=
      List.countP_mono_left fun y _ hy => decide_eq_true ((of_decide_eq_true hy).trans_lt hbelow)
    have hties := (List.take_sublist i (z.take M)).countP_le (p := fun y => decide (y = x))
    rw [countP_le_eq_add] at hrank
    exact iff_of_true (.inl hbelow) (by omega)
  · simp only [lt_irrefl, false_or, true_and]
    omega
  · have hrank : ((z.take M).countP fun y => decide (y ≤ v)) ≤
        (z.take M).countP fun y => decide (y < x) :=
      List.countP_mono_left fun y _ hy => decide_eq_true ((of_decide_eq_true hy).trans_lt habove)
    refine iff_of_false ?_ (by omega)
    rintro (h | ⟨h, -⟩) <;> omega

/-- Settles O30, by the pivot: a position is taken by its side of the pivot, and so is its rank below `K`. -/
theorem selectTakesTheFirstByScoreAndIndex : Obligations.SelectTakesTheFirstByScoreAndIndex :=
  fun z M K hM hK hKM => ⟨selectIndices_pairwise z M K, selectIndices_length hM hK hKM,
    fun _ => mem_selectIndices_iff hM hK hKM⟩

end Sys2Proof.Machine

/-! PROOFS. Node classification and the records of TREE (42_polar_construct.md R178 to R180): the class of a
subtree by the set of its data positions, and the pre-order records. -/

namespace Sys2Proof.Machine

/-! ## The data positions of a subtree (42_polar_construct.md R178, 40_bitutil.md R113) -/

/-- The data positions in `[lo, lo + nv)`. -/
def dataIn (D : List Nat) (lo nv : Nat) : Finset Nat := (Finset.Ico lo (lo + nv)).filter (· ∈ D)

theorem mem_dataIn {D : List Nat} {lo nv x : Nat} :
    x ∈ dataIn D lo nv ↔ (lo ≤ x ∧ x < lo + nv) ∧ x ∈ D := by
  rw [dataIn, Finset.mem_filter, Finset.mem_Ico]

theorem countP_lt_add (D : List Nat) (lo nv : Nat) :
    (D.countP fun x => decide (x < lo + nv)) = (D.countP fun x => decide (x < lo)) +
      (D.filter fun x => decide (lo ≤ x ∧ x < lo + nv)).length := by
  rw [← List.countP_eq_length_filter]
  induction D with
  | nil => rfl
  | cons x D ih =>
    simp only [List.countP_cons, decide_eq_true_eq, ih]
    split_ifs <;> omega

/-- The extents enclose as many indices as the subtree has data positions. -/
theorem rangeExtents_sub {D : List Nat} (hD : D.Pairwise (· < ·)) (lo nv : Nat) :
    (rangeExtents lo (lo + nv) D).2 - (rangeExtents lo (lo + nv) D).1 = (dataIn D lo nv).card := by
  have hcard : dataIn D lo nv = (D.filter fun x => decide (lo ≤ x ∧ x < lo + nv)).toFinset := by
    ext x
    rw [mem_dataIn, List.mem_toFinset, List.mem_filter, decide_eq_true_eq, and_comm]
  rw [rangeExtents, countP_lt_add, Nat.add_sub_cancel_left, hcard,
    List.toFinset_card_of_nodup ((hD.imp Nat.ne_of_lt).filter _)]

theorem drop_countP_lt {D : List Nat} (hD : D.Pairwise (· < ·)) (lo : Nat) :
    D.drop (D.countP fun x => decide (x < lo)) = D.filter fun x => decide (lo ≤ x) := by
  induction D with
  | nil => rfl
  | cons x D ih =>
    obtain ⟨hx, hD⟩ := List.pairwise_cons.1 hD
    by_cases hlt : x < lo
    · rw [List.countP_cons_of_pos (by simpa using hlt), List.drop_succ_cons, ih hD,
        List.filter_cons_of_neg (by simpa using hlt)]
    · have hnone : (x :: D).countP (fun y => decide (y < lo)) = 0 := by
        rw [List.countP_eq_zero]
        intro y hy
        obtain rfl | hy := List.mem_cons.1 hy
        · simpa using hlt
        · have := hx y hy
          simp only [decide_eq_true_eq]
          omega
      rw [hnone, List.drop_zero, eq_comm, List.filter_eq_self]
      intro y hy
      obtain rfl | hy := List.mem_cons.1 hy
      · simpa using hlt
      · have := hx y hy
        simp only [decide_eq_true_eq]
        omega

/-- The index at the lower extent is the least data position of the subtree, where it has one. -/
theorem getD_rangeExtents_isLeast {D : List Nat} (hD : D.Pairwise (· < ·)) {lo nv : Nat}
    (hne : (dataIn D lo nv).Nonempty) :
    IsLeast (dataIn D lo nv : Set Nat) (D.getD (rangeExtents lo (lo + nv) D).1 0) := by
  obtain ⟨d, hd⟩ := hne
  obtain ⟨⟨hlo, hhi⟩, hdD⟩ := mem_dataIn.1 hd
  have hdrop : D.drop (rangeExtents lo (lo + nv) D).1 = D.filter fun x => decide (lo ≤ x) :=
    drop_countP_lt hD lo
  have hsorted := hD.filter fun x => decide (lo ≤ x)
  have hmem : ∀ x, x ∈ (D.filter fun x => decide (lo ≤ x)) ↔ x ∈ D ∧ lo ≤ x := fun x => by
    rw [List.mem_filter, decide_eq_true_eq]
  rw [List.getD_eq_getElem?_getD, ← List.head?_drop, hdrop]
  cases hfilter : D.filter fun x => decide (lo ≤ x) with
  | nil => exact absurd ((hmem d).2 ⟨hdD, hlo⟩) (by rw [hfilter]; exact List.not_mem_nil)
  | cons a rest =>
    rw [hfilter] at hsorted hmem
    have hle : ∀ x ∈ D, lo ≤ x → a ≤ x := fun x hx hlox => by
      obtain rfl | hin := List.mem_cons.1 ((hmem x).2 ⟨hx, hlox⟩)
      · exact le_rfl
      · exact (List.rel_of_pairwise_cons hsorted hin).le
    obtain ⟨haD, haLo⟩ := (hmem a).1 List.mem_cons_self
    refine ⟨Finset.mem_coe.2 (mem_dataIn.2 ⟨⟨haLo, (hle d hdD hlo).trans_lt hhi⟩, haD⟩), fun x hx => ?_⟩
    obtain ⟨⟨hlox, -⟩, hxD⟩ := mem_dataIn.1 (Finset.mem_coe.1 hx)
    exact hle x hxD hlox

/-! ## The classes (42_polar_construct.md R178) -/

section Classes

variable {D : List Nat} {lo nv : Nat}

theorem dataIn_subset : dataIn D lo nv ⊆ Finset.Ico lo (lo + nv) := Finset.filter_subset _ _

/-- What a set of data positions says of `D`, position by position. -/
theorem dataIn_eq_iff {S : Finset Nat} (hS : S ⊆ Finset.Ico lo (lo + nv)) :
    dataIn D lo nv = S ↔ ∀ x, lo ≤ x → x < lo + nv → (x ∈ D ↔ x ∈ S) := by
  rw [Finset.ext_iff]
  refine forall_congr' fun x => ?_
  have hx := fun h : x ∈ S => Finset.mem_Ico.1 (hS h)
  rw [mem_dataIn]
  tauto

theorem dataIn_card_eq_size_iff :
    (dataIn D lo nv).card = nv ↔ dataIn D lo nv = Finset.Ico lo (lo + nv) := by
  constructor
  · intro h
    exact Finset.eq_of_subset_of_card_le dataIn_subset (by rw [h, Nat.card_Ico, Nat.add_sub_cancel_left])
  · intro h
    rw [h, Nat.card_Ico, Nat.add_sub_cancel_left]

/-- One data position, and the least one is the last of the subtree. -/
theorem dataIn_eq_last_iff (hD : D.Pairwise (· < ·)) :
    (dataIn D lo nv).card = 1 ∧ D.getD (rangeExtents lo (lo + nv) D).1 0 = lo + nv - 1 ↔
      dataIn D lo nv = {lo + nv - 1} := by
  have hleast := getD_rangeExtents_isLeast (lo := lo) (nv := nv) hD
  constructor
  · rintro ⟨hcard, hfirst⟩
    obtain ⟨a, ha⟩ := Finset.card_eq_one.1 hcard
    rw [ha, hfirst] at hleast
    rw [ha, Finset.mem_singleton.1 (hleast (Finset.singleton_nonempty a)).1]
  · intro h
    rw [h] at hleast ⊢
    exact ⟨Finset.card_singleton _, Finset.mem_singleton.1 (hleast (Finset.singleton_nonempty _)).1⟩

/-- All positions but one are data, and the least one is not the first of the subtree. -/
theorem dataIn_eq_tail_iff (hD : D.Pairwise (· < ·)) (hnv : 1 < nv) :
    (dataIn D lo nv).card = nv - 1 ∧ D.getD (rangeExtents lo (lo + nv) D).1 0 ≠ lo ↔
      dataIn D lo nv = Finset.Ico (lo + 1) (lo + nv) := by
  have hleast := getD_rangeExtents_isLeast (lo := lo) (nv := nv) hD
  have htail : (Finset.Ico (lo + 1) (lo + nv)).card = nv - 1 := by rw [Nat.card_Ico]; omega
  constructor
  · rintro ⟨hcard, hfirst⟩
    obtain ⟨hfirstMem, hfirstLe⟩ := hleast (Finset.card_pos.1 (by omega))
    refine Finset.eq_of_subset_of_card_le (fun x hx => ?_) (by rw [htail, hcard])
    have hfirstIn := (mem_dataIn.1 (Finset.mem_coe.1 hfirstMem)).1
    have hxIn := (mem_dataIn.1 hx).1
    have hle := hfirstLe (Finset.mem_coe.2 hx)
    exact Finset.mem_Ico.2 ⟨by omega, hxIn.2⟩
  · intro h
    rw [h] at hleast ⊢
    obtain ⟨hfirstMem, -⟩ := hleast (Finset.nonempty_Ico.2 (by omega))
    have hfirstIn := Finset.mem_Ico.1 (Finset.mem_coe.1 hfirstMem)
    exact ⟨htail, by omega⟩

/-- The tests of `classify`, over the set of data positions. -/
theorem classify_eq (hD : D.Pairwise (· < ·)) :
    classify D lo nv =
      if dataIn D lo nv = ∅ then .rate0
      else if dataIn D lo nv = Finset.Ico lo (lo + nv) then .rate1
      else if dataIn D lo nv = {lo + nv - 1} then .rep
      else if 2 < nv ∧ dataIn D lo nv = Finset.Ico (lo + 1) (lo + nv) then .spc
      else .standard := by
  have hspc : (dataIn D lo nv).card = nv - 1 ∧ 2 < nv ∧ D.getD (rangeExtents lo (lo + nv) D).1 0 ≠ lo ↔
      2 < nv ∧ dataIn D lo nv = Finset.Ico (lo + 1) (lo + nv) := by
    rw [and_left_comm]
    exact and_congr_right fun h => dataIn_eq_tail_iff hD (by omega)
  simp only [classify, rangeExtents_sub hD, Finset.card_eq_zero, dataIn_card_eq_size_iff,
    dataIn_eq_last_iff hD, hspc]

theorem classify_eq_rate0_iff (hD : D.Pairwise (· < ·)) :
    classify D lo nv = .rate0 ↔ ∀ x, lo ≤ x → x < lo + nv → x ∉ D := by
  have hset := dataIn_eq_iff (D := D) (Finset.empty_subset (Finset.Ico lo (lo + nv)))
  simp only [Finset.notMem_empty, iff_false] at hset
  rw [← hset, classify_eq hD]
  split_ifs with h <;> simp [h]

theorem classify_eq_rate1_iff (hD : D.Pairwise (· < ·)) (hnv : 0 < nv) :
    classify D lo nv = .rate1 ↔ ∀ x, lo ≤ x → x < lo + nv → x ∈ D := by
  have hset : dataIn D lo nv = Finset.Ico lo (lo + nv) ↔ ∀ x, lo ≤ x → x < lo + nv → x ∈ D :=
    (dataIn_eq_iff (Finset.Subset.refl _)).trans
      (forall_congr' fun x => forall_congr' fun hlo => forall_congr' fun hhi => by
        rw [iff_true_right (Finset.mem_Ico.2 ⟨hlo, hhi⟩)])
  have hne : Finset.Ico lo (lo + nv) ≠ ∅ := (Finset.nonempty_Ico.2 (by omega)).ne_empty
  rw [← hset, classify_eq hD]
  split_ifs with hempty hfull
  · exact iff_of_false (by simp) (by rw [hempty]; exact hne.symm)
  · exact iff_of_true rfl hfull
  all_goals exact iff_of_false (by simp) hfull

theorem classify_eq_rep_iff (hD : D.Pairwise (· < ·)) (hnv : 0 < nv) :
    classify D lo nv = .rep ↔ 1 < nv ∧ ∀ x, lo ≤ x → x < lo + nv → (x ∈ D ↔ x = lo + nv - 1) := by
  have hset : dataIn D lo nv = {lo + nv - 1} ↔
      ∀ x, lo ≤ x → x < lo + nv → (x ∈ D ↔ x = lo + nv - 1) := by
    rw [dataIn_eq_iff (Finset.singleton_subset_iff.2 (Finset.mem_Ico.2 (by omega)))]
    simp only [Finset.mem_singleton]
  have hfull : dataIn D lo nv = {lo + nv - 1} →
      (dataIn D lo nv = Finset.Ico lo (lo + nv) ↔ nv = 1) := fun h => by
    rw [← dataIn_card_eq_size_iff, h, Finset.card_singleton, eq_comm]
  rw [← hset, classify_eq hD]
  split_ifs with hempty hall hlast hspc
  · exact iff_of_false (by simp) fun h => Finset.singleton_ne_empty _ (h.2.symm.trans hempty)
  · exact iff_of_false (by simp) fun h => h.1.ne' ((hfull h.2).1 hall)
  · exact iff_of_true rfl ⟨by have := mt (hfull hlast).2 hall; omega, hlast⟩
  all_goals exact iff_of_false (by simp) fun h => hlast h.2

theorem classify_eq_spc_iff (hD : D.Pairwise (· < ·)) :
    classify D lo nv = .spc ↔ 2 < nv ∧ ∀ x, lo ≤ x → x < lo + nv → (x ∈ D ↔ x ≠ lo) := by
  have hset : dataIn D lo nv = Finset.Ico (lo + 1) (lo + nv) ↔
      ∀ x, lo ≤ x → x < lo + nv → (x ∈ D ↔ x ≠ lo) := by
    rw [dataIn_eq_iff (Finset.Ico_subset_Ico_left (Nat.le_succ lo))]
    refine forall_congr' fun x => forall_congr' fun hlo => forall_congr' fun hhi => ?_
    rw [show x ∈ Finset.Ico (lo + 1) (lo + nv) ↔ x ≠ lo by rw [Finset.mem_Ico]; omega]
  have hcard : dataIn D lo nv = Finset.Ico (lo + 1) (lo + nv) → (dataIn D lo nv).card = nv - 1 :=
    fun h => by rw [h, Nat.card_Ico]; omega
  rw [← hset, classify_eq hD]
  split_ifs with hempty hall hlast hspc
  · refine iff_of_false (by simp) fun ⟨hnv, h⟩ => ?_
    have := hcard h
    rw [hempty, Finset.card_empty] at this
    omega
  · refine iff_of_false (by simp) fun ⟨hnv, h⟩ => ?_
    have := hcard h
    rw [dataIn_card_eq_size_iff.2 hall] at this
    omega
  · refine iff_of_false (by simp) fun ⟨hnv, h⟩ => ?_
    have := hcard h
    rw [hlast, Finset.card_singleton] at this
    omega
  · exact iff_of_true rfl hspc
  · exact iff_of_false (by simp) hspc

end Classes

/-- The classes are exhaustive: what is none of the other four is Standard. -/
theorem eq_standard_iff (t : NodeTag) :
    t = .standard ↔ t ≠ .rate0 ∧ t ≠ .rate1 ∧ t ≠ .rep ∧ t ≠ .spc := by
  cases t <;> decide

theorem forall_lt_add_one {lo : Nat} {P : Nat → Prop} : (∀ x, lo ≤ x → x < lo + 1 → P x) ↔ P lo := by
  constructor
  · exact fun h => h lo le_rfl (Nat.lt_succ_self lo)
  · intro h x hlo hhi
    rwa [Nat.le_antisymm (Nat.le_of_lt_succ hhi) hlo]

theorem forall_lt_add_two {lo : Nat} {P : Nat → Prop} :
    (∀ x, lo ≤ x → x < lo + 2 → P x) ↔ P lo ∧ P (lo + 1) := by
  constructor
  · exact fun h => ⟨h lo le_rfl (by omega), h (lo + 1) (by omega) (by omega)⟩
  · rintro ⟨h0, h1⟩ x hlo hhi
    obtain rfl | rfl : x = lo ∨ x = lo + 1 := by omega
    · exact h0
    · exact h1

/-- A subtree of one position is Rate-0 or Rate-1 (42_polar_construct.md R179). -/
theorem classify_one_ne_standard {D : List Nat} (hD : D.Pairwise (· < ·)) (lo : Nat) :
    classify D lo 1 ≠ .standard := by
  rw [Ne, eq_standard_iff, Ne, Ne, classify_eq_rate0_iff hD, classify_eq_rate1_iff hD one_pos,
    forall_lt_add_one, forall_lt_add_one]
  exact fun ⟨hno, hyes, _⟩ => hno hyes

theorem classify_two_eq_standard_iff {D : List Nat} (hD : D.Pairwise (· < ·)) (lo : Nat) :
    classify D lo 2 = .standard ↔ lo ∈ D ∧ lo + 1 ∉ D := by
  rw [eq_standard_iff, Ne, Ne, Ne, Ne, classify_eq_rate0_iff hD, classify_eq_rate1_iff hD two_pos,
    classify_eq_rep_iff hD two_pos, classify_eq_spc_iff hD, forall_lt_add_two, forall_lt_add_two,
    forall_lt_add_two]
  have hfirst : lo ≠ lo + 2 - 1 := by omega
  have hlast : lo + 1 = lo + 2 - 1 := by omega
  have hsize : 1 < 2 ∧ ¬ 2 < 2 := by omega
  tauto

/-- Settles O31, class by class from the set of data positions. -/
theorem classifyMeansItsDescription : Obligations.ClassifyMeansItsDescription := by
  intro D lo nv hD hnv
  refine ⟨classify_eq_rate0_iff hD, classify_eq_rate1_iff hD hnv, classify_eq_rep_iff hD hnv,
    classify_eq_spc_iff hD, ?_, ?_, rfl⟩
  · rintro rfl
    exact classify_one_ne_standard hD lo
  · rintro rfl
    exact classify_two_eq_standard_iff hD lo

/-! ## The records (42_polar_construct.md R180, 10_state.md R60) -/

theorem NodeTag.code_lt (t : NodeTag) : t.code < 8 := by cases t <;> decide

theorem tagOfCode_code (t : NodeTag) : tagOfCode t.code = some t := by cases t <;> rfl

theorem buildTree_succ_of_standard {D : List Nat} {n lo : Nat}
    (h : classify D lo (2 ^ (n + 1)) = .standard) : buildTree D (n + 1) lo =
      { size := 2 ^ (n + 1), tag := .standard } :: (buildTree D n lo ++ buildTree D n (lo + 2 ^ n)) := by
  simp only [buildTree, h, if_true]

theorem buildTree_succ_of_leaf {D : List Nat} {n lo : Nat}
    (h : classify D lo (2 ^ (n + 1)) ≠ .standard) :
    buildTree D (n + 1) lo = [{ size := 2 ^ (n + 1), tag := classify D lo (2 ^ (n + 1)) }] := by
  simp only [buildTree, if_neg h]

theorem buildTree_length_odd (D : List Nat) (n lo : Nat) : (buildTree D n lo).length % 2 = 1 := by
  induction n generalizing lo with
  | zero => rfl
  | succ n ih =>
    by_cases h : classify D lo (2 ^ (n + 1)) = .standard
    · have hleft := ih lo
      have hright := ih (lo + 2 ^ n)
      rw [buildTree_succ_of_standard h, List.length_cons, List.length_append]
      omega
    · rw [buildTree_succ_of_leaf h]
      rfl

/-- How many positions the leaves among the records cover. -/
def leafSizes (recs : List NodeRecord) : Nat :=
  ((recs.filter fun r => r.tag ≠ .standard).map (·.size)).sum

theorem leafSizes_cons (r : NodeRecord) (recs : List NodeRecord) :
    leafSizes (r :: recs) = (if r.tag = .standard then 0 else r.size) + leafSizes recs := by
  by_cases h : r.tag = .standard <;> simp [leafSizes, h]

theorem leafSizes_append (recs recs' : List NodeRecord) :
    leafSizes (recs ++ recs') = leafSizes recs + leafSizes recs' := by
  simp only [leafSizes, List.filter_append, List.map_append, List.sum_append]

theorem leafSizes_singleton {r : NodeRecord} (h : r.tag ≠ .standard) : leafSizes [r] = r.size := by
  rw [leafSizes_cons, if_neg h]
  rfl

/-- The leaves tile the subtree: a Standard node hands its two halves on. -/
theorem leafSizes_buildTree {D : List Nat} (hD : D.Pairwise (· < ·)) (n lo : Nat) :
    leafSizes (buildTree D n lo) = 2 ^ n := by
  induction n generalizing lo with
  | zero => exact leafSizes_singleton (classify_one_ne_standard hD lo)
  | succ n ih =>
    by_cases h : classify D lo (2 ^ (n + 1)) = .standard
    · rw [buildTree_succ_of_standard h, leafSizes_cons, if_pos rfl, Nat.zero_add, leafSizes_append, ih, ih,
        ← Nat.two_mul, Nat.pow_succ']
    · rw [buildTree_succ_of_leaf h]
      exact leafSizes_singleton h

theorem size_le_of_mem_buildTree {D : List Nat} {n lo : Nat} {r : NodeRecord} (h : r ∈ buildTree D n lo) :
    r.size ≤ 2 ^ n := by
  induction n generalizing lo with
  | zero => rw [List.mem_singleton.1 h]; exact le_rfl
  | succ n ih =>
    by_cases ht : classify D lo (2 ^ (n + 1)) = .standard
    · rw [buildTree_succ_of_standard ht, List.mem_cons, List.mem_append] at h
      have hpow : 2 ^ n ≤ 2 ^ (n + 1) := Nat.pow_le_pow_right (by decide) (Nat.le_succ n)
      obtain rfl | h | h := h
      · exact le_rfl
      · exact (ih h).trans hpow
      · exact (ih h).trans hpow
    · rw [buildTree_succ_of_leaf ht] at h
      rw [List.mem_singleton.1 h]

/-- The word of a record as a number: the tag below the size. -/
theorem elemOfRecord_eq (r : NodeRecord) :
    elemOfRecord r = BitVec.ofNat 64 (r.tag.code + r.size * 2 ^ 8) := by
  rw [elemOfRecord, ← Nat.shiftLeft_add_eq_or_of_lt (r.tag.code_lt.trans (by decide)), Nat.shiftLeft_eq,
    Nat.add_comm]

/-- A record whose size fits the field SIZE is read back. -/
theorem recordOfElem_elemOfRecord {r : NodeRecord} (h : r.size < 2 ^ 33) :
    recordOfElem (elemOfRecord r) = some r := by
  have hcode := r.tag.code_lt
  have hword : (elemOfRecord r).toNat = r.tag.code + r.size * 2 ^ 8 := by
    rw [elemOfRecord_eq, toNat_ofNat_of_lt (by omega)]
  have htag : ((elemOfRecord r).extractLsb' 0 3).toNat = r.tag.code := by
    rw [BitVec.extractLsb'_toNat, hword, Nat.shiftRight_zero]
    omega
  have hsize : ((elemOfRecord r).extractLsb' 8 33).toNat = r.size := by
    rw [BitVec.extractLsb'_toNat, hword, Nat.shiftRight_eq_div_pow]
    omega
  rw [recordOfElem, htag, hsize, tagOfCode_code]
  rfl

theorem recordsOfElems_map_elemOfRecord {recs : List NodeRecord} (h : ∀ r ∈ recs, r.size < 2 ^ 33) :
    recordsOfElems (recs.map elemOfRecord) = some recs := by
  induction recs with
  | nil => rfl
  | cons r recs ih =>
    obtain ⟨hr, hrecs⟩ := List.forall_mem_cons.1 h
    rw [List.map_cons, recordsOfElems, recordOfElem_elemOfRecord hr, ih hrecs]

/-- Settles O32, by induction on the depth of the subtree. -/
theorem treeRecordsTileTheBlock : Obligations.TreeRecordsTileTheBlock := by
  intro D n lo hD
  have hlen := buildTree_length_lt D n lo
  rw [Nat.pow_succ'] at hlen
  refine ⟨buildTree_length_odd D n lo, by omega, leafSizes_buildTree hD n lo, fun hn => ?_⟩
  refine recordsOfElems_map_elemOfRecord fun r hr => (size_le_of_mem_buildTree hr).trans_lt ?_
  exact Nat.pow_lt_pow_right (by decide) (by omega)

end Sys2Proof.Machine

/-! PROOFS. The check table of PC_CFG: the row that a chain of checks answers, and PC_CFG with no check failing
(42_polar_construct.md R171, R172). -/

namespace Sys2Proof.Machine

/-! ## Tables of checks -/

/-- `answer` is the number of the first row that fails, counting from row `n`, and none where no row from `n` on
fails. -/
inductive AnswersFirst (fails : Nat → Prop) (n : Nat) (answer : Option Byte) : Prop where
  | pass (rows : ∀ m, n ≤ m → ¬ fails m) (eq : answer = none)
  | fail (k : Nat) (le : n ≤ k) (lt : k < 2 ^ 8) (row : fails k) (rows : ∀ m, n ≤ m → m < k → ¬ fails m)
      (eq : answer = some (BitVec.ofNat 8 k))

/-- One check in front of the table: its row is answered where it fails, else the rows behind it decide. -/
theorem AnswersFirst.check {fails : Nat → Prop} {n : Nat} {c : Prop} [Decidable c] {rest : Option Byte}
    (hrow : fails n ↔ c) (hn : n < 2 ^ 8) (hrest : AnswersFirst fails (n + 1) rest) :
    AnswersFirst fails n (if c then some (BitVec.ofNat 8 n) else rest) := by
  by_cases hc : c
  · exact .fail n le_rfl hn (hrow.2 hc) (fun m hm hm' => absurd hm (Nat.not_le_of_lt hm')) (if_pos hc)
  have extend : ∀ {m}, n ≤ m → (n + 1 ≤ m → ¬ fails m) → ¬ fails m := fun {m} hm h => by
    obtain rfl | hlt := Nat.eq_or_lt_of_le hm
    · exact mt hrow.1 hc
    · exact h hlt
  rw [if_neg hc]
  cases hrest with
  | pass rows eq => exact .pass (fun m hm => extend hm (rows m)) eq
  | fail k le lt row rows eq =>
    exact .fail k (by omega) lt row (fun m hm hm' => extend hm fun h => rows m h hm') eq

theorem AnswersFirst.eq_none {fails : Nat → Prop} {n : Nat} {answer : Option Byte}
    (h : AnswersFirst fails n answer) (hrows : ∀ m, ¬ fails m) : answer = none := by
  cases h with
  | pass _ eq => exact eq
  | fail k _ _ row _ _ => exact absurd row (hrows k)

/-- The first row that fails is the one answered. -/
theorem AnswersFirst.eq_some {fails : Nat → Prop} {n k : Nat} {answer : Option Byte}
    (h : AnswersFirst fails n answer) (hk : n ≤ k) (hrow : fails k)
    (hrows : ∀ m, n ≤ m → m < k → ¬ fails m) : k < 2 ^ 8 ∧ answer = some (BitVec.ofNat 8 k) := by
  cases h with
  | pass rows _ => exact absurd hrow (rows k hk)
  | fail j le lt row rows eq =>
    obtain hlt | rfl | hgt := Nat.lt_trichotomy j k
    · exact absurd row (hrows j le hlt)
    · exact ⟨lt, eq⟩
    · exact absurd hrow (rows k hk hgt)

/-! ## The rows of PC_CFG (42_polar_construct.md R172) -/

theorem isPowerOfTwo_iff {N : Nat} : isPowerOfTwo N = true ↔ ∃ e, N = 2 ^ e := by
  refine Iff.trans ?_ Nat.ne_zero_and_sub_one_eq_zero_iff_isPowerOfTwo
  simp [isPowerOfTwo]

section Rows

variable (p : Params) (N M K : Nat) (snr : Int) (ls : Nat)

theorem pcFails_block_iff : pcFails p N M K snr ls 1 ↔ isPowerOfTwo N = false ∨ N < 8 := by
  rw [pcFails, ← isPowerOfTwo_iff, Bool.not_eq_true]

theorem pcFails_length_iff : pcFails p N M K snr ls 3 ↔ M % 8 ≠ 0 ∨ N < M := by
  rw [pcFails, Nat.dvd_iff_mod_eq_zero]

theorem pcFails_data_iff : pcFails p N M K snr ls 4 ↔ K < 1 ∨ K % 8 ≠ 0 ∨ M < K := by
  rw [pcFails, Nat.dvd_iff_mod_eq_zero]

theorem not_pcFails_of_le {n : Nat} (h : 7 ≤ n) : ¬ pcFails p N M K snr ls n := by
  obtain ⟨m, rfl⟩ := Nat.exists_eq_add_of_le' h
  exact id

/-- The checks of PC_CFG answer the first row that fails. -/
theorem pcCheck_answersFirst : AnswersFirst (pcFails p N M K snr ls) 1 (pcCheck p N M K snr ls) :=
  .check (pcFails_block_iff p N M K snr ls) (by decide) <|
  .check (n := 2) Iff.rfl (by decide) <|
  .check (n := 3) (pcFails_length_iff p N M K snr ls) (by decide) <|
  .check (n := 4) (pcFails_data_iff p N M K snr ls) (by decide) <|
  .check (n := 5) Iff.rfl (by decide) <|
  .check (n := 6) Iff.rfl (by decide) <|
  .pass (fun _ h => not_pcFails_of_le p N M K snr ls h) rfl

end Rows

theorem exec_pcCfg (s : State) : exec .pcCfg s =
    whenLegal
      (pcCheck s.par s.regs.pcN.toNat s.regs.pcM.toNat s.regs.pcK.toNat s.regs.pcSnr.toInt
        s.regs.pcLs.toNat)
      .pcCfg .pcCfgInvalid s fun s => .next (pcConfigure s) := rfl

/-- Settles O27: the checks answer the first row that fails, and the command records it. -/
theorem pcCfgRefusesTheFirstFailingCheck : Obligations.PcCfgRefusesTheFirstFailingCheck := by
  intro s n hf hfails hpass
  have hn : 1 ≤ n := Nat.pos_of_ne_zero fun h0 => by rw [h0] at hfails; exact hfails
  obtain ⟨hlt, hcheck⟩ := (pcCheck_answersFirst ..).eq_some hn hfails hpass
  refine ⟨raiseFault .pcCfgInvalid (BitVec.ofNat 8 n) (opcode .pcCfg) s, ?_, ?_⟩
  · rw [exec_pcCfg, hcheck]
    rfl
  · have hrecorded := raiseFault_recorded .pcCfgInvalid (BitVec.ofNat 8 n) (opcode .pcCfg) hf
    rwa [BitVec.toNat_ofNat, Nat.mod_eq_of_lt hlt] at hrecorded

/-! ## What PC_CFG writes (42_polar_construct.md R171) -/

theorem initShort_eq (llrw n : Nat) :
    initShort llrw n = (2 ^ (llrw - 1) - 1) / 2 ^ min (n + 1) (llrw - 4) :=
  Nat.shiftRight_eq_div_pow _ _

theorem pcConfigure_regs (s : State) : (pcConfigure s).regs = { s.regs with
    status := s.regs.status ||| 0x2
    pcLogn := BitVec.ofNat 64 (log2 s.regs.pcN.toNat)
    pcInitshort := BitVec.ofNat 64 (initShort s.par.llrw (log2 s.regs.pcN.toNat))
    pcNnodes := BitVec.ofNat 64 (polarRecords s.regs).length } := rfl

theorem elem?_write_zero_of_outside {s : State} {sp sp' : Space} {vs : List Word64} {i : Nat}
    (h : ¬ (sp' = sp ∧ i < vs.length)) : (s.write sp 0 vs).elem? sp' i = s.elem? sp' i :=
  sameElemsBut_write s sp 0 vs sp' i fun hin => h ⟨hin.1, by omega⟩

/-- PC_CFG writes the three tables from element 0 on, and no other element. -/
theorem sameElemsBut_pcConfigure (s : State) : SameElemsBut s (pcConfigure s) fun sp i =>
    (sp = .bhat ∧ i < (polarScores s.regs).length) ∨ (sp = .didx ∧ i < (polarIndices s.regs).length) ∨
      (sp = .tree ∧ i < (polarRecords s.regs).length) := by
  intro sp i hout
  obtain ⟨hbhat, hout⟩ := not_or.1 hout
  obtain ⟨hdidx, htree⟩ := not_or.1 hout
  refine (elem?_write_zero_of_outside ?_).trans
    ((elem?_write_zero_of_outside ?_).trans (elem?_write_zero_of_outside ?_))
  · rwa [List.length_map]
  · rwa [List.length_map]
  · rwa [List.length_map]

/-- Settles O28: the tables are those of the parameters, the registers and the frame are read off. -/
theorem pcCfgDescribesTheCode : Obligations.PcCfgDescribesTheCode := by
  rintro s n M K snr z D recs hpar hN rfl rfl rfl hrows hz hD hrecs
  have hcheck : pcCheck s.par s.regs.pcN.toNat s.regs.pcM.toNat s.regs.pcK.toNat s.regs.pcSnr.toInt
      s.regs.pcLs.toNat = none := (pcCheck_answersFirst ..).eq_none (by rwa [hN])
  have hlog : log2 s.regs.pcN.toNat = n := by rw [hN, log2, Nat.log2_two_pow]
  obtain rfl : z = polarScores s.regs := by rw [hz, ← hlog]; rfl
  obtain rfl : D = polarIndices s.regs := hD
  obtain rfl : recs = polarRecords s.regs := by rw [hrecs, ← hlog]; rfl
  obtain ⟨-, -, -, -, hbhat, hdidx, htree⟩ := polarDescribed_pcConfigure hpar hcheck
  have hzlen : (polarScores s.regs).length = 2 ^ n := by rw [hz, bhattacharyya_length]
  have hDlen : (polarIndices s.regs).length = s.regs.pcK.toNat := by
    have hM := not_or.1 (hrows 3)
    have hK := not_or.1 (hrows 4)
    exact selectIndices_length (by omega) (by omega) (by omega)
  refine ⟨pcConfigure s, by rw [exec_pcCfg, hcheck]; rfl, samePort_pcConfigure s, rfl, ?_, hzlen, hDlen,
    hbhat, hdidx, ?_, ?_⟩
  · rw [pcConfigure_regs, hlog, initShort_eq]
  · simp only [← elemOfRecord_eq]
    exact htree
  · rw [← hzlen, ← hDlen]
    exact sameElemsBut_pcConfigure s

end Sys2Proof.Machine

/-! PROOFS. The polar transform and the codeword: one stage bit by bit, the closed form of all stages, the
involution, the zero tail and linearity (43_polar_encode.md R203, R206, R207, R209). A buffer is read as
`b.getD j false`: beyond its end every bit is 0, as the stage itself reads it. -/

namespace Sys2Proof.Machine

/-! ## Bits of a buffer -/

theorem getElem?_eq_some_getD {b : List Bool} {j : Nat} (h : j < b.length) :
    b[j]? = some (b.getD j false) := by
  rw [List.getElem?_eq_getElem h, List.getD_eq_getElem]

theorem buffer_ext {a b : List Bool} (hlen : a.length = b.length)
    (h : ∀ j < b.length, a.getD j false = b.getD j false) : a = b :=
  List.ext_getElem hlen fun j ha hb => by simpa [ha, hb] using h j hb

theorem getD_zipWith_xor {a b : List Bool} (hlen : a.length = b.length) (j : Nat) :
    (List.zipWith (· ^^ ·) a b).getD j false = (a.getD j false ^^ b.getD j false) := by
  obtain hj | hj := Nat.lt_or_ge j b.length
  · rw [List.getD_eq_getElem _ _ (by simp; omega), List.getD_eq_getElem _ _ (by omega),
      List.getD_eq_getElem _ _ hj, List.getElem_zipWith]
  · rw [List.getD_eq_default _ _ (by simp [hj]), List.getD_eq_default _ _ (hlen ▸ hj),
      List.getD_eq_default _ _ hj]
    rfl

theorem zipWith_xor_self (a : List Bool) :
    List.zipWith (· ^^ ·) a a = List.replicate a.length false := by
  simp [List.zipWith_self, List.map_const']

theorem zipWith_xor_set (a b : List Bool) (i : Nat) (x y : Bool) :
    (List.zipWith (· ^^ ·) a b).set i (x ^^ y) = List.zipWith (· ^^ ·) (a.set i x) (b.set i y) := by
  induction a generalizing b i with
  | nil => simp
  | cons z a ih => cases b <;> cases i <;> simp [ih]

/-! ## Binary digits of a position -/

/-- Adding `2^s` where digit `s` is 0 sets this digit and no other. -/
theorem testBit_add_two_pow {j s : Nat} (h : j.testBit s = false) (m : Nat) :
    (j + 2 ^ s).testBit m = (decide (m = s) || j.testBit m) := by
  have hlow : j % 2 ^ (s + 1) < 2 ^ s := by
    rw [Nat.testBit_eq_decide_div_mod_eq, decide_eq_false_iff_not] at h
    rw [Nat.pow_succ, Nat.mod_mul, show j / 2 ^ s % 2 = 0 by omega]
    simpa using Nat.mod_lt j (Nat.two_pow_pos s)
  have hsplit := Nat.div_add_mod j (2 ^ (s + 1))
  generalize j / 2 ^ (s + 1) = q at hsplit
  generalize j % 2 ^ (s + 1) = r at hlow hsplit
  have hpow : 2 ^ (s + 1) = 2 ^ s + 2 ^ s := by rw [Nat.pow_succ, Nat.mul_two]
  subst hsplit
  rw [Nat.add_assoc, Nat.add_comm r, Nat.testBit_two_pow_mul_add _ (by omega),
    Nat.testBit_two_pow_mul_add _ (by omega)]
  obtain hm | rfl | hm := Nat.lt_trichotomy m s
  · simp [Nat.testBit_two_pow_add_gt hm, hm.ne, Nat.lt_succ_of_lt hm]
  · simp [Nat.testBit_two_pow_add_eq, Nat.testBit_lt_two_pow hlow]
  · simp [hm.ne', Nat.not_lt.2 (Nat.succ_le_of_lt hm)]

theorem testBit_eq_false_iff_div_mod (j s : Nat) : j.testBit s = false ↔ j / 2 ^ s % 2 = 0 := by
  rw [Nat.testBit_eq_decide_div_mod_eq, decide_eq_false_iff_not]
  omega

/-! ## One stage (43_polar_encode.md R203) -/

@[simp] theorem transformStage_length (s : Nat) (b : List Bool) :
    (transformStage s b).length = b.length := by
  simp only [transformStage, List.length_mapIdx, List.length_zip, List.length_append, List.length_drop,
    List.length_replicate]
  omega

theorem getD_append_replicate_false (b : List Bool) (n j : Nat) :
    (b ++ List.replicate n false).getD j false = b.getD j false := by
  obtain hj | hj := Nat.lt_or_ge j b.length
  · exact List.getD_append _ _ _ _ hj
  · rw [List.getD_append_right _ _ _ _ hj, List.getD_eq_getElem?_getD,
      List.getElem?_getD_replicate_default_eq, List.getD_eq_default _ _ hj]

/-- The butterfly: where digit `s` is 0, the bit `2^s` above is added. -/
theorem getD_transformStage (s : Nat) (b : List Bool) (j : Nat) :
    (transformStage s b).getD j false =
      (b.getD j false ^^ (!j.testBit s && b.getD (j + 2 ^ s) false)) := by
  obtain hj | hj := Nat.lt_or_ge j b.length
  · have hupper : (b.drop (2 ^ s) ++ List.replicate (2 ^ s) false).getD j false =
        b.getD (j + 2 ^ s) false := by
      rw [getD_append_replicate_false, List.getD_eq_getElem?_getD, List.getElem?_drop, Nat.add_comm,
        ← List.getD_eq_getElem?_getD]
    rw [List.getD_eq_getElem _ _ (by rw [List.length_append, List.length_drop, List.length_replicate]; omega)]
      at hupper
    rw [List.getD_eq_getElem _ _ (by simpa using hj), ← hupper, List.getD_eq_getElem _ _ hj]
    simp only [transformStage, List.getElem_mapIdx, List.getElem_zip, Nat.and_two_pow]
    cases j.testBit s <;> simp
  · rw [List.getD_eq_default _ _ (by simpa using hj), List.getD_eq_default _ _ hj,
      List.getD_eq_default _ _ (hj.trans (Nat.le_add_right ..)), Bool.and_false]
    rfl

theorem transformStage_zipWith_xor (s : Nat) {a b : List Bool} (hlen : a.length = b.length) :
    transformStage s (List.zipWith (· ^^ ·) a b) =
      List.zipWith (· ^^ ·) (transformStage s a) (transformStage s b) := by
  refine buffer_ext (by simp) fun j _ => ?_
  rw [getD_transformStage, getD_zipWith_xor hlen, getD_zipWith_xor hlen, getD_zipWith_xor (by simpa using hlen),
    getD_transformStage, getD_transformStage, Bool.and_xor_distrib_left]
  simp only [Bool.xor_assoc, Bool.xor_left_comm]

/-- A stage is its own inverse: the bits that are added have digit `s` set and stay. -/
theorem transformStage_transformStage (s : Nat) (b : List Bool) :
    transformStage s (transformStage s b) = b := by
  refine buffer_ext (by simp) fun j _ => ?_
  simp only [getD_transformStage]
  cases h : j.testBit s
  · simp [testBit_add_two_pow h]
  · simp

/-- Stages work on different digits, so their order does not matter. -/
theorem transformStage_comm (s t : Nat) (b : List Bool) :
    transformStage s (transformStage t b) = transformStage t (transformStage s b) := by
  obtain rfl | hst := eq_or_ne s t
  · rfl
  refine buffer_ext (by simp) fun j _ => ?_
  simp only [getD_transformStage]
  cases hs : j.testBit s <;> cases ht : j.testBit t
  · simp only [testBit_add_two_pow hs, testBit_add_two_pow ht, hs, ht, hst, hst.symm, Nat.add_right_comm j,
      decide_false, Bool.or_false, Bool.not_false, Bool.true_and]
    simp only [Bool.xor_assoc, Bool.xor_left_comm]
  · simp [testBit_add_two_pow hs, ht]
  · simp [testBit_add_two_pow ht, hs]
  · simp

/-! ## All stages (43_polar_encode.md R203, R207, R209) -/

theorem transform_zero (b : List Bool) : transform 0 b = b := rfl

theorem transform_succ (n : Nat) (b : List Bool) :
    transform (n + 1) b = transformStage n (transform n b) := by
  rw [transform, List.range_succ, List.foldl_append]
  rfl

@[simp] theorem transform_length (n : Nat) (b : List Bool) : (transform n b).length = b.length :=
  foldl_length_eq (fun b s => transformStage_length s b) b _

theorem transform_zipWith_xor (n : Nat) {a b : List Bool} (hlen : a.length = b.length) :
    transform n (List.zipWith (· ^^ ·) a b) = List.zipWith (· ^^ ·) (transform n a) (transform n b) := by
  induction n with
  | zero => rfl
  | succ n ih =>
    rw [transform_succ, transform_succ, transform_succ, ih, transformStage_zipWith_xor n (by simpa using hlen)]

theorem transform_transformStage (n s : Nat) (b : List Bool) :
    transform n (transformStage s b) = transformStage s (transform n b) := by
  induction n with
  | zero => rfl
  | succ n ih => rw [transform_succ, transform_succ, ih, transformStage_comm]

theorem transform_transform (n : Nat) (b : List Bool) : transform n (transform n b) = b := by
  induction n with
  | zero => rfl
  | succ n ih =>
    rw [transform_succ, transform_succ, transform_transformStage, transformStage_transformStage, ih]

/-! ## The closed form (43_polar_encode.md R203) -/

/-- The XOR of `f i` over the positions below `N`. -/
def xorBelow (N : Nat) (f : Nat → Bool) : Bool := (List.range N).foldl (fun x i => x ^^ f i) false

theorem xorBelow_succ (N : Nat) (f : Nat → Bool) : xorBelow (N + 1) f = (xorBelow N f ^^ f N) := by
  rw [xorBelow, List.range_succ, List.foldl_append]
  rfl

theorem xorBelow_congr {N : Nat} {f g : Nat → Bool} (h : ∀ i < N, f i = g i) :
    xorBelow N f = xorBelow N g := by
  induction N with
  | zero => rfl
  | succ N ih =>
    rw [xorBelow_succ, xorBelow_succ, ih fun i hi => h i (Nat.lt_succ_of_lt hi), h N (Nat.lt_succ_self N)]

theorem xorBelow_false (N : Nat) : xorBelow N (fun _ => false) = false := by
  induction N with
  | zero => rfl
  | succ N ih => rw [xorBelow_succ, ih, Bool.xor_false]

theorem xorBelow_xor (N : Nat) (f g : Nat → Bool) :
    xorBelow N (fun i => f i ^^ g i) = (xorBelow N f ^^ xorBelow N g) := by
  induction N with
  | zero => rfl
  | succ N ih => simp only [xorBelow_succ, ih, Bool.xor_assoc, Bool.xor_left_comm]

theorem xorBelow_and_left (c : Bool) (N : Nat) (f : Nat → Bool) :
    xorBelow N (fun i => c && f i) = (c && xorBelow N f) := by
  cases c
  · simp [xorBelow_false]
  · simp

theorem xorBelow_single (N j : Nat) (f : Nat → Bool) :
    xorBelow N (fun i => i == j && f i) = (decide (j < N) && f j) := by
  induction N with
  | zero => rfl
  | succ N ih =>
    rw [xorBelow_succ, ih]
    obtain hj | rfl | hj := Nat.lt_trichotomy j N
    · simp [hj, beq_false_of_ne (Nat.ne_of_gt hj), Nat.lt_succ_of_lt hj]
    · simp
    · simp [hj.ne, Nat.not_lt.2 hj.le, Nat.not_lt.2 (Nat.succ_le_of_lt hj)]

theorem transformClosed_eq (N : Nat) (b : List Bool) (j : Nat) :
    transformClosed N b j = xorBelow N fun i => i &&& j == j && b.getD i false := by
  rw [transformClosed, List.foldl_filter, xorBelow]
  congr 1
  funext x i
  cases i &&& j == j <;> simp

/-- Bit `i` is added into bit `j` by the stages below `k`: `i` has every digit that `j` has, and only digits
below `k` beside them. -/
def feeds (k j i : Nat) : Bool := i &&& j == j && i >>> k == j >>> k

theorem feeds_iff {k j i : Nat} : feeds k j i = true ↔
    (∀ m, j.testBit m = true → i.testBit m = true) ∧ ∀ m, k ≤ m → i.testBit m = j.testBit m := by
  have hshift : i >>> k = j >>> k ↔ ∀ m, k ≤ m → i.testBit m = j.testBit m := by
    simp only [Nat.eq_iff_testBit_eq, Nat.testBit_shiftRight]
    exact ⟨fun h m hm => Nat.add_sub_cancel' hm ▸ h (m - k), fun h m => h _ (Nat.le_add_right k m)⟩
  rw [feeds, Bool.and_eq_true, beq_iff_eq, beq_iff_eq, hshift, Nat.eq_iff_testBit_eq]
  simp only [Nat.testBit_and, Bool.and_eq_right_iff_imp]

theorem feeds_zero (j i : Nat) : feeds 0 j i = (i == j) := by
  by_cases h : i = j <;> simp [feeds, h]

theorem feeds_of_lt {n j i : Nat} (hj : j < 2 ^ n) (hi : i < 2 ^ n) : feeds n j i = (i &&& j == j) := by
  rw [feeds, Nat.shiftRight_eq_zero _ _ hi, Nat.shiftRight_eq_zero _ _ hj, beq_self_eq_true, Bool.and_true]

/-- What feeds bit `j` through the stages below `k` feeds it through stage `k` too, and agrees with `j` in
digit `k`. -/
theorem feeds_iff_succ {k j i : Nat} :
    feeds k j i = true ↔ feeds (k + 1) j i = true ∧ i.testBit k = j.testBit k := by
  simp only [feeds_iff]
  constructor
  · rintro ⟨hdigits, hhigh⟩
    exact ⟨⟨hdigits, fun m hm => hhigh m (Nat.le_of_succ_le hm)⟩, hhigh k le_rfl⟩
  · rintro ⟨⟨hdigits, hhigh⟩, hk⟩
    refine ⟨hdigits, fun m hm => ?_⟩
    obtain rfl | hlt := Nat.eq_or_lt_of_le hm
    · exact hk
    · exact hhigh m hlt

/-- What feeds the bit `2^k` above `j` through the stages below `k` feeds `j` through stage `k`, and has digit
`k`. -/
theorem feeds_add_two_pow_iff {k j i : Nat} (hj : j.testBit k = false) :
    feeds k (j + 2 ^ k) i = true ↔ feeds (k + 1) j i = true ∧ i.testBit k = true := by
  simp only [feeds_iff, testBit_add_two_pow hj, Bool.or_eq_true, decide_eq_true_eq]
  constructor
  · rintro ⟨hdigits, hhigh⟩
    refine ⟨⟨fun m hm => hdigits m (.inr hm), fun m hm => ?_⟩, hdigits k (.inl rfl)⟩
    rw [hhigh m (Nat.le_of_succ_le hm), decide_eq_false (Nat.ne_of_gt hm), Bool.false_or]
  · rintro ⟨⟨hdigits, hhigh⟩, hk⟩
    refine ⟨fun m hm => hm.elim (fun h => h ▸ hk) (hdigits m), fun m hm => ?_⟩
    obtain rfl | hlt := Nat.eq_or_lt_of_le hm
    · rw [hk, decide_eq_true rfl, Bool.true_or]
    · rw [hhigh m hlt, decide_eq_false hlt.ne', Bool.false_or]

/-- Stage `k` adds, where digit `k` of `j` is 0, what feeds the bit `2^k` above. -/
theorem feeds_succ (k j i : Nat) :
    feeds (k + 1) j i = (feeds k j i ^^ (!j.testBit k && feeds k (j + 2 ^ k) i)) := by
  cases hj : j.testBit k
  · have hlow : feeds k j i = (feeds (k + 1) j i && !i.testBit k) := by
      rw [Bool.eq_iff_iff, feeds_iff_succ, hj, Bool.and_eq_true, Bool.not_eq_true']
    have hup : feeds k (j + 2 ^ k) i = (feeds (k + 1) j i && i.testBit k) := by
      rw [Bool.eq_iff_iff, feeds_add_two_pow_iff hj, Bool.and_eq_true]
    rw [hlow, hup]
    cases i.testBit k <;> simp
  · have hsame : feeds k j i = feeds (k + 1) j i := by
      rw [Bool.eq_iff_iff, feeds_iff_succ, hj, and_iff_left_iff_imp]
      exact fun h => (feeds_iff.1 h).1 k hj
    rw [hsame, Bool.not_true, Bool.false_and, Bool.xor_false]

/-- Each bit after the stages below `k` is the XOR of the bits that feed it. -/
theorem getD_transform (b : List Bool) (k j : Nat) :
    (transform k b).getD j false = xorBelow b.length fun i => feeds k j i && b.getD i false := by
  induction k generalizing j with
  | zero =>
    simp only [feeds_zero, transform_zero, xorBelow_single]
    obtain hj | hj := Nat.lt_or_ge j b.length
    · rw [decide_eq_true hj, Bool.true_and]
    · rw [List.getD_eq_default _ _ hj, Bool.and_false]
  | succ k ih =>
    simp only [transform_succ, getD_transformStage, ih, feeds_succ, Bool.and_xor_distrib_right, Bool.and_assoc,
      xorBelow_xor, xorBelow_and_left]

theorem getD_transform_eq_closed {n : Nat} {b : List Bool} (hb : b.length = 2 ^ n) {j : Nat} (hj : j < 2 ^ n) :
    (transform n b).getD j false = transformClosed (2 ^ n) b j := by
  rw [getD_transform, transformClosed_eq, hb]
  exact xorBelow_congr fun i hi => by rw [feeds_of_lt hj hi]

/-- Settles O33: a stage is the butterfly, and by induction on the stages each bit is the XOR of the bits that
feed it. -/
theorem transformHasItsClosedForm : Obligations.TransformHasItsClosedForm := by
  intro n b hb
  refine ⟨fun s _ j hj => ?_, (transform_length n b).trans hb, fun j hj => ?_⟩
  · rw [getElem?_eq_some_getD (by rwa [transformStage_length, hb]), getD_transformStage]
    simp only [← testBit_eq_false_iff_div_mod]
    cases j.testBit s <;> simp
  · rw [getElem?_eq_some_getD (by rwa [transform_length, hb]), getD_transform_eq_closed hb hj]

/-! ## The codeword (43_polar_encode.md R201, R202, R204) -/

/-- `b` with bit `j` of `u` put at position `D[j]`: step 1 from any buffer. -/
def placeInto (b : List Bool) (D : List Nat) (u : List Bool) : List Bool :=
  (D.zip u).foldl (fun b x => b.set x.1 x.2) b

theorem placeBits_eq (N : Nat) (D : List Nat) (u : List Bool) :
    placeBits N D u = placeInto (List.replicate N false) D u := rfl

theorem placeInto_cons (b : List Bool) (d : Nat) (D : List Nat) (x : Bool) (u : List Bool) :
    placeInto b (d :: D) (x :: u) = placeInto (b.set d x) D u := rfl

@[simp] theorem placeBits_length (N : Nat) (D : List Nat) (u : List Bool) : (placeBits N D u).length = N :=
  (foldl_length_eq (fun _ _ => List.length_set ..) _ _).trans List.length_replicate

@[simp] theorem zeroFrozen_length (D : List Nat) (b : List Bool) : (zeroFrozen D b).length = b.length :=
  List.length_mapIdx

theorem getD_zeroFrozen (D : List Nat) (b : List Bool) (i : Nat) :
    (zeroFrozen D b).getD i false = (D.contains i && b.getD i false) := by
  rw [List.getD_eq_getElem?_getD, zeroFrozen, List.getElem?_mapIdx, List.getD_eq_getElem?_getD]
  cases b[i]? <;> cases D.contains i <;> rfl

@[simp] theorem polarCodeword_length (n : Nat) (D : List Nat) (u : List Bool) :
    (polarCodeword n D u).length = 2 ^ n := by
  simp [polarCodeword]

/-! ## Every position a data position (43_polar_encode.md R201, R207) -/

/-- Bits placed at consecutive positions stand there in order. -/
theorem placeInto_range' (u p : List Bool) :
    placeInto (p ++ List.replicate u.length false) (List.range' p.length u.length) u = p ++ u := by
  induction u generalizing p with
  | nil => rfl
  | cons x u ih =>
    have hrest := ih (p ++ [x])
    rw [List.length_append, List.length_singleton, List.append_assoc, List.append_assoc] at hrest
    rw [List.length_cons, List.range'_succ, placeInto_cons, List.replicate_succ,
      List.set_append_right _ _ le_rfl, Nat.sub_self]
    exact hrest

theorem placeBits_range (b : List Bool) : placeBits b.length (List.range b.length) b = b := by
  rw [placeBits_eq, List.range_eq_range']
  exact placeInto_range' b []

theorem zeroFrozen_range {N : Nat} {b : List Bool} (hb : b.length = N) : zeroFrozen (List.range N) b = b := by
  refine buffer_ext (zeroFrozen_length ..) fun i hi => ?_
  rw [getD_zeroFrozen, List.contains_iff_mem.2 (List.mem_range.2 (hb ▸ hi)), Bool.true_and]

/-- Settles O34: stages commute and each is its own inverse; with every position a data position the codeword is
the transform applied twice. -/
theorem transformIsAnInvolution : Obligations.TransformIsAnInvolution := by
  intro n b hb
  refine ⟨transform_transform n b, ?_⟩
  rw [polarCodeword, ← hb, placeBits_range, zeroFrozen_range (transform_length n b), transform_transform]

/-! ## The tail (43_polar_encode.md R206) -/

/-- Settles O36: only positions from `i` on feed bit `i`, and step 3 has zeroed those from `M` on. -/
theorem pencTailIsZero : Obligations.PencTailIsZero := by
  intro n M D u hD i hM hi
  rw [getElem?_eq_some_getD (by rwa [polarCodeword_length]), polarCodeword,
    getD_transform_eq_closed (by simp) hi, transformClosed_eq]
  refine congrArg some ((xorBelow_congr fun m _ => ?_).trans (xorBelow_false _))
  by_cases hfeeds : m &&& i = i
  · have hle : i ≤ m := hfeeds ▸ Nat.and_le_left
    have hnot : m ∉ D := fun hm => by have := hD m hm; omega
    rw [getD_zeroFrozen, Bool.eq_false_of_not_eq_true (mt List.contains_iff_mem.1 hnot), Bool.false_and,
      Bool.and_false]
  · rw [beq_false_of_ne hfeeds, Bool.false_and]

/-! ## Linearity (43_polar_encode.md R209) -/

theorem placeInto_zipWith_xor (b c : List Bool) {D : List Nat} {u v : List Bool} (hu : u.length = D.length)
    (hv : v.length = D.length) :
    placeInto (List.zipWith (· ^^ ·) b c) D (List.zipWith (· ^^ ·) u v) =
      List.zipWith (· ^^ ·) (placeInto b D u) (placeInto c D v) := by
  induction D generalizing u v b c with
  | nil => rfl
  | cons d D ih =>
    obtain ⟨x, u, rfl⟩ := List.exists_cons_of_length_eq_add_one hu
    obtain ⟨y, v, rfl⟩ := List.exists_cons_of_length_eq_add_one hv
    simp only [List.zipWith_cons_cons, placeInto_cons, zipWith_xor_set]
    exact ih _ _ (Nat.succ.inj hu) (Nat.succ.inj hv)

theorem replicate_false_eq_zipWith_xor (N : Nat) : List.replicate N false =
    List.zipWith (· ^^ ·) (List.replicate N false) (List.replicate N false) := by
  rw [zipWith_xor_self, List.length_replicate]

theorem placeBits_zipWith_xor (N : Nat) {D : List Nat} {u v : List Bool} (hu : u.length = D.length)
    (hv : v.length = D.length) : placeBits N D (List.zipWith (· ^^ ·) u v) =
      List.zipWith (· ^^ ·) (placeBits N D u) (placeBits N D v) := by
  have hstart := placeInto_zipWith_xor (List.replicate N false) (List.replicate N false) hu hv
  rwa [← replicate_false_eq_zipWith_xor] at hstart

theorem zeroFrozen_zipWith_xor (D : List Nat) {a b : List Bool} (hlen : a.length = b.length) :
    zeroFrozen D (List.zipWith (· ^^ ·) a b) =
      List.zipWith (· ^^ ·) (zeroFrozen D a) (zeroFrozen D b) := by
  refine buffer_ext (by simp) fun i _ => ?_
  rw [getD_zeroFrozen, getD_zipWith_xor hlen, getD_zipWith_xor (by simpa using hlen), getD_zeroFrozen,
    getD_zeroFrozen, Bool.and_xor_distrib_left]

theorem polarCodeword_zipWith_xor (n : Nat) {D : List Nat} {u v : List Bool} (hu : u.length = D.length)
    (hv : v.length = D.length) : polarCodeword n D (List.zipWith (· ^^ ·) u v) =
      List.zipWith (· ^^ ·) (polarCodeword n D u) (polarCodeword n D v) := by
  rw [polarCodeword, placeBits_zipWith_xor _ hu hv, transform_zipWith_xor n (by simp),
    zeroFrozen_zipWith_xor D (by simp), transform_zipWith_xor n (by simp)]
  rfl

/-- Settles O37: every step of the encoder is linear, and the zero input is its own XOR with itself. -/
theorem pencIsLinear : Obligations.PencIsLinear := by
  intro n D a b ha hb
  refine ⟨polarCodeword_zipWith_xor n ha hb, ?_⟩
  rw [replicate_false_eq_zipWith_xor, polarCodeword_zipWith_xor n (by simp) (by simp), zipWith_xor_self,
    polarCodeword_length]

end Sys2Proof.Machine

/-! PROOFS. PENC on a configured polar code (43_polar_encode.md R201, R205): what the VALID bit gives, the bytes
written, and the command. -/

namespace Sys2Proof.Machine

/-! ## A configured polar code (10_state.md R25, 42_polar_construct.md R172) -/

theorem AnswersFirst.not_fails_of_eq_none {fails : Nat → Prop} {n m : Nat} {answer : Option Byte}
    (h : AnswersFirst fails n answer) (hnone : answer = none) (hm : n ≤ m) : ¬ fails m := by
  cases h with
  | pass rows _ => exact rows m hm
  | fail k _ _ _ _ eq => exact absurd (eq.symm.trans hnone) (Option.some_ne_none _)

/-- What the polar commands read of a configured code of block size `2^n`, codeword length `M` and `K` data
bits. -/
structure PolarReady (s : State) (n M K : Nat) : Prop where
  block : s.regs.pcN.toNat = 2 ^ n
  codeword : s.regs.pcM.toNat = M
  data : s.regs.pcK.toNat = K
  codeword_le : M ≤ 2 ^ n
  codeword_bytes : M % 8 = 0
  data_bytes : K % 8 = 0
  indices_length : (polarIndices s.regs).length = K
  didx : s.holds .didx 0 ((polarIndices s.regs).map (BitVec.ofNat 64))

theorem polarReady_of_inv {s : State} {n M K : Nat} (hinv : Inv s) (hv : s.regs.valid .polar = true)
    (hN : s.regs.pcN.toNat = 2 ^ n) (hM : s.regs.pcM.toNat = M) (hK : s.regs.pcK.toNat = K) :
    PolarReady s n M K := by
  have hdescribed := hinv.polar hv
  obtain ⟨hpow, -, hle, hKM, hbytes⟩ := hdescribed.sizes
  obtain ⟨hcheck, -, -, -, -, hdidx, -⟩ := hdescribed
  have hdata := (pcCheck_answersFirst ..).not_fails_of_eq_none hcheck (m := 4) (by decide)
  rw [pcFails_data_iff, hK, hM] at hdata
  exact
    { block := hN
      codeword := hM
      data := hK
      codeword_le := by omega
      codeword_bytes := by omega
      data_bytes := by omega
      indices_length := by
        rw [polarIndices, selectIndices_length _ (by omega) hKM, hK]
        rw [polarScores, bhattacharyya_length, hpow]
        exact hle
      didx := hdidx }

namespace PolarReady

variable {s : State} {n M K : Nat} (h : PolarReady s n M K)
include h

theorem log2_block : log2 s.regs.pcN.toNat = n := by rw [h.block, log2, Nat.log2_two_pow]

theorem lt_of_mem_indices {d : Nat} (hd : d ∈ polarIndices s.regs) : d < 2 ^ n := by
  have hlt := lt_of_mem_selectIndices hd
  rwa [polarScores, bhattacharyya_length, h.log2_block] at hlt

/-- A polar command reads back the data indices that PC_CFG wrote, and draws nothing for them. -/
theorem gather_didx {u : State} (hu : OnlyDraws s u) :
    gather .didx 0 K u = ((polarIndices s.regs).map (BitVec.ofNat 64), u) := by
  have hread := gather_holds (holds_congr (hu.elem? .didx) h.didx)
  rwa [List.length_map, h.indices_length] at hread

theorem indicesOfElems_didx :
    indicesOfElems ((polarIndices s.regs).map (BitVec.ofNat 64)) = polarIndices s.regs := by
  have hN : 2 ^ n < 2 ^ 64 := h.block ▸ s.regs.pcN.isLt
  rw [indicesOfElems, List.map_map]
  exact (List.map_congr_left fun d hd => toNat_ofNat_of_lt ((h.lt_of_mem_indices hd).trans hN)).trans
    (List.map_id _)

/-! ## The command (43_polar_encode.md R201, R205) -/

theorem length_take_codeword (D : List Nat) (u : List Bool) : ((polarCodeword n D u).take M).length = M := by
  rw [List.length_take, polarCodeword_length, Nat.min_eq_left h.codeword_le]

theorem packElems_codeword_length (D : List Nat) (u : List Bool) :
    (packElems ((polarCodeword n D u).take M)).length = M / 8 :=
  packElems_length (by rw [h.length_take_codeword, Nat.mul_div_cancel' (Nat.dvd_of_mod_eq_zero h.codeword_bytes)])

theorem unpackElems_packElems_codeword (D : List Nat) (u : List Bool) :
    unpackElems (packElems ((polarCodeword n D u).take M)) = (polarCodeword n D u).take M :=
  unpackElems_packElems (by rw [h.length_take_codeword, h.codeword_bytes])

theorem polarEncode_eq :
    polarEncode s = (gather .pi 0 (K / 8) s).2.write .po 0
      (packElems ((polarCodeword n (polarIndices s.regs) (unpackElems (gather .pi 0 (K / 8) s).1)).take M)) := by
  rw [polarEncode]
  simp only [h.data, h.codeword, h.log2_block, h.gather_didx (gather_state .pi 0 (K / 8) s),
    h.indicesOfElems_didx]

/-- PENC writes the codeword of whatever it read of PI, and nothing else. -/
theorem polarEncode_wroteOnly :
    WroteOnly s (polarEncode s) .po 0
      (packElems ((polarCodeword n (polarIndices s.regs) (unpackElems (gather .pi 0 (K / 8) s).1)).take M)) := by
  rw [h.polarEncode_eq]
  have hwrote := (gather_state .pi 0 (K / 8) s).wroteOnly_write .po 0 (packElems
    ((polarCodeword n (polarIndices s.regs) (unpackElems (gather .pi 0 (K / 8) s).1)).take M))
  rwa [show ∀ p, Space.po.width p = 8 from fun _ => rfl, map_truncTo_packElems] at hwrote

theorem unpackElems_values_length : (unpackElems (s.values .pi 0 (K / 8))).length = K := by
  rw [unpackElems_length, State.values, List.length_map, List.length_range',
    Nat.div_mul_cancel (Nat.dvd_of_mod_eq_zero h.data_bytes)]

end PolarReady

theorem exec_penc_of_valid {s : State} (hv : s.regs.valid .polar = true) :
    exec .penc s = .next (polarEncode s) := if_pos hv

/-- Settles O35: PENC reads back the data indices of the parameters, and packing loses no bit of the codeword. -/
theorem pencWritesTheCodeword : Obligations.PencWritesTheCodeword := by
  intro s n M K hinv hv hN hM hK
  have h := polarReady_of_inv hinv hv hN hM hK
  have hwrote := h.polarEncode_wroteOnly
  refine ⟨⟨_, _, exec_penc_of_valid hv, hwrote, h.packElems_codeword_length _ _⟩, ?_⟩
  rintro hw u rfl
  have hdraws : (polarEncode s).draws = s.draws := by
    rw [h.polarEncode_eq, gather_written hw]
    rfl
  rw [gather_written hw] at hwrote
  exact ⟨_, _, exec_penc_of_valid hv, hdraws, hwrote, h.packElems_codeword_length _ _,
    h.unpackElems_values_length, h.unpackElems_packElems_codeword _ _⟩

end Sys2Proof.Machine

/-! PROOFS. The operations of the decoder, integer by integer and bit by bit: f (44_polar_decode.md R230, R231), g and
h (R232 to R236), and the SPC leaf (R243). -/

namespace Sys2Proof.Machine

/-! ## f (44_polar_decode.md R230, R231) -/

theorem fMin_of_signbit_eq {x y : Int} (h : signbit x = signbit y) : fMin x y = min x.natAbs y.natAbs :=
  (if_neg (not_not.2 h)).trans (by push_cast; rfl)

theorem fMin_of_signbit_ne {x y : Int} (h : signbit x ≠ signbit y) :
    fMin x y = -(min x.natAbs y.natAbs : Nat) := (if_pos h).trans (by push_cast; rfl)

/-- `f` answers the smaller magnitude, so it never increases one (R230). -/
theorem fMin_natAbs (x y : Int) : (fMin x y).natAbs = min x.natAbs y.natAbs := by
  unfold fMin
  dsimp only
  split <;> omega

theorem fMin_of_eq_zero {x y : Int} (h : x = 0 ∨ y = 0) : fMin x y = 0 := by
  rw [← Int.natAbs_eq_zero, fMin_natAbs]
  omega

/-- The sign of a number that fits is the top bit of its pattern. -/
theorem signbit_eq_msb {w : Nat} {x : Int} (hw : 0 < w) (hlo : -2 ^ (w - 1) ≤ x) (hhi : x < 2 ^ (w - 1)) :
    (BitVec.ofInt w x).msb = signbit x := by
  rw [BitVec.msb_eq_toInt, BitVec.toInt_ofInt_eq_self hw hlo hhi, signbit]

/-- Settles O39: the XOR of the patterns has the XOR of their top bits. -/
theorem fOperationsAreMinSum : Obligations.FOperationsAreMinSum := by
  refine ⟨fun x y => ⟨fMin_of_signbit_eq, fMin_of_signbit_ne, fMin_of_eq_zero, (fMin_natAbs x y).le⟩,
    fun a0 a1 i x y hx hy => ?_, fun w a0 a1 i x y hw hxlo hxhi hylo hyhi hx hy =>
      ⟨(BitVec.ofInt w x ^^^ BitVec.ofInt w y).toInt, ?_, ?_⟩⟩
  · rw [fOp, List.getElem?_zipWith, hx, hy]
  · rw [fOpR1, List.getElem?_zipWith, hx, hy]
  · rw [signbit, ← BitVec.msb_eq_toInt, BitVec.msb_xor, signbit_eq_msb hw hxlo hxhi, signbit_eq_msb hw hylo hyhi]

/-! ## g and h (44_polar_decode.md R232 to R236) -/

/-- The range check lets the list through or faults, as R227 says. -/
theorem checkRange_map_range (maxl h : Nat) (v : Nat → Int) : checkRange maxl ((List.range h).map v) =
    if ∀ i < h, (v i).natAbs ≤ maxl then .ok ((List.range h).map v) else .error .range := by
  unfold checkRange
  simp only [List.all_map, List.all_eq_true, List.mem_range, Function.comp_def, decide_eq_true_eq]

section Halves

variable {h : Nat} {a0 a1 : List Int} {bl br : List Bool}

theorem gOp_eq_checkRange {v : Nat → Int} (maxl : Nat) (h0 : a0.length = h) (h1 : a1.length = h)
    (hl : bl.length = h)
    (hv : ∀ i, v i = a1.getD i 0 + (if bl.getD i false = true then -a0.getD i 0 else a0.getD i 0)) :
    gOp maxl a0 a1 bl = checkRange maxl ((List.range h).map v) := by
  refine congrArg (checkRange maxl) (List.ext_getElem (by simp [h0, h1, hl]) fun i hi hi' => ?_)
  obtain ⟨hi0, hi1, hil⟩ : i < a0.length ∧ i < a1.length ∧ i < bl.length := by
    rw [List.length_map, List.length_range] at hi'
    omega
  simp only [List.getElem_zipWith, List.getElem_zip, List.getElem_map, List.getElem_range, hv,
    List.getD_eq_getElem _ _ hi0, List.getD_eq_getElem _ _ hi1, List.getD_eq_getElem _ _ hil]
  cases bl[i] <;> simp

/-- `g_op` with one left bit throughout. -/
theorem gOp_replicate (maxl : Nat) (h0 : a0.length = h) (h1 : a1.length = h) (b : Bool) :
    gOp maxl a0 a1 (List.replicate h b) =
      checkRange maxl (List.zipWith (fun x y => y + (if b then -x else x)) a0 a1) := by
  refine congrArg (checkRange maxl) (List.ext_getElem (by simp [h0, h1]) fun i hi hi' => ?_)
  simp only [List.getElem_zipWith, List.getElem_zip, List.getElem_replicate]
  cases b <;> simp

theorem gOp0_eq_gOp (maxl : Nat) (h0 : a0.length = h) (h1 : a1.length = h) :
    gOp0 maxl a0 a1 = gOp maxl a0 a1 (List.replicate h false) := (gOp_replicate maxl h0 h1 false).symm

theorem gOp1_eq_gOp (maxl : Nat) (h0 : a0.length = h) (h1 : a1.length = h) :
    gOp1 maxl a0 a1 = gOp maxl a0 a1 (List.replicate h true) := (gOp_replicate maxl h0 h1 true).symm

theorem hOp_length (hl : bl.length = h) (hr : br.length = h) : (hOp bl br).length = 2 * h := by
  simp only [hOp, List.length_append, List.length_zipWith]
  omega

theorem hOp_getElem?_left (hl : bl.length = h) (hr : br.length = h) {i : Nat} (hi : i < h) :
    (hOp bl br)[i]? = some (bl.getD i false ^^ br.getD i false) := by
  rw [hOp, List.getElem?_append_left (by rw [List.length_zipWith]; omega), List.getElem?_zipWith,
    getElem?_eq_some_getD (by omega), getElem?_eq_some_getD (by omega)]

theorem hOp_getElem?_right (hl : bl.length = h) (hr : br.length = h) {i : Nat} (hi : i < h) :
    (hOp bl br)[i + h]? = some (br.getD i false) := by
  have hlen : (List.zipWith (· ^^ ·) bl br).length = h := by
    rw [List.length_zipWith]
    omega
  rw [hOp, List.getElem?_append_right (by omega), hlen, Nat.add_sub_cancel, getElem?_eq_some_getD (by omega)]

theorem hOp0_eq_hOp (hr : br.length = h) : hOp0 br = hOp (List.replicate h false) br := by
  refine congrArg (· ++ br) (List.ext_getElem (by simp [hr]) fun i hi hi' => ?_)
  simp

end Halves

/-- Settles O40, operation by operation. -/
theorem gAndHOperations : Obligations.GAndHOperations := fun maxl h _ _ _ _ h0 h1 hl hr =>
  ⟨fun v hv => (gOp_eq_checkRange maxl h0 h1 hl hv).trans (checkRange_map_range maxl h v),
    gOp0_eq_gOp maxl h0 h1, gOp1_eq_gOp maxl h0 h1, hOp_length hl hr,
    fun _ hi => ⟨hOp_getElem?_left hl hr hi, hOp_getElem?_right hl hr hi⟩, hOp0_eq_hOp hr⟩

/-! ## The SPC leaf (44_polar_decode.md R243) -/

/-- The exclusive-or of bits says whether their ones are odd in number. -/
theorem foldl_xor_eq (b : Bool) (bits : List Bool) :
    bits.foldl (· ^^ ·) b = (b ^^ decide (bits.count true % 2 = 1)) := by
  induction bits generalizing b with
  | nil => simp
  | cons x bits ih =>
    rw [List.foldl_cons, ih]
    cases x
    · simp
    · have hparity : decide ((bits.count true + 1) % 2 = 1) = !decide (bits.count true % 2 = 1) := by
        rw [← decide_not]
        exact decide_eq_decide.2 (by omega)
      rw [List.count_cons_self, hparity]
      simp

theorem leafSpc_of_even {α : List Int} (h : (α.map signbit).count true % 2 = 0) :
    leafSpc α = α.map signbit := by
  rw [leafSpc, foldl_xor_eq, h]
  rfl

/-- The index that the leaf flips is the first of least magnitude. -/
theorem leastReliable_spec {α : List Int} (h : α ≠ []) :
    ∃ x, α[leastReliable α]? = some x ∧ (∀ (j : Nat) (y : Int), α[j]? = some y → x.natAbs ≤ y.natAbs) ∧
      ∀ j < leastReliable α, ∀ y : Int, α[j]? = some y → x.natAbs < y.natAbs := by
  obtain ⟨z, hz, hmin⟩ := α.toFinset.exists_min_image Int.natAbs (List.toFinset_nonempty_iff α |>.2 h)
  have hlt : leastReliable α < α.length := List.findIdx_lt_length_of_exists
    ⟨z, List.mem_toFinset.1 hz, List.all_eq_true.2 fun y hy => decide_eq_true (hmin y (List.mem_toFinset.2 hy))⟩
  have hleast : ∀ y ∈ α, α[leastReliable α].natAbs ≤ y.natAbs := fun y hy =>
    of_decide_eq_true (List.all_eq_true.1 (List.findIdx_getElem (w := hlt)) y hy)
  refine ⟨α[leastReliable α], List.getElem?_eq_getElem hlt, fun j y hy => hleast y (List.mem_of_getElem? hy),
    fun j hj y hy => ?_⟩
  obtain ⟨hj', rfl⟩ := List.getElem?_eq_some_iff.1 hy
  have hearlier := List.not_of_lt_findIdx hj
  rw [List.all_eq_false] at hearlier
  obtain ⟨y, hy, hsmaller⟩ := hearlier
  exact (hleast y hy).trans_lt (Nat.lt_of_not_le fun hle => hsmaller (decide_eq_true hle))

/-- Flipping one bit changes the parity. -/
theorem count_set_not {bits : List Bool} {m : Nat} (h : m < bits.length) :
    ((bits.set m !bits[m]).count true + bits.count true) % 2 = 1 := by
  rw [List.count_set h]
  have hone : bits[m] = true → 0 < bits.count true := fun hbit =>
    List.count_pos_iff.2 (hbit ▸ List.getElem_mem h)
  cases hbit : bits[m]
  · simp
    omega
  · have := hone hbit
    simp
    omega

theorem leafSpc_of_odd {α : List Int} {x : Int} (h : (α.map signbit).count true % 2 = 1)
    (hx : α[leastReliable α]? = some x) : leafSpc α = (α.map signbit).set (leastReliable α) (!signbit x) := by
  rw [leafSpc, foldl_xor_eq, h, if_pos (by decide), List.modify_eq_set, List.getElem?_map, hx]
  rfl

/-- Settles O41: at odd parity the first index of least magnitude is flipped, which makes it even. -/
theorem spcLeafFlipsTheLeastReliable : Obligations.SpcLeafFlipsTheLeastReliable := by
  intro α
  have hodd : (α.map signbit).count true % 2 = 1 → ∃ m x, α[m]? = some x ∧
      (∀ (j : Nat) (y : Int), α[j]? = some y → x.natAbs ≤ y.natAbs) ∧
      (∀ j < m, ∀ y : Int, α[j]? = some y → x.natAbs < y.natAbs) ∧
      leafSpc α = (α.map signbit).set m (!signbit x) := fun h => by
    obtain ⟨x, hx, hleast, hfirst⟩ := leastReliable_spec (α := α) (by rintro rfl; simp at h)
    exact ⟨_, x, hx, hleast, hfirst, leafSpc_of_odd h hx⟩
  refine ⟨?_, leafSpc_of_even, hodd⟩
  obtain heven | h := Nat.mod_two_eq_zero_or_one ((α.map signbit).count true)
  · rw [leafSpc_of_even heven, heven]
  · obtain ⟨m, x, hx, -, -, hleaf⟩ := hodd h
    obtain ⟨hm, rfl⟩ := List.getElem?_eq_some_iff.1 hx
    have hflip := count_set_not (bits := α.map signbit) (by rwa [List.length_map])
    rw [List.getElem_map, ← hleaf] at hflip
    omega

end Sys2Proof.Machine

/-! PROOFS. The walk over TREE (44_polar_decode.md R245, R246): a Standard node as a function of its children's
decoders, the walk against the recursion by `classify`, and the LLRs for which no g result leaves the range
(R255). -/

namespace Sys2Proof.Machine

/-! ## A Standard node (44_polar_decode.md R245) -/

/-- What a Standard node of size `2^(n+1)` makes of its children's decoders (R245 steps 2 to 7), `a0` and `a1`
being the halves of its LLRs. -/
def decHalves (llrw n : Nat) (tl tr : NodeTag) (a0 a1 : List Int)
    (left right : List Int → Except DecodeStop (List Bool)) : Except DecodeStop (List Bool) :=
  if tl = .rate0 then
    if tr = .rate0 then .ok (leafRate0 (2 ^ (n + 1)))
    else do
      let αr ← gOp0 (2 ^ (llrw - 1) - 1) a0 a1
      let βr ← right αr
      .ok (hOp0 βr)
  else do
    let βl ← left (leftLlrs llrw tl a0 a1)
    if tr = .rate0 ∧ tl ≠ .standard then .ok (βl ++ leafRate0 (2 ^ n))
    else do
      let αr ← rightLlrs (2 ^ (llrw - 1) - 1) tl a0 a1 βl
      let βr ← right αr
      .ok (hOp βl βr)

theorem leaf_eq_none_iff {t : NodeTag} {nv : Nat} {α : List Int} : leaf t nv α = none ↔ t = .standard := by
  cases t <;> simp [leaf]

theorem exists_leaf_of_ne_standard {t : NodeTag} (ht : t ≠ .standard) (nv : Nat) (α : List Int) :
    ∃ β, leaf t nv α = some β := Option.ne_none_iff_exists'.1 (mt leaf_eq_none_iff.1 ht)

theorem decNode_of_leaf {llrw n lo : Nat} {D : List Nat} {α : List Int} {β : List Bool}
    (h : leaf (classify D lo (2 ^ n)) (2 ^ n) α = some β) : decNode llrw D n lo α = .ok β := by
  cases n with
  | zero =>
    simp only [pow_zero] at h
    rw [decNode, h]
  | succ n => rw [decNode, h]

theorem decNode_zero_of_standard {llrw lo : Nat} {D : List Nat} (h : classify D lo 1 = .standard)
    (α : List Int) : decNode llrw D 0 lo α = .error .malformed := by
  rw [decNode, leaf_eq_none_iff.2 h]

theorem decNode_succ_of_standard {n lo : Nat} {D : List Nat} (llrw : Nat)
    (h : classify D lo (2 ^ (n + 1)) = .standard) (α : List Int) : decNode llrw D (n + 1) lo α =
      decHalves llrw n (classify D lo (2 ^ n)) (classify D (lo + 2 ^ n) (2 ^ n)) (α.take (2 ^ n))
        (α.drop (2 ^ n)) (decNode llrw D n lo) (decNode llrw D n (lo + 2 ^ n)) := by
  rw [decNode, leaf_eq_none_iff.2 h]
  rfl

/-! ## The walk (44_polar_decode.md R246) -/

/-- The records of a subtree begin with its own, and are no more unless it is Standard. -/
theorem buildTree_eq_cons (D : List Nat) (n lo : Nat) :
    ∃ below, buildTree D n lo = { size := 2 ^ n, tag := classify D lo (2 ^ n) } :: below ∧
      (classify D lo (2 ^ n) ≠ .standard → below = []) := by
  cases n with
  | zero => exact ⟨[], rfl, fun _ => rfl⟩
  | succ n =>
    by_cases h : classify D lo (2 ^ (n + 1)) = .standard
    · exact ⟨_, by rw [buildTree_succ_of_standard h, h], fun hne => absurd h hne⟩
    · exact ⟨[], buildTree_succ_of_leaf h, fun _ => rfl⟩

theorem headTag_buildTree_append (D : List Nat) (n lo : Nat) (rest : List NodeRecord) :
    headTag (buildTree D n lo ++ rest) = some (classify D lo (2 ^ n)) := by
  obtain ⟨below, heq, -⟩ := buildTree_eq_cons D n lo
  rw [heq]
  rfl

theorem tail_buildTree_append {D : List Nat} {n lo : Nat} (h : classify D lo (2 ^ n) ≠ .standard)
    (rest : List NodeRecord) : (buildTree D n lo ++ rest).tail = rest := by
  obtain ⟨below, heq, hbelow⟩ := buildTree_eq_cons D n lo
  rw [heq, hbelow h]
  rfl

theorem decTree_of_leaf {llrw n : Nat} {t : NodeTag} {α : List Int} {β : List Bool} (rs : List NodeRecord)
    (h : leaf t (2 ^ n) α = some β) :
    decTree llrw n α ({ size := 2 ^ n, tag := t } :: rs) = .ok (β, rs) := by
  cases n with
  | zero =>
    simp only [pow_zero] at h
    simp [decTree, h]
  | succ n => simp [decTree, h]

theorem decTree_zero_of_standard (llrw : Nat) (α : List Int) (rs : List NodeRecord) :
    decTree llrw 0 α ({ size := 1, tag := .standard } :: rs) = .error .malformed := rfl

section Walk

variable {llrw n lo : Nat} {D : List Nat} {left right : List Int → Except DecodeStop (List Bool)}
  {rest : List NodeRecord}

/-- The right child's records are walked as `right` decodes, so a node that joins its answer to bits it has already
does the same in both. -/
theorem map_join_right (hright : ∀ α rest, decTree llrw n α (buildTree D n lo ++ rest) =
      (right α).map fun β => (β, rest)) (g : Except DecodeStop (List Int)) (join : List Bool → List Bool) :
    (do let αr ← g
        let r ← decTree llrw n αr (buildTree D n lo ++ rest)
        Except.ok (join r.1, r.2)) =
      (do let αr ← g
          let βr ← right αr
          Except.ok (join βr)).map fun β => (β, rest) := by
  cases g with
  | error e => rfl
  | ok αr =>
    change (decTree llrw n αr _ >>= _) = Except.map _ (right αr >>= _)
    rw [hright]
    cases right αr <;> rfl

/-- A Standard record: where the children's records are walked as `left` and `right` decode, with the rest left
over, the node's records are walked as `decHalves` joins them. -/
theorem decTree_succ_of_standard
    (hleft : ∀ α rest, decTree llrw n α (buildTree D n lo ++ rest) = (left α).map fun β => (β, rest))
    (hright : ∀ α rest, decTree llrw n α (buildTree D n (lo + 2 ^ n) ++ rest) =
      (right α).map fun β => (β, rest)) (α : List Int) :
    decTree llrw (n + 1) α ({ size := 2 ^ (n + 1), tag := .standard } ::
        (buildTree D n lo ++ (buildTree D n (lo + 2 ^ n) ++ rest))) =
      (decHalves llrw n (classify D lo (2 ^ n)) (classify D (lo + 2 ^ n) (2 ^ n)) (α.take (2 ^ n))
        (α.drop (2 ^ n)) left right).map fun β => (β, rest) := by
  have hhead := headTag_buildTree_append D n (lo + 2 ^ n) rest
  have htail : classify D (lo + 2 ^ n) (2 ^ n) = .rate0 → (buildTree D n (lo + 2 ^ n) ++ rest).tail = rest :=
    fun h => tail_buildTree_append (by rw [h]; decide) rest
  have hwalk := hleft (leftLlrs llrw (classify D lo (2 ^ n)) (α.take (2 ^ n)) (α.drop (2 ^ n)))
    (buildTree D n (lo + 2 ^ n) ++ rest)
  have hjoin := map_join_right (rest := rest) hright
  obtain ⟨below, hl, hbelow⟩ := buildTree_eq_cons D n lo
  rw [hl, List.cons_append] at hwalk ⊢
  generalize buildTree D n (lo + 2 ^ n) ++ rest = rs at *
  rw [decTree, decHalves, if_neg (not_not.2 rfl)]
  simp only [leaf]
  by_cases hzero : classify D lo (2 ^ n) = .rate0
  · rw [if_pos hzero, if_pos hzero, hbelow (by rw [hzero]; decide), List.nil_append, hhead]
    by_cases hzero' : classify D (lo + 2 ^ n) (2 ^ n) = .rate0
    · rw [if_pos hzero', if_pos (congrArg some hzero'), htail hzero']
      rfl
    · rw [if_neg hzero', if_neg (mt Option.some.inj hzero')]
      exact hjoin _ _
  · rw [if_neg hzero, if_neg hzero, hwalk]
    cases left (leftLlrs llrw (classify D lo (2 ^ n)) (α.take (2 ^ n)) (α.drop (2 ^ n))) with
    | error e => rfl
    | ok βl =>
      change (if headTag rs = _ ∧ _ then _ else _) = Except.map _ (if _ then _ else _)
      rw [hhead]
      by_cases hzero' : classify D (lo + 2 ^ n) (2 ^ n) = .rate0 ∧ classify D lo (2 ^ n) ≠ .standard
      · rw [if_pos hzero', if_pos ⟨congrArg some hzero'.1, hzero'.2⟩, htail hzero'.1]
        rfl
      · rw [if_neg hzero', if_neg fun h => hzero' ⟨Option.some.inj h.1, h.2⟩]
        exact hjoin _ _

end Walk

/-- The walk over the records of a subtree, any others behind them, is the recursion by `classify`, and leaves
the others. -/
theorem decTree_buildTree_append (llrw n lo : Nat) (D : List Nat) (α : List Int) (rest : List NodeRecord) :
    decTree llrw n α (buildTree D n lo ++ rest) = (decNode llrw D n lo α).map fun β => (β, rest) := by
  induction n generalizing lo α rest with
  | zero =>
    by_cases ht : classify D lo 1 = .standard
    · rw [decNode_zero_of_standard ht, buildTree, ht]
      exact decTree_zero_of_standard llrw α rest
    · obtain ⟨β, hβ⟩ := exists_leaf_of_ne_standard ht (2 ^ 0) α
      rw [decNode_of_leaf hβ]
      exact decTree_of_leaf rest hβ
  | succ n ih =>
    by_cases ht : classify D lo (2 ^ (n + 1)) = .standard
    · rw [decNode_succ_of_standard llrw ht, buildTree_succ_of_standard ht, List.cons_append, List.append_assoc]
      exact decTree_succ_of_standard (ih lo) (ih (lo + 2 ^ n)) α
    · obtain ⟨β, hβ⟩ := exists_leaf_of_ne_standard ht (2 ^ (n + 1)) α
      rw [decNode_of_leaf hβ, buildTree_succ_of_leaf ht]
      exact decTree_of_leaf rest hβ

/-! ## Where a decode stops -/

theorem except_bind_eq_error {ε α β : Type} {x : Except ε α} {f : α → Except ε β} {e : ε}
    (h : (x >>= f) = .error e) : x = .error e ∨ ∃ a, x = .ok a ∧ f a = .error e := by
  cases x with
  | error e' => exact .inl (congrArg Except.error (Except.error.inj h))
  | ok a => exact .inr ⟨a, rfl, h⟩

/-- A Standard node stops where one of its g operations or one of its children does. -/
theorem decHalves_eq_error {llrw n : Nat} {tl tr : NodeTag} {a0 a1 : List Int}
    {left right : List Int → Except DecodeStop (List Bool)} {e : DecodeStop}
    (h : decHalves llrw n tl tr a0 a1 left right = .error e) :
    left (leftLlrs llrw tl a0 a1) = .error e ∨
      ∃ g, (g = gOp0 (2 ^ (llrw - 1) - 1) a0 a1 ∨ ∃ βl, g = rightLlrs (2 ^ (llrw - 1) - 1) tl a0 a1 βl) ∧
        (g = .error e ∨ ∃ αr, g = .ok αr ∧ right αr = .error e) := by
  have hjoin : ∀ {g : Except DecodeStop (List Int)} {join : List Bool → List Bool},
      (do let αr ← g; let βr ← right αr; Except.ok (join βr)) = Except.error e →
      g = .error e ∨ ∃ αr, g = .ok αr ∧ right αr = .error e := fun {g join} h => by
    obtain hg | ⟨αr, hg, h⟩ := except_bind_eq_error h
    · exact .inl hg
    obtain hr | ⟨βr, -, h⟩ := except_bind_eq_error h
    · exact .inr ⟨αr, hg, hr⟩
    · exact absurd h (by simp)
  unfold decHalves at h
  split at h
  · split at h
    · exact absurd h (by simp)
    · exact .inr ⟨_, .inl rfl, hjoin h⟩
  · obtain hleft | ⟨βl, -, h⟩ := except_bind_eq_error h
    · exact .inl hleft
    split at h
    · exact absurd h (by simp)
    · exact .inr ⟨_, .inr ⟨βl, rfl⟩, hjoin h⟩

theorem checkRange_ne_malformed (maxl : Nat) (xs : List Int) : checkRange maxl xs ≠ .error .malformed := by
  unfold checkRange
  split <;> simp

theorem rightLlrs_ne_malformed (maxl : Nat) (tl : NodeTag) (a0 a1 : List Int) (bl : List Bool) :
    rightLlrs maxl tl a0 a1 bl ≠ .error .malformed := by
  unfold rightLlrs
  split
  · split
    · exact checkRange_ne_malformed _ _
    · exact checkRange_ne_malformed _ _
  · exact checkRange_ne_malformed _ _

theorem decNode_ne_error_of_leaf {n lo : Nat} {D : List Nat} (h : classify D lo (2 ^ n) ≠ .standard)
    (llrw : Nat) (α : List Int) (e : DecodeStop) : decNode llrw D n lo α ≠ .error e := by
  obtain ⟨β, hβ⟩ := exists_leaf_of_ne_standard h (2 ^ n) α
  rw [decNode_of_leaf hβ]
  simp

/-- A single position is never Standard, so the recursion by `classify` ends in leaves. -/
theorem decNode_ne_malformed {D : List Nat} (hD : D.Pairwise (· < ·)) (llrw n lo : Nat) (α : List Int) :
    decNode llrw D n lo α ≠ .error .malformed := by
  induction n generalizing lo α with
  | zero =>
    exact decNode_ne_error_of_leaf (n := 0) (classify_one_ne_standard hD lo) llrw α _
  | succ n ih =>
    by_cases ht : classify D lo (2 ^ (n + 1)) = .standard
    · rw [decNode_succ_of_standard llrw ht]
      intro h
      obtain hleft | ⟨g, hg, hstop | ⟨αr, -, hright⟩⟩ := decHalves_eq_error h
      · exact ih _ _ hleft
      · obtain rfl | ⟨βl, rfl⟩ := hg
        · exact checkRange_ne_malformed _ _ hstop
        · exact rightLlrs_ne_malformed _ _ _ _ _ hstop
      · exact ih _ _ hright
    · exact decNode_ne_error_of_leaf ht llrw α _

/-- Settles O42: the walk by induction over the tree, and no subtree of one position is Standard. -/
theorem treeWalkEqualsClassify : Obligations.TreeWalkEqualsClassify :=
  fun llrw n lo D α rest =>
    ⟨decTree_buildTree_append llrw n lo D α rest, fun hD => decNode_ne_malformed hD llrw n lo α⟩

/-- The decision for a subtree has its size. -/
theorem decNode_length {llrw n lo : Nat} {D : List Nat} {α : List Int} {β : List Bool}
    (hα : α.length = 2 ^ n) (h : decNode llrw D n lo α = .ok β) : β.length = 2 ^ n := by
  have hwalk := decTree_buildTree_append llrw n lo D α []
  rw [h] at hwalk
  exact decTree_length hα hwalk

/-! ## LLRs that stay in range (44_polar_decode.md R255) -/

/-- Every LLR is at most `b` in magnitude. -/
def LlrsWithin (b : Nat) (α : List Int) : Prop := ∀ x ∈ α, x.natAbs ≤ b

theorem LlrsWithin.take {b : Nat} {α : List Int} (h : LlrsWithin b α) (m : Nat) : LlrsWithin b (α.take m) :=
  fun x hx => h x (List.mem_of_mem_take hx)

theorem LlrsWithin.drop {b : Nat} {α : List Int} (h : LlrsWithin b α) (m : Nat) : LlrsWithin b (α.drop m) :=
  fun x hx => h x (List.mem_of_mem_drop hx)

/-- What combines two LLRs within `b` to at most `c` takes the halves within `b` to a list within `c`. -/
theorem llrsWithin_zipWith {b c : Nat} {f : Int → Int → Int}
    (hf : ∀ x y : Int, x.natAbs ≤ b → y.natAbs ≤ b → (f x y).natAbs ≤ c) {a0 a1 : List Int}
    (h0 : LlrsWithin b a0) (h1 : LlrsWithin b a1) : LlrsWithin c (List.zipWith f a0 a1) := by
  intro z hz
  rw [← List.map_uncurry_zip_eq_zipWith, List.mem_map] at hz
  obtain ⟨⟨x, y⟩, hxy, rfl⟩ := hz
  obtain ⟨hx, hy⟩ := List.of_mem_zip hxy
  exact hf x y (h0 x hx) (h1 y hy)

theorem llrsWithin_fOp {b : Nat} {a0 a1 : List Int} (h0 : LlrsWithin b a0) (h1 : LlrsWithin b a1) :
    LlrsWithin b (fOp a0 a1) :=
  llrsWithin_zipWith (fun x y hx _ => by rw [fMin_natAbs]; omega) h0 h1

/-- A range check within MAXL passes (R227). -/
theorem checkRange_of_within {maxl : Nat} {xs : List Int} (h : LlrsWithin maxl xs) :
    checkRange maxl xs = .ok xs :=
  if_pos (List.all_eq_true.2 fun x hx => decide_eq_true (h x hx))

/-- A range check of values within `c ≤ MAXL` answers values within `c`. -/
theorem exists_checkRange_eq_ok {maxl c : Nat} {xs : List Int} (hc : c ≤ maxl) (h : LlrsWithin c xs) :
    ∃ αr, checkRange maxl xs = .ok αr ∧ LlrsWithin c αr :=
  ⟨xs, checkRange_of_within fun x hx => (h x hx).trans hc, h⟩

section Growth

variable {maxl b : Nat} {a0 a1 : List Int} (h0 : LlrsWithin b a0) (h1 : LlrsWithin b a1) (hb : 2 * b ≤ maxl)
include h0 h1 hb

theorem exists_gOp0_eq_ok : ∃ αr, gOp0 maxl a0 a1 = .ok αr ∧ LlrsWithin (2 * b) αr :=
  exists_checkRange_eq_ok hb (llrsWithin_zipWith (fun x y hx hy => by omega) h0 h1)

theorem exists_gOp1_eq_ok : ∃ αr, gOp1 maxl a0 a1 = .ok αr ∧ LlrsWithin (2 * b) αr :=
  exists_checkRange_eq_ok hb (llrsWithin_zipWith (fun x y hx hy => by omega) h0 h1)

theorem exists_gOp_eq_ok (bl : List Bool) : ∃ αr, gOp maxl a0 a1 bl = .ok αr ∧ LlrsWithin (2 * b) αr := by
  refine exists_checkRange_eq_ok hb fun z hz => ?_
  rw [← List.map_uncurry_zip_eq_zipWith, List.mem_map] at hz
  obtain ⟨⟨⟨x, y⟩, bit⟩, hmem, rfl⟩ := hz
  obtain ⟨hx, hy⟩ := List.of_mem_zip (List.of_mem_zip hmem).1
  have hx := h0 x hx
  have hy := h1 y hy
  cases bit <;> simp <;> omega

/-- Each g at most doubles the largest magnitude (R255). -/
theorem exists_rightLlrs_eq_ok (tl : NodeTag) (bl : List Bool) :
    ∃ αr, rightLlrs maxl tl a0 a1 bl = .ok αr ∧ LlrsWithin (2 * b) αr := by
  unfold rightLlrs
  split
  · split
    · exact exists_gOp1_eq_ok h0 h1 hb
    · exact exists_gOp0_eq_ok h0 h1 hb
  · exact exists_gOp_eq_ok h0 h1 hb bl

end Growth

/-- The left LLRs of a Standard node stay in range, or its left child is a leaf and decides whatever they are. -/
theorem leftLlrs_within_or {llrw b : Nat} {a0 a1 : List Int} (tl : NodeTag) (h0 : LlrsWithin b a0)
    (h1 : LlrsWithin b a1) : tl = .rate1 ∨ LlrsWithin b (leftLlrs llrw tl a0 a1) := by
  unfold leftLlrs
  split
  · exact .inl ‹_›
  · exact .inr (llrsWithin_fOp h0 h1)

/-- From LLRs within `b` no g result leaves the range, if `b · 2^n` is at most MAXL: each g at most doubles the
magnitude on the way to a child half the size. -/
theorem decNode_ne_range {llrw n lo b : Nat} {D : List Nat} {α : List Int} (hα : LlrsWithin b α)
    (hb : b * 2 ^ n ≤ 2 ^ (llrw - 1) - 1) : decNode llrw D n lo α ≠ .error .range := by
  induction n generalizing lo b α with
  | zero =>
    by_cases ht : classify D lo 1 = .standard
    · rw [decNode_zero_of_standard ht]
      simp
    · exact decNode_ne_error_of_leaf (n := 0) ht llrw α _
  | succ n ih =>
    by_cases ht : classify D lo (2 ^ (n + 1)) = .standard
    · have hdouble : 2 * b * 2 ^ n ≤ 2 ^ (llrw - 1) - 1 := by
        rwa [Nat.mul_comm 2 b, Nat.mul_assoc, ← Nat.pow_succ']
      have hmaxl : 2 * b ≤ 2 ^ (llrw - 1) - 1 := (Nat.le_mul_of_pos_right _ (Nat.two_pow_pos n)).trans hdouble
      have h0 := hα.take (2 ^ n)
      have h1 := hα.drop (2 ^ n)
      rw [decNode_succ_of_standard llrw ht]
      intro h
      obtain hleft | ⟨g, hg, hstop⟩ := decHalves_eq_error h
      · obtain hrate1 | hwithin := leftLlrs_within_or (llrw := llrw) (classify D lo (2 ^ n)) h0 h1
        · exact decNode_ne_error_of_leaf (by rw [hrate1]; decide) llrw _ _ hleft
        · exact ih hwithin ((Nat.mul_le_mul_right _ (by omega)).trans hdouble) hleft
      · have hgrown : ∃ αr, g = .ok αr ∧ LlrsWithin (2 * b) αr := by
          obtain rfl | ⟨βl, rfl⟩ := hg
          · exact exists_gOp0_eq_ok h0 h1 hmaxl
          · exact exists_rightLlrs_eq_ok h0 h1 hmaxl _ _
        obtain ⟨αr, rfl, hαr⟩ := hgrown
        obtain hstop | ⟨αr', heq, hright⟩ := hstop
        · exact absurd hstop (by simp)
        · obtain rfl := Except.ok.inj heq
          exact ih hαr hdouble hright
    · exact decNode_ne_error_of_leaf ht llrw α _

/-- A decode from LLRs within MAXL >> n comes to an answer. -/
theorem exists_decNode_eq_ok {llrw n b : Nat} {D : List Nat} {α : List Int} (hD : D.Pairwise (· < ·))
    (hα : LlrsWithin b α) (hb : b * 2 ^ n ≤ 2 ^ (llrw - 1) - 1) (lo : Nat) :
    ∃ β, decNode llrw D n lo α = .ok β := by
  match h : decNode llrw D n lo α with
  | .ok β => exact ⟨β, rfl⟩
  | .error .range => exact absurd h (decNode_ne_range hα hb)
  | .error .malformed => exact absurd h (decNode_ne_malformed hD llrw n lo α)

end Sys2Proof.Machine

/-! PROOFS. The commands of the decoder on a configured polar code: what the VALID bit gives (10_state.md R25), the
decode of root LLRs and its faults (44_polar_decode.md R226, R227), the decision written (R258), the LLRs that
PDEC_LOAD writes (R223, R224), and PDEC as the two in sequence (R260). -/

namespace Sys2Proof.Machine

/-! ## A configured decoder (10_state.md R25) -/

/-- What the decode commands read of a configured code, over what every polar command reads. -/
structure DecoderReady (s : State) (n M K : Nat) : Prop extends PolarReady s n M K where
  nodes : s.regs.pcNnodes.toNat = (buildTree (polarIndices s.regs) n 0).length
  tree : s.holds .tree 0 ((buildTree (polarIndices s.regs) n 0).map elemOfRecord)
  initshort : s.regs.pcInitshort = BitVec.ofNat 64 (initShort s.par.llrw n)
  depth_le : n ≤ 32
  depth_add_le : n + 5 ≤ s.par.llrw
  llrw_le : s.par.llrw ≤ 64

/-- LOGN_MAX leaves five bits of an LLR (00_scope.md R7). -/
theorem lognMax_add_le_of_wf {p : Params} (h : p.wf = true) : p.lognMax + 5 ≤ p.llrw := by
  simp only [Params.wf, Bool.and_eq_true, decide_eq_true_eq] at h
  omega

theorem decoderReady_of_inv {s : State} {n M K : Nat} (hinv : Inv s) (hv : s.regs.valid .polar = true)
    (hN : s.regs.pcN.toNat = 2 ^ n) (hM : s.regs.pcM.toNat = M) (hK : s.regs.pcK.toNat = K) :
    DecoderReady s n M K := by
  have hready := polarReady_of_inv hinv hv hN hM hK
  have hdescribed := hinv.polar hv
  have hle : n ≤ s.par.lognMax := by
    obtain ⟨-, hcap, -⟩ := hdescribed.sizes
    rw [hN] at hcap
    exact (Nat.pow_le_pow_iff_right (by decide)).1 hcap
  obtain ⟨-, -, hinit, hnodes, -, -, htree⟩ := hdescribed
  have hrecs : polarRecords s.regs = buildTree (polarIndices s.regs) n 0 := by
    rw [polarRecords, hready.log2_block]
  rw [hrecs] at hnodes htree
  rw [hready.log2_block] at hinit
  have hlegal := legalParams_of_wf hinv.params
  have hmargin := lognMax_add_le_of_wf hinv.params
  have hdepth : n ≤ 32 := hle.trans hlegal.lognMax_le
  have hcount := buildTree_length_lt (polarIndices s.regs) n 0
  have hpow : 2 ^ (n + 1) ≤ 2 ^ 33 := Nat.pow_le_pow_right (by decide) (by omega)
  exact
    { hready with
      nodes := by rw [hnodes, toNat_ofNat_of_lt (by omega)]
      tree := htree
      initshort := hinit
      depth_le := hdepth
      depth_add_le := by omega
      llrw_le := hlegal.llrw_le }

/-- A good state with the registers of a configured one is as ready. -/
theorem DecoderReady.of_regs {s t : State} {n M K : Nat} (h : DecoderReady s n M K)
    (hv : s.regs.valid .polar = true) (ht : Inv t) (hregs : t.regs = s.regs) : DecoderReady t n M K :=
  decoderReady_of_inv ht (hregs ▸ hv) (hregs ▸ h.block) (hregs ▸ h.codeword) (hregs ▸ h.data)

namespace DecoderReady

variable {s : State} {n M K : Nat} (h : DecoderReady s n M K)
include h

/-- A decode command reads back the records that PC_CFG wrote, and draws nothing for them. -/
theorem gather_tree : gather .tree 0 s.regs.pcNnodes.toNat s =
    ((buildTree (polarIndices s.regs) n 0).map elemOfRecord, s) := by
  have hread := gather_holds h.tree
  rwa [List.length_map, ← h.nodes] at hread

theorem recordsOfElems_tree : recordsOfElems ((buildTree (polarIndices s.regs) n 0).map elemOfRecord) =
    some (buildTree (polarIndices s.regs) n 0) :=
  recordsOfElems_map_elemOfRecord fun _ hr =>
    (size_le_of_mem_buildTree hr).trans_lt (Nat.pow_lt_pow_right (by decide) (by have := h.depth_le; omega))

/-! ## The decode of root LLRs (44_polar_decode.md R226, R227) -/

/-- Without the most negative pattern, the decode is the walk over TREE, and the walk is the recursion by
`classify`. -/
theorem decodeRoot_of_notMem {α : List Int} (hmem : -(2 ^ (s.par.llrw - 1) : Int) ∉ α) (i : Instr)
    (run : List Bool → State → Result) :
    (∀ β, decNode s.par.llrw (polarIndices s.regs) n 0 α = .ok β → decodeRoot i α s run = run β s) ∧
      (decNode s.par.llrw (polarIndices s.regs) n 0 α = .error .range →
        decodeRoot i α s run = commandFault i .llrRange 2 s) := by
  have hany : ¬ (α.any fun x => decide (x = -(2 ^ (s.par.llrw - 1) : Int))) = true := fun hany => by
    obtain ⟨x, hx, heq⟩ := List.any_eq_true.1 hany
    exact hmem (of_decide_eq_true heq ▸ hx)
  have hwalk := decTree_buildTree_append s.par.llrw n 0 (polarIndices s.regs) α []
  rw [List.append_nil] at hwalk
  rw [decodeRoot, if_neg hany]
  simp only [h.gather_tree, h.recordsOfElems_tree, h.log2_block, hwalk]
  exact ⟨fun β hβ => by rw [hβ]; rfl, fun hstop => by rw [hstop]; rfl⟩

end DecoderReady

/-- LLRs of magnitude at most MAXL >> n are decoded, to one β in all configured states of the same registers. -/
theorem exists_decodeRoot_eq {s : State} {n : Nat} {α : List Int}
    (hα : LlrsWithin ((2 ^ (s.par.llrw - 1) - 1) / 2 ^ n) α) :
    ∃ β, decNode s.par.llrw (polarIndices s.regs) n 0 α = .ok β ∧
      ∀ t M K, DecoderReady t n M K → t.par = s.par → t.regs = s.regs →
        ∀ i run, decodeRoot i α t run = run β t := by
  obtain ⟨β, hβ⟩ := exists_decNode_eq_ok (llrw := s.par.llrw) (n := n) (selectIndices_pairwise _ _ _) hα
    (Nat.div_mul_le_self _ _) 0
  have hmem : -(2 ^ (s.par.llrw - 1) : Int) ∉ α := fun hmem => by
    have hle := (hα _ hmem).trans (Nat.div_le_self _ _)
    rw [Int.natAbs_neg, Int.natAbs_pow] at hle
    exact absurd hle (Nat.not_le_of_lt (Nat.sub_lt (Nat.two_pow_pos _) one_pos))
  refine ⟨β, hβ, fun t M K ht hpar hregs i run => ?_⟩
  rw [← hpar] at hmem hβ
  rw [← hregs] at hβ
  exact (ht.decodeRoot_of_notMem hmem i run).1 β hβ

theorem decodeRoot_of_mem {s : State} {α : List Int} (hmem : -(2 ^ (s.par.llrw - 1) : Int) ∈ α) (i : Instr)
    (run : List Bool → State → Result) : decodeRoot i α s run = commandFault i .llrRange 1 s :=
  if_pos (List.any_eq_true.2 ⟨_, hmem, decide_eq_true rfl⟩)

/-! ## The decision written (44_polar_decode.md R226, R258) -/

theorem map_truncTo_elemOfBit (β : List Bool) : (β.map elemOfBit).map (truncTo 1) = β.map elemOfBit := by
  rw [List.map_map]
  exact List.map_congr_left fun x _ => truncTo_word (BitVec.ofBool x)

/-- A write of values that already fit holds them. -/
theorem holds_write_of_map_eq {s : State} {sp : Space} {vs : List Word64} (lo : Nat)
    (h : vs.map (truncTo (sp.width s.par)) = vs) : (s.write sp lo vs).holds sp lo vs :=
  holds_write s sp lo vs fun v hv => List.map_inj_left.1 (h.trans (List.map_id vs).symm) v hv

/-- The data bits of β packed into DO. -/
def decisionBytes (D : List Nat) (β : List Bool) : List Word64 := packElems (D.map fun d => β.getD d false)

namespace PolarReady

variable {s : State} {n M K : Nat} (h : PolarReady s n M K)
include h

theorem decisionBytes_length (β : List Bool) : (decisionBytes (polarIndices s.regs) β).length = K / 8 :=
  packElems_length (by
    rw [List.length_map, h.indices_length, Nat.mul_div_cancel' (Nat.dvd_of_mod_eq_zero h.data_bytes)])

theorem unpackElems_decisionBytes (β : List Bool) : unpackElems (decisionBytes (polarIndices s.regs) β) =
    (polarIndices s.regs).map fun d => β.getD d false :=
  unpackElems_packElems (by rw [List.length_map, h.indices_length, h.data_bytes])

theorem writeDecision_eq (β : List Bool) : writeDecision β s =
    (s.write .beta 0 (β.map elemOfBit)).write .dout 0 (decisionBytes (polarIndices s.regs) β) := by
  rw [writeDecision]
  simp only [h.data, h.gather_didx (.refl s), h.indicesOfElems_didx, decisionBytes]

theorem writeDecision_holds_beta (β : List Bool) :
    (writeDecision β s).holds .beta 0 (β.map elemOfBit) := by
  rw [h.writeDecision_eq]
  exact holds_write_ne (by decide) (holds_write_of_map_eq 0 (map_truncTo_elemOfBit β))

theorem writeDecision_holds_dout (β : List Bool) :
    (writeDecision β s).holds .dout 0 (decisionBytes (polarIndices s.regs) β) := by
  rw [h.writeDecision_eq]
  exact holds_write_of_map_eq 0 (map_truncTo_packElems _)

theorem writeDecision_draws (β : List Bool) : (writeDecision β s).draws = s.draws := by
  rw [h.writeDecision_eq]
  rfl

theorem sameElemsBut_writeDecision {β : List Bool} (hβ : β.length = 2 ^ n) :
    SameElemsBut s (writeDecision β s) fun sp i => (sp = .beta ∧ i < 2 ^ n) ∨ (sp = .dout ∧ i < K / 8) := by
  intro sp i hout
  obtain ⟨hbeta, hdout⟩ := not_or.1 hout
  rw [h.writeDecision_eq]
  refine (elem?_write_zero_of_outside ?_).trans (elem?_write_zero_of_outside ?_)
  · rwa [h.decisionBytes_length]
  · rwa [List.length_map, hβ]

/-- The ranges of BETA and DO are written. -/
theorem writeDecision_written {β : List Bool} (hβ : β.length = 2 ^ n) :
    (writeDecision β s).written .beta 0 (2 ^ n) ∧ (writeDecision β s).written .dout 0 (K / 8) := by
  have hbeta := written_of_holds (h.writeDecision_holds_beta β)
  have hdout := written_of_holds (h.writeDecision_holds_dout β)
  rw [List.length_map, hβ] at hbeta
  rw [h.decisionBytes_length] at hdout
  exact ⟨hbeta, hdout⟩

end PolarReady

theorem writeDecision_regs (β : List Bool) (s : State) : (writeDecision β s).regs = s.regs := by
  obtain ⟨-, hregs, -⟩ := writeDecision_state β s
  exact hregs

/-! ## PDEC_RUN (44_polar_decode.md R226) -/

/-- PDEC_RUN on a configured code with its LLRs written decodes them, and has drawn nothing. -/
theorem exec_pdecRun_of_written {s : State} {N : Nat} (hv : s.regs.valid .polar = true)
    (hN : s.regs.pcN.toNat = N) (hw : s.written .llr 0 N) :
    exec .pdecRun s = decodeRoot .pdecRun ((s.values .llr 0 N).map (llrOfElem s.par.llrw)) s fun β u =>
      .next (writeDecision β u) := by
  refine Eq.trans (if_pos hv) ?_
  rw [hN, gather_written hw]

/-- A command that answers a fault records it. -/
theorem faultRecorded_of_eq_commandFault {s : State} {r : Result} (i : Instr) (c : Cause) (sub : Byte)
    (hf : s.regs.faulted = false) (h : r = commandFault i c sub s) :
    ∃ t, r = .next t ∧ FaultRecorded s t c.code.toNat sub.toNat (opcode i).toNat :=
  ⟨_, h, raiseFault_recorded c sub (opcode i) hf⟩

/-- Settles O43: on written LLRs the command is the decode of their list, and the decode is the recursion by
`classify`. -/
theorem pdecRunDecodesTheLlrs : Obligations.PdecRunDecodesTheLlrs := by
  rintro s n K α hinv hf hv hN hK hw rfl
  have h := decoderReady_of_inv hinv hv hN rfl hK
  have hrun := exec_pdecRun_of_written hv hN hw
  have hlen : ((s.values .llr 0 (2 ^ n)).map (llrOfElem s.par.llrw)).length = 2 ^ n := by
    rw [List.length_map, State.values_length]
  split
  · exact faultRecorded_of_eq_commandFault .pdecRun .llrRange 1 hf (hrun.trans (decodeRoot_of_mem ‹_› _ _))
  · rename_i hmem
    obtain ⟨hok, hrange⟩ := h.decodeRoot_of_notMem hmem .pdecRun fun β u => .next (writeDecision β u)
    split
    · rename_i e hstop
      cases e with
      | range => exact faultRecorded_of_eq_commandFault .pdecRun .llrRange 2 hf (hrun.trans (hrange hstop))
      | malformed => exact absurd hstop (decNode_ne_malformed (selectIndices_pairwise _ _ _) _ _ _ _)
    · rename_i β hβ
      have hβlen := decNode_length hlen hβ
      exact ⟨_, _, hrun.trans (hok β hβ), samePort_writeDecision β s, writeDecision_regs β s,
        h.writeDecision_draws β, hβlen, h.writeDecision_holds_beta β, h.writeDecision_holds_dout β,
        h.decisionBytes_length β, h.unpackElems_decisionBytes β, h.sameElemsBut_writeDecision hβlen⟩

/-- Settles O44: LLRs within MAXL >> n are decoded, and the decision is all that is written. -/
theorem pdecRunCompletesOnSafeLlrs : Obligations.PdecRunCompletesOnSafeLlrs := by
  intro s n K hinv hv hN hK hw hsafe
  have h := decoderReady_of_inv hinv hv hN rfl hK
  obtain ⟨β, hβ, hdecode⟩ := exists_decodeRoot_eq (s := s)
    (α := (s.values .llr 0 (2 ^ n)).map (llrOfElem s.par.llrw)) (List.forall_mem_map.2 hsafe)
  have hβlen := decNode_length (by rw [List.length_map, State.values_length]) hβ
  obtain ⟨hbeta, hdout⟩ := h.writeDecision_written hβlen
  exact ⟨_, (exec_pdecRun_of_written hv hN hw).trans (hdecode s _ _ h rfl rfl _ _), samePort_writeDecision β s,
    writeDecision_regs β s, hbeta, hdout, h.sameElemsBut_writeDecision hβlen⟩

/-! ## The LLRs that PDEC_LOAD writes (44_polar_decode.md R223, R224) -/

theorem llrOfElem_truncTo (w : Nat) (v : Word64) : llrOfElem w (truncTo w v) = llrOfElem w v := by
  rw [llrOfElem, setWidth_truncTo, llrOfElem]

theorem map_llrOfElem_truncTo (w : Nat) (vs : List Word64) :
    (vs.map (truncTo w)).map (llrOfElem w) = vs.map (llrOfElem w) := by
  rw [List.map_map]
  exact List.map_congr_left fun v _ => llrOfElem_truncTo w v

/-- An LLR of LLRW bits is read back. -/
theorem llrOfElem_elemOfLlr {w : Nat} {a : Int} (hw : 0 < w) (h64 : w ≤ 64) (hlo : -2 ^ (w - 1) ≤ a)
    (hhi : a < 2 ^ (w - 1)) : llrOfElem w (elemOfLlr w a) = a := by
  rw [llrOfElem, elemOfLlr, setWidth_setWidth_64 h64, BitVec.toInt_ofInt_eq_self hw hlo hhi]

/-- A value below the sign bit is read as it is. -/
theorem llrOfElem_ofNat {w x : Nat} (hw : 0 < w) (h64 : w ≤ 64) (hx : x < 2 ^ (w - 1)) :
    llrOfElem w (BitVec.ofNat 64 x) = x := by
  have hpow : 2 ^ w = 2 * 2 ^ (w - 1) := by have := Nat.two_pow_pred_mul_two hw; omega
  have hnat : (BitVec.ofNat w x).toNat = x := by
    rw [BitVec.toNat_ofNat, Nat.mod_eq_of_lt (by omega)]
  rw [llrOfElem, BitVec.setWidth_ofNat_of_le h64, BitVec.toInt_eq_toNat_of_lt (by omega), hnat]

/-- The LLRs for received bits (R223): +1 for a 0, −1 for a 1, `tail` for the shortened positions. -/
def receivedLlrs (N M tail : Nat) (bits : List Bool) : List Int :=
  (bits.take M).map (fun r => if r then -1 else 1) ++ List.replicate (N - M) (tail : Int)

theorem map_llrOfElem_loadedLlrs {w x : Nat} (hw : 2 ≤ w) (h64 : w ≤ 64) (hx : x < 2 ^ (w - 1)) (N M : Nat)
    (bits : List Bool) : (loadedLlrs w N M (BitVec.ofNat 64 x) bits).map (llrOfElem w) =
      receivedLlrs N M x bits := by
  have hsign : (2 : Int) ≤ 2 ^ (w - 1) := by
    simpa using pow_le_pow_right₀ (one_le_two : (1 : Int) ≤ 2) (show 1 ≤ w - 1 by omega)
  rw [loadedLlrs, List.map_append, List.map_map, List.map_replicate, llrOfElem_truncTo,
    llrOfElem_ofNat (by omega) h64 hx, receivedLlrs]
  refine congrArg (· ++ _) (List.map_congr_left fun r _ => llrOfElem_elemOfLlr (by omega) h64 ?_ ?_)
  · cases r <;> simp <;> omega
  · cases r <;> simp <;> omega

theorem getD_receivedLlrs_of_lt {N M tail i : Nat} {bits : List Bool} (hbits : bits.length = M) (hi : i < M) :
    (receivedLlrs N M tail bits).getD i 0 = if bits.getD i false then -1 else 1 := by
  subst hbits
  simp [receivedLlrs, List.getElem?_append_left, hi]

theorem getD_receivedLlrs_of_le {N M tail i : Nat} {bits : List Bool} (hbits : bits.length = M) (hi : M ≤ i)
    (hN : i < N) : (receivedLlrs N M tail bits).getD i 0 = tail := by
  subst hbits
  have hlt : i - bits.length < N - bits.length := by omega
  simp [receivedLlrs, List.getElem?_append_right, hi, hlt]

theorem llrsWithin_receivedLlrs {N M tail b : Nat} {bits : List Bool} (hb : 1 ≤ b) (htail : tail ≤ b) :
    LlrsWithin b (receivedLlrs N M tail bits) := by
  intro x hx
  obtain hx | hx := List.mem_append.1 hx
  · obtain ⟨r, -, rfl⟩ := List.mem_map.1 hx
    cases r <;> exact hb
  · rw [(List.mem_replicate.1 hx).2]
    exact htail

theorem initShort_lt (llrw n : Nat) : initShort llrw n < 2 ^ (llrw - 1) := by
  have hpos := Nat.two_pow_pos (llrw - 1)
  have hle := Nat.div_le_self (2 ^ (llrw - 1) - 1) (2 ^ min (n + 1) (llrw - 4))
  rw [initShort_eq]
  omega

/-! ## PDEC_LOAD (44_polar_decode.md R223) -/

/-- The state behind PDEC_LOAD on a configured code. -/
def loadReceived (s : State) : State := (expandReceived s).2.write .llr 0 (expandReceived s).1

theorem exec_pdecLoad_of_valid {s : State} (hv : s.regs.valid .polar = true) :
    exec .pdecLoad s = .next (loadReceived s) := if_pos hv

theorem loadReceived_wroteOnly (s : State) :
    WroteOnly s (loadReceived s) .llr 0 ((expandReceived s).1.map (truncTo s.par.llrw)) := by
  have hwrote := (expandReceived_state s).wroteOnly_write .llr 0 (expandReceived s).1
  rwa [(expandReceived_state s).par] at hwrote

theorem loadReceived_length {s : State} {n : Nat} (hinv : Inv s) (hv : s.regs.valid .polar = true)
    (hN : s.regs.pcN.toNat = 2 ^ n) : ((expandReceived s).1.map (truncTo s.par.llrw)).length = 2 ^ n := by
  rw [List.length_map, expandReceived_length (hinv.polar hv), hN]

namespace DecoderReady

variable {s : State} {n M K : Nat} (h : DecoderReady s n M K)
include h

/-- What the elements written to LLR stand for, whatever was read of DI. -/
theorem map_llrOfElem_expandReceived : (expandReceived s).1.map (llrOfElem s.par.llrw) =
    receivedLlrs (2 ^ n) M (initShort s.par.llrw n) (unpackElems (gather .di 0 (M / 8) s).1) := by
  have hmargin := h.depth_add_le
  rw [expandReceived, h.codeword, h.block, h.initshort]
  exact map_llrOfElem_loadedLlrs (by omega) h.llrw_le (initShort_lt _ _) _ _ _

/-- The LLRs that PDEC_LOAD writes are at most MAXL >> n in magnitude, so PDEC never faults (R255). -/
theorem llrsWithin_expandReceived :
    LlrsWithin ((2 ^ (s.par.llrw - 1) - 1) / 2 ^ n) ((expandReceived s).1.map (llrOfElem s.par.llrw)) := by
  have hmargin := h.depth_add_le
  have hpow : 2 ^ n < 2 ^ (s.par.llrw - 1) := Nat.pow_lt_pow_right (by decide) (by omega)
  rw [h.map_llrOfElem_expandReceived]
  refine llrsWithin_receivedLlrs ((Nat.one_le_div_iff (Nat.two_pow_pos n)).2 (by omega)) ?_
  rw [initShort_eq, Nat.min_eq_left (by omega)]
  exact Nat.div_le_div_left (Nat.pow_le_pow_right (by decide) (Nat.le_succ n)) (Nat.two_pow_pos n)

end DecoderReady

theorem llrOfElem_getD {w i : Nat} {vs : List Word64} (hi : i < vs.length) :
    llrOfElem w (vs.getD i 0) = (vs.map (llrOfElem w)).getD i 0 := by
  simp [hi]

/-- Settles O38: the elements written stand for the received bits and `init_short`. -/
theorem pdecLoadExpandsTheBits : Obligations.PdecLoadExpandsTheBits := by
  intro s n M hinv hv hN hM
  have h := decoderReady_of_inv hinv hv hN hM rfl
  have hload := exec_pdecLoad_of_valid hv
  have hwrote := loadReceived_wroteOnly s
  have hlen := loadReceived_length hinv hv hN
  refine ⟨⟨_, _, hload, hwrote, hlen⟩, fun hw => ?_⟩
  have hllrs := h.map_llrOfElem_expandReceived
  have hbits : (unpackElems (s.values .di 0 (M / 8))).length = M := by
    rw [unpackElems_length, State.values_length, Nat.div_mul_cancel (Nat.dvd_of_mod_eq_zero h.codeword_bytes)]
  have hdraws : (loadReceived s).draws = s.draws := by
    rw [loadReceived, expandReceived, hM, gather_written hw]
    rfl
  rw [gather_written hw, ← map_llrOfElem_truncTo] at hllrs
  refine ⟨_, _, hload, hdraws, hwrote, hlen, fun i hi => ?_, fun i hi hiN => ?_⟩
  · rw [llrOfElem_getD (by rw [hlen]; exact hi.trans_le h.codeword_le), hllrs]
    exact getD_receivedLlrs_of_lt hbits hi
  · rw [llrOfElem_getD (by rwa [hlen]), hllrs, ← initShort_eq]
    exact getD_receivedLlrs_of_le hbits hi hiN

/-! ## PDEC (44_polar_decode.md R260) -/

theorem exec_pdec_of_valid {s : State} (hv : s.regs.valid .polar = true) :
    exec .pdec s = decodeRoot .pdec ((expandReceived s).1.map (llrOfElem s.par.llrw)) (expandReceived s).2
      fun β u => .next (writeDecision β (u.write .llr 0 (expandReceived s).1)) := if_pos hv

section Sequence

variable {s : State} {n K : Nat} (hinv : Inv s) (hv : s.regs.valid .polar = true)
  (hN : s.regs.pcN.toNat = 2 ^ n)
include hinv hv hN

theorem loadReceived_written : (loadReceived s).written .llr 0 (2 ^ n) := by
  obtain ⟨-, -, hholds, -⟩ := loadReceived_wroteOnly s
  exact loadReceived_length hinv hv hN ▸ written_of_holds hholds

/-- Behind PDEC_LOAD the elements of LLR stand for what it expanded. -/
theorem map_llrOfElem_loadReceived : ((loadReceived s).values .llr 0 (2 ^ n)).map (llrOfElem s.par.llrw) =
    (expandReceived s).1.map (llrOfElem s.par.llrw) := by
  obtain ⟨-, -, hholds, -⟩ := loadReceived_wroteOnly s
  rw [← loadReceived_length hinv hv hN, values_of_holds hholds, map_llrOfElem_truncTo]

/-- On a configured code PDEC_RUN behind PDEC_LOAD, and PDEC, complete in one state: both decode the LLRs of the
received bits, and write the decision behind them. -/
theorem exec_pdec_eq_load_run (hK : s.regs.pcK.toNat = K) :
    ∃ β, β.length = 2 ^ n ∧ exec .pdecRun (loadReceived s) = .next (writeDecision β (loadReceived s)) ∧
      exec .pdec s = .next (writeDecision β (loadReceived s)) := by
  have h := decoderReady_of_inv hinv hv hN rfl hK
  have hreads := expandReceived_state s
  obtain ⟨⟨hpar, -, -⟩, hregs, -, -⟩ := loadReceived_wroteOnly s
  have hreadsReady := h.of_regs hv (hinv.reads hreads) hreads.regs
  have hloadReady := h.of_regs hv (hinv.exec (exec_pdecLoad_of_valid hv)) hregs
  obtain ⟨β, hβ, hdecode⟩ := exists_decodeRoot_eq h.llrsWithin_expandReceived
  refine ⟨β, decNode_length ?_ hβ, ?_, ?_⟩
  · rw [List.length_map, expandReceived_length (hinv.polar hv), hN]
  · rw [exec_pdecRun_of_written (by rwa [hregs]) hloadReady.block (loadReceived_written hinv hv hN), hpar,
      map_llrOfElem_loadReceived hinv hv hN]
    exact hdecode _ _ _ hloadReady hpar hregs _ _
  · rw [exec_pdec_of_valid hv]
    exact hdecode _ _ _ hreadsReady hreads.par hreads.regs _ _

end Sequence

theorem exec_pdec_of_not_valid {s : State} (hv : s.regs.valid .polar = false) :
    exec .pdec s = commandFault .pdec .notConfigured 2 s := if_neg (by rw [hv]; decide)

/-- Settles O45: the sequence and PDEC decode the same LLRs; unconfigured, the guard faults before any read. -/
theorem pdecIsLoadThenRun : Obligations.PdecIsLoadThenRun := by
  intro s n K hinv hN hK
  refine ⟨fun hv => ?_, fun hv hf =>
    faultRecorded_of_eq_commandFault .pdec .notConfigured 2 hf (exec_pdec_of_not_valid hv)⟩
  have hload := exec_pdecLoad_of_valid hv
  obtain ⟨hport, hregs, -, helems⟩ := loadReceived_wroteOnly s
  rw [loadReceived_length hinv hv hN] at helems
  have ht := (decoderReady_of_inv hinv hv hN rfl hK).of_regs hv (hinv.exec hload) hregs
  obtain ⟨β, hβ, hrun, hpdec⟩ := exec_pdec_eq_load_run hinv hv hN hK
  have hdecided := ht.sameElemsBut_writeDecision hβ
  obtain ⟨hbeta, hdout⟩ := ht.writeDecision_written hβ
  refine ⟨_, _, hload, hrun, hpdec, hport.trans (samePort_writeDecision β _),
    (writeDecision_regs β _).trans hregs, fun i hi => ?_, hbeta, hdout, fun sp i hout => ?_⟩
  · rw [hdecided .llr i (by simp)]
    exact loadReceived_written hinv hv hN i hi
  · obtain ⟨houtLlr, hout⟩ := not_or.1 hout
    exact (hdecided sp i hout).trans (helems sp i fun hin => houtLlr ⟨hin.1, by omega⟩)

end Sys2Proof.Machine

/-! PROOFS. The field GF(2)[x]/(PRIM): multiplying by x is linear (45_gf_rs.md R274), the powers of α run through the
nonzero elements once a period, the tables hold them and their logarithms (R273, R274), and so `multiply` is the
product of the field (R277). -/

namespace Sys2Proof.Machine

/-! ## Multiplying by x (45_gf_rs.md R274) -/

theorem xtime_eq (gm prim a : Nat) : xtime (2 ^ gm) prim a =
    (a <<< 1) ^^^ if (a <<< 1).testBit gm then prim else 0 := by
  unfold xtime
  dsimp only
  rw [Nat.and_two_pow]
  cases (a <<< 1).testBit gm <;> simp

theorem xtime_zero (q prim : Nat) : xtime q prim 0 = 0 := by simp [xtime]

/-- Reducing by PRIM is linear, and so is the shift. -/
theorem xtime_xor (gm prim a b : Nat) :
    xtime (2 ^ gm) prim (a ^^^ b) = xtime (2 ^ gm) prim a ^^^ xtime (2 ^ gm) prim b := by
  rw [xtime_eq, xtime_eq, xtime_eq, Nat.shiftLeft_xor_distrib, Nat.testBit_xor]
  cases (a <<< 1).testBit gm <;> cases (b <<< 1).testBit gm <;>
    simp [Nat.xor_comm, Nat.xor_left_comm]

theorem iterate_xtime_zero (q prim n : Nat) : (xtime q prim)^[n] 0 = 0 :=
  Function.iterate_fixed (xtime_zero q prim) n

theorem iterate_xtime_xor (gm prim n a b : Nat) : (xtime (2 ^ gm) prim)^[n] (a ^^^ b) =
    (xtime (2 ^ gm) prim)^[n] a ^^^ (xtime (2 ^ gm) prim)^[n] b := by
  induction n generalizing a b with
  | zero => rfl
  | succ n ih => rw [Function.iterate_succ_apply, xtime_xor, ih]; rfl

/-! ## The powers of α (45_gf_rs.md R272 check 3, R274) -/

theorem alphaPow_succ (gm prim i : Nat) : alphaPow gm prim (i + 1) = xtime (2 ^ gm) prim (alphaPow gm prim i) :=
  Function.iterate_succ_apply' _ i 1

theorem alphaPow_add (gm prim i j : Nat) :
    alphaPow gm prim (i + j) = (xtime (2 ^ gm) prim)^[i] (alphaPow gm prim j) :=
  Function.iterate_add_apply _ i j 1

namespace PrimitivePoly

variable {gm prim : Nat} (h : PrimitivePoly gm prim)
include h

theorem one_lt : 1 < 2 ^ gm := Nat.one_lt_two_pow (by have := h.degree; omega)

theorem alphaPow_lt (i : Nat) : alphaPow gm prim i < 2 ^ gm := by
  induction i with
  | zero => exact h.one_lt
  | succ i ih => rw [alphaPow_succ]; exact xtime_lt h.bounded h.top ih

theorem alphaPow_one : alphaPow gm prim 1 = 2 := by
  have hbit : Nat.testBit (1 <<< 1) gm = false :=
    Nat.testBit_lt_two_pow (Nat.pow_lt_pow_right (a := 2) (m := 1) (by decide) h.degree)
  exact (xtime_eq gm prim 1).trans (by rw [hbit, if_neg (by decide)]; rfl)

/-- The first power that is 1 is that of the period. -/
theorem minimalPeriod_eq : Function.minimalPeriod (xtime (2 ^ gm) prim) 1 = 2 ^ gm - 1 := by
  have hpos : 0 < 2 ^ gm - 1 := Nat.sub_pos_of_lt h.one_lt
  have hperiodic : Function.IsPeriodicPt (xtime (2 ^ gm) prim) (2 ^ gm - 1) 1 := h.full
  refine le_antisymm (hperiodic.minimalPeriod_le hpos) (Nat.le_of_not_lt fun hlt => ?_)
  exact h.least _ (hperiodic.minimalPeriod_pos hpos) hlt Function.iterate_minimalPeriod

theorem alphaPow_add_period (i : Nat) : alphaPow gm prim (i + (2 ^ gm - 1)) = alphaPow gm prim i := by
  rw [← h.minimalPeriod_eq]
  exact Function.iterate_add_minimalPeriod_eq

/-- A power that is 0 would stay 0, but the powers come back to 1. -/
theorem alphaPow_ne_zero (i : Nat) : alphaPow gm prim i ≠ 0 := by
  intro hzero
  have hperiodic : Function.IsPeriodicPt (xtime (2 ^ gm) prim) (i * (2 ^ gm - 1)) 1 :=
    Function.IsPeriodicPt.const_mul h.full i
  have hle : i ≤ i * (2 ^ gm - 1) := Nat.le_mul_of_pos_right i (Nat.sub_pos_of_lt h.one_lt)
  have hone : alphaPow gm prim (i * (2 ^ gm - 1) - i + i) = 1 := by
    rw [Nat.sub_add_cancel hle]
    exact hperiodic
  rw [alphaPow_add, hzero, iterate_xtime_zero] at hone
  exact absurd hone (by decide)

/-- Two powers of one period with the same value are the same. -/
theorem alphaPow_injOn : Set.InjOn (alphaPow gm prim) (Set.Icc 1 (2 ^ gm - 1)) := by
  have shift : ∀ i ∈ Set.Icc 1 (2 ^ gm - 1),
      alphaPow gm prim (i - 1) = alphaPow gm prim (2 ^ gm - 2 + i) := by
    rintro i ⟨hi, hle⟩
    rw [← h.alphaPow_add_period]
    congr 1
    omega
  intro i hi j hj heq
  have hpred : alphaPow gm prim (i - 1) = alphaPow gm prim (j - 1) := by
    rw [shift i hi, shift j hj, alphaPow_add, alphaPow_add, heq]
  have hinj := Function.iterate_injOn_Iio_minimalPeriod (f := xtime (2 ^ gm) prim) (x := 1)
  rw [h.minimalPeriod_eq] at hinj
  obtain ⟨hi1, hi2⟩ := hi
  obtain ⟨hj1, hj2⟩ := hj
  have : i - 1 = j - 1 := hinj (Set.mem_Iio.2 (by omega)) (Set.mem_Iio.2 (by omega)) hpred
  omega

/-- Every nonzero element is a power of α with an exponent of one period: there are as many of them. -/
theorem exists_alphaPow {a : Nat} (ha : a ≠ 0) (hlt : a < 2 ^ gm) :
    ∃ i, 1 ≤ i ∧ i ≤ 2 ^ gm - 1 ∧ alphaPow gm prim i = a := by
  have hmaps : Set.MapsTo (alphaPow gm prim) (Finset.Icc 1 (2 ^ gm - 1)) (Finset.Icc 1 (2 ^ gm - 1)) := by
    intro i _
    have hpos := Nat.pos_of_ne_zero (h.alphaPow_ne_zero i)
    have hi := h.alphaPow_lt i
    exact Finset.mem_coe.2 (Finset.mem_Icc.2 ⟨hpos, by omega⟩)
  have hsurj := Finset.surjOn_of_injOn_of_card_le (alphaPow gm prim) hmaps
    (by rw [Finset.coe_Icc]; exact h.alphaPow_injOn) le_rfl
  obtain ⟨i, hi, rfl⟩ := hsurj (Finset.mem_coe.2 (Finset.mem_Icc.2 ⟨Nat.pos_of_ne_zero ha, by omega⟩))
  obtain ⟨hi1, hi2⟩ := Finset.mem_Icc.1 (Finset.mem_coe.1 hi)
  exact ⟨i, hi1, hi2, rfl⟩

end PrimitivePoly

/-! ## The tables (45_gf_rs.md R273, R274) -/

theorem getD_xtimeChain {i n : Nat} (q prim a : Nat) (hi : i < n) :
    (xtimeChain q prim n a).getD i 0 = (xtime q prim)^[i] a := by
  induction n generalizing i a with
  | zero => exact absurd hi (Nat.not_lt_zero i)
  | succ n ih =>
    cases i with
    | zero => rfl
    | succ i => exact ih _ (Nat.lt_of_succ_lt_succ hi)

theorem getD_antilog {gm i : Nat} (prim : Nat) (hi : i < 2 * 2 ^ gm) :
    (gfTables (2 ^ gm) prim).antilog.getD i 0 = alphaPow gm prim i :=
  getD_xtimeChain _ _ _ hi

theorem getD_galog_of_mem_range' {gm i : Nat} (prim : Nat) (hi : i ∈ List.range' 1 (2 ^ gm - 1)) :
    (galogTable (2 ^ gm) prim).getD i 0 = alphaPow gm prim i ∧ i ∈ Set.Icc 1 (2 ^ gm - 1) := by
  rw [List.mem_range'_1] at hi
  exact ⟨getD_antilog prim (by omega), by omega, by omega⟩

theorem getD_set (l : List Nat) (i j x : Nat) (hi : i < l.length) :
    (l.set i x).getD j 0 = if i = j then x else l.getD j 0 := by
  rw [List.getD_eq_getElem?_getD, List.getElem?_set, List.getD_eq_getElem?_getD, if_pos hi]
  split <;> rfl

/-- Storing every `i` at its place `f i` leaves the other places. -/
theorem getD_foldl_set_of_ne {f : Nat → Nat} {is : List Nat} {a : Nat} {l : List Nat}
    (hlt : ∀ i ∈ is, f i < l.length) (ha : ∀ i ∈ is, f i ≠ a) :
    (is.foldl (fun t i => t.set (f i) i) l).getD a 0 = l.getD a 0 := by
  induction is generalizing l with
  | nil => rfl
  | cons j is ih =>
    rw [List.foldl_cons, ih (fun i hi => by rw [List.length_set]; exact hlt i (List.mem_cons_of_mem _ hi))
      (fun i hi => ha i (List.mem_cons_of_mem _ hi)), getD_set _ _ _ _ (hlt j (by simp)),
      if_neg (ha j (by simp))]

/-- Storing every `i` at its own place `f i` finds it there. -/
theorem getD_foldl_set {f : Nat → Nat} {is : List Nat} {i : Nat} {l : List Nat}
    (hinj : ∀ i ∈ is, ∀ j ∈ is, f i = f j → i = j) (hlt : ∀ i ∈ is, f i < l.length) (hi : i ∈ is) :
    (is.foldl (fun t i => t.set (f i) i) l).getD (f i) 0 = i := by
  induction is generalizing l with
  | nil => exact absurd hi List.not_mem_nil
  | cons j is ih =>
    have hlt' : ∀ i ∈ is, f i < (l.set (f j) j).length := fun i hi => by
      rw [List.length_set]; exact hlt i (List.mem_cons_of_mem _ hi)
    rw [List.foldl_cons]
    by_cases hmem : i ∈ is
    · exact ih (fun a ha b hb => hinj a (List.mem_cons_of_mem _ ha) b (List.mem_cons_of_mem _ hb)) hlt' hmem
    · obtain rfl : i = j := (List.mem_cons.1 hi).resolve_right hmem
      have hne : ∀ k ∈ is, f k ≠ f i := fun k hk heq =>
        hmem (hinj k (List.mem_cons_of_mem _ hk) i (by simp) heq ▸ hk)
      rw [getD_foldl_set_of_ne hlt' hne, getD_set _ _ _ _ (hlt i (by simp)), if_pos rfl]

namespace PrimitivePoly

variable {gm prim : Nat} (h : PrimitivePoly gm prim)
include h

theorem galog_lt_length : ∀ i ∈ List.range' 1 (2 ^ gm - 1),
    (galogTable (2 ^ gm) prim).getD i 0 < (List.replicate (2 ^ gm) 0).length := fun i hi => by
  rw [(getD_galog_of_mem_range' prim hi).1, List.length_replicate]
  exact h.alphaPow_lt i

/-- GLOG of a power of α is its exponent in 1 … q − 1. -/
theorem getD_log_alphaPow {i : Nat} (h1 : 1 ≤ i) (hle : i ≤ 2 ^ gm - 1) :
    (gfTables (2 ^ gm) prim).log.getD (alphaPow gm prim i) 0 = i := by
  have hi : i ∈ List.range' 1 (2 ^ gm - 1) := by rw [List.mem_range'_1]; omega
  rw [← (getD_galog_of_mem_range' prim hi).1]
  refine getD_foldl_set (fun i hi j hj heq => ?_) h.galog_lt_length hi
  obtain ⟨hvi, hmi⟩ := getD_galog_of_mem_range' prim hi
  obtain ⟨hvj, hmj⟩ := getD_galog_of_mem_range' prim hj
  exact h.alphaPow_injOn hmi hmj (hvi.symm.trans (heq.trans hvj))

theorem getD_log_zero : (gfTables (2 ^ gm) prim).log.getD 0 0 = 0 := by
  refine (getD_foldl_set_of_ne h.galog_lt_length fun i hi => ?_).trans (by simp)
  rw [(getD_galog_of_mem_range' prim hi).1]
  exact h.alphaPow_ne_zero i

theorem getD_log_bounds {a : Nat} (ha : a ≠ 0) (hlt : a < 2 ^ gm) :
    1 ≤ (gfTables (2 ^ gm) prim).log.getD a 0 ∧ (gfTables (2 ^ gm) prim).log.getD a 0 ≤ 2 ^ gm - 1 := by
  obtain ⟨i, h1, hle, rfl⟩ := h.exists_alphaPow ha hlt
  rw [h.getD_log_alphaPow h1 hle]
  exact ⟨h1, hle⟩

end PrimitivePoly

/-! ## The product (45_gf_rs.md R277) -/

@[simp] theorem gfMultiply_zero_left (t : GfTables) (b : Nat) : gfMultiply t 0 b = 0 := if_pos (.inl rfl)

@[simp] theorem gfMultiply_zero_right (t : GfTables) (a : Nat) : gfMultiply t a 0 = 0 := if_pos (.inr rfl)

theorem gfMultiply_of_ne_zero (t : GfTables) {a b : Nat} (ha : a ≠ 0) (hb : b ≠ 0) :
    gfMultiply t a b = t.antilog.getD (t.log.getD a 0 + t.log.getD b 0) 0 :=
  if_neg (not_or.2 ⟨ha, hb⟩)

theorem gfMultiply_comm (t : GfTables) (a b : Nat) : gfMultiply t a b = gfMultiply t b a := by
  simp only [gfMultiply, or_comm (a := a = 0), Nat.add_comm (t.log.getD a 0)]

/-- The tables multiply as a field of `2^gm` elements with XOR as addition does. -/
structure FieldProduct (gm : Nat) (t : GfTables) : Prop where
  one_lt : 1 < 2 ^ gm
  lt : ∀ a b, gfMultiply t a b < 2 ^ gm
  one : ∀ a < 2 ^ gm, gfMultiply t a 1 = a
  assoc : ∀ a < 2 ^ gm, ∀ b < 2 ^ gm, ∀ c < 2 ^ gm,
    gfMultiply t (gfMultiply t a b) c = gfMultiply t a (gfMultiply t b c)
  xor : ∀ a < 2 ^ gm, ∀ b < 2 ^ gm, ∀ c < 2 ^ gm,
    gfMultiply t a (b ^^^ c) = gfMultiply t a b ^^^ gfMultiply t a c
  ne_zero : ∀ a < 2 ^ gm, ∀ b < 2 ^ gm, a ≠ 0 → b ≠ 0 → gfMultiply t a b ≠ 0

namespace PrimitivePoly

variable {gm prim : Nat} (h : PrimitivePoly gm prim)
include h

theorem gfMultiply_alphaPow (i j : Nat) :
    gfMultiply (gfTables (2 ^ gm) prim) (alphaPow gm prim i) (alphaPow gm prim j) =
      alphaPow gm prim (i + j) := by
  obtain ⟨i', hi1, hile, hi⟩ := h.exists_alphaPow (h.alphaPow_ne_zero i) (h.alphaPow_lt i)
  obtain ⟨j', hj1, hjle, hj⟩ := h.exists_alphaPow (h.alphaPow_ne_zero j) (h.alphaPow_lt j)
  calc gfMultiply (gfTables (2 ^ gm) prim) (alphaPow gm prim i) (alphaPow gm prim j)
      = alphaPow gm prim (i' + j') := by
        rw [gfMultiply_of_ne_zero _ (h.alphaPow_ne_zero i) (h.alphaPow_ne_zero j), ← hi, ← hj,
          h.getD_log_alphaPow hi1 hile, h.getD_log_alphaPow hj1 hjle, getD_antilog prim (by omega)]
    _ = alphaPow gm prim (j + i') := by rw [alphaPow_add, hj, ← alphaPow_add, Nat.add_comm]
    _ = alphaPow gm prim (i + j) := by rw [alphaPow_add, hi, ← alphaPow_add, Nat.add_comm]

/-- Multiplying by α^i is multiplying by x `i` times, so it is linear. -/
theorem gfMultiply_alphaPow_left (i : Nat) {b : Nat} (hb : b < 2 ^ gm) :
    gfMultiply (gfTables (2 ^ gm) prim) (alphaPow gm prim i) b = (xtime (2 ^ gm) prim)^[i] b := by
  obtain rfl | hne := eq_or_ne b 0
  · rw [gfMultiply_zero_right, iterate_xtime_zero]
  · obtain ⟨j, -, -, rfl⟩ := h.exists_alphaPow hne hb
    rw [h.gfMultiply_alphaPow, alphaPow_add]

theorem antilog_lt : ∀ x ∈ (gfTables (2 ^ gm) prim).antilog, x < 2 ^ gm := fun _ hx =>
  lt_of_mem_xtimeChain h.bounded h.top h.one_lt hx

theorem fieldProduct : FieldProduct gm (gfTables (2 ^ gm) prim) where
  one_lt := h.one_lt
  lt := gfMultiply_lt (Nat.two_pow_pos gm) h.antilog_lt
  one a ha := by
    rw [gfMultiply_comm]
    exact h.gfMultiply_alphaPow_left 0 ha
  assoc a ha b hb c hc := by
    obtain rfl | hane := eq_or_ne a 0
    · simp only [gfMultiply_zero_left]
    obtain rfl | hbne := eq_or_ne b 0
    · simp only [gfMultiply_zero_left, gfMultiply_zero_right]
    obtain ⟨i, -, -, rfl⟩ := h.exists_alphaPow hane ha
    obtain ⟨j, -, -, rfl⟩ := h.exists_alphaPow hbne hb
    have hlt := gfMultiply_lt (Nat.two_pow_pos gm) h.antilog_lt (alphaPow gm prim j) c
    rw [h.gfMultiply_alphaPow, h.gfMultiply_alphaPow_left _ hc, h.gfMultiply_alphaPow_left _ hlt,
      h.gfMultiply_alphaPow_left _ hc, Function.iterate_add_apply]
  xor a ha b hb c hc := by
    obtain rfl | hane := eq_or_ne a 0
    · simp only [gfMultiply_zero_left, Nat.xor_self]
    obtain ⟨i, -, -, rfl⟩ := h.exists_alphaPow hane ha
    rw [h.gfMultiply_alphaPow_left _ (Nat.xor_lt_two_pow hb hc), h.gfMultiply_alphaPow_left _ hb,
      h.gfMultiply_alphaPow_left _ hc, iterate_xtime_xor]
  ne_zero a ha b hb hane hbne := by
    obtain ⟨i, -, -, rfl⟩ := h.exists_alphaPow hane ha
    obtain ⟨j, -, -, rfl⟩ := h.exists_alphaPow hbne hb
    rw [h.gfMultiply_alphaPow]
    exact h.alphaPow_ne_zero _

end PrimitivePoly

/-- Settles O48: a nonzero element is a power of α, and multiplying by it is multiplying by x that often. -/
theorem multiplyIsTheFieldProduct : Obligations.MultiplyIsTheFieldProduct := by
  rintro gm prim _ _ h rfl rfl a b c ha hb hc
  have hfield := h.fieldProduct
  refine ⟨rfl, fun hane hbne => ?_, hfield.lt a b, gfMultiply_comm _ a b, hfield.assoc a ha b hb c hc,
    hfield.xor a ha b hb c hc, hfield.one a ha, ?_⟩
  · have hloga := h.getD_log_bounds hane ha
    have hlogb := h.getD_log_bounds hbne hb
    exact ⟨by omega, by omega, hfield.ne_zero a ha b hb hane hbne⟩
  · have hx := h.gfMultiply_alphaPow_left 1 ha
    rwa [h.alphaPow_one] at hx

end Sys2Proof.Machine

/-! PROOFS. Polynomials over the field, highest power first (45_gf_rs.md R275): Horner's method is a value of powers
(R278), the generator polynomial is monic and its roots are α^1 … α^RP (R276), the remainder completes a message to
a multiple of the generator (R279, R285), and what one changed coefficient does to a value (R288). -/

namespace Sys2Proof.Machine

/-! ## The division register (45_gf_rs.md R279) -/

theorem remainderStep_length {gen rem : List Nat} (t : GfTables) (hlen : rem.length = gen.length - 1) (m : Nat) :
    (remainderStep t gen rem m).length = gen.length - 1 := by
  simp only [remainderStep, List.length_zipWith, List.length_append, List.length_tail, List.length_singleton]
  omega

theorem remainderPoly_length (t : GfTables) (gen message : List Nat) :
    (remainderPoly t gen message).length = gen.length - 1 :=
  List.foldlRecOn (motive := fun rem : List Nat => rem.length = gen.length - 1) message _
    List.length_replicate fun _ hlen m _ => remainderStep_length t hlen m

/-! ## Horner's method (45_gf_rs.md R278) -/

/-- `x^n`. -/
def gfPow (t : GfTables) (x : Nat) : Nat → Nat
  | 0 => 1
  | n + 1 => gfMultiply t x (gfPow t x n)

/-- Horner's method starts with the first coefficient. -/
theorem evaluatePoly_cons (t : GfTables) (c : Nat) (l : List Nat) (x : Nat) :
    evaluatePoly t (c :: l) x = l.foldl (fun acc c => gfMultiply t acc x ^^^ c) c := by
  rw [evaluatePoly, List.foldl_cons, gfMultiply_zero_left, Nat.zero_xor]

theorem evaluatePoly_replicate_zero (t : GfTables) (n x : Nat) : evaluatePoly t (List.replicate n 0) x = 0 := by
  induction n with
  | zero => rfl
  | succ n ih => exact (evaluatePoly_cons t 0 _ x).trans ih

/-- A zero behind the coefficients multiplies by `x`. -/
theorem evaluatePoly_concat_zero (t : GfTables) (l : List Nat) (x : Nat) :
    evaluatePoly t (l ++ [0]) x = gfMultiply t (evaluatePoly t l x) x := by
  rw [evaluatePoly, List.foldl_append]
  exact Nat.xor_zero _

namespace FieldProduct

variable {gm : Nat} {t : GfTables} (h : FieldProduct gm t)
include h

theorem xor_left {a b c : Nat} (ha : a < 2 ^ gm) (hb : b < 2 ^ gm) (hc : c < 2 ^ gm) :
    gfMultiply t (a ^^^ b) c = gfMultiply t a c ^^^ gfMultiply t b c := by
  rw [gfMultiply_comm, h.xor c hc a ha b hb, gfMultiply_comm, gfMultiply_comm t c]

theorem one_mul {a : Nat} (ha : a < 2 ^ gm) : gfMultiply t 1 a = a := by
  rw [gfMultiply_comm, h.one a ha]

theorem mul_right_comm {a b c : Nat} (ha : a < 2 ^ gm) (hb : b < 2 ^ gm) (hc : c < 2 ^ gm) :
    gfMultiply t (gfMultiply t a b) c = gfMultiply t (gfMultiply t a c) b := by
  rw [h.assoc a ha b hb c hc, gfMultiply_comm t b, ← h.assoc a ha c hc b hb]

theorem pow_lt (x n : Nat) : gfPow t x n < 2 ^ gm := by
  cases n with
  | zero => exact h.one_lt
  | succ n => exact h.lt _ _

theorem evaluate_lt {l : List Nat} (hl : ∀ c ∈ l, c < 2 ^ gm) (x : Nat) : evaluatePoly t l x < 2 ^ gm :=
  List.foldlRecOn (motive := (· < 2 ^ gm)) l _ (Nat.two_pow_pos gm) fun acc _ c hc =>
    Nat.xor_lt_two_pow (h.lt acc x) (hl c hc)

theorem remainderStep_lt {gen rem : List Nat} (hrem : ∀ c ∈ rem, c < 2 ^ gm) (m : Nat) :
    ∀ c ∈ remainderStep t gen rem m, c < 2 ^ gm := by
  have hshift : ∀ c ∈ rem.tail ++ [0], c < 2 ^ gm := by
    simpa [or_imp, forall_and, Nat.two_pow_pos gm] using fun c hc => hrem c (List.mem_of_mem_tail hc)
  rw [remainderStep, ← List.zipWith_map_right (f := gfMultiply t _)]
  refine zipWith_xor_lt hshift fun c hc => ?_
  obtain ⟨g, -, rfl⟩ := List.mem_map.1 hc
  exact h.lt _ g

theorem remainderPoly_lt (gen message : List Nat) : ∀ c ∈ remainderPoly t gen message, c < 2 ^ gm := by
  refine List.foldlRecOn (motive := fun rem : List Nat => ∀ c ∈ rem, c < 2 ^ gm) message _
    (fun c hc => ?_) fun rem hrem m _ => h.remainderStep_lt hrem m
  rw [List.eq_of_mem_replicate hc]
  exact Nat.two_pow_pos gm

variable {x : Nat} (hx : x < 2 ^ gm)
include hx

/-- A loop of Horner's method that starts with `acc` has `acc` in front of the highest power. -/
theorem foldl_horner {acc : Nat} {l : List Nat} (hacc : acc < 2 ^ gm) (hl : ∀ c ∈ l, c < 2 ^ gm) :
    l.foldl (fun acc c => gfMultiply t acc x ^^^ c) acc =
      gfMultiply t acc (gfPow t x l.length) ^^^ evaluatePoly t l x := by
  induction l generalizing acc with
  | nil => exact ((Nat.xor_zero _).trans (h.one acc hacc)).symm
  | cons c l ih =>
    have hc := hl c (by simp)
    have htail : ∀ c ∈ l, c < 2 ^ gm := fun c hc => hl c (List.mem_cons_of_mem _ hc)
    have hpow := h.pow_lt x l.length
    rw [List.foldl_cons, ih (Nat.xor_lt_two_pow (h.lt acc x) hc) htail, evaluatePoly_cons, ih hc htail,
      h.xor_left (h.lt acc x) hc hpow, h.assoc acc hacc x hx _ hpow, Nat.xor_assoc]
    rfl

theorem evaluate_cons {c : Nat} {l : List Nat} (hl : ∀ a ∈ c :: l, a < 2 ^ gm) :
    evaluatePoly t (c :: l) x = gfMultiply t c (gfPow t x l.length) ^^^ evaluatePoly t l x :=
  (evaluatePoly_cons t c l x).trans (h.foldl_horner hx (hl c (by simp)) fun a ha =>
    hl a (List.mem_cons_of_mem _ ha))

theorem evaluate_append {l l' : List Nat} (hl : ∀ c ∈ l, c < 2 ^ gm) (hl' : ∀ c ∈ l', c < 2 ^ gm) :
    evaluatePoly t (l ++ l') x =
      gfMultiply t (evaluatePoly t l x) (gfPow t x l'.length) ^^^ evaluatePoly t l' x := by
  rw [← h.foldl_horner hx (h.evaluate_lt hl x) hl', evaluatePoly, List.foldl_append]
  rfl

/-- The value of a sum is the sum of the values. -/
theorem evaluate_zipWith_xor {l l' : List Nat} (hlen : l.length = l'.length) (hl : ∀ c ∈ l, c < 2 ^ gm)
    (hl' : ∀ c ∈ l', c < 2 ^ gm) :
    evaluatePoly t (List.zipWith (· ^^^ ·) l l') x = evaluatePoly t l x ^^^ evaluatePoly t l' x := by
  induction l generalizing l' with
  | nil =>
    obtain rfl := List.length_eq_zero_iff.1 hlen.symm
    exact (Nat.xor_self 0).symm
  | cons a l ih =>
    cases l' with
    | nil => exact absurd hlen (by simp)
    | cons b l' =>
      have hlen' : l.length = l'.length := by simpa using hlen
      have hsum : ∀ c ∈ List.zipWith (· ^^^ ·) (a :: l) (b :: l'), c < 2 ^ gm := zipWith_xor_lt hl hl'
      have hzip : (List.zipWith (· ^^^ ·) l l').length = l.length := by simp [hlen']
      rw [List.zipWith_cons_cons] at hsum ⊢
      rw [h.evaluate_cons hx hsum, h.evaluate_cons hx hl, h.evaluate_cons hx hl', hzip, ← hlen',
        ih hlen' (fun c hc => hl c (List.mem_cons_of_mem _ hc)) fun c hc => hl' c (List.mem_cons_of_mem _ hc),
        h.xor_left (hl a (by simp)) (hl' b (by simp)) (h.pow_lt x _)]
      simp only [Nat.xor_assoc, Nat.xor_left_comm (evaluatePoly t l x)]

/-- The value of a multiple is the multiple of the value. -/
theorem evaluate_map_mul {r : Nat} (hr : r < 2 ^ gm) {l : List Nat} (hl : ∀ c ∈ l, c < 2 ^ gm) :
    evaluatePoly t (l.map (gfMultiply t r)) x = gfMultiply t r (evaluatePoly t l x) := by
  induction l with
  | nil => exact (gfMultiply_zero_right t r).symm
  | cons c l ih =>
    have htail : ∀ c ∈ l, c < 2 ^ gm := fun c hc => hl c (List.mem_cons_of_mem _ hc)
    have hmap : ∀ a ∈ (c :: l).map (gfMultiply t r), a < 2 ^ gm := fun a ha => by
      obtain ⟨c, -, rfl⟩ := List.mem_map.1 ha
      exact h.lt r c
    rw [List.map_cons] at hmap ⊢
    rw [h.evaluate_cons hx hmap, h.evaluate_cons hx hl, ih htail, List.length_map,
      h.xor r hr _ (h.lt _ _) _ (h.evaluate_lt htail x), h.assoc r hr c (hl c (by simp)) _ (h.pow_lt x _)]

/-- Multiplying a polynomial by `x + r` multiplies its value at `x` by `x + r`. -/
theorem evaluate_timesLinear {r : Nat} (hr : r < 2 ^ gm) {g : List Nat} (hg : ∀ c ∈ g, c < 2 ^ gm) :
    evaluatePoly t (timesLinear t g r) x = gfMultiply t (evaluatePoly t g x) (x ^^^ r) := by
  have hpos := Nat.two_pow_pos gm
  have hleft : ∀ c ∈ g ++ [0], c < 2 ^ gm := by
    simpa [or_imp, forall_and, hpos] using hg
  have hright : ∀ c ∈ 0 :: g.map (gfMultiply t r), c < 2 ^ gm := by
    simpa [hpos] using fun c _ => h.lt r c
  have hproducts : (g.map fun c => gfMultiply t c r) = g.map (gfMultiply t r) :=
    List.map_congr_left fun c _ => gfMultiply_comm t c r
  rw [timesLinear, hproducts, h.evaluate_zipWith_xor hx (by simp) hleft hright, evaluatePoly_concat_zero,
    evaluatePoly_cons t 0, ← evaluatePoly, h.evaluate_map_mul hx hr hg, gfMultiply_comm t r,
    h.xor _ (h.evaluate_lt hg x) x hx r hr]

/-! ## A changed coefficient (45_gf_rs.md R288) -/

/-- XORing `e` into coefficient `d` adds `e·x^(n−1−d)` to the value. -/
theorem evaluate_set_xor {l : List Nat} (hl : ∀ c ∈ l, c < 2 ^ gm) {d e : Nat} (hd : d < l.length)
    (he : e < 2 ^ gm) : evaluatePoly t (l.set d (l.getD d 0 ^^^ e)) x =
      evaluatePoly t l x ^^^ gfMultiply t e (gfPow t x (l.length - 1 - d)) := by
  induction l generalizing d with
  | nil => exact absurd hd (Nat.not_lt_zero d)
  | cons c l ih =>
    have hc := hl c (by simp)
    have htail : ∀ c ∈ l, c < 2 ^ gm := fun c hc => hl c (List.mem_cons_of_mem _ hc)
    cases d with
    | zero =>
      have hset : ∀ a ∈ (c ^^^ e) :: l, a < 2 ^ gm :=
        List.forall_mem_cons.2 ⟨Nat.xor_lt_two_pow hc he, htail⟩
      calc evaluatePoly t ((c ^^^ e) :: l) x
          = gfMultiply t (c ^^^ e) (gfPow t x l.length) ^^^ evaluatePoly t l x := h.evaluate_cons hx hset
        _ = evaluatePoly t (c :: l) x ^^^ gfMultiply t e (gfPow t x l.length) := by
          rw [h.xor_left hc he (h.pow_lt x _), Nat.xor_right_comm, ← h.evaluate_cons hx hl]
    | succ d =>
      have hd' : d < l.length := Nat.lt_of_succ_lt_succ hd
      have hsym : l.getD d 0 ^^^ e < 2 ^ gm := Nat.xor_lt_two_pow (getD_lt (Nat.two_pow_pos gm) htail d) he
      have hset : ∀ a ∈ c :: l.set d (l.getD d 0 ^^^ e), a < 2 ^ gm :=
        List.forall_mem_cons.2 ⟨hc, fun a ha => (List.mem_or_eq_of_mem_set ha).elim (htail a) (· ▸ hsym)⟩
      have hexp : (c :: l).length - 1 - (d + 1) = l.length - 1 - d := by simp; omega
      rw [List.set_cons_succ, List.getD_cons_succ, h.evaluate_cons hx hset, h.evaluate_cons hx hl, hexp,
        ih htail hd', List.length_set, Nat.xor_assoc]

/-! ## The remainder (45_gf_rs.md R279, R285) -/

section Remainder

variable {gs : List Nat} (hgs : ∀ c ∈ gs, c < 2 ^ gm) (hroot : evaluatePoly t (1 :: gs) x = 0)
include hgs hroot

/-- At a root of the monic generator its lower coefficients have the value of the highest power. -/
theorem evaluate_tail_of_root : evaluatePoly t gs x = gfPow t x gs.length := by
  rw [h.evaluate_cons hx (List.forall_mem_cons.2 ⟨h.one_lt, hgs⟩), h.one_mul (h.pow_lt x _),
    Nat.xor_eq_zero_iff] at hroot
  exact hroot.symm

/-- At a root of the generator one symbol of the division register is one step of Horner's method, times
x^RP. -/
theorem evaluate_remainderStep {m r : Nat} {rs : List Nat} (hm : m < 2 ^ gm)
    (hrem : ∀ c ∈ r :: rs, c < 2 ^ gm) (hlen : (r :: rs).length = gs.length) :
    evaluatePoly t (remainderStep t (1 :: gs) (r :: rs) m) x =
      gfMultiply t (evaluatePoly t (r :: rs) x) x ^^^ gfMultiply t m (gfPow t x gs.length) := by
  have hr := hrem r (by simp)
  have hrs : ∀ c ∈ rs, c < 2 ^ gm := fun c hc => hrem c (List.mem_cons_of_mem _ hc)
  have hfb : m ^^^ r < 2 ^ gm := Nat.xor_lt_two_pow hm hr
  have hshift : ∀ c ∈ rs ++ [0], c < 2 ^ gm := by
    simpa [or_imp, forall_and, Nat.two_pow_pos gm] using hrs
  have hproducts : ∀ c ∈ gs.map (gfMultiply t (m ^^^ r)), c < 2 ^ gm := fun c hc => by
    obtain ⟨g, -, rfl⟩ := List.mem_map.1 hc
    exact h.lt _ g
  have hpow : gfPow t x gs.length = gfMultiply t x (gfPow t x rs.length) := by rw [← hlen]; rfl
  calc evaluatePoly t (remainderStep t (1 :: gs) (r :: rs) m) x
      = evaluatePoly t (List.zipWith (· ^^^ ·) (rs ++ [0]) (gs.map (gfMultiply t (m ^^^ r)))) x := by
        rw [List.zipWith_map_right]; rfl
    _ = gfMultiply t (evaluatePoly t rs x) x ^^^ gfMultiply t (m ^^^ r) (gfPow t x gs.length) := by
        rw [h.evaluate_zipWith_xor hx (by simp [← hlen]) hshift hproducts, evaluatePoly_concat_zero,
          h.evaluate_map_mul hx hfb hgs, h.evaluate_tail_of_root hx hgs hroot]
    _ = gfMultiply t (evaluatePoly t (r :: rs) x) x ^^^ gfMultiply t m (gfPow t x gs.length) := by
        rw [h.xor_left hm hr (h.pow_lt x _), h.evaluate_cons hx hrem,
          h.xor_left (h.lt _ _) (h.evaluate_lt hrs x) hx, h.assoc r hr _ (h.pow_lt x _) x hx,
          gfMultiply_comm t (gfPow t x rs.length), ← hpow]
        simp only [Nat.xor_comm, Nat.xor_left_comm]

/-- At a root of the generator the register holds the value of the symbols so far, times x^RP. -/
theorem evaluate_foldl_remainderStep {message rem : List Nat} {acc : Nat} (hpos : 0 < gs.length)
    (hmessage : ∀ m ∈ message, m < 2 ^ gm) (hrem : ∀ c ∈ rem, c < 2 ^ gm) (hlen : rem.length = gs.length)
    (hacc : acc < 2 ^ gm) (heq : evaluatePoly t rem x = gfMultiply t acc (gfPow t x gs.length)) :
    evaluatePoly t (message.foldl (remainderStep t (1 :: gs)) rem) x =
      gfMultiply t (message.foldl (fun acc c => gfMultiply t acc x ^^^ c) acc) (gfPow t x gs.length) := by
  induction message generalizing rem acc with
  | nil => exact heq
  | cons m message ih =>
    have hm := hmessage m (by simp)
    obtain ⟨r, rs, rfl⟩ := List.exists_cons_of_length_pos (hlen ▸ hpos)
    refine ih (fun m hm => hmessage m (List.mem_cons_of_mem _ hm)) (h.remainderStep_lt hrem m) ?_
      (Nat.xor_lt_two_pow (h.lt acc x) hm) ?_
    · exact remainderStep_length t (gen := 1 :: gs) hlen m
    · rw [h.evaluate_remainderStep hx hgs hroot hm hrem hlen, heq,
        h.xor_left (h.lt acc x) hm (h.pow_lt x _), h.mul_right_comm hacc (h.pow_lt x _) hx]

/-- A message and its remainder have every root of the generator (45_gf_rs.md R285). -/
theorem evaluate_codeword {message : List Nat} (hpos : 0 < gs.length)
    (hmessage : ∀ m ∈ message, m < 2 ^ gm) :
    evaluatePoly t (message ++ remainderPoly t (1 :: gs) message) x = 0 := by
  have hvalue : evaluatePoly t (remainderPoly t (1 :: gs) message) x =
      gfMultiply t (evaluatePoly t message x) (gfPow t x gs.length) := by
    refine h.evaluate_foldl_remainderStep hx hgs hroot hpos hmessage (fun c hc => ?_)
      List.length_replicate (Nat.two_pow_pos gm) ?_
    · rw [List.eq_of_mem_replicate hc]
      exact Nat.two_pow_pos gm
    · rw [evaluatePoly_replicate_zero, gfMultiply_zero_left]
  rw [h.evaluate_append hx hmessage (h.remainderPoly_lt _ _), remainderPoly_length, hvalue]
  exact Nat.xor_self _

end Remainder

end FieldProduct

/-! ## The generator polynomial (45_gf_rs.md R276) -/

theorem generatorPoly_succ (t : GfTables) (rp : Nat) :
    generatorPoly t (rp + 1) = timesLinear t (generatorPoly t rp) (t.antilog.getD (rp + 1) 0) := by
  rw [generatorPoly, List.range'_concat, List.foldl_append, Nat.one_mul, Nat.add_comm 1 rp]
  rfl

/-- Multiplying by `x + r` keeps the highest coefficient. -/
theorem head?_timesLinear {g : List Nat} {c : Nat} (t : GfTables) (hg : g.head? = some c) (r : Nat) :
    (timesLinear t g r).head? = some c := by
  obtain ⟨l, rfl⟩ := List.head?_eq_some_iff.1 hg
  exact congrArg some (Nat.xor_zero c)

theorem generatorPoly_head? (t : GfTables) (rp : Nat) : (generatorPoly t rp).head? = some 1 := by
  induction rp with
  | zero => rfl
  | succ rp ih => rw [generatorPoly_succ]; exact head?_timesLinear t ih _

namespace PrimitivePoly

variable {gm prim : Nat} (h : PrimitivePoly gm prim)
include h

theorem generator_lt (rp : Nat) : ∀ c ∈ generatorPoly (gfTables (2 ^ gm) prim) rp, c < 2 ^ gm :=
  generatorPoly_lt (by have := h.degree; omega) h.antilog_lt rp

/-- The roots, by induction on RP: a product is 0 exactly when a factor is. -/
theorem generator_eq_zero_iff {rp x : Nat} (hrp : rp + 1 ≤ 2 ^ gm - 1) (hx : x < 2 ^ gm) :
    evaluatePoly (gfTables (2 ^ gm) prim) (generatorPoly (gfTables (2 ^ gm) prim) rp) x = 0 ↔
      ∃ i, 1 ≤ i ∧ i ≤ rp ∧ x = alphaPow gm prim i := by
  have hfield := h.fieldProduct
  induction rp with
  | zero =>
    have hone : evaluatePoly (gfTables (2 ^ gm) prim) (generatorPoly (gfTables (2 ^ gm) prim) 0) x = 1 :=
      evaluatePoly_cons _ 1 [] x
    rw [hone]
    exact iff_of_false Nat.one_ne_zero fun ⟨i, h1, h0, _⟩ => by omega
  | succ rp ih =>
    have hroots : evaluatePoly (gfTables (2 ^ gm) prim) (generatorPoly (gfTables (2 ^ gm) prim) rp) x = 0 ↔ _ :=
      ih (Nat.le_of_succ_le hrp)
    have hα := h.alphaPow_lt (rp + 1)
    have hg := h.generator_lt rp
    have hproduct : ∀ a < 2 ^ gm, ∀ b < 2 ^ gm,
        gfMultiply (gfTables (2 ^ gm) prim) a b = 0 ↔ a = 0 ∨ b = 0 := fun a ha b hb =>
      ⟨fun h0 => by
        by_contra hne
        obtain ⟨hane, hbne⟩ := not_or.1 hne
        exact hfield.ne_zero a ha b hb hane hbne h0, fun h0 => if_pos h0⟩
    rw [generatorPoly_succ, getD_antilog prim (by omega), hfield.evaluate_timesLinear hx hα hg,
      hproduct _ (hfield.evaluate_lt hg x) _ (Nat.xor_lt_two_pow hx hα), hroots, Nat.xor_eq_zero_iff]
    constructor
    · rintro (⟨i, h1, hle, hi⟩ | hi)
      · exact ⟨i, h1, by omega, hi⟩
      · exact ⟨rp + 1, by omega, le_rfl, hi⟩
    · rintro ⟨i, h1, hle, hi⟩
      obtain hlt | rfl := Nat.le_succ_iff.1 hle
      · exact .inl ⟨i, h1, hlt, hi⟩
      · exact .inr hi

theorem gfPow_alphaPow (j n : Nat) :
    gfPow (gfTables (2 ^ gm) prim) (alphaPow gm prim j) n = alphaPow gm prim (j * n) := by
  induction n with
  | zero => rfl
  | succ n ih => rw [gfPow, ih, h.gfMultiply_alphaPow, Nat.mul_succ, Nat.add_comm]

end PrimitivePoly

/-- Settles O49: length and leading coefficient factor by factor, the roots by the values of the factors. -/
theorem generatorHasItsRoots : Obligations.GeneratorHasItsRoots := by
  rintro gm prim rp _ h rfl hrp
  exact ⟨generatorPoly_length _ rp, generatorPoly_head? _ rp, h.generator_lt rp,
    fun x hx => h.generator_eq_zero_iff hrp hx⟩

end Sys2Proof.Machine

/-! PROOFS. The remainder two ways (45_gf_rs.md R279): one symbol of the long division in place drops the first
coefficient of what is left, and the division register is what it has added to the next RP coefficients. -/

namespace Sys2Proof.Machine

/-- One symbol of the long division, on the coefficients that are left: the first one, `c`, is dropped and `c·GEN[j]`
is added to the next ones. -/
def divideFront (t : GfTables) (gen : List Nat) : List Nat → List Nat
  | [] => []
  | c :: work => work.mapIdx fun j w =>
      if j + 1 < gen.length then w ^^^ gfMultiply t c (gen.getD (j + 1) 0) else w

/-- `rem` added to the first coefficients of `work`. -/
def addRegister (rem work : List Nat) : List Nat := work.mapIdx fun j w => w ^^^ rem.getD j 0

/-! ## In place -/

theorem drop_longDivisionStep (t : GfTables) (gen work : List Nat) (i : Nat) :
    (longDivisionStep t gen work i).drop (i + 1) = divideFront t gen (work.drop i) := by
  obtain hlt | hge := Nat.lt_or_ge i work.length
  · rw [List.drop_eq_getElem_cons hlt]
    refine List.ext_getElem (by simp [longDivisionStep, divideFront]) fun j h1 h2 => ?_
    have hin : i < i + 1 + j ∧ i + 1 + j < i + gen.length ↔ j + 1 < gen.length := by omega
    have hidx : i + 1 + j - i = j + 1 := by omega
    have hfirst : work.getD i 0 = work[i] := by simp [hlt]
    simp only [longDivisionStep, divideFront, List.getElem_drop, List.getElem_mapIdx, hin, hidx, hfirst]
  · rw [List.drop_eq_nil_of_le hge]
    exact List.drop_eq_nil_of_le (by simp only [longDivisionStep, List.length_mapIdx]; omega)

theorem drop_foldl_longDivisionStep (t : GfTables) (gen work : List Nat) (n : Nat) :
    ((List.range n).foldl (longDivisionStep t gen) work).drop n = (divideFront t gen)^[n] work := by
  induction n with
  | zero => rfl
  | succ n ih =>
    rw [List.range_succ, List.foldl_append, List.foldl_cons, List.foldl_nil, drop_longDivisionStep, ih,
      Function.iterate_succ_apply']

/-! ## The register -/

theorem addRegister_zeros (n : Nat) (work : List Nat) : addRegister (List.replicate n 0) work = work := by
  refine List.ext_getElem (by simp [addRegister]) fun j _ _ => ?_
  have hzero : (List.replicate n 0).getD j 0 = 0 := by simp
  simp only [addRegister, List.getElem_mapIdx, hzero, Nat.xor_zero]

theorem addRegister_of_zeros (rem : List Nat) : addRegister rem (List.replicate rem.length 0) = rem := by
  refine List.ext_getElem (by simp [addRegister]) fun j _ hj => ?_
  simp [addRegister, hj]

/-- Coefficient `j` of the register after one symbol; 0 behind the register. -/
theorem getD_remainderStep {t : GfTables} {gen rem : List Nat} (hlen : rem.length = gen.length - 1) (m j : Nat) :
    (remainderStep t gen rem m).getD j 0 = rem.getD (j + 1) 0 ^^^
      if j + 1 < gen.length then gfMultiply t (m ^^^ rem.headD 0) (gen.getD (j + 1) 0) else 0 := by
  have hstep : (remainderStep t gen rem m).length = gen.length - 1 := remainderStep_length t hlen m
  split
  case isTrue hj =>
    have hshift : (rem.tail ++ [0])[j]? = some (rem.getD (j + 1) 0) := by
      obtain hlt | hge := Nat.lt_or_ge (j + 1) rem.length
      · rw [List.getElem?_append_left (by rw [List.length_tail]; omega), List.getElem?_tail]
        simp [hlt]
      · obtain rfl : j = rem.tail.length := by rw [List.length_tail]; omega
        rw [List.getElem?_concat_length, List.getD_eq_default _ _ hge]
    have hgen : gen.tail[j]? = some (gen.getD (j + 1) 0) := by simp [hj]
    simp [remainderStep, List.getElem?_zipWith, hshift, hgen]
  case isFalse hj =>
    rw [List.getD_eq_default _ _ (by omega), List.getD_eq_default _ _ (by omega), Nat.xor_zero]

/-- One symbol of the long division on the register added to the message is one symbol of the register. -/
theorem divideFront_addRegister {t : GfTables} {gen rem : List Nat} (hlen : rem.length = gen.length - 1) (m : Nat)
    (work : List Nat) : divideFront t gen (addRegister rem (m :: work)) =
      addRegister (remainderStep t gen rem m) work := by
  refine List.ext_getElem (by simp [divideFront, addRegister]) fun j _ hj => ?_
  have hhead : rem.getD 0 0 = rem.headD 0 := by cases rem <;> rfl
  simp only [divideFront, addRegister, List.mapIdx_cons, List.getElem_mapIdx, getD_remainderStep hlen, hhead]
  split
  · exact Nat.xor_assoc _ _ _
  · rw [Nat.xor_zero]

theorem iterate_divideFront {t : GfTables} {gen : List Nat} (message : List Nat) {rem : List Nat}
    (hlen : rem.length = gen.length - 1) (zeros : List Nat) :
    (divideFront t gen)^[message.length] (addRegister rem (message ++ zeros)) =
      addRegister (message.foldl (remainderStep t gen) rem) zeros := by
  induction message generalizing rem with
  | nil => rfl
  | cons m message ih =>
    rw [List.length_cons, Function.iterate_succ_apply, List.cons_append, divideFront_addRegister hlen,
      ih (remainderStep_length t hlen m)]
    rfl

/-- Settles O50, by induction on the message: after every symbol the coefficients left are the rest of the message
with the register added. -/
theorem remainderIsLongDivision : Obligations.RemainderIsLongDivision := by
  intro t gen message _
  have hdivide := iterate_divideFront (t := t) (gen := gen) message (rem := List.replicate (gen.length - 1) 0)
    List.length_replicate (List.replicate (gen.length - 1) 0)
  rw [addRegister_zeros, ← drop_foldl_longDivisionStep, ← remainderPoly,
    ← remainderPoly_length t gen message, addRegister_of_zeros, remainderPoly_length] at hdivide
  exact hdivide.symm

end Sys2Proof.Machine

/-! PROOFS. RS_CFG: its check table (45_gf_rs.md R272) and what it writes with no check failing (R271, R273, R274,
R276). -/

namespace Sys2Proof.Machine

/-! ## The rows of RS_CFG (45_gf_rs.md R272) -/

/-- The chain of check 3 finds 1 for the first time at q − 1. -/
theorem xIsPrimitive_iff {gm prim : Nat} (hgm : 1 ≤ gm) : xIsPrimitive (2 ^ gm) prim = true ↔
    alphaPow gm prim (2 ^ gm - 1) = 1 ∧ ∀ i, 1 ≤ i → i < 2 ^ gm - 1 → alphaPow gm prim i ≠ 1 := by
  have hq : 1 < 2 ^ gm := Nat.one_lt_two_pow (by omega)
  have hlen : ((xtimeChain (2 ^ gm) prim (2 ^ gm) 1).drop 1).length = 2 ^ gm - 1 := by
    rw [List.length_drop, xtimeChain_length]
  have hpower : ∀ (j : Nat) (hj : j < ((xtimeChain (2 ^ gm) prim (2 ^ gm) 1).drop 1).length),
      ((xtimeChain (2 ^ gm) prim (2 ^ gm) 1).drop 1)[j] = alphaPow gm prim (j + 1) := fun j hj => by
    have hget := getD_xtimeChain (2 ^ gm) prim 1 (i := j + 1) (n := 2 ^ gm) (by omega)
    rw [List.getD_eq_getElem _ _ (by rw [xtimeChain_length]; omega)] at hget
    simp only [List.getElem_drop, Nat.add_comm 1 j]
    exact hget
  rw [xIsPrimitive, beq_iff_eq, List.findIdx?_eq_some_iff_getElem]
  simp only [hpower, beq_iff_eq, hlen]
  have hlast : 2 ^ gm - 2 + 1 = 2 ^ gm - 1 := by omega
  constructor
  · rintro ⟨-, hone, hbefore⟩
    refine ⟨hlast ▸ hone, fun i h1 hi => ?_⟩
    have := hbefore (i - 1) (by omega)
    rwa [Nat.sub_add_cancel h1] at this
  · rintro ⟨hone, hbefore⟩
    exact ⟨by omega, hlast ▸ hone, fun j hj => hbefore (j + 1) (by omega) (by omega)⟩

section Rows

variable (p : Params) (gm prim rp rn : Nat)

theorem rsFails_primitive_iff (hgm : 1 ≤ gm) :
    rsFails p gm prim rp rn 3 ↔ xIsPrimitive (2 ^ gm) prim = false := by
  rw [rsFails, ← xIsPrimitive_iff hgm, Bool.not_eq_true]

theorem not_rsFails_of_le {n : Nat} (h : 8 ≤ n) : ¬ rsFails p gm prim rp rn n := by
  obtain ⟨m, rfl⟩ := Nat.exists_eq_add_of_le' h
  exact id

/-- The checks of RS_CFG answer the first row that fails. Row 3 has a meaning of its own where row 1 has not already
refused `gm`. -/
theorem rsCheck_answersFirst : AnswersFirst (rsFails p gm prim rp rn) 1 (rsCheck p gm prim rp rn) := by
  obtain rfl | hgm := Nat.eq_zero_or_pos gm
  · exact .fail 1 le_rfl (by decide) (.inl (by decide)) (fun m hm hm' => absurd hm (by omega))
      (if_pos (.inl (by decide)))
  · exact
      .check (n := 1) Iff.rfl (by decide) <|
      .check (n := 2) Iff.rfl (by decide) <|
      .check (n := 3) (rsFails_primitive_iff p gm prim rp rn hgm) (by decide) <|
      .check (n := 4) Iff.rfl (by decide) <|
      .check (n := 5) Iff.rfl (by decide) <|
      .check (n := 6) Iff.rfl (by decide) <|
      .check (n := 7) Iff.rfl (by decide) <|
      .pass (fun _ h => not_rsFails_of_le p gm prim rp rn h) rfl

end Rows

theorem exec_rsCfg (s : State) : exec .rsCfg s =
    whenLegal
      (rsCheck s.par s.regs.rsGm.toNat s.regs.rsPrim.toNat s.regs.rsRp.toNat s.regs.rsRn.toNat)
      .rsCfg .rsCfgInvalid s fun s => .next (rsConfigure s) := rfl

/-- Settles O46: the checks answer the first row that fails, and the command records it. -/
theorem rsCfgRefusesTheFirstFailingCheck : Obligations.RsCfgRefusesTheFirstFailingCheck := by
  intro s n hf hfails hpass
  have hn : 1 ≤ n := Nat.pos_of_ne_zero fun h0 => by rw [h0] at hfails; exact hfails
  obtain ⟨hlt, hcheck⟩ := (rsCheck_answersFirst ..).eq_some hn hfails hpass
  obtain ⟨t, ht, hrecorded⟩ := faultRecorded_of_eq_commandFault .rsCfg .rsCfgInvalid (BitVec.ofNat 8 n) hf
    (by rw [exec_rsCfg, hcheck]; rfl : exec .rsCfg s = _)
  rw [BitVec.toNat_ofNat, Nat.mod_eq_of_lt hlt] at hrecorded
  exact ⟨t, ht, hrecorded⟩

/-! ## What RS_CFG writes (45_gf_rs.md R271) -/

/-- Where no check fails, PRIM is a primitive polynomial of degree gm. -/
theorem primitivePoly_of_passes {p : Params} {gm prim rp rn : Nat} (h : ∀ n, 1 ≤ n → ¬ rsFails p gm prim rp rn n) :
    PrimitivePoly gm prim := by
  obtain ⟨hgm, -⟩ := not_or.1 (h 1 (by decide))
  obtain ⟨hbound, hbits⟩ := not_or.1 (h 2 (by decide))
  obtain ⟨htop, hconst⟩ := not_or.1 hbits
  obtain ⟨hfull, hleast⟩ := not_not.1 (h 3 (by decide))
  exact ⟨by omega, by omega, by simpa using htop, by simpa using hconst, hfull, hleast⟩

/-- RS_CFG writes the three tables from element 0 on, and no other element. -/
theorem sameElemsBut_rsConfigure (s : State) : SameElemsBut s (rsConfigure s) fun sp i =>
    (sp = .galog ∧ i < 2 * 2 ^ s.regs.rsGm.toNat) ∨ (sp = .glog ∧ i < 2 ^ s.regs.rsGm.toNat) ∨
      (sp = .gen ∧ i ≤ s.regs.rsRp.toNat) := by
  intro sp i hout
  obtain ⟨hgalog, hout⟩ := not_or.1 hout
  obtain ⟨hglog, hgen⟩ := not_or.1 hout
  refine (elem?_write_zero_of_outside ?_).trans
    ((elem?_write_zero_of_outside ?_).trans (elem?_write_zero_of_outside ?_))
  · rwa [elemsOfSymbols, List.length_map, generatorPoly_length, Nat.lt_succ_iff]
  · rwa [elemsOfSymbols, List.length_map, gfTables, glogTable_length]
  · rwa [elemsOfSymbols, List.length_map, gfTables, galogTable, xtimeChain_length]

/-- An element of a space that holds symbols. -/
theorem elem?_of_holds_symbols {s : State} {sp : Space} {xs : List Nat} (h : s.holds sp 0 (elemsOfSymbols xs))
    {i : Nat} (hi : i < xs.length) : s.elem? sp i = some (BitVec.ofNat 64 (xs.getD i 0)) := by
  rw [elem?_of_holds h (by rwa [elemsOfSymbols, List.length_map])]
  simp [elemsOfSymbols, hi]

/-- Settles O47: the tables are those of the field of PRIM, the registers and the frame are read off. -/
theorem rsCfgDescribesTheField : Obligations.RsCfgDescribesTheField := by
  rintro s gm prim rp q α hpar rfl rfl rfl rfl rfl hrows
  have hcheck := (rsCheck_answersFirst ..).eq_none hrows
  have h := primitivePoly_of_passes fun n _ => hrows n
  obtain ⟨-, hgalog, hglog, hgen⟩ := rsDescribed_rsConfigure hpar hcheck
  have hq := h.one_lt
  have hperiod : ∀ i, alphaPow s.regs.rsGm.toNat s.regs.rsPrim.toNat (i + 2 ^ s.regs.rsGm.toNat - 1) =
      alphaPow s.regs.rsGm.toNat s.regs.rsPrim.toNat i := fun i => by
    rw [Nat.add_sub_assoc hq.le, h.alphaPow_add_period]
  refine ⟨rsConfigure s, by rw [exec_rsCfg, hcheck]; rfl, samePort_rsConfigure s, rfl, rfl, fun i hi => ?_,
    fun i h1 hle => ?_, ?_, fun a hpos hlt => ?_, rfl, h.full, hperiod, fun i => ?_, hgen, generatorPoly_length _ _,
    sameElemsBut_rsConfigure s⟩
  · rw [← getD_antilog _ hi]
    exact elem?_of_holds_symbols hgalog (hi.trans_eq (xtimeChain_length ..).symm)
  · refine (elem?_of_holds_symbols hglog ?_).trans (congrArg some (congrArg _ (h.getD_log_alphaPow h1 hle)))
    exact (h.alphaPow_lt i).trans_eq (glogTable_length ..).symm
  · refine (elem?_of_holds_symbols hglog ?_).trans (congrArg some (congrArg _ h.getD_log_zero))
    exact (Nat.two_pow_pos _).trans_eq (glogTable_length ..).symm
  · exact h.exists_alphaPow hpos.ne' hlt
  · rw [alphaPow_succ, xtime_eq, Nat.testBit_eq_decide_div_mod_eq, Nat.shiftLeft_eq, Nat.pow_one, Nat.mul_comm]
    simp only [decide_eq_true_eq]
    split
    · rfl
    · rw [Nat.xor_zero]

end Sys2Proof.Machine

/-! PROOFS. The codec on a configured block: what the VALID bit gives (10_state.md R25), the arithmetic that the
commands do on GLOG and GALOG (45_gf_rs.md R277 to R279), and GF_MUL, RS_ENC, RS_CHECK and RS_DEC on written field
elements (R281 to R291). -/

namespace Sys2Proof.Machine

/-! ## Symbols and elements (10_state.md R61) -/

theorem toNat_ofNat_of_byte {x : Nat} (h : x < 2 ^ 8) : (BitVec.ofNat 64 x).toNat = x :=
  toNat_ofNat_of_lt (h.trans (by decide))

theorem symbolsOfElems_elemsOfSymbols {xs : List Nat} (h : ∀ x ∈ xs, x < 2 ^ 8) :
    symbolsOfElems (elemsOfSymbols xs) = xs := by
  rw [symbolsOfElems, elemsOfSymbols, List.map_map]
  exact (List.map_congr_left fun x hx => toNat_ofNat_of_byte (h x hx)).trans (List.map_id xs)

theorem elemsOfSymbols_symbolsOfElems (vs : List Word64) : elemsOfSymbols (symbolsOfElems vs) = vs := by
  simp [symbolsOfElems, elemsOfSymbols, Function.comp_def]

theorem elemsOfSymbols_append (xs ys : List Nat) :
    elemsOfSymbols (xs ++ ys) = elemsOfSymbols xs ++ elemsOfSymbols ys := List.map_append

theorem elemsOfSymbols_length (xs : List Nat) : (elemsOfSymbols xs).length = xs.length := List.length_map _

/-- A written range holds its values. -/
theorem holds_values {s : State} {sp : Space} {lo n : Nat} (h : s.written sp lo n) :
    s.holds sp lo (s.values sp lo n) := by
  rw [State.holds, State.values_length, State.values, List.map_map]
  refine List.map_congr_left fun i hi => ?_
  obtain ⟨v, hv⟩ := Option.isSome_iff_exists.1 (h i hi)
  simp [hv]

/-- Writing behind what a space holds from element 0 on. -/
theorem holds_write_append {s : State} {sp : Space} {vs ws : List Word64} (h : s.holds sp 0 vs)
    (hfit : ∀ v ∈ ws, truncTo (sp.width s.par) v = v) :
    (s.write sp vs.length ws).holds sp 0 (vs ++ ws) := by
  have hfront : (List.range' 0 vs.length).map ((s.write sp vs.length ws).elem? sp) = vs.map some := by
    refine (List.map_congr_left fun i hi => ?_).trans h
    rw [List.mem_range'_1] at hi
    exact sameElemsBut_write s sp vs.length ws sp i fun hin => by omega
  have hbehind : (List.range' vs.length ws.length).map ((s.write sp vs.length ws).elem? sp) = ws.map some :=
    holds_write s sp vs.length ws hfit
  rw [State.holds, List.length_append, ← List.range'_append_1, List.map_append, List.map_append,
    Nat.zero_add, hfront, hbehind]

/-- Symbols that RB holds are written and read as themselves. -/
theorem written_of_holds_symbols {s : State} {word : List Nat} {n : Nat} (h : s.holds .rb 0 (elemsOfSymbols word))
    (hbyte : ∀ x ∈ word, x < 2 ^ 8) (hlen : word.length = n) :
    s.written .rb 0 n ∧ word = symbolsOfElems (s.values .rb 0 n) := by
  have hw := written_of_holds h
  have hv := values_of_holds h
  rw [elemsOfSymbols_length, hlen] at hw hv
  exact ⟨hw, by rw [hv, symbolsOfElems_elemsOfSymbols hbyte]⟩

/-! ## A configured codec (10_state.md R25) -/

/-- What the Reed–Solomon commands read of a configured codec. -/
structure RsReady (s : State) : Prop where
  primitive : PrimitivePoly s.regs.rsGm.toNat s.regs.rsPrim.toNat
  gm_le : s.regs.rsGm.toNat ≤ 8
  rp_pos : 1 ≤ s.regs.rsRp.toNat
  word_le : s.regs.rsRn.toNat + s.regs.rsRp.toNat ≤ 2 ^ s.regs.rsGm.toNat - 1
  rn_pos : 1 ≤ s.regs.rsRn.toNat
  galog : s.holds .galog 0 (elemsOfSymbols (rsTables s.regs).antilog)
  glog : s.holds .glog 0 (elemsOfSymbols (rsTables s.regs).log)
  gen : s.holds .gen 0 (elemsOfSymbols (generatorPoly (rsTables s.regs) s.regs.rsRp.toNat))

theorem rsReady_of_inv {s : State} (hinv : Inv s) (hv : s.regs.valid .rs = true) : RsReady s := by
  obtain ⟨hcheck, hgalog, hglog, hgen⟩ := hinv.rs hv
  have hpass : ∀ n, 1 ≤ n → ¬ rsFails s.par _ _ _ _ n := fun n hn =>
    (rsCheck_answersFirst ..).not_fails_of_eq_none hcheck hn
  have hrow1 := not_or.1 (hpass 1 (by decide))
  have hgmMax := (legalParams_of_wf hinv.params).gmMax_le
  exact
    { primitive := primitivePoly_of_passes hpass
      gm_le := by omega
      rp_pos := Nat.le_of_not_lt (hpass 4 (by decide))
      word_le := Nat.le_of_not_lt (hpass 6 (by decide))
      rn_pos := Nat.le_of_not_lt (hpass 5 (by decide))
      galog := hgalog
      glog := hglog
      gen := hgen }

namespace RsReady

variable {s : State} (h : RsReady s)
include h

theorem field : FieldProduct s.regs.rsGm.toNat (rsTables s.regs) := h.primitive.fieldProduct

theorem byte_of_lt {x : Nat} (hx : x < 2 ^ s.regs.rsGm.toNat) : x < 2 ^ 8 :=
  hx.trans_le (Nat.pow_le_pow_right (by decide) h.gm_le)

theorem generator_lt : ∀ c ∈ generatorPoly (rsTables s.regs) s.regs.rsRp.toNat, c < 2 ^ s.regs.rsGm.toNat :=
  h.primitive.generator_lt _

/-- An antilogarithm read from GALOG. -/
theorem readElem_galog {i : Nat} (hi : i < 2 * 2 ^ s.regs.rsGm.toNat) :
    readElem .galog i s = (BitVec.ofNat 64 ((rsTables s.regs).antilog.getD i 0), s) :=
  readElem_written (elem?_of_holds_symbols h.galog (hi.trans_eq (xtimeChain_length ..).symm))

/-- The logarithm of a field element read from GLOG. -/
theorem readElem_glog {a : Nat} (ha : a < 2 ^ s.regs.rsGm.toNat) :
    readElem .glog a s = (BitVec.ofNat 64 ((rsTables s.regs).log.getD a 0), s) :=
  readElem_written (elem?_of_holds_symbols h.glog (ha.trans_eq (glogTable_length ..).symm))

theorem toNat_log {a : Nat} (hne : a ≠ 0) (ha : a < 2 ^ s.regs.rsGm.toNat) :
    (BitVec.ofNat 64 ((rsTables s.regs).log.getD a 0)).toNat = (rsTables s.regs).log.getD a 0 := by
  have hle : (rsTables s.regs).log.getD a 0 ≤ _ := (h.primitive.getD_log_bounds hne ha).2
  exact toNat_ofNat_of_byte (h.byte_of_lt (hle.trans_lt (Nat.sub_lt (Nat.two_pow_pos _) Nat.one_pos)))

/-- On field elements the tables in memory give the product, and nothing is drawn. -/
theorem multiplyFromTables_eq {a b : Nat} (ha : a < 2 ^ s.regs.rsGm.toNat) (hb : b < 2 ^ s.regs.rsGm.toNat) :
    multiplyFromTables a b s = (BitVec.ofNat 64 (gfMultiply (rsTables s.regs) a b), s) := by
  rw [multiplyFromTables, if_neg (by omega)]
  by_cases hzero : a = 0 ∨ b = 0
  · rw [if_pos hzero, gfMultiply, if_pos hzero]
    rfl
  · obtain ⟨hane, hbne⟩ := not_or.1 hzero
    have hla : (rsTables s.regs).log.getD a 0 ≤ _ := (h.primitive.getD_log_bounds hane ha).2
    have hlb : (rsTables s.regs).log.getD b 0 ≤ _ := (h.primitive.getD_log_bounds hbne hb).2
    rw [if_neg hzero, h.readElem_glog ha, gfMultiply_of_ne_zero _ hane hbne]
    simp only [h.readElem_glog hb, h.toNat_log hane ha, h.toNat_log hbne hb]
    exact h.readElem_galog (by omega)

/-! ### The remainder (45_gf_rs.md R279) -/

theorem divisionStep_eq {gen rem : List Nat} {m : Nat} (hgen : ∀ c ∈ gen, c < 2 ^ s.regs.rsGm.toNat)
    (hrem : ∀ c ∈ rem, c < 2 ^ s.regs.rsGm.toNat) (hm : m < 2 ^ s.regs.rsGm.toNat) :
    divisionStep gen rem m s = (remainderStep (rsTables s.regs) gen rem m, s) := by
  have hhead : rem.headD 0 < 2 ^ s.regs.rsGm.toNat := by
    cases rem with
    | nil => exact Nat.two_pow_pos _
    | cons r rem => exact hrem r (by simp)
  have hfb : m ^^^ rem.headD 0 < 2 ^ s.regs.rsGm.toNat := Nat.xor_lt_two_pow hm hhead
  have hproducts := mapReads_written fun g hg => h.multiplyFromTables_eq hfb (hgen g (List.mem_of_mem_tail hg))
  have hsymbols : symbolsOfElems (gen.tail.map fun g =>
      BitVec.ofNat 64 (gfMultiply (rsTables s.regs) (m ^^^ rem.headD 0) g)) =
      gen.tail.map (gfMultiply (rsTables s.regs) (m ^^^ rem.headD 0)) := by
    rw [symbolsOfElems, List.map_map]
    exact List.map_congr_left fun g _ => toNat_ofNat_of_byte (h.byte_of_lt (h.field.lt _ g))
  rw [divisionStep, hproducts, hsymbols, List.zipWith_map_right]
  rfl

theorem remainderFromTables_eq {gen message : List Nat} (hgen : ∀ c ∈ gen, c < 2 ^ s.regs.rsGm.toNat)
    (hmessage : ∀ m ∈ message, m < 2 ^ s.regs.rsGm.toNat) :
    remainderFromTables gen message s = (remainderPoly (rsTables s.regs) gen message, s) := by
  refine (foldReads_written (P := fun rem => ∀ c ∈ rem, c < 2 ^ s.regs.rsGm.toNat)
    (fun rem hrem m hm => ⟨h.divisionStep_eq hgen hrem (hmessage m hm), h.field.remainderStep_lt hrem m⟩)
    fun c hc => ?_).1
  rw [List.eq_of_mem_replicate hc]
  exact Nat.two_pow_pos _

theorem gather_gen : gather .gen 0 (s.regs.rsRp.toNat + 1) s =
    (elemsOfSymbols (generatorPoly (rsTables s.regs) s.regs.rsRp.toNat), s) := by
  have hread := gather_holds h.gen
  rwa [elemsOfSymbols_length, generatorPoly_length] at hread

/-! ### The syndromes (45_gf_rs.md R287) -/

/-- S_j of a written word of field elements: its value at α^j, and nothing is drawn. -/
theorem readSyndrome_eq {word : List Nat} {j : Nat} (hw : s.written .rb 0 (wordLength s.regs))
    (hword : word = symbolsOfElems (s.values .rb 0 (wordLength s.regs)))
    (hlt : ∀ c ∈ word, c < 2 ^ s.regs.rsGm.toNat) (hj : j < 2 ^ s.regs.rsGm.toNat) :
    readSyndrome j s = (evaluatePoly (rsTables s.regs) word
      (alphaPow s.regs.rsGm.toNat s.regs.rsPrim.toNat j), s) := by
  have hα := h.primitive.alphaPow_lt j
  have hantilog : (rsTables s.regs).antilog.getD j 0 = _ := getD_antilog _ (by omega)
  simp only [readSyndrome, readSymbols_written hw, ← hword, h.readElem_galog (i := j) (by omega), hantilog,
    toNat_ofNat_of_byte (h.byte_of_lt hα)]
  exact (evaluateFromTables_eq (fun a b ha hb => ⟨h.field.lt a b, h.multiplyFromTables_eq ha hb⟩)
    (h.gm_le.trans (by decide)) hα hlt).1

theorem readSyndromes_eq {word : List Nat} (hw : s.written .rb 0 (wordLength s.regs))
    (hword : word = symbolsOfElems (s.values .rb 0 (wordLength s.regs)))
    (hlt : ∀ c ∈ word, c < 2 ^ s.regs.rsGm.toNat) :
    readSyndromes s = ((List.range' 1 s.regs.rsRp.toNat).map fun j => evaluatePoly (rsTables s.regs) word
      (alphaPow s.regs.rsGm.toNat s.regs.rsPrim.toNat j), s) := by
  refine mapReads_written fun j hj => h.readSyndrome_eq hw hword hlt ?_
  have hle := h.word_le
  rw [List.mem_range'_1] at hj
  omega

end RsReady

/-! ## GF_MUL (45_gf_rs.md R281) -/

/-- Settles O51: the guard, the test of the operands, and the product read from the tables. -/
theorem gfMulWritesTheProduct : Obligations.GfMulWritesTheProduct := by
  rintro s a b q hinv hf rfl rfl rfl
  refine ⟨fun hv => ?_, fun hv hrange => ?_, fun hv ha hb => ?_⟩
  · exact faultRecorded_of_eq_commandFault .gfMul .notConfigured 3 hf (if_neg (by rw [hv]; decide))
  · exact faultRecorded_of_eq_commandFault .gfMul .gfSymbolRange 1 hf ((if_pos hv).trans (if_pos hrange))
  · refine (if_pos hv).trans ((if_neg (by omega)).trans ?_)
    dsimp only
    rw [(rsReady_of_inv hinv hv).multiplyFromTables_eq ha hb]

/-! ## The symbol test (45_gf_rs.md R282) -/

theorem whenSymbols_of_lt {n : Nat} {s : State} (hw : s.written .rb 0 n)
    (hlt : ∀ x ∈ symbolsOfElems (s.values .rb 0 n), x < 2 ^ s.regs.rsGm.toNat) (i : Instr) (run : State → Result) :
    whenSymbols i n s run = run s := by
  rw [whenSymbols, readSymbols_written hw]
  refine if_neg fun hany => ?_
  obtain ⟨x, hx, hge⟩ := List.any_eq_true.1 hany
  exact absurd (of_decide_eq_true hge) (Nat.not_le_of_lt (hlt x hx))

theorem whenSymbols_of_le {n : Nat} {s : State} (hw : s.written .rb 0 n)
    (hge : ∃ v ∈ s.values .rb 0 n, 2 ^ s.regs.rsGm.toNat ≤ v.toNat) (i : Instr) (run : State → Result) :
    whenSymbols i n s run = commandFault i .gfSymbolRange 2 s := by
  obtain ⟨v, hv, hge⟩ := hge
  rw [whenSymbols, readSymbols_written hw]
  exact if_pos (List.any_eq_true.2 ⟨v.toNat, List.mem_map.2 ⟨v, hv, rfl⟩, decide_eq_true hge⟩)

/-- Settles O53: the test comes before every write; a byte is always below 2^8. -/
theorem rsSymbolRangeFaults : Obligations.RsSymbolRangeFaults := by
  refine ⟨?_, fun s n hinv hgm v hv => ?_⟩
  · rintro s q rn rp - hf hv rfl rfl rfl
    refine ⟨fun hw hge => ?_, fun hw hge => ⟨?_, ?_⟩⟩
    · exact faultRecorded_of_eq_commandFault .rsEnc .gfSymbolRange 2 hf
        ((exec_rsEnc_of_valid hv).trans (whenSymbols_of_le hw hge _ _))
    · exact faultRecorded_of_eq_commandFault .rsCheck .gfSymbolRange 2 hf
        ((exec_rsCheck_of_valid hv).trans (whenSymbols_of_le hw hge _ _))
    · exact faultRecorded_of_eq_commandFault .rsDec .gfSymbolRange 2 hf
        ((exec_rsDec_of_valid hv).trans (whenSymbols_of_le hw hge _ _))
  · rw [hgm]
    obtain ⟨i, -, rfl⟩ := List.mem_map.1 hv
    cases hi : s.elem? .rb i with
    | none => exact (by decide : (0 : Word64).toNat < 2 ^ 8)
    | some v => exact (hinv.fits .rb _ (mem_of_cellAt hi)).2

/-! ## RS_ENC (45_gf_rs.md R284) -/

/-- The remainder of a message by the generator polynomial of the parameter registers. -/
def rsParity (g : Regs) (message : List Nat) : List Nat :=
  remainderPoly (rsTables g) (generatorPoly (rsTables g) g.rsRp.toNat) message

theorem rsParity_length (g : Regs) (message : List Nat) : (rsParity g message).length = g.rsRp.toNat := by
  rw [rsParity, remainderPoly_length, generatorPoly_length, Nat.add_sub_cancel]

namespace RsReady

variable {s : State} (h : RsReady s)
include h

theorem rsParity_byte (message : List Nat) : ∀ x ∈ rsParity s.regs message, x < 2 ^ 8 := fun x hx =>
  h.byte_of_lt (h.field.remainderPoly_lt _ _ x hx)

/-- RS_ENC on a written message of field elements. -/
theorem exec_rsEnc {message : List Nat} (hv : s.regs.valid .rs = true) (hw : s.written .rb 0 s.regs.rsRn.toNat)
    (hmessage : message = symbolsOfElems (s.values .rb 0 s.regs.rsRn.toNat))
    (hlt : ∀ x ∈ message, x < 2 ^ s.regs.rsGm.toNat) :
    exec .rsEnc s = .next (s.write .rb s.regs.rsRn.toNat (elemsOfSymbols (rsParity s.regs message))) := by
  rw [exec_rsEnc_of_valid hv, whenSymbols_of_lt hw (hmessage ▸ hlt)]
  simp only [rsEncode, readSymbols_written hw, ← hmessage, h.gather_gen,
    symbolsOfElems_elemsOfSymbols fun x hx => h.byte_of_lt (h.generator_lt x hx),
    h.remainderFromTables_eq h.generator_lt hlt]
  rfl

/-- A message and its parity have every root α^1 … α^RP (45_gf_rs.md R285). -/
theorem evaluate_codeword {message : List Nat} (hlt : ∀ x ∈ message, x < 2 ^ s.regs.rsGm.toNat) {j : Nat}
    (h1 : 1 ≤ j) (hle : j ≤ s.regs.rsRp.toNat) : evaluatePoly (rsTables s.regs)
      (message ++ rsParity s.regs message) (alphaPow s.regs.rsGm.toNat s.regs.rsPrim.toNat j) = 0 := by
  have hword := h.word_le
  have hrn := h.rn_pos
  have hα := h.primitive.alphaPow_lt j
  have hroot := (h.primitive.generator_eq_zero_iff (rp := s.regs.rsRp.toNat) (by omega) hα).2 ⟨j, h1, hle, rfl⟩
  obtain ⟨gs, hgen⟩ := List.head?_eq_some_iff.1 (generatorPoly_head? (rsTables s.regs) s.regs.rsRp.toNat)
  have hgs : gs.length = s.regs.rsRp.toNat := by
    have hlen := generatorPoly_length (rsTables s.regs) s.regs.rsRp.toNat
    rw [hgen, List.length_cons] at hlen
    omega
  have hlower : ∀ c ∈ gs, c < 2 ^ s.regs.rsGm.toNat := fun c hc =>
    h.generator_lt c (hgen ▸ List.mem_cons_of_mem _ hc)
  rw [rsParity, hgen]
  exact h.field.evaluate_codeword hα hlower (hgen ▸ hroot) (hgs ▸ h.rp_pos) hlt

end RsReady

/-- Settles O52: the command is one write of the remainder. -/
theorem rsEncWritesTheRemainder : Obligations.RsEncWritesTheRemainder := by
  rintro s rn rp message hinv hv rfl rfl hw hmessage hlt
  have h := rsReady_of_inv hinv hv
  refine ⟨_, rsParity s.regs message, h.exec_rsEnc hv hw hmessage hlt, rfl, ⟨samePort_write s _ _ _, rfl, ?_,
    sameElemsBut_write s _ _ _⟩, rsParity_length _ _, rfl⟩
  exact holds_write s .rb _ _ (truncTo_elemsOfSymbols (h.rsParity_byte message))

/-! ## RS_CHECK and RS_DEC (45_gf_rs.md R287, R290) -/

/-- RS_MAXSYN is 0 exactly when the greatest syndrome is, and RS_ZERO says so. -/
theorem SyndromesWritten.flags {s t : State} {rp : Nat} {syn : List Nat} {top : Nat} {decstat : Word64}
    (h : SyndromesWritten s t rp syn top decstat) :
    (t.regs.rsMaxsyn = 0 ↔ top = 0) ∧ t.regs.rsZero = (top == 0) := by
  obtain ⟨-, -, -, hlt, -, -, -, hregs⟩ := h
  rw [hregs]
  constructor
  · rw [← BitVec.toNat_inj, toNat_ofNat_of_byte hlt]
    rfl
  · rw [Regs.rsZero, ← putRsZero_status_eq, putBit_getLsbD _ _ _ _ (by decide), if_pos rfl]

namespace RsReady

variable {s : State} (h : RsReady s)
include h

/-- RS_CHECK and RS_DEC on a written word of field elements. -/
theorem exec_rsCheck {word : List Nat} (hinv : Inv s) (hv : s.regs.valid .rs = true)
    (hw : s.written .rb 0 (wordLength s.regs))
    (hword : word = symbolsOfElems (s.values .rb 0 (wordLength s.regs)))
    (hlt : ∀ x ∈ word, x < 2 ^ s.regs.rsGm.toNat) :
    ∃ t top, exec .rsCheck s = .next t ∧ exec .rsDec s = .next (writeDecstat t) ∧ t.draws = s.draws ∧
      SyndromesWritten s t s.regs.rsRp.toNat ((List.range' 1 s.regs.rsRp.toNat).map fun j =>
        evaluatePoly (rsTables s.regs) word (alphaPow s.regs.rsGm.toNat s.regs.rsPrim.toNat j)) top
        s.regs.rsDecstat := by
  have hread := h.readSyndromes_eq hw hword hlt
  have hwritten := writeSyndromes_written hinv hv (OnlyDraws.refl s)
  have hpass := whenSymbols_of_lt hw (hword ▸ hlt)
  rw [congrArg Prod.fst hread] at hwritten
  exact ⟨writeSyndromes s, _, (exec_rsCheck_of_valid hv).trans (hpass _ _),
    (exec_rsDec_of_valid hv).trans (hpass _ _), congrArg (fun r => r.2.draws) hread, hwritten⟩

end RsReady

/-- Settles O55: the syndromes are the values of the word, the rest is what the writes of RS_CHECK leave. -/
theorem rsCheckAndDecWriteTheSyndromes : Obligations.RsCheckAndDecWriteTheSyndromes := by
  rintro s n rp word syn hinv hv rfl rfl hw hword hlt rfl
  obtain ⟨t, top, hcheck, hdec, hdraws, hwritten⟩ := (rsReady_of_inv hinv hv).exec_rsCheck hinv hv hw hword hlt
  obtain ⟨-, hmem, hmax, -, hport, hholds, hsame, hregs⟩ := id hwritten
  refine ⟨t, top, hcheck, hport, hdraws, hholds, hmem, hmax, hregs, hsame, ?_⟩
  rw [hdec, writeDecstat]
  simp only [hwritten.flags.1]

/-! ## Round trip and single errors (45_gf_rs.md R288, R291) -/

/-- RS_ENC leaves the codeword of the message in RB. -/
theorem RsReady.holds_codeword {s : State} (h : RsReady s) (hw : s.written .rb 0 s.regs.rsRn.toNat) {message : List Nat}
    (hmessage : message = symbolsOfElems (s.values .rb 0 s.regs.rsRn.toNat)) :
    (s.write .rb s.regs.rsRn.toNat (elemsOfSymbols (rsParity s.regs message))).holds .rb 0
      (elemsOfSymbols (message ++ rsParity s.regs message)) := by
  have hheld := holds_write_append (holds_values hw) (ws := elemsOfSymbols (rsParity s.regs message))
    (truncTo_elemsOfSymbols (h.rsParity_byte message))
  rw [State.values_length, ← elemsOfSymbols_symbolsOfElems (s.values .rb 0 s.regs.rsRn.toNat), ← hmessage] at hheld
  rwa [elemsOfSymbols_append]

/-- Every syndrome of a codeword is 0. -/
theorem RsReady.syndromes_codeword {s : State} (h : RsReady s) {message : List Nat}
    (hlt : ∀ x ∈ message, x < 2 ^ s.regs.rsGm.toNat) :
    ((List.range' 1 s.regs.rsRp.toNat).map fun j => evaluatePoly (rsTables s.regs)
      (message ++ rsParity s.regs message) (alphaPow s.regs.rsGm.toNat s.regs.rsPrim.toNat j)) =
      List.replicate s.regs.rsRp.toNat 0 := by
  refine List.eq_replicate_iff.2 ⟨by rw [List.length_map, List.length_range'], fun x hx => ?_⟩
  obtain ⟨j, hj, rfl⟩ := List.mem_map.1 hx
  rw [List.mem_range'_1] at hj
  exact h.evaluate_codeword hlt hj.1 (by omega)

/-- Settles O56: RS_ENC leaves a codeword in RB, and every syndrome of it is its value at a root. -/
theorem rsRoundTrip : Obligations.RsRoundTrip := by
  rintro s rn rp hinv hv rfl rfl hw hrange
  have h := rsReady_of_inv hinv hv
  obtain ⟨message, hmessage⟩ : ∃ message, message = symbolsOfElems (s.values .rb 0 s.regs.rsRn.toNat) := ⟨_, rfl⟩
  have hlt : ∀ x ∈ message, x < 2 ^ s.regs.rsGm.toNat := by simpa [hmessage, symbolsOfElems] using hrange
  have henc := h.exec_rsEnc hv hw hmessage hlt
  have hinv' := hinv.exec henc
  have hword : ∀ x ∈ message ++ rsParity s.regs message, x < 2 ^ s.regs.rsGm.toNat := fun x hx =>
    (List.mem_append.1 hx).elim (hlt x) (h.field.remainderPoly_lt _ _ x)
  have hlen : (message ++ rsParity s.regs message).length = wordLength s.regs := by
    rw [List.length_append, rsParity_length, hmessage, symbolsOfElems, List.length_map, State.values_length]
    rfl
  obtain ⟨hw', hvalues⟩ := written_of_holds_symbols (h.holds_codeword hw hmessage)
    (fun x hx => h.byte_of_lt (hword x hx)) hlen
  obtain ⟨u, top, hcheck, -, -, hwritten⟩ := (rsReady_of_inv hinv' hv).exec_rsCheck hinv' hv hw' hvalues hword
  have hflags := hwritten.flags
  have hzero := h.syndromes_codeword hlt
  obtain ⟨-, hmem, -, -, -, hholds, -, -⟩ := hwritten
  dsimp only [State.write_regs] at hmem hholds
  rw [hzero] at hmem hholds
  have htop := List.eq_of_mem_replicate hmem
  refine ⟨_, u, henc, hcheck, hflags.1.2 htop, hflags.2.trans (beq_iff_eq.2 htop), fun j hj => ?_⟩
  rw [elem?_of_holds_symbols hholds (by rwa [List.length_replicate]), List.getD_replicate _ hj]
  rfl

/-- Settles O57: the value of the word at a root is 0, and the changed element adds its own. -/
theorem rsSingleErrorIsDetected : Obligations.RsSingleErrorIsDetected := by
  rintro s n rp q d e word hinv hv rfl rfl rfl hlen hlt hroots hd hepos he hholds
  have h := rsReady_of_inv hinv hv
  have hα := h.primitive.alphaPow_lt
  have hchanged : ∀ x ∈ word.set d (word.getD d 0 ^^^ e), x < 2 ^ s.regs.rsGm.toNat := fun x hx =>
    (List.mem_or_eq_of_mem_set hx).elim (hlt x)
      (· ▸ Nat.xor_lt_two_pow (getD_lt (Nat.two_pow_pos _) hlt d) he)
  obtain ⟨hw, hvalues⟩ := written_of_holds_symbols hholds (fun x hx => h.byte_of_lt (hchanged x hx))
    (n := wordLength s.regs) (List.length_set.trans hlen)
  obtain ⟨t, top, hcheck, -, -, hwritten⟩ := h.exec_rsCheck hinv hv hw hvalues hchanged
  have hflags := hwritten.flags
  obtain ⟨hsynlen, -, hmax, -, -, hsyn, -, -⟩ := hwritten
  have hvalue : ∀ j, 1 ≤ j → j ≤ s.regs.rsRp.toNat →
      evaluatePoly (rsTables s.regs) (word.set d (word.getD d 0 ^^^ e)) (alphaPow _ s.regs.rsPrim.toNat j) =
        gfMultiply (rsTables s.regs) e (alphaPow s.regs.rsGm.toNat s.regs.rsPrim.toNat
          (j * (s.regs.rsRn.toNat + s.regs.rsRp.toNat - 1 - d))) := fun j h1 hle => by
    rw [h.field.evaluate_set_xor (hα j) hlt (hlen ▸ hd) he, hroots j h1 hle, Nat.zero_xor, hlen,
      rsTables, h.primitive.gfPow_alphaPow]
  have hne : ∀ j, gfMultiply (rsTables s.regs) e (alphaPow s.regs.rsGm.toNat s.regs.rsPrim.toNat j) ≠ 0 := fun j =>
    h.field.ne_zero e he _ (hα j) hepos.ne' (h.primitive.alphaPow_ne_zero j)
  have htop : top ≠ 0 := fun h0 => by
    have hone := hmax _ (List.mem_map.2 ⟨1, List.mem_range'_1.2 ⟨le_rfl, by have := h.rp_pos; omega⟩, rfl⟩)
    rw [hvalue 1 le_rfl h.rp_pos, h0, Nat.le_zero] at hone
    exact hne _ hone
  refine ⟨t, hcheck, mt hflags.1.1 htop, hflags.2.trans (beq_eq_false_iff_ne.2 htop), fun j h1 hle =>
    ⟨_, hne _, rfl, ?_⟩⟩
  have hidx : j - 1 < s.regs.rsRp.toNat := by omega
  rw [elem?_of_holds_symbols hsyn (hidx.trans_eq hsynlen.symm), ← hvalue j h1 hle]
  simp [hidx, Nat.add_sub_cancel' h1]

end Sys2Proof.Machine

/-! PROOFS. The system commands and the progress of the step: NOP and SRESET as commands and through CMD, FAULTED or
not (46_system.md R320, R321, 60_exceptions.md R335), and every host input on a good state comes to a next state
(46_system.md R324, 44_polar_decode.md R259, log entry 8). -/

namespace Sys2Proof.Machine

/-! ## Writes to CMD while FAULTED (60_exceptions.md R335) -/

theorem issueCommand_of_faulted {v : Word64} {s : State} (hf : s.regs.faulted = true) (hv : v ≠ 1) :
    issueCommand v s = .next s := by
  rw [issueCommand, if_pos hf, if_neg hv]

/-- SRESET is the one command that FAULTED does not hold back. -/
theorem issueCommand_sreset (s : State) : issueCommand 0x00000001 s = exec .sreset s := by
  cases hf : s.regs.faulted with
  | false => exact issueCommand_of_decode_ok hf decode_word_sreset
  | true => rw [issueCommand, if_pos hf, if_pos rfl]

theorem exec_nop (s : State) : exec .nop s = .next s := rfl

theorem exec_sreset (s : State) : exec .sreset s = .next (resetBlock s) := rfl

/-- Settles O4: while FAULTED the write is ignored, otherwise it is the command. -/
theorem nopChangesNothing : Obligations.NopChangesNothing := by
  intro s
  refine ⟨exec_nop s, ?_⟩
  rw [hostStep_regWrite_cmd]
  cases hf : s.regs.faulted with
  | false => exact (issueCommand_of_decode_ok hf decode_word_nop).trans (exec_nop s)
  | true => exact issueCommand_of_faulted hf (by decide)

/-! ## The reset values (70_reset_and_hazards.md R371) -/

/-- After a reset every register but the constants reads 0, PC_SNR -2 and PC_LS 1. -/
theorem read_reset {r : Reg} (hr : r.cls ≠ .roConst) (p : Params) :
    r.read p Regs.reset = if r = .pcSnr then 0xFFFFFFFFFFFFFFFE else if r = .pcLs then 1 else 0 := by
  cases r with
  | id | cap0 | cap1 => exact absurd rfl hr
  | _ => rfl

/-- Settles O5: all three are `resetBlock`. -/
theorem sresetRestoresTheResetState : Obligations.SresetRestoresTheResetState := by
  intro s
  refine ⟨resetBlock s, exec_sreset s, (issueCommand_sreset s).trans (exec_sreset s), rfl,
    samePort_resetBlock s, resetBlock_draws s, elem?_resetBlock s, fun r hr => ?_⟩
  have hcls : r.cls ≠ .roConst := by revert r; decide
  exact read_reset hcls _

/-! ## Results that are a next state -/

/-- `r` is a next state: the model neither stops nor refuses. -/
def Completes (r : Result) : Prop := ∃ t, r = .next t

theorem completes_next (t : State) : Completes (.next t) := ⟨t, rfl⟩

theorem completes_commandFault (i : Instr) (c : Cause) (sub : Byte) (s : State) :
    Completes (commandFault i c sub s) := completes_next _

/-! ## The guards -/

theorem Inv.completes_whenConfigured {e : Engine} {i : Instr} {s : State} {run : State → Result} (hinv : Inv s)
    (hrun : ∀ u, Inv u → u.regs.valid e = true → Completes (run u)) : Completes (whenConfigured e i s run) := by
  unfold whenConfigured
  split
  · exact hrun s hinv ‹_›
  · exact completes_commandFault _ _ _ s

theorem completes_whenLegal {failing : Option Byte} {i : Instr} {c : Cause} {s : State}
    {run : State → Result} (hrun : ∀ u, Completes (run u)) : Completes (whenLegal failing i c s run) := by
  cases failing with
  | none => exact hrun s
  | some sub => exact completes_commandFault i c sub s

theorem completes_whenSymbols {i : Instr} {n : Nat} {s : State} {run : State → Result}
    (hrun : ∀ u, Completes (run u)) : Completes (whenSymbols i n s run) := by
  unfold whenSymbols
  dsimp only
  split
  · exact completes_commandFault _ _ _ _
  · exact hrun _

/-! ## The decoder (44_polar_decode.md R259) -/

/-- On a configured code the records of TREE are those of a tree, so a decode of any LLRs answers bits or raises
LLR_RANGE: it never comes to the stop of log entry 8. -/
theorem DecoderReady.completes_decodeRoot {s : State} {n M K : Nat} (h : DecoderReady s n M K) (i : Instr)
    (α : List Int) {run : List Bool → State → Result} (hrun : ∀ β u, Completes (run β u)) :
    Completes (decodeRoot i α s run) := by
  by_cases hmem : -(2 ^ (s.par.llrw - 1) : Int) ∈ α
  · exact decodeRoot_of_mem hmem i run ▸ completes_commandFault _ _ _ s
  · obtain ⟨hok, hrange⟩ := h.decodeRoot_of_notMem hmem i run
    match hdec : decNode s.par.llrw (polarIndices s.regs) n 0 α with
    | .ok β => exact hok β hdec ▸ hrun β s
    | .error .range => exact hrange hdec ▸ completes_commandFault _ _ _ s
    | .error .malformed => exact absurd hdec (decNode_ne_malformed (selectIndices_pairwise _ _ _) _ _ _ _)

/-- The decode that a command starts from a good configured state, whatever it has read before. -/
theorem Inv.completes_decodeRoot {s u : State} (hinv : Inv s) (hv : s.regs.valid .polar = true)
    (hd : OnlyDraws s u) (i : Instr) (α : List Int) {run : List Bool → State → Result}
    (hrun : ∀ β t, Completes (run β t)) : Completes (decodeRoot i α u run) := by
  have hinvu := hinv.reads hd
  have hvu : u.regs.valid .polar = true := hd.regs ▸ hv
  obtain ⟨hblock, -⟩ := (hinvu.polar hvu).sizes
  exact (decoderReady_of_inv hinvu hvu hblock.symm rfl rfl).completes_decodeRoot i α hrun

theorem Inv.completes_pdecRun {s : State} (hinv : Inv s) : Completes (execPdecRun s) :=
  hinv.completes_whenConfigured fun u hu hv =>
    hu.completes_decodeRoot hv (gather_state _ _ _ u) _ _ fun _ _ => completes_next _

theorem Inv.completes_pdec {s : State} (hinv : Inv s) : Completes (execPdec s) :=
  hinv.completes_whenConfigured fun u hu hv =>
    hu.completes_decodeRoot hv (expandReceived_state u) _ _ fun _ _ => completes_next _

/-! ## The commands -/

theorem Inv.completes_gfMul {s : State} (hinv : Inv s) : Completes (execGfMul s) := by
  refine hinv.completes_whenConfigured fun u _ _ => ?_
  dsimp only
  split
  · exact completes_commandFault _ _ _ u
  · exact completes_next _

/-- Every command on a good state comes to a next state (46_system.md R324). Only the decodes need the invariant. -/
theorem Inv.completes_exec {s : State} (hinv : Inv s) (i : Instr) : Completes (Machine.exec i s) := by
  cases i with
  | nop => exact completes_next s
  | sreset => exact completes_next _
  | ilvCfg => exact completes_whenLegal fun _ => completes_next _
  | ilvFwd => exact hinv.completes_whenConfigured fun _ _ _ => completes_next _
  | ilvRev => exact hinv.completes_whenConfigured fun _ _ _ => completes_next _
  | pcCfg => exact completes_whenLegal fun _ => completes_next _
  | penc => exact hinv.completes_whenConfigured fun _ _ _ => completes_next _
  | pdecLoad => exact hinv.completes_whenConfigured fun _ _ _ => completes_next _
  | pdecRun => exact hinv.completes_pdecRun
  | pdec => exact hinv.completes_pdec
  | rsCfg => exact completes_whenLegal fun _ => completes_next _
  | gfMul => exact hinv.completes_gfMul
  | rsEnc => exact hinv.completes_whenConfigured fun _ _ _ => completes_whenSymbols fun _ => completes_next _
  | rsCheck => exact hinv.completes_whenConfigured fun _ _ _ => completes_whenSymbols fun _ => completes_next _
  | rsDec => exact hinv.completes_whenConfigured fun _ _ _ => completes_whenSymbols fun _ => completes_next _

/-! ## The host inputs and the step -/

theorem Inv.completes_issueCommand {s : State} (hinv : Inv s) (v : Word64) : Completes (Machine.issueCommand v s) := by
  obtain ⟨-, -, hexec⟩ | ⟨-, -, hignored⟩ | ⟨-, -, hillegal⟩ | ⟨-, i, -, hexec⟩ := issueCommand_cases v s
  · exact hexec ▸ hinv.completes_exec .sreset
  · exact ⟨_, hignored⟩
  · exact ⟨_, hillegal⟩
  · exact hexec ▸ hinv.completes_exec i

theorem Inv.completes_hostRegWrite {s : State} (hinv : Inv s) (no : Byte) (v : Word64) :
    Completes (Machine.hostRegWrite no v s) := by
  obtain ⟨-, hfault⟩ | ⟨r, -, ⟨-, hfault⟩ | ⟨-, hcommand⟩ | ⟨-, hstore⟩⟩ := hostRegWrite_cases no v s
  · exact ⟨_, hfault⟩
  · exact ⟨_, hfault⟩
  · exact hcommand ▸ hinv.completes_issueCommand v
  · exact ⟨_, hstore⟩

/-- Every host input on a good state comes to a next state. -/
theorem Inv.completes_hostStep {s : State} (hinv : Inv s) (x : HostInput) : Completes (Machine.hostStep x s) := by
  cases x with
  | regRead no => exact completes_next _
  | regWrite no v => exact hinv.completes_hostRegWrite no v
  | bufRead space index => exact completes_next _
  | bufWrite space index v => exact completes_next _
  | hwReset => exact completes_next _

/-- Settles O60: only the decode commands could stop the model, and on a good state TREE holds the records of a
tree. -/
theorem goodStatesNeverStop : Obligations.GoodStatesNeverStop := by
  intro s hinv
  obtain ⟨-, hidle⟩ | ⟨x, rest, -, hstep⟩ := step_cases s
  · exact ⟨s, hidle⟩
  · have hinv' : Inv { s with pending := rest } := .congr (s := s) rfl rfl rfl hinv
    exact hstep ▸ hinv'.completes_hostStep x

end Sys2Proof.Machine

/-! PROOFS. Faults: what may happen to FAULT and STATUS.FAULTED (60_exceptions.md R333 to R336), the test of the
VALID bits (R341), and the host accesses that cannot be performed (R346). -/

namespace Sys2Proof.Machine

/-! ## The fields of FAULT (10_state.md R26, 60_exceptions.md R331) -/

theorem cause_faultWord (c : Cause) (sub op : Byte) : (faultWord c sub op).extractLsb' 0 8 = c.code := by
  have hcode := c.code.isLt
  apply BitVec.eq_of_toNat_eq
  rw [BitVec.extractLsb'_toNat, faultWord_toNat, Nat.shiftRight_zero]
  omega

theorem op_faultWord (c : Cause) (sub op : Byte) : (faultWord c sub op).extractLsb' 16 8 = op := by
  have hcode := c.code.isLt
  have hsub := sub.isLt
  have hop := op.isLt
  apply BitVec.eq_of_toNat_eq
  rw [BitVec.extractLsb'_toNat, faultWord_toNat, Nat.shiftRight_eq_div_pow]
  omega

theorem Cause.code_mem (c : Cause) :
    c.code.toNat ∈ [0x01, 0x02, 0x03, 0x10, 0x20, 0x21, 0x30, 0x31] := by
  cases c <;> decide

/-! ## What may happen to the record (60_exceptions.md R333) -/

/-- FAULT and STATUS.FAULTED are as they were. -/
structure KeepsRecord (s t : State) : Prop where
  faulted : t.regs.faulted = s.regs.faulted
  fault : t.regs.fault = s.regs.fault

theorem keepsRecord_of_regs {s t : State} (h : t.regs = s.regs) : KeepsRecord s t :=
  ⟨congrArg Regs.faulted h, congrArg Regs.fault h⟩

theorem OnlyDraws.keepsRecord {s t : State} (h : OnlyDraws s t) : KeepsRecord s t :=
  keepsRecord_of_regs h.regs

theorem KeepsRecord.refl (s : State) : KeepsRecord s s := ⟨rfl, rfl⟩

theorem KeepsRecord.trans {s t u : State} (h : KeepsRecord s t) (h' : KeepsRecord t u) : KeepsRecord s u :=
  ⟨h'.faulted.trans h.faulted, h'.fault.trans h.fault⟩

/-- A fault has been raised with the opcode byte `op`, and no other register and no element has changed; the count
of draws and the values returned may have. -/
structure Raised (op : Byte) (s t : State) : Prop where
  par : t.par = s.par
  pending : t.pending = s.pending
  mem : t.mem = s.mem
  regs : ∃ c sub, t.regs = s.regs.recordFault c sub op

theorem raised_raiseFault (c : Cause) (sub op : Byte) (s : State) : Raised op s (raiseFault c sub op s) :=
  ⟨rfl, rfl, rfl, c, sub, rfl⟩

theorem Raised.after_reads {op : Byte} {s u t : State} (h : Raised op u t) (hd : OnlyDraws s u) :
    Raised op s t :=
  ⟨h.par.trans hd.par, h.pending.trans hd.pending, h.mem.trans hd.mem, hd.regs ▸ h.regs⟩

/-! ## The effects of the commands keep the record -/

theorem keepsRecord_write (s : State) (sp : Space) (lo : Nat) (vs : List Word64) :
    KeepsRecord s (s.write sp lo vs) := ⟨rfl, rfl⟩

theorem keepsRecord_ilvConfigure (s : State) : KeepsRecord s (ilvConfigure s) :=
  ⟨Regs.putValid_faulted _ .ilv true, rfl⟩

theorem keepsRecord_ilvForward (s : State) : KeepsRecord s (ilvForward s) :=
  ((gather_state _ _ _ s).trans (forwardBits_state _ _ _ _ _ _)).keepsRecord.trans
    (keepsRecord_write _ _ _ _)

theorem keepsRecord_ilvReverse (s : State) : KeepsRecord s (ilvReverse s) :=
  ((gather_state _ _ _ s).trans (gather_state _ _ _ _)).keepsRecord.trans (keepsRecord_write _ _ _ _)

theorem keepsRecord_pcConfigure (s : State) : KeepsRecord s (pcConfigure s) :=
  ⟨Regs.putValid_faulted _ .polar true, rfl⟩

theorem keepsRecord_polarEncode (s : State) : KeepsRecord s (polarEncode s) :=
  ((gather_state _ _ _ s).trans (gather_state _ _ _ _)).keepsRecord.trans (keepsRecord_write _ _ _ _)

theorem keepsRecord_writeDecision (β : List Bool) (s : State) : KeepsRecord s (writeDecision β s) := by
  obtain ⟨-, hregs, -⟩ := writeDecision_state β s
  exact keepsRecord_of_regs hregs

theorem keepsRecord_rsConfigure (s : State) : KeepsRecord s (rsConfigure s) :=
  ⟨Regs.putValid_faulted _ .rs true, rfl⟩

theorem keepsRecord_rsEncode (s : State) : KeepsRecord s (rsEncode s) := by
  obtain ⟨u, rem, hu, -, heq⟩ := rsEncode_state s
  exact heq ▸ hu.keepsRecord.trans (keepsRecord_write _ _ _ _)

theorem keepsRecord_writeSyndromes (s : State) : KeepsRecord s (writeSyndromes s) :=
  ⟨Regs.putRsZero_faulted _ _, rfl⟩

theorem keepsRecord_putGfR (s : State) (v : Word64) :
    KeepsRecord s (s.withRegs { s.regs with gfR := v }) := ⟨rfl, rfl⟩

theorem keepsRecord_writeDecstat (s : State) : KeepsRecord s (writeDecstat s) := ⟨rfl, rfl⟩

/-! ## The guards -/

/-- `r` stops the model, or hands on a state with the record of `s`, or raises a fault with the opcode byte
`op`. -/
def FaultsWith (op : Byte) (s : State) (r : Result) : Prop :=
  ∀ t, r = .next t → KeepsRecord s t ∨ Raised op s t

theorem KeepsRecord.next {s t : State} (h : KeepsRecord s t) (op : Byte) : FaultsWith op s (.next t) :=
  fun _ ht => .inl (Host.Outcome.next.inj ht ▸ h)

theorem Raised.next {op : Byte} {s t : State} (h : Raised op s t) : FaultsWith op s (.next t) :=
  fun _ ht => .inr (Host.Outcome.next.inj ht ▸ h)

theorem FaultsWith.after_reads {op : Byte} {s u : State} {r : Result} (h : FaultsWith op u r)
    (hd : OnlyDraws s u) : FaultsWith op s r :=
  fun t ht => (h t ht).imp hd.keepsRecord.trans fun hraised => hraised.after_reads hd

theorem faultsWith_whenConfigured {e : Engine} {i : Instr} {s : State} {run : State → Result}
    (hrun : ∀ u, FaultsWith (opcode i) u (run u)) :
    FaultsWith (opcode i) s (whenConfigured e i s run) := by
  intro t h
  obtain ⟨-, ht⟩ | ⟨-, rfl⟩ := whenConfigured_next h
  · exact hrun s t ht
  · exact .inr (raised_raiseFault _ _ _ s)

theorem faultsWith_whenLegal {failing : Option Byte} {i : Instr} {c : Cause} {s : State}
    {run : State → Result} (hrun : ∀ u, FaultsWith (opcode i) u (run u)) :
    FaultsWith (opcode i) s (whenLegal failing i c s run) := by
  intro t h
  obtain ⟨-, ht⟩ | ⟨sub, -, rfl⟩ := whenLegal_next h
  · exact hrun s t ht
  · exact .inr (raised_raiseFault _ _ _ s)

theorem faultsWith_whenSymbols {i : Instr} {n : Nat} {s : State} {run : State → Result}
    (hrun : ∀ u, FaultsWith (opcode i) u (run u)) : FaultsWith (opcode i) s (whenSymbols i n s run) := by
  intro t h
  have hread := readSymbols_state n s
  obtain ⟨-, ht⟩ | ⟨-, rfl⟩ := whenSymbols_next h
  · exact (hrun _).after_reads hread t ht
  · exact .inr ((raised_raiseFault _ _ _ _).after_reads hread)

theorem faultsWith_decodeRoot {i : Instr} {α : List Int} {s : State} {run : List Bool → State → Result}
    (hrun : ∀ β u, FaultsWith (opcode i) u (run β u)) : FaultsWith (opcode i) s (decodeRoot i α s run) := by
  intro t h
  have htree := gather_state .tree 0 s.regs.pcNnodes.toNat s
  obtain rfl | rfl | ⟨_, β, _, -, -, ht⟩ := decodeRoot_next h
  · exact .inr (raised_raiseFault _ _ _ s)
  · exact .inr ((raised_raiseFault _ _ _ _).after_reads htree)
  · exact (hrun β _).after_reads htree t ht

/-! ## The commands -/

theorem faultsWith_execPdecLoad (s : State) : FaultsWith (opcode .pdecLoad) s (execPdecLoad s) :=
  faultsWith_whenConfigured fun u =>
    ((expandReceived_state u).keepsRecord.trans (keepsRecord_write _ _ _ _)).next _

theorem faultsWith_execPdecRun (s : State) : FaultsWith (opcode .pdecRun) s (execPdecRun s) :=
  faultsWith_whenConfigured fun u =>
    (faultsWith_decodeRoot fun β v => (keepsRecord_writeDecision β v).next _).after_reads
      (gather_state _ _ _ u)

theorem faultsWith_execPdec (s : State) : FaultsWith (opcode .pdec) s (execPdec s) :=
  faultsWith_whenConfigured fun u =>
    (faultsWith_decodeRoot fun β v =>
      ((keepsRecord_write v _ _ _).trans (keepsRecord_writeDecision β _)).next _).after_reads
      (expandReceived_state u)

theorem faultsWith_execGfMul (s : State) : FaultsWith (opcode .gfMul) s (execGfMul s) := by
  refine faultsWith_whenConfigured fun u => ?_
  dsimp only
  split
  · exact (raised_raiseFault _ _ _ u).next
  · exact ((multiplyFromTables_state _ _ u).keepsRecord.trans (keepsRecord_putGfR _ _)).next _

/-- What any command but SRESET does to the record: keep it, or raise a fault with its own opcode. -/
theorem exec_faultsWith {i : Instr} (hi : i ≠ .sreset) (s : State) :
    FaultsWith (opcode i) s (exec i s) := by
  cases i with
  | nop => exact (KeepsRecord.refl s).next _
  | sreset => exact absurd rfl hi
  | ilvCfg => exact faultsWith_whenLegal fun u => (keepsRecord_ilvConfigure u).next _
  | ilvFwd => exact faultsWith_whenConfigured fun u => (keepsRecord_ilvForward u).next _
  | ilvRev => exact faultsWith_whenConfigured fun u => (keepsRecord_ilvReverse u).next _
  | pcCfg => exact faultsWith_whenLegal fun u => (keepsRecord_pcConfigure u).next _
  | penc => exact faultsWith_whenConfigured fun u => (keepsRecord_polarEncode u).next _
  | pdecLoad => exact faultsWith_execPdecLoad s
  | pdecRun => exact faultsWith_execPdecRun s
  | pdec => exact faultsWith_execPdec s
  | rsCfg => exact faultsWith_whenLegal fun u => (keepsRecord_rsConfigure u).next _
  | gfMul => exact faultsWith_execGfMul s
  | rsEnc =>
    exact faultsWith_whenConfigured fun _ => faultsWith_whenSymbols fun u =>
      (keepsRecord_rsEncode u).next _
  | rsCheck =>
    exact faultsWith_whenConfigured fun _ => faultsWith_whenSymbols fun u =>
      (keepsRecord_writeSyndromes u).next _
  | rsDec =>
    exact faultsWith_whenConfigured fun _ => faultsWith_whenSymbols fun u =>
      ((keepsRecord_writeSyndromes u).trans (keepsRecord_writeDecstat _)).next _

/-! ## The host inputs -/

/-- The two exits from FAULTED (60_exceptions.md R336). -/
abbrev IsReset (x : HostInput) : Prop := x = .hwReset ∨ x = .regWrite 0x03 0x0000000000000001

theorem not_faulted_reset : ¬Regs.reset.faulted = true := by decide

theorem hostStep_of_isReset {x : HostInput} (hx : IsReset x) (s : State) :
    hostStep x s = .next (resetBlock s) := by
  obtain rfl | rfl := hx
  · rfl
  · exact (issueCommand_sreset s).trans (exec_sreset s)

/-- FAULT.OP of a fault that the input raises (10_state.md R26): the low byte of a value written to CMD, else 0. -/
def HostInput.faultOp : HostInput → Byte
  | .regWrite no v => if no = 0x03 then v.extractLsb' 0 8 else 0
  | .regRead _ | .bufRead _ _ | .bufWrite _ _ _ | .hwReset => 0

theorem cmd_of_wo {r : Reg} (h : r.cls = .wo) : r = .cmd := by
  cases r with
  | cmd => rfl
  | _ => exact absurd h (by decide)

theorem ne_sreset_of_decode {v : Word64} {i : Instr} (hv : v ≠ 1) (h : decode v = .ok i) : i ≠ .sreset := by
  rintro rfl
  exact hv ((decodeAgreesWithEncode v .sreset).1 h)

theorem issueCommand_faultsWith {v : Word64} (hv : v ≠ 1) (s : State) :
    FaultsWith (v.extractLsb' 0 8) s (issueCommand v s) := by
  obtain ⟨-, hsreset, -⟩ | ⟨-, -, hignored⟩ | ⟨-, -, hillegal⟩ | ⟨-, i, hdecode, hexec⟩ :=
    issueCommand_cases v s
  · exact absurd hsreset hv
  · exact hignored ▸ (KeepsRecord.refl s).next _
  · rw [hillegal, extractLsb'_low_byte]
    exact (raised_raiseFault _ _ _ s).next
  · obtain ⟨-, -, hop⟩ := decode_eq_ok_iff.1 hdecode
    rw [hexec, hop]
    exact exec_faultsWith (ne_sreset_of_decode hv hdecode) s

theorem raised_hostFault (sub : Byte) (s : State) : Raised 0 s (hostFault sub s) :=
  raised_raiseFault _ _ _ s

theorem Raised.returning {op : Byte} {s t : State} (h : Raised op s t) (v : Word64) :
    Raised op s (t.returning v) := ⟨h.par, h.pending, h.mem, h.regs⟩

theorem KeepsRecord.returning {s t : State} (h : KeepsRecord s t) (v : Word64) :
    KeepsRecord s (t.returning v) := ⟨h.faulted, h.fault⟩

theorem hostRegRead_faultsWith (no : Byte) (s : State) : FaultsWith 0 s (.next (hostRegRead no s)) := by
  unfold hostRegRead
  split
  · exact ((raised_hostFault 1 s).returning 0).next
  · exact ((KeepsRecord.refl s).returning _).next 0

theorem keepsRecord_hostWrite (r : Reg) (v : Word64) (s : State) :
    KeepsRecord s (s.withRegs (r.hostWrite s.regs v)) :=
  ⟨hostWrite_faulted r s.regs v, hostWrite_fault r s.regs v⟩

theorem hostRegWrite_faultsWith {no : Byte} (hno : no ≠ 0x03) (v : Word64) (s : State) :
    FaultsWith 0 s (hostRegWrite no v s) := by
  obtain ⟨-, hfault⟩ | ⟨r, hr, ⟨-, hfault⟩ | ⟨hwo, -⟩ | ⟨-, hstore⟩⟩ := hostRegWrite_cases no v s
  · exact hfault ▸ (raised_hostFault 1 s).next
  · exact hfault ▸ (raised_hostFault 2 s).next
  · exact absurd ((no_of_regOfNo hr).trans (congrArg Reg.no (cmd_of_wo hwo))) hno
  · exact hstore ▸ (keepsRecord_hostWrite r v s).next 0

theorem hostBufRead_faultsWith (space index : Nat) (s : State) :
    FaultsWith 0 s (.next (hostBufRead space index s)) := by
  obtain ⟨sub, hfault⟩ | ⟨sp, -, -, hread⟩ := hostBufRead_cases space index s
  · exact hfault ▸ ((raised_hostFault sub s).returning 0).next
  · exact hread ▸ ((readElem_state sp index s).keepsRecord.returning _).next 0

theorem hostBufWrite_faultsWith (space index : Nat) (v : Word64) (s : State) :
    FaultsWith 0 s (.next (hostBufWrite space index v s)) := by
  obtain ⟨sub, hfault⟩ | ⟨sp, -, -, -, hwrite⟩ := hostBufWrite_cases space index v s
  · exact hfault ▸ (raised_hostFault sub s).next
  · exact hwrite ▸ (keepsRecord_write s _ _ _).next 0

/-- Any host input that is no reset keeps the record or raises a fault. -/
theorem hostStep_faultsWith {x : HostInput} (hx : ¬IsReset x) (s : State) :
    FaultsWith x.faultOp s (hostStep x s) := by
  cases x with
  | regRead no => exact hostRegRead_faultsWith no s
  | regWrite no v =>
    by_cases hno : no = 0x03
    · subst hno
      exact issueCommand_faultsWith (fun hv => hx (.inr (hv ▸ rfl))) s
    · rw [HostInput.faultOp, if_neg hno]
      exact hostRegWrite_faultsWith hno v s
  | bufRead space index => exact hostBufRead_faultsWith space index s
  | bufWrite space index v => exact hostBufWrite_faultsWith space index v s
  | hwReset => exact absurd (.inl rfl) hx

/-! ## The record as the host sees it -/

/-- Settles O9: the write is ignored (60_exceptions.md R335). -/
theorem faultedIgnoresCommands : Obligations.FaultedIgnoresCommands :=
  fun _ _ hf hv => issueCommand_of_faulted hf hv

/-- Settles O10: a reset leaves the block not FAULTED, and any other input that makes it FAULTED has raised a
fault. -/
theorem faultWritesOnlyItsRecord : Obligations.FaultWritesOnlyItsRecord := by
  intro s t x hf h hfaulted
  have hx : ¬IsReset x := by
    intro hx
    obtain rfl := Host.Outcome.next.inj ((hostStep_of_isReset hx s).symm.trans h)
    exact absurd hfaulted not_faulted_reset
  obtain hkept | ⟨hpar, hpending, hmem, c, sub, hregs⟩ := hostStep_faultsWith hx s t h
  · exact absurd (hfaulted.symm.trans hkept.faulted) (by simp [hf])
  · rw [Regs.recordFault_of_not_faulted c sub _ hf] at hregs
    have hfault : t.regs.fault = faultWord c sub x.faultOp := congrArg Regs.fault hregs
    rw [hfault, cause_faultWord, op_faultWord]
    refine ⟨hpar, hpending, hmem, hregs, c.code_mem, ?_, extractLsb'_faultWord c sub _⟩
    cases x <;> rfl

/-- Settles O11: a fault raised while FAULTED is not recorded (60_exceptions.md R334). -/
theorem faultIsSticky : Obligations.FaultIsSticky := by
  intro s t x hf h
  split
  case isTrue hx =>
    obtain rfl := Host.Outcome.next.inj ((hostStep_of_isReset hx s).symm.trans h)
    rfl
  case isFalse hx =>
    obtain hkept | ⟨-, -, -, c, sub, hregs⟩ := hostStep_faultsWith hx s t h
    · exact ⟨hkept.faulted.trans hf, hkept.fault⟩
    · rw [Regs.recordFault_of_faulted c sub _ hf] at hregs
      rw [hregs]
      exact ⟨hf, rfl⟩

/-! ## The test of the VALID bits (60_exceptions.md R341) -/

/-- The operation commands, each with the engine whose VALID bit it tests. -/
def operations : List (Instr × Engine) :=
  [(.ilvFwd, .ilv), (.ilvRev, .ilv), (.penc, .polar), (.pdecLoad, .polar), (.pdecRun, .polar),
    (.pdec, .polar), (.gfMul, .rs), (.rsEnc, .rs), (.rsCheck, .rs), (.rsDec, .rs)]

theorem whenConfigured_of_not_valid {e : Engine} {s : State} (h : s.regs.valid e = false) (i : Instr)
    (run : State → Result) :
    whenConfigured e i s run = commandFault i .notConfigured e.notConfiguredSub s := by
  simp [whenConfigured, h]

/-- An operation command is a rule behind the test of its engine's VALID bit. -/
theorem exec_eq_whenConfigured {x : Instr × Engine} (hx : x ∈ operations) :
    ∃ run, ∀ s, exec x.1 s = whenConfigured x.2 x.1 s run := by
  revert x
  simp only [operations, List.forall_mem_cons]
  exact ⟨⟨_, fun _ => rfl⟩, ⟨_, fun _ => rfl⟩, ⟨_, fun _ => rfl⟩, ⟨_, fun _ => rfl⟩, ⟨_, fun _ => rfl⟩,
    ⟨_, fun _ => rfl⟩, ⟨_, fun _ => rfl⟩, ⟨_, fun _ => rfl⟩, ⟨_, fun _ => rfl⟩, ⟨_, fun _ => rfl⟩,
    List.forall_mem_nil _⟩

theorem exec_of_not_valid {x : Instr × Engine} (hx : x ∈ operations) {s : State}
    (h : s.regs.valid x.2 = false) :
    exec x.1 s = commandFault x.1 .notConfigured x.2.notConfiguredSub s := by
  obtain ⟨run, hrun⟩ := exec_eq_whenConfigured hx
  exact (hrun s).trans (whenConfigured_of_not_valid h _ run)

/-- The cause that a configuration command may leave in FAULT is its own. -/
theorem cause_of_whenLegal {failing : Option Byte} {i : Instr} {c : Cause} {s t : State}
    {configure : State → State}
    (h : whenLegal failing i c s (fun s => .next (configure s)) = .next t)
    (hkept : KeepsRecord s (configure s)) (hf : s.regs.faulted = false)
    (hfault : s.regs.fault = 0) (hc : c ≠ .notConfigured) :
    (t.regs.fault.extractLsb' 0 8).toNat ≠ 0x02 := by
  obtain ⟨-, ht⟩ | ⟨sub, -, rfl⟩ := whenLegal_next h
  · obtain rfl := Host.Outcome.next.inj ht
    rw [hkept.fault, hfault]
    decide
  · rw [raiseFault_regs, Regs.recordFault_of_not_faulted c sub _ hf]
    dsimp only
    rw [cause_faultWord]
    cases c with
    | notConfigured => exact absurd rfl hc
    | _ => decide

/-- Settles O12: the guard of the ten operation commands; the other five have none. -/
theorem notConfiguredFaults : Obligations.NotConfiguredFaults := by
  intro s hf
  refine ⟨fun x hx hvalid => ?_, ?_⟩
  · obtain ⟨y, hy, rfl⟩ := List.mem_map.1 (show x ∈ operations.map fun y =>
      (y.1, y.2.validBit, y.2.notConfiguredSub.toNat, (opcode y.1).toNat) from hx)
    exact faultRecorded_of_eq_commandFault _ .notConfigured _ hf (exec_of_not_valid hy hvalid)
  · simp only [List.forall_mem_cons]
    refine ⟨fun t hfault h => ?_, fun t _ h => ?_, fun t hfault h => ?_, fun t hfault h => ?_,
      fun t hfault h => ?_, List.forall_mem_nil _⟩
    · obtain rfl := Host.Outcome.next.inj ((exec_nop s).symm.trans h)
      rw [hfault]
      decide
    · obtain rfl := Host.Outcome.next.inj ((exec_sreset s).symm.trans h)
      exact (by decide : (Regs.reset.fault.extractLsb' 0 8).toNat ≠ 0x02)
    · change execIlvCfg s = .next t at h
      exact cause_of_whenLegal h (keepsRecord_ilvConfigure s) hf hfault (by decide)
    · change execPcCfg s = .next t at h
      exact cause_of_whenLegal h (keepsRecord_pcConfigure s) hf hfault (by decide)
    · change execRsCfg s = .next t at h
      exact cause_of_whenLegal h (keepsRecord_rsConfigure s) hf hfault (by decide)

/-! ## Host accesses that cannot be performed (60_exceptions.md R346) -/

theorem hostFaulted_hostFault (sub : Byte) (s : State) : HostFaulted s (hostFault sub s) sub.toNat :=
  ⟨raiseFault_of_faulted _ _ _, raiseFault_recorded _ _ _⟩

theorem mem_allRegs (r : Reg) : r ∈ allRegs := by cases r <;> decide

/-- The registers that the host cannot write: those of class RO and RO-const. -/
def readOnlyRegs : List Reg :=
  [.id, .status, .fault, .cap0, .cap1, .ilvC, .ilvOnes, .ilvNin, .ilvNout, .ilvNiter, .ilvInlen,
    .ilvOutlen, .pcLogn, .pcInitshort, .pcNnodes, .gfR, .rsMaxsyn, .rsDecstat]

theorem regOfNo_eq_none {no : Byte} (h : no.toNat ∉ allRegs.map fun r => r.no.toNat) :
    regOfNo no = none := by
  cases hr : regOfNo no with
  | none => rfl
  | some r =>
    obtain rfl := no_of_regOfNo hr
    exact absurd (List.mem_map_of_mem (mem_allRegs r)) h

theorem hostRegRead_of_unknown {no : Byte} (h : regOfNo no = none) (s : State) :
    hostRegRead no s = (hostFault 1 s).returning 0 := by
  simp [hostRegRead, h]

theorem hostRegWrite_of_unknown {no : Byte} (h : regOfNo no = none) (v : Word64) (s : State) :
    hostRegWrite no v s = .next (hostFault 1 s) := by
  simp [hostRegWrite, h]

theorem hostRegWrite_of_readOnly {r : Reg} (h : r ∈ readOnlyRegs) (v : Word64) (s : State) :
    hostRegWrite r.no v s = .next (hostFault 2 s) := by
  have hcls : r.cls = .ro ∨ r.cls = .roConst := by revert r; decide
  obtain hro | hconst := hcls
  · simp [hostRegWrite, regOfNo_no, hro]
  · simp [hostRegWrite, regOfNo_no, hconst]

theorem no_of_spaceOfNo {n : Nat} {sp : Space} (h : spaceOfNo n = some sp) : n = sp.no := by
  unfold spaceOfNo at h
  split at h <;> first | (obtain rfl := Option.some.inj h; rfl) | exact absurd h (by simp)

theorem spaceOfNo_eq_none {n : Nat} (h : n < 1 ∨ 17 < n) : spaceOfNo n = none := by
  cases hsp : spaceOfNo n with
  | none => rfl
  | some sp =>
    have hno : 1 ≤ sp.no ∧ sp.no ≤ 17 := by cases sp <;> decide
    have := no_of_spaceOfNo hsp
    omega

theorem hostBufRead_of_unknown {n : Nat} (h : spaceOfNo n = none) (i : Nat) (s : State) :
    hostBufRead n i s = (hostFault 3 s).returning 0 := by
  simp [hostBufRead, h]

theorem hostBufWrite_of_unknown {n : Nat} (h : spaceOfNo n = none) (i : Nat) (v : Word64) (s : State) :
    hostBufWrite n i v s = hostFault 3 s := by
  simp [hostBufWrite, h]

theorem hostBufWrite_of_table {sp : Space} (h : sp.kind = .table) (i : Nat) (v : Word64) (s : State) :
    hostBufWrite sp.no i v s = hostFault 5 s := by
  simp [hostBufWrite, spaceOfNo_no, h]

theorem hostBufRead_of_outside {sp : Space} {i : Nat} {s : State} (h : sp.capacity s.par ≤ i) :
    hostBufRead sp.no i s = (hostFault 4 s).returning 0 := by
  simp [hostBufRead, spaceOfNo_no, h]

theorem hostBufWrite_of_outside {sp : Space} {i : Nat} {s : State} (hk : sp.kind = .data)
    (h : sp.capacity s.par ≤ i) (v : Word64) : hostBufWrite sp.no i v s = hostFault 4 s := by
  simp [hostBufWrite, spaceOfNo_no, hk, h]

theorem kind_of_mem_data {sp : Space} : sp ∈ [Space.iw, .ib, .pi, .po, .di, .llr, .rb] → sp.kind = .data := by
  cases sp <;> decide

theorem kind_of_mem_table {sp : Space} :
    sp ∈ [Space.isch, .beta, .dout, .bhat, .didx, .tree, .syn, .glog, .galog, .gen] →
      sp.kind = .table := by
  cases sp <;> decide

/-- Settles O15, clause by clause in the order of 60_exceptions.md R346. -/
theorem hostAccessFaults : Obligations.HostAccessFaults := by
  intro s
  refine ⟨fun no hno => ?_, fun no hno => ?_, fun n hn i => ?_, fun sp hsp i => ?_, fun sp i hi => ?_,
    hostStep_regRead .cmd s, fun sp i hi => ?_⟩
  · have hnone : regOfNo no = none := regOfNo_eq_none hno
    exact ⟨_, hostFaulted_hostFault 1 s, congrArg _ (hostRegRead_of_unknown hnone s),
      fun v => hostRegWrite_of_unknown hnone v s⟩
  · obtain ⟨r, hr, heq⟩ := List.mem_map.1
      (show no.toNat ∈ readOnlyRegs.map fun r => r.no.toNat from hno)
    obtain rfl := BitVec.eq_of_toNat_eq heq
    exact ⟨_, hostFaulted_hostFault 2 s, fun v => hostRegWrite_of_readOnly hr v s⟩
  · have hnone := spaceOfNo_eq_none hn
    exact ⟨_, hostFaulted_hostFault 3 s, congrArg _ (hostBufRead_of_unknown hnone i s),
      fun v => congrArg _ (hostBufWrite_of_unknown hnone i v s)⟩
  · exact ⟨_, hostFaulted_hostFault 5 s,
      fun v => congrArg _ (hostBufWrite_of_table (kind_of_mem_table hsp) i v s)⟩
  · exact ⟨_, hostFaulted_hostFault 4 s, congrArg _ (hostBufRead_of_outside hi),
      fun hsp v => congrArg _ (hostBufWrite_of_outside (kind_of_mem_data hsp) hi v)⟩
  · exact ⟨⟨_, hostStep_bufRead hi, (readElem_state sp i s).regs⟩,
      fun hsp v => ⟨_, hostStep_bufWrite (kind_of_mem_data hsp) hi v, rfl⟩⟩

end Sys2Proof.Machine

/-! PROOFS. The state after reset and the step: what the host reads right after reset and what the configuration
commands answer there (70_reset_and_hazards.md R371), that this state is good (10_state.md R25, R26), and that a step
whose input writes a command word to CMD is that command (R386, 60_exceptions.md R348). -/

namespace Sys2Proof.Machine

/-! ## The state after reset (70_reset_and_hazards.md R371) -/

theorem State.resetOf_mem (p : Params) : (State.resetOf p).mem = Memory.unspecified := rfl

/-- There is nothing for a reset to undo. -/
theorem resetBlock_resetOf (p : Params) : resetBlock (State.resetOf p) = State.resetOf p := rfl

theorem elem?_resetOf (p : Params) (sp : Space) (i : Nat) : (State.resetOf p).elem? sp i = none :=
  resetBlock_resetOf p ▸ elem?_resetBlock (State.resetOf p) sp i

theorem resetOf_not_faulted (p : Params) : (State.resetOf p).regs.faulted = false :=
  Bool.eq_false_iff.2 not_faulted_reset

/-- With legal structural parameters the state is good: nothing is written and no VALID bit is set. -/
theorem inv_resetOf {p : Params} (hpar : p.wf = true) : Inv (State.resetOf p) :=
  .of_described hpar ⟨Memory.unspecified_wf, elementsFit_unspecified (State.resetOf_mem p)⟩
    statusLegal_reset fun e hv => absurd hv (valid_reset e)

theorem Params.default_wf : Params.default.wf = true := by decide

/-- Settles O58: the defaults are legal, so both parts are `inv_resetOf`. -/
theorem resetIsGood : Obligations.ResetIsGood :=
  ⟨inv_resetOf Params.default_wf, fun _ => inv_resetOf⟩

/-! ## The first host access after reset -/

/-- The registers whose value after reset is the same in every block: all but CAP0 and CAP1, which show the structural
parameters (10_state.md R28). -/
def fixedRegs : List Reg := allRegs.filter fun r => r != .cap0 && r != .cap1

theorem hostStep_regRead_resetOf (r : Reg) (p : Params) :
    hostStep (.regRead r.no) (State.resetOf p) =
      .next ((State.resetOf p).returning (r.read p Regs.reset)) :=
  hostStep_regRead r (State.resetOf p)

theorem read_capabilities (p : Params) (g g' : Regs) :
    Reg.read p g .cap0 = Reg.read p g' .cap0 ∧ Reg.read p g .cap1 = Reg.read p g' .cap1 := ⟨rfl, rfl⟩

/-- With BS = 0 row 1 of 41_interleaver.md R132 fails. -/
theorem ilvCfg_faults_at_reset (p : Params) : ∃ t,
    exec .ilvCfg (State.resetOf p) = .next t ∧ FaultRecorded (State.resetOf p) t 0x10 1 0x10 :=
  ilvCfgRefusesTheFirstFailingCheck _ 1 (resetOf_not_faulted p) (show (0 : Nat) = 0 from rfl)
    fun _ h1 hlt => absurd hlt (Nat.not_lt.2 h1)

/-- With N = 0, below 8 and no power of two, row 1 of 42_polar_construct.md R172 fails. -/
theorem pcCfg_faults_at_reset (p : Params) : ∃ t,
    exec .pcCfg (State.resetOf p) = .next t ∧ FaultRecorded (State.resetOf p) t 0x20 1 0x20 :=
  pcCfgRefusesTheFirstFailingCheck _ 1 (resetOf_not_faulted p)
    ((pcFails_block_iff p 0 ..).2 (.inl (by decide))) fun _ h1 hlt => absurd hlt (Nat.not_lt.2 h1)

/-- With gm = 0, below 2, row 1 of 45_gf_rs.md R272 fails. -/
theorem rsCfg_faults_at_reset (p : Params) : ∃ t,
    exec .rsCfg (State.resetOf p) = .next t ∧ FaultRecorded (State.resetOf p) t 0x30 1 0x30 :=
  rsCfgRefusesTheFirstFailingCheck _ 1 (resetOf_not_faulted p) (.inl (show 0 < 2 by decide))
    fun _ h1 hlt => absurd hlt (Nat.not_lt.2 h1)

/-- Settles O6: the list of the statement is the register map but CAP0 and CAP1, read register by register. -/
theorem resetStateIsTheSpecs : Obligations.ResetStateIsTheSpecs := by
  refine ⟨rfl, fun p => ⟨fun x hx => ?_, fun g => read_capabilities p g _, elem?_resetOf p, fun x hx => ?_⟩⟩
  · obtain ⟨r, -, rfl⟩ := List.mem_map.1
      (show x ∈ fixedRegs.map fun r => (r.no, r.read p Regs.reset) from hx)
    exact hostStep_regRead_resetOf r p
  · simp only [List.mem_cons, List.not_mem_nil, or_false] at hx
    obtain rfl | rfl | rfl := hx
    · exact ilvCfg_faults_at_reset p
    · exact pcCfg_faults_at_reset p
    · exact rsCfg_faults_at_reset p

/-! ## The step (70_reset_and_hazards.md R386) -/

theorem step_of_pending {s : State} {x : HostInput} {rest : List HostInput} (h : s.pending = x :: rest) :
    step s = hostStep x { s with pending := rest } := by
  obtain ⟨hidle, -⟩ | ⟨y, tail, hpending, hstep⟩ := step_cases s
  · exact absurd (hidle.symm.trans h) (List.cons_ne_nil x rest).symm
  · obtain ⟨rfl, rfl⟩ := List.cons.inj (hpending.symm.trans h)
    exact hstep

theorem decodeTableWord_eq_some_iff {n w : Nat} {i : Instr} :
    decodeTableWord n w = some i ↔ decode (BitVec.ofNat 64 (w % 2 ^ n)) = .ok i := by
  unfold decodeTableWord
  cases decode (BitVec.ofNat 64 (w % 2 ^ n)) with
  | error e => simp [Except.toOption]
  | ok j => simp [Except.toOption]

/-- The input that comes next is the write to CMD, and FAULTED does not hold the command back
(60_exceptions.md R348). -/
theorem step_of_command {s : State} {v : Word64} {i : Instr} {rest : List HostInput}
    (hpending : s.pending = .regWrite 0x03 v :: rest) (hf : s.regs.faulted = false)
    (hdecode : decode v = .ok i) : step s = exec i { s with pending := rest } := by
  rw [step_of_pending hpending, hostStep_regWrite_cmd]
  exact issueCommand_of_decode_ok hf hdecode

/-- Settles O7: `withFetchWord` puts the write to CMD in front, and the step takes it away again. -/
theorem stepRunsTheDecodedCommand : Obligations.StepRunsTheDecodedCommand :=
  ⟨fun _ _ _ _ => step_of_command, fun s n w _ hf hdecode =>
    step_of_command (s.withFetchWord_pending n w) hf (decodeTableWord_eq_some_iff.1 hdecode)⟩

end Sys2Proof.Machine
